-- ==== Sys2Proof/Machine/Table.lean ====
section
/-! DEFINITION. A sparse table: plain data keyed by a number, every unlisted key reading as a fixed default. It holds the
pin table, the banks, the pulls of a bank and the writable bits of the configuration. Its one canonical form: keys strictly
rising, no entry equal to the default, so that equal tables are equal data. -/

namespace Sys2Proof.Machine

/-- Entries (key, value); a key not listed reads as the table's default. -/
abbrev Table (α : Type) := List (Nat × α)

/-- The value at a key: the first entry for it, else the default `d`. -/
def Table.get {α : Type} (d : α) : Table α → Nat → α
  | [], _ => d
  | (a, x) :: t, k => if k = a then x else Table.get d t k

/-- Put an entry at its place by key, replacing the entry that stands there. -/
def Table.put {α : Type} : Table α → Nat → α → Table α
  | [], k, v => [(k, v)]
  | (a, x) :: t, k, v =>
    if k = a then (k, v) :: t
    else if k < a then (k, v) :: (a, x) :: t
    else (a, x) :: Table.put t k v

/-- Write a key; writing the default removes the entry. -/
def Table.set {α : Type} [DecidableEq α] (d : α) (t : Table α) (k : Nat) (v : α) : Table α :=
  if v = d then t.filter (fun e => e.1 != k) else Table.put t k v

/-- The keys rise strictly. -/
def Table.rising {α : Type} : Table α → Bool
  | [] => true
  | (a, _) :: t => t.all (fun e => a < e.1) && Table.rising t

/-- The canonical form. -/
def Table.wf {α : Type} [DecidableEq α] (d : α) (t : Table α) : Bool :=
  Table.rising t && t.all (fun e => !decide (e.2 = d))

end Sys2Proof.Machine
end

