-- ==== Sys2Proof/Word.lean ====
section
/-! DEFINITION. The word types of the block (00_scope.md R6): a command word and a bank register are 32 bits, a byte on the
bus or on DIN is 8 bits, a conversion sample is 12 bits, a level is one bit. -/

namespace Sys2Proof

/-- A command word (30_encoding.md R60) or a bank register (20_memory.md R42): 32 bits, bit 0 the least significant. -/
abbrev Word := BitVec 32

/-- A byte for the bus, a byte for DIN, a control byte: 8 bits. -/
abbrev Byte := BitVec 8

/-- A ConversionSample (10_state.md R22): 12 bits; an 8-bit conversion is zero-extended. -/
abbrev Sample := BitVec 12

/-- A physical line level (00_scope.md R6): `false` is low (0), `true` is high (1). -/
abbrev Level := Bool

/-- A logical pin id: a non-negative integer (20_memory.md R40). -/
abbrev PinId := Nat

end Sys2Proof
end

