-- ==== Sys2Proof/Config.lean ====
section
/-! DEFINITION. The configuration of the block (00_scope.md R5): every parameter the spec leaves to the board, the SoC or
the attached device is a field of `Config`; every parameter with a fixed value is a constant; what the spec leaves open at
run time (inputs, gaps of the clock, uninterpreted codes) is an opaque constant, a FREE VALUE. -/

namespace Sys2Proof

open Machine

/-- PinDescriptor (00_scope.md, glossary; `P_REGMAP`): where a logical id sits. Immutable. -/
structure PinDescriptor where
  id : PinId
  bank : Nat
  bit : Fin 32
  padControl : Option Nat
  mux : Option Nat
deriving DecidableEq, Repr

/-- `P_BANK_FORMULA`: the default `id div 32 + 1`, `id mod 32`, or a SoC-specific equivalent given by the map itself. -/
inductive BankFormula where
  | div32
  | socSpecific
deriving DecidableEq, Repr

/-- `P_WRITE_STYLE`: separate write-1-to-set and write-1-to-clear registers, or one data register. -/
inductive WriteStyle where
  | setClear
  | singleData
deriving DecidableEq, Repr

/-- `P_FSEL_WIDTH`: width of a function-select field. -/
inductive FselWidth where
  | three
  | one
deriving DecidableEq, Repr

/-- `P_PULL_STYLE`: the legacy shared latch, or no described mechanism. -/
inductive PullStyle where
  | sharedLatch
  | absent
deriving DecidableEq, Repr

/-- `P_WRITABLE`: which registers of a pin are writable (decision D15). -/
structure Writable where
  dir : Bool
  level : Bool
  pull : Bool
deriving DecidableEq, Repr

/-- The default of `P_WRITABLE`: all three true. -/
def Writable.all : Writable := ⟨true, true, true⟩

/-- `P_BUS`, the BusConnection: the logical id of each role. `rd` and `rst` count only when `P_HAS_RD`, `P_HAS_RST` say
that the wiring exposes them (log 19). -/
structure BusConnection where
  cs : PinId
  wr : PinId
  rs : PinId
  rd : PinId
  rst : PinId
  db0 : PinId
  db1 : PinId
  db2 : PinId
  db3 : PinId
  db4 : PinId
  db5 : PinId
  db6 : PinId
  db7 : PinId
deriving DecidableEq, Repr

/-- DB0 to DB7 in that order. -/
def BusConnection.db (b : BusConnection) : List PinId :=
  [b.db0, b.db1, b.db2, b.db3, b.db4, b.db5, b.db6, b.db7]

/-- `P_SER`, the SerialConnection: the logical id of each role. -/
structure SerialConnection where
  clk : PinId
  din : PinId
  dout : PinId
  tcs : PinId
  busy : Option PinId
  penirq : Option PinId
deriving DecidableEq, Repr

/-- The configuration record: the parameters of 00_scope.md R5 that are arguments. Times are in nanoseconds (log 18). -/
structure Config where
  /-- `P_REGMAP` -/
  regmap : List PinDescriptor
  /-- `P_BANK_FORMULA` -/
  bankFormula : BankFormula
  /-- `P_WRITE_STYLE` -/
  writeStyle : WriteStyle
  /-- `P_FSEL_WIDTH`; no rule reads it (conflict C8) -/
  fselWidth : FselWidth
  /-- `P_PULL_STYLE` -/
  pullStyle : PullStyle
  /-- `P_BANK_WINDOW` in bytes, an argument; no rule reads it (O5, log 27) -/
  bankWindow : Nat
  /-- `P_WRITABLE`, by pin id; an unlisted id has the default -/
  writable : Table Writable
  /-- `P_EDGE_SUPPORT`; R5 gives it the value false (decision D16), which `Config.wellFormed` asks for -/
  edgeSupport : Bool
  /-- `P_BUS` -/
  bus : BusConnection
  /-- `P_HAS_RD` -/
  hasRd : Bool
  /-- `P_HAS_RST` -/
  hasRst : Bool
  /-- `P_SER` -/
  ser : SerialConnection
  /-- `T_WR_LOW` -/
  tWrLow : Nat
  /-- `T_WR_HIGH` -/
  tWrHigh : Nat
  /-- `T_RST_LOW` -/
  tRstLow : Nat
  /-- `T_RST_SETTLE` -/
  tRstSettle : Nat
  /-- `T_ADC_SETTLE` -/
  tAdcSettle : Nat
  /-- `T_PULL` -/
  tPull : Nat
  /-- `P_W` -/
  window : Nat
  /-- `P_Y_CHECK`; R5 gives it the value true (decision D11), which `Config.wellFormed` asks for -/
  yCheck : Bool
  /-- `P_CTRL_X` -/
  ctrlX : Byte
  /-- `P_CTRL_Y` -/
  ctrlY : Byte
deriving DecidableEq, Repr

/-- `P_PINS_PER_BANK`. -/
def pinsPerBank : Nat := 32

/-- `P_DROP`: samples dropped at each end of the sorted window. -/
def pDrop : Nat := 2

/-- `P_MIN_REMAINDER` (decision D9). -/
def pMinRemainder : Nat := 1

/-- `P_JITTER`: the jitter threshold in raw ADC counts. -/
def pJitter : Nat := 50

/-- `P_X_MIN`: least accepted X. -/
def pXMin : Nat := 100

/-- `P_Y_MAX`: greatest accepted Y. -/
def pYMax : Nat := 4000

/-- `P_ACTIVE_LOW`: no role pin is inverted (decision D12). -/
def pActiveLow : Bool := false

/-- Microseconds in the unit of durations, `P_DUR_UNIT` = nanosecond (decision D18). -/
def microseconds (t : Nat) : Nat := 1000 * t

/-- The descriptor the default `P_BANK_FORMULA` gives an id (20_memory.md R41). -/
def PinDescriptor.ofId (id : PinId) : PinDescriptor :=
  { id := id, bank := id / pinsPerBank + 1, bit := ⟨id % 32, Nat.mod_lt id (by decide)⟩, padControl := none, mux := none }

/-- The descriptor of a registered id; `none` when the id is outside `P_REGMAP`. -/
def Config.find (c : Config) (id : PinId) : Option PinDescriptor :=
  c.regmap.find? (fun d => d.id == id)

/-- The descriptor of the id at a bank and a bit index, where the map has one (20_memory.md R41). -/
def Config.pinAt (c : Config) (bank bit : Nat) : Option PinDescriptor :=
  c.regmap.find? (fun d => d.bank == bank && d.bit.val == bit)

/-- `P_WRITABLE[id]`. -/
def Config.writableOf (c : Config) (id : PinId) : Writable :=
  Table.get Writable.all c.writable id

/-- The output roles of the parallel bus in the order of 41_parallel_bus.md R100: CS, WR, RS, DB0..DB7, and RD when wired. -/
def Config.busOuts (c : Config) : List PinId :=
  [c.bus.cs, c.bus.wr, c.bus.rs] ++ c.bus.db ++ (if c.hasRd then [c.bus.rd] else [])

/-- The output roles of the serial shifter (42_serial_adc.md R120). -/
def Config.serialOuts (c : Config) : List PinId := [c.ser.clk, c.ser.din, c.ser.tcs]

/-- The input role of the serial shifter (42_serial_adc.md R120). -/
def Config.serialIns (c : Config) : List PinId := [c.ser.dout]

/-- Every role pin of both connections. -/
def Config.rolePins (c : Config) : List PinId :=
  c.busOuts ++ (if c.hasRst then [c.bus.rst] else []) ++ c.serialOuts ++ c.serialIns ++ c.ser.busy.toList ++ c.ser.penirq.toList

/-- The reference configuration of 95_test_vectors.md section 0. DESIGN CHOICE where that section and R5 give no value:
`T_RST_LOW` is at its lower bound 0, and `P_BANK_WINDOW` is 4096 bytes, one of the two sizes R5 calls typical (log 2). -/
def Config.reference : Config :=
  { regmap := (List.range 64).map PinDescriptor.ofId
    bankFormula := .div32
    writeStyle := .setClear
    fselWidth := .three
    pullStyle := .sharedLatch
    bankWindow := 4096
    writable := []
    edgeSupport := false
    bus := { cs := 8, wr := 9, rs := 10, rd := 11, rst := 12,
             db0 := 16, db1 := 17, db2 := 18, db3 := 19, db4 := 20, db5 := 21, db6 := 22, db7 := 23 }
    hasRd := true
    hasRst := true
    ser := { clk := 32, din := 33, dout := 34, tcs := 35, busy := none, penirq := none }
    tWrLow := microseconds 5
    tWrHigh := microseconds 5
    tRstLow := 0
    tRstSettle := microseconds 10
    tAdcSettle := microseconds 6
    tPull := microseconds 1
    window := 10
    yCheck := true
    ctrlX := 0xD0#8
    ctrlY := 0x90#8 }

/-- The pull modes PINPULL takes (40_pin_layer.md R87). -/
inductive PullMode where
  | off
  | down
  | up
deriving DecidableEq, Repr

/-- FREE VALUE (O13, U2, U3, U7): the level a line shows at the draw of this index, where the outside has supplied none
(log 6). -/
opaque Config.freeLevel : Nat → Level

/-- FREE VALUE (O13, U2, U3, U7): the levels the undriven lines of a bank show at the draw of this index, beside the one line
that the operation samples. DESIGN CHOICE: at one draw the banks share it (log 17). -/
opaque Config.freeLines : Nat → Word

/-- FREE VALUE (10_state.md R27, U13): by how much the clock runs beyond the stated bound at the draw of this index (log 7). -/
opaque Config.freeGap : Nat → Nat

/-- FREE VALUE (O12, U8): whether `MapWindows()` succeeds (log 8). -/
opaque Config.freeMapping : Bool

/-- FREE VALUE (U24): how many polls of a line pass before the awaited level shows; `none` when it never does (log 9). -/
opaque Config.freePolls : Nat → Option Nat

/-- FREE VALUE (U25): `PullCode(m)`, the platform's bit pattern of a pull mode, uninterpreted (log 13). -/
opaque Config.pullCode : PullMode → Word

end Sys2Proof
end

