-- ==== Sys2Proof/Syntax.lean ====
section
/-! DEFINITION. The nineteen operations of the block, one constructor per row of the opcode table (30_encoding.md R62). -/

namespace Sys2Proof

/-- The direction operand of PINDIR: `arg` 0 = In, 1 = Out (30_encoding.md R61). -/
inductive IoDir where
  | input
  | output
deriving DecidableEq, Repr

/-- An operation with its operands (30_encoding.md R62, R63). -/
inductive Instr where
  /-- 0x01: the one-time memory-window initialisation (R81) -/
  | sysinit
  /-- 0x02: `set_direction(pin, In|Out)` (R83) -/
  | pindir (pin : PinId) (dir : IoDir)
  /-- 0x03: `write(pin, level)` (R84) -/
  | pinwr (pin : PinId) (level : Level)
  /-- 0x04: `read(pin)` (R85) -/
  | pinrd (pin : PinId)
  /-- 0x05: `pull_mode(pin, Up|Down|Off)` (R87) -/
  | pinpull (pin : PinId) (mode : PullMode)
  /-- 0x06: `time_pulse(pin, target_level)` (R88) -/
  | pintpulse (pin : PinId) (target : Level)
  /-- 0x07: `close(pin)` (R89) -/
  | pinclose (pin : PinId)
  /-- 0x08: edge-watch (R90) -/
  | pinwatch (pin : PinId)
  /-- 0x10: `write_command(byte)` (R101) -/
  | wrcmd (byte : Byte)
  /-- 0x11: `write_data(byte)` (R102) -/
  | wrdat8 (byte : Byte)
  /-- 0x12: `write_data(word)`, `write_data16` (R103) -/
  | wrdat16 (word : BitVec 16)
  /-- 0x13: the hardware reset pulse (R104) -/
  | rstpulse
  /-- 0x14: one fixed delay, in microseconds (R105) -/
  | delay (micros : Nat)
  /-- 0x20: `start()` (R121) -/
  | sstart
  /-- 0x21: `shift_out(byte)` (R122) -/
  | shout (byte : Byte)
  /-- 0x22: `shift_in(n_bits)` (R123) -/
  | shin (bits : Nat)
  /-- 0x23: `read_channel(control_byte)` (R124) -/
  | rdch (control : Byte)
  /-- 0x30: the noise filter (R143) -/
  | filt (control : Byte)
  /-- 0x31: `resolve_coordinate` (R145) -/
  | resolve
deriving DecidableEq, Repr

end Sys2Proof
end

