-- ==== Sys2Proof/WellFormed.lean ====
section
/-! DEFINITION. What the command word can carry (30_encoding.md R61, R63) and what a configuration must satisfy to be built
(00_scope.md R5, 10_state.md R32, 40_pin_layer.md R93, 30_encoding.md R67). -/

namespace Sys2Proof

/-- A pin id fits the `pin` field, 16 bits. -/
def wellFormedPin (id : PinId) : Bool := id < 2 ^ 16

/-- SHIN shifts 8 or 12 bits (30_encoding.md R63, R66 (d)). -/
def legalBitCount (n : Nat) : Bool := n == 8 || n == 12

/-- The operands of an operation fit its command word and are legal there. -/
def Instr.wellFormed : Instr → Bool
  | .sysinit => true
  | .pindir pin _ => wellFormedPin pin
  | .pinwr pin _ => wellFormedPin pin
  | .pinrd pin => wellFormedPin pin
  | .pinpull pin _ => wellFormedPin pin
  | .pintpulse pin _ => wellFormedPin pin
  | .pinclose pin => wellFormedPin pin
  | .pinwatch pin => wellFormedPin pin
  | .wrcmd _ => true
  | .wrdat8 _ => true
  | .wrdat16 _ => true
  | .rstpulse => true
  | .delay micros => micros < 2 ^ 24
  | .sstart => true
  | .shout _ => true
  | .shin bits => legalBitCount bits
  | .rdch _ => true
  | .filt _ => true
  | .resolve => true

/-- No value stands twice in a list. -/
def allDistinct {α : Type} [BEq α] : List α → Bool
  | [] => true
  | a :: l => !l.contains a && allDistinct l

/-- Each id has one descriptor. -/
def Config.idsDistinct (c : Config) : Bool := allDistinct (c.regmap.map (·.id))

/-- "no two distinct logical ids map to the same (bank, bit)" (20_memory.md R41). -/
def Config.linesDistinct (c : Config) : Bool := allDistinct (c.regmap.map fun d => (d.bank, d.bit))

/-- Under the default formula each descriptor is the one the formula gives (20_memory.md R41). -/
def Config.followsFormula (c : Config) : Bool :=
  c.bankFormula == .socSpecific ||
    c.regmap.all fun d => d.bank == (PinDescriptor.ofId d.id).bank && d.bit == (PinDescriptor.ofId d.id).bit

/-- Every role pin is registered (40_pin_layer.md R93). -/
def Config.rolesRegistered (c : Config) : Bool := c.rolePins.all fun id => (c.find id).isSome

/-- No pin carries two roles (10_state.md R32, decision D20). -/
def Config.rolesDistinct (c : Config) : Bool := allDistinct c.rolePins

/-- `P_CTRL_X` and `P_CTRL_Y` have the start bit (30_encoding.md R67, decision D24). -/
def Config.controlBytesLegal (c : Config) : Bool := c.ctrlX.getLsbD 7 && c.ctrlY.getLsbD 7

/-- `P_W` is at most 255 (decision D19); a window below 3 is refused by FILT and RESOLVE, not here (30_encoding.md R66 (f)). -/
def Config.windowLegal (c : Config) : Bool := c.window ≤ 255

/-- The delays keep the stated lower bounds (70_reset_and_hazards.md R201). -/
def Config.delaysLegal (c : Config) : Bool :=
  microseconds 5 ≤ c.tWrLow && microseconds 5 ≤ c.tWrHigh && microseconds 10 ≤ c.tRstSettle && microseconds 1 ≤ c.tPull

/-- The parameters that are fields and that R5 gives a value have it: `P_EDGE_SUPPORT` is false (decision D16), `P_Y_CHECK` is
true (decision D11). -/
def Config.fixedLegal (c : Config) : Bool := !c.edgeSupport && c.yCheck

/-- `P_WRITABLE` is in the canonical form of a table. -/
def Config.writableLegal (c : Config) : Bool := Machine.Table.wf Writable.all c.writable

/-- A configuration the block accepts when it is built. -/
def Config.wellFormed (c : Config) : Bool :=
  c.idsDistinct && c.linesDistinct && c.followsFormula && c.rolesRegistered && c.rolesDistinct &&
    c.controlBytesLegal && c.windowLegal && c.delaysLegal && c.fixedLegal && c.writableLegal

end Sys2Proof
end

