-- ==== Sys2Proof/Decode.lean ====
section
/-! DEFINITION. The command word (30_encoding.md R60 to R63, R66): the decoder, total on 32-bit words, answering `none` for
every word rule R66 (a) to (d) refuses; the encoder; the opcode table as masks and patterns. -/

namespace Sys2Proof

/-- `op`, bits 31..24 (R60). -/
def opField (w : Word) : Nat := (w.extractLsb' 24 8).toNat

/-- `arg`, bits 23..16 (R61). -/
def argField (w : Word) : Nat := (w.extractLsb' 16 8).toNat

/-- `pin` or `imm16`, bits 15..0 (R61). -/
def lowField (w : Word) : BitVec 16 := w.extractLsb' 0 16

/-- `imm8`, bits 7..0 (R61). -/
def imm8Field (w : Word) : Byte := w.extractLsb' 0 8

/-- Bits 23..8, which format B shows as 0 (R60). -/
def middleField (w : Word) : Nat := (w.extractLsb' 8 16).toNat

/-- `imm24`, bits 23..0 (R61). -/
def imm24Field (w : Word) : Nat := (w.extractLsb' 0 24).toNat

/-- Format N: bits 23..0 must be zero (R60, R66 (b)). -/
def decodeN (w : Word) (i : Instr) : Option Instr :=
  if imm24Field w = 0 then some i else none

/-- Format B: bits 23..8 must be zero; the operand is `imm8` (R60, R66 (b)). -/
def decodeB (w : Word) (f : Byte → Instr) : Option Instr :=
  if middleField w = 0 then some (f (imm8Field w)) else none

/-- SHIN: format B with `imm8` 8 or 12 (R66 (d)). -/
def decodeShin (w : Word) : Option Instr :=
  if middleField w = 0 ∧ legalBitCount (imm8Field w).toNat then some (.shin (imm8Field w).toNat) else none

/-- Format H: bits 23..16 must be zero; the operand is `imm16` (R60, R66 (b)). -/
def decodeH (w : Word) (f : BitVec 16 → Instr) : Option Instr :=
  if argField w = 0 then some (f (lowField w)) else none

/-- Format P with `arg` 0 (PINRD, PINCLOSE, PINWATCH; R66 (c)). -/
def decodeP0 (w : Word) (f : PinId → Instr) : Option Instr :=
  if argField w = 0 then some (f (lowField w).toNat) else none

/-- A direction in `arg`: 0 = In, 1 = Out (R61). -/
def dirOfArg : Nat → Option IoDir
  | 0 => some .input
  | 1 => some .output
  | _ => none

/-- A level in `arg`: 0 or 1 (R61). -/
def levelOfArg : Nat → Option Level
  | 0 => some false
  | 1 => some true
  | _ => none

/-- A pull mode in `arg`: 0 = Off, 1 = Down, 2 = Up (R61). -/
def pullOfArg : Nat → Option PullMode
  | 0 => some .off
  | 1 => some .down
  | 2 => some .up
  | _ => none

/-- Format P with a small operand in `arg`; other values of `arg` are refused (R66 (c)). -/
def decodeP {α : Type} (w : Word) (operand : Nat → Option α) (f : PinId → α → Instr) : Option Instr :=
  (operand (argField w)).map (f (lowField w).toNat)

/-- The decoder: `op` selects the operation and its format (R60, R62); `none` is R66 (a) to (d). -/
def decode (w : Word) : Option Instr :=
  match opField w with
  | 0x01 => decodeN w .sysinit
  | 0x02 => decodeP w dirOfArg .pindir
  | 0x03 => decodeP w levelOfArg .pinwr
  | 0x04 => decodeP0 w .pinrd
  | 0x05 => decodeP w pullOfArg .pinpull
  | 0x06 => decodeP w levelOfArg .pintpulse
  | 0x07 => decodeP0 w .pinclose
  | 0x08 => decodeP0 w .pinwatch
  | 0x10 => decodeB w .wrcmd
  | 0x11 => decodeB w .wrdat8
  | 0x12 => decodeH w .wrdat16
  | 0x13 => decodeN w .rstpulse
  | 0x14 => some (.delay (imm24Field w))
  | 0x20 => decodeN w .sstart
  | 0x21 => decodeB w .shout
  | 0x22 => decodeShin w
  | 0x23 => decodeB w .rdch
  | 0x30 => decodeB w .filt
  | 0x31 => decodeN w .resolve
  | _ => none

/-- The instruction a table row's bits stand for: every row is one 32-bit command word. -/
def decodeTableWord (nbits w : Nat) : Option Instr :=
  if nbits ≤ 32 then decode (BitVec.ofNat 32 (w % 2 ^ nbits)) else none

/-- A word of format N, B or T: `op`, then 24 bits. -/
def word24 (op : Byte) (low : BitVec 24) : Word := op ++ low

/-- A word of format P or H: `op`, `arg`, then 16 bits. -/
def word16 (op arg : Byte) (low : BitVec 16) : Word := op ++ (arg ++ low)

/-- `arg` of a direction (R61). -/
def argOfDir : IoDir → Byte
  | .input => 0#8
  | .output => 1#8

/-- `arg` of a level (R61). -/
def argOfLevel (v : Level) : Byte := if v then 1#8 else 0#8

/-- `arg` of a pull mode (R61). -/
def argOfPull : PullMode → Byte
  | .off => 0#8
  | .down => 1#8
  | .up => 2#8

/-- `pin` of a logical id that fits it. -/
def pinBits (id : PinId) : BitVec 16 := BitVec.ofNat 16 id

/-- The command word of an operation (R60 to R63). -/
def encode : Instr → Word
  | .sysinit => word24 0x01#8 0#24
  | .pindir pin d => word16 0x02#8 (argOfDir d) (pinBits pin)
  | .pinwr pin v => word16 0x03#8 (argOfLevel v) (pinBits pin)
  | .pinrd pin => word16 0x04#8 0#8 (pinBits pin)
  | .pinpull pin m => word16 0x05#8 (argOfPull m) (pinBits pin)
  | .pintpulse pin t => word16 0x06#8 (argOfLevel t) (pinBits pin)
  | .pinclose pin => word16 0x07#8 0#8 (pinBits pin)
  | .pinwatch pin => word16 0x08#8 0#8 (pinBits pin)
  | .wrcmd b => word24 0x10#8 (b.setWidth 24)
  | .wrdat8 b => word24 0x11#8 (b.setWidth 24)
  | .wrdat16 v => word16 0x12#8 0#8 v
  | .rstpulse => word24 0x13#8 0#24
  | .delay t => word24 0x14#8 (BitVec.ofNat 24 t)
  | .sstart => word24 0x20#8 0#24
  | .shout b => word24 0x21#8 (b.setWidth 24)
  | .shin n => word24 0x22#8 (BitVec.ofNat 24 n)
  | .rdch c => word24 0x23#8 (c.setWidth 24)
  | .filt c => word24 0x30#8 (c.setWidth 24)
  | .resolve => word24 0x31#8 0#24

/-- A row of the opcode table (R62): a word belongs to it when it agrees with the pattern under the mask and has none of the
excluded patterns of `arg` or `imm8`. -/
structure OpcodeRow where
  mnemonic : String
  pattern : Word
  mask : Word
deriving DecidableEq, Repr

/-- The rows of the opcode table with their match and mask (R62). -/
def opcodeTable : List OpcodeRow :=
  [⟨"SYSINIT", 0x01000000#32, 0xFFFFFFFF#32⟩,
   ⟨"PINDIR", 0x02000000#32, 0xFFFE0000#32⟩,
   ⟨"PINWR", 0x03000000#32, 0xFFFE0000#32⟩,
   ⟨"PINRD", 0x04000000#32, 0xFFFF0000#32⟩,
   ⟨"PINPULL", 0x05000000#32, 0xFFFC0000#32⟩,
   ⟨"PINTPULSE", 0x06000000#32, 0xFFFE0000#32⟩,
   ⟨"PINCLOSE", 0x07000000#32, 0xFFFF0000#32⟩,
   ⟨"PINWATCH", 0x08000000#32, 0xFFFF0000#32⟩,
   ⟨"WRCMD", 0x10000000#32, 0xFFFFFF00#32⟩,
   ⟨"WRDAT8", 0x11000000#32, 0xFFFFFF00#32⟩,
   ⟨"WRDAT16", 0x12000000#32, 0xFFFF0000#32⟩,
   ⟨"RSTPULSE", 0x13000000#32, 0xFFFFFFFF#32⟩,
   ⟨"DELAY", 0x14000000#32, 0xFF000000#32⟩,
   ⟨"SSTART", 0x20000000#32, 0xFFFFFFFF#32⟩,
   ⟨"SHOUT", 0x21000000#32, 0xFFFFFF00#32⟩,
   ⟨"SHIN", 0x22000000#32, 0xFFFFFF00#32⟩,
   ⟨"RDCH", 0x23000000#32, 0xFFFFFF00#32⟩,
   ⟨"FILT", 0x30000000#32, 0xFFFFFF00#32⟩,
   ⟨"RESOLVE", 0x31000000#32, 0xFFFFFFFF#32⟩]

/-- The row's mnemonic (R62). -/
def Instr.mnemonic : Instr → String
  | .sysinit => "SYSINIT"
  | .pindir _ _ => "PINDIR"
  | .pinwr _ _ => "PINWR"
  | .pinrd _ => "PINRD"
  | .pinpull _ _ => "PINPULL"
  | .pintpulse _ _ => "PINTPULSE"
  | .pinclose _ => "PINCLOSE"
  | .pinwatch _ => "PINWATCH"
  | .wrcmd _ => "WRCMD"
  | .wrdat8 _ => "WRDAT8"
  | .wrdat16 _ => "WRDAT16"
  | .rstpulse => "RSTPULSE"
  | .delay _ => "DELAY"
  | .sstart => "SSTART"
  | .shout _ => "SHOUT"
  | .shin _ => "SHIN"
  | .rdch _ => "RDCH"
  | .filt _ => "FILT"
  | .resolve => "RESOLVE"

/-- `v` agrees with the row's pattern under its mask. -/
def OpcodeRow.covers (r : OpcodeRow) (v : Word) : Bool := v &&& r.mask == r.pattern

/-- A word of the table (R62): some row covers it, but for PINPULL with `arg` = 3 (the row's `exclude`) and SHIN with `imm8`
other than 8 or 12 (the row's `only`). -/
def inOpcodeTable (w : Word) : Bool :=
  opcodeTable.any (·.covers w) &&
    !(w &&& 0xFFFF0000#32 == 0x05030000#32) &&
    !(w &&& 0xFFFFFF00#32 == 0x22000000#32 && !(w == 0x22000008#32) && !(w == 0x2200000C#32))

end Sys2Proof
end

