-- ==== Sys2Proof/Machine/Bits.lean ====
section
/-! DEFINITION. Bit operations of the pin layer and the sequencers: the one-bit word of a pin, replacing one bit of a
register word, the accumulator's shift. -/

namespace Sys2Proof.Machine

/-- `1 << k`: the word with the bit of index `k` alone (40_pin_layer.md R84, R87). -/
def oneHot (k : Nat) : Word := 1#32 <<< k

/-- `w` with bit `k` replaced by `v`; every other bit as in `w` (40_pin_layer.md R83, R84). -/
def putBit (w : Word) (k : Nat) (v : Bool) : Word :=
  if v then w ||| oneHot k else w &&& ~~~(oneHot k)

/-- The word whose lowest `n` bits are those a function gives, every other bit 0. -/
def wordOfBits (f : Nat → Bool) : Nat → Word
  | 0 => 0#32
  | n + 1 => putBit (wordOfBits f n) n (f n)

/-- `{ACC[10:0], v}`: shift left by one, the new bit at the low end (42_serial_adc.md R123). -/
def shiftIn (acc : Sample) (v : Level) : Sample :=
  acc.extractLsb' 0 11 ++ BitVec.ofBool v

/-- The eight bits of a byte from bit 0 to bit 7, the order of DB0 to DB7 (41_parallel_bus.md R107). -/
def bitsLowFirst (b : Byte) : List Level :=
  (List.range 8).map b.getLsbD

/-- The eight bits of a byte from bit 7 to bit 0, the order on DIN (42_serial_adc.md R122). -/
def bitsHighFirst (b : Byte) : List Level :=
  (List.range 8).map b.getMsbD

end Sys2Proof.Machine
end

