-- ==== Sys2Proof/Machine/State.lean ====
section
/-! DEFINITION. The state of the block (10_state.md), its reset value (R33), and the reasons a step can stop. -/

namespace Sys2Proof.Machine

/-- `PT[id].dir` (10_state.md R11). -/
inductive PinDir where
  | unset
  | input
  | output
deriving DecidableEq, Repr

/-- An entry of the pin table `PT` (10_state.md R11). -/
structure PinState where
  /-- `open`: created by first use and not yet closed -/
  opened : Bool
  /-- `dir` -/
  dir : PinDir
  /-- `active_low` -/
  activeLow : Bool
deriving DecidableEq, Repr

/-- The entry of a pin nothing has used (10_state.md R33). -/
def PinState.reset : PinState := ⟨false, .unset, pActiveLow⟩

/-- `LOCK[b]` (10_state.md R15). -/
inductive Lock where
  | free
  | held
deriving DecidableEq, Repr

/-- `PULL[b][k]` (10_state.md R14). -/
inductive Pull where
  | unknown
  | off
  | down
  | up
deriving DecidableEq, Repr

/-- One MappedBank with its registers (20_memory.md R42, R58). -/
structure Bank where
  /-- `LOCK[b]` -/
  lock : Lock
  /-- `FSEL`, abstract: bit `k` says whether the function-select field of the pin at bit index `k` is set (log 12) -/
  fsel : Word
  /-- `OUT[b]`: the level last written to each pin; a bit outside `written` is a placeholder (log 10) -/
  out : Word
  /-- which bits of `OUT[b]` have been written; a bit outside it is the spec's "unwritten" (R33) -/
  written : Word
  /-- `PULL[b]` by bit index -/
  pull : Table Pull
  /-- `PUDCTL[b]` -/
  pudctl : Word
  /-- `PUDCLK[b]` -/
  pudclk : Word
deriving DecidableEq, Repr

/-- A bank at reset (10_state.md R33). -/
def Bank.reset : Bank :=
  { lock := .free, fsel := 0#32, out := 0#32, written := 0#32, pull := [], pudctl := 0#32, pudclk := 0#32 }

/-- `PSTEP` (10_state.md R20). -/
inductive PStep where
  | idle
  | one
  | two
  | three
  | four
  | five
  | six
deriving DecidableEq, Repr

/-- `SSTEP` (10_state.md R20). -/
inductive SStep where
  | idle
  | start
  | out
  | settle
  | input
  | deselect
deriving DecidableEq, Repr

/-- A filtered reading (`SUM`, `CNT`) (10_state.md R24). -/
structure Reading where
  sum : BitVec 20
  cnt : BitVec 8
deriving DecidableEq, Repr

/-- `COORD` (10_state.md R25). -/
structure Coord where
  x : BitVec 12
  y : BitVec 12
deriving DecidableEq, Repr

/-- The seven error kinds (60_exceptions.md R160). -/
inductive ErrorKind where
  | notInitialized
  | pinNotRegistered
  | registerNotWritable
  | mmapFailed
  | unstableReading
  | outOfRange
  | unimplemented
deriving DecidableEq, Repr

/-- The value of an `Ok` outcome, typed by the operation (30_encoding.md R68). -/
inductive Value where
  /-- every operation without a value -/
  | nothing
  /-- PINRD: one bit -/
  | level (v : Level)
  /-- PINTPULSE: a duration in nanoseconds -/
  | duration (ns : Nat)
  /-- SHIN, RDCH: a sample -/
  | sample (v : Sample)
  /-- FILT: a filtered reading -/
  | reading (r : Reading)
  /-- RESOLVE: a coordinate -/
  | coord (c : Coord)
deriving DecidableEq, Repr

/-- The outcome of one operation, handed to the host (00_scope.md R9, 30_encoding.md R68). -/
inductive OpOutcome where
  | ok (v : Value)
  /-- the kind and its info: the pin id where there is one (60_exceptions.md R160) -/
  | err (e : ErrorKind) (info : Option PinId)
  | refused
deriving DecidableEq, Repr

/-- An event of the trace (00_scope.md R8); the time of `d` is in nanoseconds. -/
inductive Event where
  /-- `W(p, v)`: pin `p` was driven to level `v` -/
  | w (p : PinId) (v : Level)
  /-- `R(p, v)`: pin `p` was sampled and gave `v` -/
  | r (p : PinId) (v : Level)
  /-- `D(t)`: at least `t` elapsed -/
  | d (t : Nat)
deriving DecidableEq, Repr

/-- The register names of a bank (20_memory.md R42). -/
inductive BankReg where
  | fsel
  | set
  | clr
  | data
  | level
  | pudctl
  | pudclk
deriving DecidableEq, Repr

/-- An access to a bank, as the pseudocode writes it (00_scope.md R7, 20_memory.md R50): the model's own record (log 16). -/
inductive Access where
  | acquire (bank : Nat)
  | release (bank : Nat)
  | read (bank : Nat) (reg : BankReg)
  | write (bank : Nat) (reg : BankReg) (value : Word)
deriving DecidableEq, Repr

/-- The state of the block. -/
structure State where
  /-- the configuration (00_scope.md R5), fixed (log 2) -/
  cfg : Config
  /-- the command words issued and not yet taken; the model's own (log 3) -/
  port : List Word
  /-- the outcome record of the last command (30_encoding.md R68, log 4) -/
  outcome : Option OpOutcome
  /-- `INITIALIZED` (R10) -/
  initialized : Bool
  /-- `INIT_TRIED` (R18) -/
  initTried : Bool
  /-- `PT` by logical id (R11) -/
  pt : Table PinState
  /-- the banks by number (R12, R14, R15; 20_memory.md R42) -/
  banks : Table Bank
  /-- `PSTEP` (R20) -/
  pstep : PStep
  /-- `PBYTE` (R20) -/
  pbyte : BitVec 1
  /-- `SSTEP` (R20) -/
  sstep : SStep
  /-- `SBIT` (R20) -/
  sbit : BitVec 4
  /-- `SCNT` (R20) -/
  scnt : BitVec 8
  /-- `RPASS` (R20) -/
  rpass : BitVec 2
  /-- `ACC` (R22) -/
  acc : Sample
  /-- `SB` (R23) -/
  sb : List Sample
  /-- `FR` (R24) -/
  fr : Reading
  /-- `X1` (R25) -/
  x1 : Reading
  /-- `Y1` (R25) -/
  y1 : Reading
  /-- `X2` (R25) -/
  x2 : Reading
  /-- `Y2` (R25) -/
  y2 : Reading
  /-- `COORD` (R25) -/
  coord : Coord
  /-- `TRACE` (R26) -/
  trace : List Event
  /-- `NOW` in nanoseconds (R27) -/
  now : Nat
  /-- the record of register accesses and lock operations; the model's own (log 16) -/
  accesses : List Access
  /-- the levels the outside will show at the coming reads of undriven lines; the model's own (log 6) -/
  levels : List Level
  /-- how far the clock will run at the coming events; the model's own (log 7) -/
  clock : List Nat
  /-- the answer `MapWindows()` will give; the model's own (log 8) -/
  mapAnswer : Option Bool
  /-- how many free values have been drawn; the model's own (log 6) -/
  draws : Nat
deriving DecidableEq, Repr

/-- Why a command has no meaning (00_scope.md R9, 60_exceptions.md R172). -/
inductive RefusalReason where
  /-- the word decodes to no operation, or SHIN's bit count is not 8 or 12, or an operation of a pseudo-operation's expansion has
  no word: raised by `step`, SHIN and `execPseudo` (30_encoding.md R66 (a) to (d), R70 (d)); safe: the spec gives no meaning -/
  | malformedCommand
  /-- RSTPULSE on a wiring without RST (30_encoding.md R66 (e)); safe -/
  | noResetLine
  /-- FILT or RESOLVE with `P_W < 3` (30_encoding.md R66 (f)); safe -/
  | windowTooSmall
  /-- a write to a pin whose direction is not `Out`: raised by `PinWrite` (40_pin_layer.md R84); safe -/
  | notAnOutput (pin : PinId)
  /-- PINPULL where the pull mechanism is not the shared latch (40_pin_layer.md R87); safe -/
  | noPullMechanism (pin : PinId)
  /-- PINWATCH with edge support, which is not specified (40_pin_layer.md R90); safe -/
  | edgeWatchUnspecified (pin : PinId)
  /-- a role pin of a sequencer operation has the wrong direction: raised by `SeqCheck` (40_pin_layer.md R92); safe -/
  | roleDirection
deriving DecidableEq, Repr

/-- The refusals of a step: the host interface's third outcome. -/
inductive Refusal where
  /-- an arm of `exec` without a meaning yet; no arm uses it; safe -/
  | notModelled (mnemonic : String)
  /-- the spec's `Refused` (R9, R172), with the state the block is left in: raised by every operation rule R66, R84, R87, R90
  or R92 refuses, and by `step` on a word that does not decode; safe (log 5) -/
  | operation (why : RefusalReason) (left : State)
  /-- a malformed configuration, rejected when the block is built: raised by `State.configure` only (40_pin_layer.md R93,
  10_state.md R32, 30_encoding.md R67); safe -/
  | malformedConfiguration
deriving DecidableEq, Repr

/-- The faults of a step: the operation does not end. -/
inductive Fault where
  /-- PINTPULSE polls for ever: the line never takes the awaited level (40_pin_layer.md R88, 70_reset_and_hazards.md R206,
  U24 "stuck"); safe (log 9) -/
  | pollNeverEnds (pin : PinId)
  /-- an operation waits for a bank lock that another agent holds (20_memory.md R50); no step leaves a lock held, so no run
  reaches it; safe (log 11) -/
  | lockWait (bank : Nat)
deriving DecidableEq, Repr

/-- The state after reset (10_state.md R33, 70_reset_and_hazards.md R190) of a block with a given configuration. -/
def State.ofConfig (c : Config) : State :=
  { cfg := c
    port := []
    outcome := none
    initialized := false
    initTried := false
    pt := []
    banks := []
    pstep := .idle
    pbyte := 0#1
    sstep := .idle
    sbit := 0#4
    scnt := 0#8
    rpass := 0#2
    acc := 0#12
    sb := List.replicate c.window 0#12
    fr := ⟨0#20, 0#8⟩
    x1 := ⟨0#20, 0#8⟩
    y1 := ⟨0#20, 0#8⟩
    x2 := ⟨0#20, 0#8⟩
    y2 := ⟨0#20, 0#8⟩
    coord := ⟨0#12, 0#12⟩
    trace := []
    now := 0
    accesses := []
    levels := []
    clock := []
    mapAnswer := none
    draws := 0 }

/-- The machine right after reset, with the reference configuration (log 2). -/
def State.reset : State := State.ofConfig Config.reference

end Sys2Proof.Machine
end

