-- ==== Sys2Proof/Machine/Flags.lean ====
section
/-! DEFINITION. The flags of the block: `INITIALIZED` and its companion `INIT_TRIED` (10_state.md R10, R18, R28), and the status
code of an outcome (30_encoding.md R68). There are no arithmetic flags and no error latch (R28). -/

namespace Sys2Proof.Machine

/-- The answer of `MapWindows()`: the one the outside supplies, else a free value (40_pin_layer.md R81, log 8). -/
def State.mapWindows (s : State) : Bool := s.mapAnswer.getD Config.freeMapping

/-- `INIT_TRIED <- true` (R81). -/
def State.markTried (s : State) : State := { s with initTried := true }

/-- `INITIALIZED <- true` (R81). -/
def State.markInitialized (s : State) : State := { s with initialized := true }

/-- The status code of an error kind (30_encoding.md R68, 60_exceptions.md R160). -/
def ErrorKind.code : ErrorKind → BitVec 4
  | .notInitialized => 1#4
  | .pinNotRegistered => 2#4
  | .registerNotWritable => 3#4
  | .mmapFailed => 4#4
  | .unstableReading => 5#4
  | .outOfRange => 6#4
  | .unimplemented => 7#4

/-- The status code of an outcome record (30_encoding.md R68). -/
def OpOutcome.status : OpOutcome → BitVec 4
  | .ok _ => 0#4
  | .err e _ => e.code
  | .refused => 15#4

/-- Whether an outcome is `Ok`. -/
def OpOutcome.isOk : OpOutcome → Bool
  | .ok _ => true
  | .err _ _ => false
  | .refused => false

end Sys2Proof.Machine
end

