-- ==== Sys2Proof/Machine/Operands.lean ====
section
/-! DEFINITION. Operands: the roles of the wiring and the pins they stand for (10_state.md R32), the fields of the ADC control
byte (30_encoding.md R64), the two bytes of a 16-bit value (R65), the states that direction and pull operands ask for. -/

namespace Sys2Proof.Machine

/-- The role names of 00_scope.md R7. -/
inductive Role where
  | cs
  | wr
  | rs
  | rd
  | rst
  | db0
  | db1
  | db2
  | db3
  | db4
  | db5
  | db6
  | db7
  | clk
  | din
  | dout
  | tcs
  | busy
  | penirq
deriving DecidableEq, Repr

/-- The input roles: their register is the `IN` bit of their pin, every other role's the `OUT` bit (10_state.md R16, R17, R21). -/
def Role.isInput : Role → Bool
  | .dout => true
  | .busy => true
  | .penirq => true
  | .cs => false
  | .wr => false
  | .rs => false
  | .rd => false
  | .rst => false
  | .db0 => false
  | .db1 => false
  | .db2 => false
  | .db3 => false
  | .db4 => false
  | .db5 => false
  | .db6 => false
  | .db7 => false
  | .clk => false
  | .din => false
  | .tcs => false

/-- The logical id a role stands for; `none` when the wiring does not have the role. -/
def rolePin (c : Config) : Role → Option PinId
  | .cs => some c.bus.cs
  | .wr => some c.bus.wr
  | .rs => some c.bus.rs
  | .rd => if c.hasRd then some c.bus.rd else none
  | .rst => if c.hasRst then some c.bus.rst else none
  | .db0 => some c.bus.db0
  | .db1 => some c.bus.db1
  | .db2 => some c.bus.db2
  | .db3 => some c.bus.db3
  | .db4 => some c.bus.db4
  | .db5 => some c.bus.db5
  | .db6 => some c.bus.db6
  | .db7 => some c.bus.db7
  | .clk => some c.ser.clk
  | .din => some c.ser.din
  | .dout => some c.ser.dout
  | .tcs => some c.ser.tcs
  | .busy => c.ser.busy
  | .penirq => c.ser.penirq

/-- `S`, bit 7 of the control byte (R64). -/
def controlStart (c : Byte) : Bool := c.getLsbD 7

/-- `A`, bits 6..4: the channel address (R64). -/
def controlChannel (c : Byte) : BitVec 3 := c.extractLsb' 4 3

/-- `MODE`, bit 3: 0 = 12-bit, 1 = 8-bit (R64). -/
def controlMode (c : Byte) : Bool := c.getLsbD 3

/-- `RSV21`, bits 2..1 (R64). -/
def controlReserved21 (c : Byte) : BitVec 2 := c.extractLsb' 1 2

/-- `RSV0`, bit 0 (R64). -/
def controlReserved0 (c : Byte) : Bool := c.getLsbD 0

/-- The number of bits RDCH shifts in: 8 when `MODE` is 1, 12 when it is 0 (42_serial_adc.md R124, decision D7). -/
def conversionBits (c : Byte) : Nat := if controlMode c then 8 else 12

/-- The high byte of a 16-bit value, sent first (R65 (c)). -/
def highByte (w : BitVec 16) : Byte := w.extractLsb' 8 8

/-- The low byte of a 16-bit value, sent second (R65 (c)). -/
def lowByte (w : BitVec 16) : Byte := w.extractLsb' 0 8

/-- The direction a PINDIR operand asks for (40_pin_layer.md R83). -/
def pinDirOf : IoDir → PinDir
  | .input => .input
  | .output => .output

/-- Whether the function-select field is set (Out) or cleared (In) (40_pin_layer.md R83). -/
def fieldSet : IoDir → Bool
  | .input => false
  | .output => true

/-- The pull a PINPULL operand asks for (40_pin_layer.md R87). -/
def pullOf : PullMode → Pull
  | .off => .off
  | .down => .down
  | .up => .up

end Sys2Proof.Machine
end

