-- ==== Sys2Proof/Machine/Ops.lean ====
section
/-! DEFINITION. The named operations every meaning is built from: reading and writing the pin table and the banks, events and
the clock, the three ways an operation ends, RAISING AN ERROR (60_exceptions.md R164), the locks, and the primitives
`PinCheck`, `PinWrite`, `PinRead`, `Delay`, `SeqCheck` (40_pin_layer.md R80, R84, R85, R92; 70_reset_and_hazards.md R200). -/

namespace Sys2Proof.Machine

/-! ### The pin table and the banks -/

/-- `PT[id]`. -/
def State.pin (s : State) (id : PinId) : PinState := Table.get PinState.reset s.pt id

/-- The bank of number `b`. -/
def State.bank (s : State) (b : Nat) : Bank := Table.get Bank.reset s.banks b

/-- `PT[id] <- p`. -/
def State.setPin (s : State) (id : PinId) (p : PinState) : State :=
  { s with pt := Table.set PinState.reset s.pt id p }

/-- Replace the bank of number `b`. -/
def State.setBank (s : State) (b : Nat) (k : Bank) : State :=
  { s with banks := Table.set Bank.reset s.banks b k }

/-- `PULL[b][k]` of a bank. -/
def Bank.pullAt (k : Bank) (i : Nat) : Pull := Table.get .unknown k.pull i

/-- `OUT[b][k]`: `none` while the bit is unwritten (10_state.md R12, R33). -/
def State.latch (s : State) (b k : Nat) : Option Level :=
  if (s.bank b).written.getLsbD k then some ((s.bank b).out.getLsbD k) else none

/-- The `OUT` bit of a logical pin; `none` while it is unwritten. -/
def State.line (s : State) (id : PinId) : Option Level :=
  (s.cfg.find id).bind fun d => s.latch d.bank d.bit

/-! ### Events, the clock, the record of accesses -/

/-- The least time an event takes: the bound of a delay, else nothing (10_state.md R27). -/
def Event.least : Event → Nat
  | .w _ _ => 0
  | .r _ _ => 0
  | .d t => t

/-- By how much the clock runs beyond the bound at the next event: what the outside supplies, else a free value (log 7). -/
def State.gap (s : State) : Nat := s.clock.head?.getD (Config.freeGap s.draws)

/-- Append an event to `TRACE`; `NOW` advances by at least the event's bound (10_state.md R26, R27). -/
def State.emit (s : State) (e : Event) : State :=
  { s with trace := s.trace ++ [e], now := s.now + e.least + s.gap, clock := s.clock.tail, draws := s.draws + 1 }

/-- Record a register access or a lock operation (log 16). -/
def State.record (s : State) (a : Access) : State := { s with accesses := s.accesses ++ [a] }

/-- `Delay(t)` (70_reset_and_hazards.md R200): no effect but on `NOW` and `TRACE`. -/
def State.delayed (s : State) (t : Nat) : State := s.emit (.d t)

/-! ### How an operation ends (00_scope.md R9) -/

/-- A running operation: it goes on with a result, has raised an error, is refused, or never ends. -/
inductive Res (α : Type) where
  | ok (a : α) (s : State)
  | err (e : ErrorKind) (info : Option PinId) (s : State)
  | refused (why : RefusalReason) (s : State)
  | stuck (f : Fault)

/-- Statements run one after another; the first that does not go on ends the operation (00_scope.md R7). -/
def Res.bind {α β : Type} (r : Res α) (f : α → State → Res β) : Res β :=
  match r with
  | .ok a s => f a s
  | .err e i s => .err e i s
  | .refused w s => .refused w s
  | .stuck f => .stuck f

/-- The step counters and loop counters between operations (10_state.md R20). -/
def State.idle (s : State) : State :=
  { s with pstep := .idle, pbyte := 0#1, sstep := .idle, sbit := 0#4, scnt := 0#8, rpass := 0#2 }

/-- The operation ran to its end and hands `Ok(value)` to the host (00_scope.md R9). -/
def State.succeed (s : State) (v : Value) : State := { s with outcome := some (.ok v) }

/-- RAISING AN ERROR (60_exceptions.md R164): the outcome is `Err(kind)` with its info, the counters return to `IDLE` and 0,
nothing the operation did is undone, nothing is saved. There is no return from an error: the next operation is accepted as
any other (R169). -/
def State.raise (s : State) (e : ErrorKind) (info : Option PinId) : State :=
  { s.idle with outcome := some (.err e info) }

/-- A refused operation (60_exceptions.md R172) hands `Refused` to the host and leaves what it found. -/
def State.refuse (s : State) : State := { s with outcome := some .refused }

/-- The end of an operation (00_scope.md R9): `Ok` and `Err` go on to the next operation, `Refused` is the third outcome of
the interface with the state the block is left in (log 5). -/
def finish (r : Res Value) : Host.Outcome State Fault Refusal :=
  match r with
  | .ok v s => .next (s.succeed v)
  | .err e i s => .next (s.raise e i)
  | .refused why s => .refused (.operation why s.refuse)
  | .stuck f => .fault f

/-- An operation without a value ends `Ok`. -/
def finishUnit (r : Res Unit) : Host.Outcome State Fault Refusal :=
  finish (r.bind fun _ s => .ok .nothing s)

/-! ### The bank lock (20_memory.md R50) -/

/-- Take the bank lock; a lock that another agent holds is waited for (log 11). -/
def acquire (b : Nat) (s : State) : Res Unit :=
  match (s.bank b).lock with
  | .free => .ok () ((s.setBank b { s.bank b with lock := .held }).record (.acquire b))
  | .held => .stuck (.lockWait b)

/-- Give the bank lock back. -/
def State.release (s : State) (b : Nat) : State :=
  (s.setBank b { s.bank b with lock := .free }).record (.release b)

/-! ### Register accesses (20_memory.md R42) -/

/-- What a write of `v` to a register does to its bank (20_memory.md R42). -/
def Bank.afterWrite (k : Bank) (r : BankReg) (v : Word) : Bank :=
  match r with
  | .fsel => { k with fsel := v }
  | .set => { k with out := k.out ||| v, written := k.written ||| v }
  | .clr => { k with out := k.out &&& ~~~v, written := k.written ||| v }
  | .data => { k with out := v }
  | .level => k
  | .pudctl => { k with pudctl := v }
  | .pudclk => { k with pudclk := v }

/-- `MemWrite((b, r), 4, v)`. -/
def State.memWrite (s : State) (b : Nat) (r : BankReg) (v : Word) : State :=
  (s.setBank b ((s.bank b).afterWrite r v)).record (.write b r v)

/-- `MemRead((b, r), 4)`: no side effect (20_memory.md R45). The value is `(s.bank b).fsel` for FSEL, `(s.bank b).out` for DATA
and `s.levelWord d` for LEVEL; no operation reads the others (R42). -/
def State.memRead (s : State) (b : Nat) (r : BankReg) : State := s.record (.read b r)

/-- `OUT[b][k]` now holds a level: after the write-back of `DATA`, whose other bits keep their standing (40_pin_layer.md R84). -/
def State.markWritten (s : State) (b k : Nat) : State :=
  s.setBank b { s.bank b with written := (s.bank b).written ||| oneHot k }

/-! ### PinCheck and PinWrite (40_pin_layer.md R80, R84) -/

/-- `PT[id].open <- true` when it is not: "Created on first use" (R80). -/
def State.openPin (s : State) (id : PinId) : State :=
  if (s.pin id).opened then s else s.setPin id { s.pin id with opened := true }

/-- `PinCheck(id)` (R80): the flag first, then the id, then the pin is opened. -/
def pinCheck (id : PinId) (s : State) : Res PinDescriptor :=
  if s.initialized then
    match s.cfg.find id with
    | none => .err .pinNotRegistered (some id) s
    | some d => .ok d (s.openPin id)
  else .err .notInitialized (some id) s

/-- The register write of a level (R84): one bit of SET or CLR without lock, or a read-modify-write of DATA under the lock. -/
def writeLine (d : PinDescriptor) (v : Level) (s : State) : Res Unit :=
  match s.cfg.writeStyle with
  | .setClear => .ok () (s.memWrite d.bank (if v then .set else .clr) (oneHot d.bit))
  | .singleData =>
    (acquire d.bank s).bind fun _ s =>
    .ok () ((((s.memRead d.bank .data).memWrite d.bank .data
      (putBit (s.bank d.bank).out d.bit v)).markWritten d.bank d.bit).release d.bank)

/-- `PinWrite(id, v)` (R84). -/
def pinWrite (id : PinId) (v : Level) (s : State) : Res Unit :=
  (pinCheck id s).bind fun d s =>
  if (s.cfg.writableOf id).level then
    if (s.pin id).dir = .output then
      (writeLine d v s).bind fun _ s => .ok () (s.emit (.w id v))
    else .refused (.notAnOutput id) s
  else .err .registerNotWritable (some id) s

/-! ### PinRead (40_pin_layer.md R85) -/

/-- The level the block itself drives on a line: a written output reads as its latch (10_state.md R13); every other line is the
outside's. -/
def State.driven (s : State) (d : PinDescriptor) : Option Level :=
  if (s.pin d.id).dir = .output then s.latch d.bank d.bit else none

/-- The level the outside shows at the next read: what it supplies, else a free value (O13, log 6). -/
def State.nextLevel (s : State) : Level := s.levels.head?.getD (Config.freeLevel s.draws)

/-- One level of the outside is used up. -/
def State.takeLevel (s : State) : State := { s with levels := s.levels.tail, draws := s.draws + 1 }

/-- Bit `j` of `IN[d.bank]` at a read that samples the line of `d` (10_state.md R13): a written output shows its latch; of the
other lines the sampled one shows the outside's next level, the rest a free value (log 17). -/
def State.inBit (s : State) (d : PinDescriptor) (j : Nat) : Level :=
  if j = d.bit then (s.driven d).getD s.nextLevel
  else ((s.cfg.pinAt d.bank j).bind s.driven).getD ((Config.freeLines s.draws).getLsbD j)

/-- What a read of LEVEL returns: `IN[d.bank]`, all 32 bits (20_memory.md R42). -/
def State.levelWord (s : State) (d : PinDescriptor) : Word := wordOfBits (s.inBit d) 32

/-- `w[k]`, the bit of LEVEL that `PinRead` masks (40_pin_layer.md R85): `IN[b][k]` at this read. It is bit `d.bit` of
`s.levelWord d` (`State.levelWord_getLsbD`). -/
def State.inLevel (s : State) (d : PinDescriptor) : Level := s.inBit d d.bit

/-- The register of a role (10_state.md R32): the `OUT` bit of its pin for an output role (R16, R17, R21), `none` while unwritten;
the `IN` bit of its pin for DOUT, BUSY and PENIRQ (R21), as a read would give it now; `none` where the wiring lacks the role.
DESIGN CHOICE, unsafe (log 17): in one state all undriven lines give one level, `s.nextLevel`, so undriven DOUT, BUSY and PENIRQ
agree, which the spec does not say (R13, U7). A claim may take each one alone, as the line read next, and must not relate two. -/
def State.roleLine (s : State) (r : Role) : Option Level :=
  (rolePin s.cfg r).bind fun id => if r.isInput then (s.cfg.find id).map s.inLevel else s.line id

/-- Sample a line (R85 after `PinCheck`): read `LEVEL`, append `R`. The result is `s.inLevel d`. -/
def State.sampled (s : State) (d : PinDescriptor) : State :=
  (if (s.driven d).isSome then s.memRead d.bank .level else (s.memRead d.bank .level).takeLevel).emit (.r d.id (s.inLevel d))

/-- `PinRead(id)` (R85). -/
def pinRead (id : PinId) (s : State) : Res Level :=
  (pinCheck id s).bind fun d s => .ok (s.inLevel d) (s.sampled d)

/-! ### SeqCheck (40_pin_layer.md R92) -/

/-- `SeqCheck(outs, ins)` (R92). -/
def seqCheck (outs ins : List PinId) (s : State) : Res Unit :=
  if s.initialized then
    if outs.all (fun p => (s.pin p).dir == .output) && ins.all (fun p => (s.pin p).dir == .input) then .ok () s
    else .refused .roleDirection s
  else .err .notInitialized none s

/-! ### The command port and the configuration -/

/-- The host issues a command word that the block takes next (30_encoding.md R60, log 3). -/
def State.offer (s : State) (w : Word) : State := { s with port := w :: s.port }

/-- The block takes the next command from the port. -/
def State.take (s : State) : State := { s with port := s.port.tail }

/-- A word that decodes to no operation (30_encoding.md R66 (a) to (d)). -/
def refuseWord (s : State) : Host.Outcome State Fault Refusal :=
  .refused (.operation .malformedCommand s.refuse)

/-- Building the block: a malformed configuration is rejected "at configuration time, not at first use" (40_pin_layer.md
R93, 10_state.md R32, 30_encoding.md R67, 70_reset_and_hazards.md R191 (1)). -/
def State.configure (c : Config) : Host.Outcome State Fault Refusal :=
  if c.wellFormed then .next (State.ofConfig c) else .refused .malformedConfiguration

/-- The state the block is left in, from which the host issues its next command (60_exceptions.md R169, R172); `none` when
the operation does not end. -/
def leftState : Host.Outcome State Fault Refusal → Option State
  | .next s => some s
  | .fault _ => none
  | .refused (.operation _ s) => some s
  | .refused _ => none

end Sys2Proof.Machine
end

