-- ==== Sys2Proof/Machine/Serial.lean ====
section
/-! DEFINITION. The software-clocked serial shifter (42_serial_adc.md): SSTART, SHOUT, SHIN, RDCH. -/

namespace Sys2Proof.Machine

/-- The precondition of every serial operation (R120). -/
def serialCheck (s : State) : Res Unit := seqCheck s.cfg.serialOuts s.cfg.serialIns s

/-- The five writes of `start()` (R121). -/
def startFrame (s : State) : Res Unit :=
  (pinWrite s.cfg.ser.clk false { s with sstep := .start }).bind fun _ s =>
  (pinWrite s.cfg.ser.tcs true s).bind fun _ s =>
  (pinWrite s.cfg.ser.din true s).bind fun _ s =>
  (pinWrite s.cfg.ser.clk true s).bind fun _ s =>
  (pinWrite s.cfg.ser.tcs false s).bind fun _ s =>
  .ok () { s with sstep := .idle }

/-- SSTART (R121). -/
def execSstart (s : State) : Host.Outcome State Fault Refusal :=
  finishUnit ((serialCheck s).bind fun _ s => startFrame s)

/-- One clock per bit: CLK low, the bit on DIN, CLK high; `j` is the index of the next clock (R122). -/
def shiftOutBits (j : Nat) : List Level → State → Res Unit
  | [], s => .ok () s
  | v :: l, s =>
    (pinWrite s.cfg.ser.clk false { s with sbit := BitVec.ofNat 4 j }).bind fun _ s =>
    (pinWrite s.cfg.ser.din v s).bind fun _ s =>
    (pinWrite s.cfg.ser.clk true s).bind fun _ s =>
    shiftOutBits (j + 1) l s

/-- The clocks of `shift_out(byte)`, bit 7 first (R122). -/
def shiftOut (b : Byte) (s : State) : Res Unit :=
  (shiftOutBits 0 (bitsHighFirst b) { s with sstep := .out }).bind fun _ s =>
  .ok () { s with sstep := .idle, sbit := 0#4 }

/-- SHOUT (R122). -/
def execShout (b : Byte) (s : State) : Host.Outcome State Fault Refusal :=
  finishUnit ((serialCheck s).bind fun _ s => shiftOut b s)

/-- `n` clocks that each sample DOUT after the rising edge into `ACC`; `j` is the index of the next clock (R123). -/
def shiftInBits (j : Nat) : Nat → State → Res Unit
  | 0, s => .ok () s
  | n + 1, s =>
    (pinWrite s.cfg.ser.clk false { s with sbit := BitVec.ofNat 4 j }).bind fun _ s =>
    (pinWrite s.cfg.ser.clk true s).bind fun _ s =>
    (pinRead s.cfg.ser.dout s).bind fun v s =>
    shiftInBits (j + 1) n { s with acc := shiftIn s.acc v }

/-- The clocks of `shift_in(n_bits)`; the result is `ACC` (R123). -/
def shiftInto (n : Nat) (s : State) : Res Sample :=
  (shiftInBits 0 n { s with sstep := .input, acc := 0#12 }).bind fun _ s =>
  .ok s.acc { s with sstep := .idle, sbit := 0#4 }

/-- SHIN (R123); a bit count other than 8 or 12 is refused before anything else (30_encoding.md R66 (d)). -/
def execShin (n : Nat) (s : State) : Host.Outcome State Fault Refusal :=
  finish <|
    if legalBitCount n then
      (serialCheck s).bind fun _ s => (shiftInto n s).bind fun v s => .ok (.sample v) s
    else .refused .malformedCommand s

/-- A whole read after the precondition (R124). -/
def readChannel (c : Byte) (s : State) : Res Sample :=
  (startFrame s).bind fun _ s =>
  (shiftOut c s).bind fun _ s =>
  (shiftInto (conversionBits c) ({ s with sstep := .settle }.delayed s.cfg.tAdcSettle)).bind fun v s =>
  (pinWrite s.cfg.ser.tcs true { s with sstep := .deselect }).bind fun _ s =>
  .ok v { s with sstep := .idle }

/-- RDCH (R124). -/
def execRdch (c : Byte) (s : State) : Host.Outcome State Fault Refusal :=
  finish ((serialCheck s).bind fun _ s => (readChannel c s).bind fun v s => .ok (.sample v) s)

end Sys2Proof.Machine
end

