-- ==== Sys2Proof/Machine/Filter.lean ====
section
/-! DEFINITION. The ranked-median filter and the coordinate resolver (43_filter_resolve.md): the pure functions `RankedMean`
and `ResolveValues`, FILT and RESOLVE. -/

namespace Sys2Proof.Machine

/-! ### RankedMean (R141) -/

/-- Put a sample at its place in a descending list. -/
def insertDescending (v : Sample) : List Sample → List Sample
  | [] => [v]
  | a :: l => if a.toNat ≤ v.toNat then v :: a :: l else a :: insertDescending v l

/-- Sort descending (R141, 20_memory.md R56). -/
def sortDescending : List Sample → List Sample
  | [] => []
  | a :: l => insertDescending a (sortDescending l)

/-- The samples kept of a sorted window: without the two greatest and the two least when the window has at least five (R141). -/
def keptSamples (t : List Sample) : List Sample :=
  if 2 * pDrop + pMinRemainder ≤ t.length then (t.drop pDrop).take (t.length - 2 * pDrop) else t

/-- The sum of samples. -/
def sampleSum (l : List Sample) : Nat := (l.map (·.toNat)).sum

/-- The reading of the kept samples: their sum and their count (R141). -/
def readingOf (k : List Sample) : Reading := ⟨BitVec.ofNat 20 (sampleSum k), BitVec.ofNat 8 k.length⟩

/-- `RankedMean(S)` (R141). -/
def rankedMean (l : List Sample) : Reading := readingOf (keptSamples (sortDescending l))

/-! ### ResolveValues (R144, R146, R148) -/

/-- The non-negative distance of two numbers (00_scope.md R6). -/
def distance (a b : Nat) : Nat := (a - b) + (b - a)

/-- "`Delta(A, B)` exceeds `P_JITTER`", in integers (R144). -/
def jitterExceeded (a b : Reading) : Bool :=
  pJitter * a.cnt.toNat * b.cnt.toNat < distance (a.sum.toNat * b.cnt.toNat) (b.sum.toNat * a.cnt.toNat)

/-- The floor of the average of two readings (R144, R146). -/
def averageFloor (a b : Reading) : Nat :=
  (a.sum.toNat * b.cnt.toNat + b.sum.toNat * a.cnt.toNat) / (2 * a.cnt.toNat * b.cnt.toNat)

/-- `ResolveValues(X1, Y1, X2, Y2)` (R148): the stability test first, then the sanity bound on the rounded coordinate. -/
def resolveValues (yCheck : Bool) (x1 y1 x2 y2 : Reading) : Except ErrorKind Coord :=
  if jitterExceeded x1 x2 || jitterExceeded y1 y2 then .error .unstableReading
  else if decide (averageFloor x1 x2 < pXMin) || (yCheck && decide (pYMax < averageFloor y1 y2)) then .error .outOfRange
  else .ok ⟨BitVec.ofNat 12 (averageFloor x1 x2), BitVec.ofNat 12 (averageFloor y1 y2)⟩

/-! ### FILT (R143) -/

/-- `SB[i] <- v`. -/
def State.storeSample (s : State) (i : Nat) (v : Sample) : State :=
  { s with sb := s.sb.take i ++ v :: s.sb.drop (i + 1) }

/-- `n` reads into `SB` from index `i` (R143). -/
def fillSamples (c : Byte) (i : Nat) : Nat → State → Res Unit
  | 0, s => .ok () s
  | n + 1, s =>
    (readChannel c { s with scnt := BitVec.ofNat 8 i }).bind fun v s =>
    fillSamples c (i + 1) n (s.storeSample i v)

/-- The end of FILT: sort `SB` in place, write `FR` (R143). -/
def State.rank (s : State) : State :=
  { s with scnt := 0#8, sb := sortDescending (s.sb.take s.cfg.window), fr := rankedMean (s.sb.take s.cfg.window) }

/-- A filtered reading after the preconditions (R143). -/
def filterChannel (c : Byte) (s : State) : Res Reading :=
  (fillSamples c 0 s.cfg.window s).bind fun _ s =>
  .ok ({ s with scnt := BitVec.ofNat 8 s.cfg.window }.rank).fr ({ s with scnt := BitVec.ofNat 8 s.cfg.window }.rank)

/-- The preconditions of FILT and RESOLVE: the window first, then the role pins (R143, R145, 60_exceptions.md R171). -/
def filterCheck (s : State) : Res Unit :=
  if s.cfg.window < 3 then .refused .windowTooSmall s else serialCheck s

/-- FILT (R143). -/
def execFilt (c : Byte) (s : State) : Host.Outcome State Fault Refusal :=
  finish ((filterCheck s).bind fun _ s => (filterChannel c s).bind fun r s => .ok (.reading r) s)

/-! ### RESOLVE (R145) -/

/-- The four filtered readings X, Y, X, Y (R145). -/
def readPasses (s : State) : Res Unit :=
  (filterChannel s.cfg.ctrlX { s with rpass := 0#2 }).bind fun r s =>
  (filterChannel s.cfg.ctrlY { s with x1 := r, rpass := 1#2 }).bind fun r s =>
  (filterChannel s.cfg.ctrlX { s with y1 := r, rpass := 2#2 }).bind fun r s =>
  (filterChannel s.cfg.ctrlY { s with x2 := r, rpass := 3#2 }).bind fun r s =>
  .ok () { s with y2 := r, rpass := 0#2 }

/-- The result of RESOLVE from the four readings taken (R145, R148). -/
def resolveReadings (s : State) : Res Value :=
  match resolveValues s.cfg.yCheck s.x1 s.y1 s.x2 s.y2 with
  | .ok c => .ok (.coord c) { s with coord := c }
  | .error e => .err e none s

/-- RESOLVE (R145). -/
def execResolve (s : State) : Host.Outcome State Fault Refusal :=
  finish ((filterCheck s).bind fun _ s => (readPasses s).bind fun _ s => resolveReadings s)

end Sys2Proof.Machine
end

