-- ==== Sys2Proof/Machine/Parallel.lean ====
section
/-! DEFINITION. The parallel write sequencer (41_parallel_bus.md): WRCMD, WRDAT8, WRDAT16, RSTPULSE, DELAY. -/

namespace Sys2Proof.Machine

/-- Write pins one after another. -/
def pinWrites : List (PinId × Level) → State → Res Unit
  | [], s => .ok () s
  | (p, v) :: l, s => (pinWrite p v s).bind fun _ s => pinWrites l s

/-- `DriveData(b)` (R107): DB0 to DB7 take bits 0 to 7. -/
def driveData (b : Byte) (s : State) : Res Unit :=
  pinWrites (s.cfg.bus.db.zip (bitsLowFirst b)) s

/-- `WrPulse()` (R108). -/
def wrPulse (s : State) : Res Unit :=
  (pinWrite s.cfg.bus.wr false s).bind fun _ s =>
  let s := s.delayed s.cfg.tWrLow
  (pinWrite s.cfg.bus.wr true s).bind fun _ s =>
  .ok () (s.delayed s.cfg.tWrHigh)

/-- Steps 4 and 5 for the bytes of a transaction, the first with index `j` (R100). -/
def xferBytes (j : Nat) : List Byte → State → Res Unit
  | [], s => .ok () s
  | b :: l, s =>
    (driveData b { s with pbyte := BitVec.ofNat 1 j, pstep := .four }).bind fun _ s =>
    (wrPulse { s with pstep := .five }).bind fun _ s =>
    xferBytes (j + 1) l s

/-- Step 2 (R100, R113): RD is driven high when the wiring has it. -/
def deassertRead (s : State) : Res Unit :=
  if s.cfg.hasRd then pinWrite s.cfg.bus.rd true s else .ok () s

/-- `BusXfer(rs, bytes)` (R100): the six steps. -/
def busXfer (rs : Level) (bytes : List Byte) (s : State) : Res Unit :=
  (seqCheck s.cfg.busOuts [] s).bind fun _ s =>
  (pinWrite s.cfg.bus.cs false { s with pstep := .one }).bind fun _ s =>
  (deassertRead { s with pstep := .two }).bind fun _ s =>
  (pinWrite s.cfg.bus.rs rs { s with pstep := .three }).bind fun _ s =>
  (xferBytes 0 bytes s).bind fun _ s =>
  (pinWrite s.cfg.bus.cs true { s with pstep := .six }).bind fun _ s =>
  .ok () { s with pstep := .idle, pbyte := 0#1 }

/-- WRCMD (R101). -/
def execWrcmd (b : Byte) (s : State) : Host.Outcome State Fault Refusal :=
  finishUnit (busXfer false [b] s)

/-- WRDAT8 (R102). -/
def execWrdat8 (b : Byte) (s : State) : Host.Outcome State Fault Refusal :=
  finishUnit (busXfer true [b] s)

/-- WRDAT16 (R103): high byte first. -/
def execWrdat16 (w : BitVec 16) (s : State) : Host.Outcome State Fault Refusal :=
  finishUnit (busXfer true [highByte w, lowByte w] s)

/-- RSTPULSE (R104). -/
def execRstpulse (s : State) : Host.Outcome State Fault Refusal :=
  finishUnit <|
    if s.cfg.hasRst then
      (seqCheck [s.cfg.bus.rst] [] s).bind fun _ s =>
      (pinWrite s.cfg.bus.rst false s).bind fun _ s =>
      let s := s.delayed s.cfg.tRstLow
      (pinWrite s.cfg.bus.rst true s).bind fun _ s =>
      .ok () (s.delayed s.cfg.tRstSettle)
    else .refused .noResetLine s

/-- DELAY (R105): no pin, no initialisation. -/
def execDelay (micros : Nat) (s : State) : Host.Outcome State Fault Refusal :=
  finishUnit (.ok () (s.delayed (microseconds micros)))

end Sys2Proof.Machine
end

