-- ==== Sys2Proof/Machine/Pin.lean ====
section
/-! DEFINITION. The pin-layer operations (40_pin_layer.md): SYSINIT, PINDIR, PINWR, PINRD, PINPULL, PINTPULSE, PINCLOSE,
PINWATCH. -/

namespace Sys2Proof.Machine

/-- SYSINIT (R81): the mapping is attempted once; a later SYSINIT reports what the one attempt gave and tries nothing. -/
def execSysinit (s : State) : Host.Outcome State Fault Refusal :=
  .next <|
    if s.initTried then
      if s.initialized then s.succeed .nothing else s.raise .mmapFailed none
    else if s.mapWindows then s.markTried.markInitialized.succeed .nothing
    else s.markTried.raise .mmapFailed none

/-- The locked read-modify-write of a function-select field (R83). -/
def setDirection (d : PinDescriptor) (dir : IoDir) (s : State) : Res Unit :=
  (acquire d.bank s).bind fun _ s =>
  let w := (s.bank d.bank).fsel
  let s := (s.memRead d.bank .fsel).memWrite d.bank .fsel (putBit w d.bit (fieldSet dir))
  .ok () ((s.setPin d.id { s.pin d.id with dir := pinDirOf dir }).release d.bank)

/-- PINDIR (R83). -/
def execPindir (pin : PinId) (dir : IoDir) (s : State) : Host.Outcome State Fault Refusal :=
  finishUnit <|
    (pinCheck pin s).bind fun d s =>
    if (s.cfg.writableOf pin).dir then setDirection d dir s
    else .err .registerNotWritable (some pin) s

/-- PINWR (R84). -/
def execPinwr (pin : PinId) (v : Level) (s : State) : Host.Outcome State Fault Refusal :=
  finishUnit (pinWrite pin v s)

/-- PINRD (R85). -/
def execPinrd (pin : PinId) (s : State) : Host.Outcome State Fault Refusal :=
  finish ((pinRead pin s).bind fun v s => .ok (.level v) s)

/-- `PULL[b][k] <- m`. -/
def State.setPull (s : State) (b k : Nat) (m : Pull) : State :=
  s.setBank b { s.bank b with pull := Table.set .unknown (s.bank b).pull k m }

/-- The pull sequence of the shared latch (R87): configure, strobe, wait, latch, clear both, all under the lock. -/
def pullSequence (d : PinDescriptor) (m : PullMode) (s : State) : Res Unit :=
  (acquire d.bank s).bind fun _ s =>
  let s := s.memWrite d.bank .pudctl (Config.pullCode m)
  let s := s.memWrite d.bank .pudclk (oneHot d.bit)
  let s := s.delayed s.cfg.tPull
  let s := s.setPull d.bank d.bit (pullOf m)
  let s := s.memWrite d.bank .pudctl 0#32
  let s := s.memWrite d.bank .pudclk 0#32
  .ok () (s.release d.bank)

/-- PINPULL (R87). -/
def execPinpull (pin : PinId) (m : PullMode) (s : State) : Host.Outcome State Fault Refusal :=
  finishUnit <|
    (pinCheck pin s).bind fun d s =>
    if (s.cfg.writableOf pin).pull then
      match s.cfg.pullStyle with
      | .sharedLatch => pullSequence d m s
      | .absent => .refused (.noPullMechanism pin) s
    else .err .registerNotWritable (some pin) s

/-- Poll an undriven line until it shows `x`, at most as often as given; whether it showed it. -/
def pollSupplied (d : PinDescriptor) (x : Level) : Nat → State → Bool × State
  | 0, s => (false, s)
  | n + 1, s => if s.inLevel d = x then (true, s.sampled d) else pollSupplied d x n (s.sampled d)

/-- One poll of an undriven line at which the outside shows `v`. -/
def State.sampledAs (s : State) (d : PinDescriptor) (v : Level) : State :=
  ((s.memRead d.bank .level).takeLevel).emit (.r d.id v)

/-- `n` polls of an undriven line at which the outside shows `v`. -/
def pollRepeat (d : PinDescriptor) (v : Level) : Nat → State → State
  | 0, s => s
  | n + 1, s => pollRepeat d v n (s.sampledAs d v)

/-- `repeat v <- PinRead(id) until v = x` (R88). A line the block drives never changes while it polls. An undriven line first
shows the levels the outside supplies; after them a free number of polls passes before `x`, or it never comes (log 9). -/
def pollUntil (d : PinDescriptor) (x : Level) (s : State) : Res Unit :=
  match s.driven d with
  | some v => if v = x then .ok () (s.sampled d) else .stuck (.pollNeverEnds d.id)
  | none =>
    match pollSupplied d x s.levels.length s with
    | (true, s) => .ok () s
    | (false, s) =>
      match Config.freePolls s.draws with
      | some n => .ok () ((pollRepeat d (!x) n { s with draws := s.draws + 1 }).sampledAs d x)
      | none => .stuck (.pollNeverEnds d.id)

/-- PINTPULSE (R88): rest, pulse, rest; the time between the first poll of the pulse and the first poll after it. -/
def execPintpulse (pin : PinId) (target : Level) (s : State) : Host.Outcome State Fault Refusal :=
  finish <|
    (pinCheck pin s).bind fun d s =>
    (pollUntil d (!target) s).bind fun _ s =>
    (pollUntil d target s).bind fun _ began =>
    (pollUntil d (!target) began).bind fun _ ended =>
    .ok (.duration (ended.now - began.now)) ended

/-- `PT[id].open <- false` when it is open (R89). -/
def State.closePin (s : State) (id : PinId) : State :=
  if (s.pin id).opened then s.setPin id { s.pin id with opened := false } else s

/-- PINCLOSE (R89): clears `PT[id].open` and nothing else; a closed pin stays closed. -/
def execPinclose (pin : PinId) (s : State) : Host.Outcome State Fault Refusal :=
  finishUnit <|
    if s.initialized then
      match s.cfg.find pin with
      | none => .err .pinNotRegistered (some pin) s
      | some _ => .ok () (s.closePin pin)
    else .err .notInitialized (some pin) s

/-- PINWATCH (R90): the stub. -/
def execPinwatch (pin : PinId) (s : State) : Host.Outcome State Fault Refusal :=
  finishUnit <|
    (pinCheck pin s).bind fun _ s =>
    if s.cfg.edgeSupport then .refused (.edgeWatchUnspecified pin) s
    else .err .unimplemented (some pin) s

end Sys2Proof.Machine
end

