-- ==== Sys2Proof/Machine/Dispatch.lean ====
section
/-! DEFINITION. One arm per operation. -/

namespace Sys2Proof.Machine

def exec (i : Instr) (s : State) : Host.Outcome State Fault Refusal :=
  match i with
  -- the pin layer
  | .sysinit => Sys2Proof.Machine.execSysinit s
  | .pindir pin dir => Sys2Proof.Machine.execPindir pin dir s
  | .pinwr pin level => Sys2Proof.Machine.execPinwr pin level s
  | .pinrd pin => Sys2Proof.Machine.execPinrd pin s
  | .pinpull pin mode => Sys2Proof.Machine.execPinpull pin mode s
  | .pintpulse pin target => Sys2Proof.Machine.execPintpulse pin target s
  | .pinclose pin => Sys2Proof.Machine.execPinclose pin s
  | .pinwatch pin => Sys2Proof.Machine.execPinwatch pin s
  -- the parallel write sequencer
  | .wrcmd byte => Sys2Proof.Machine.execWrcmd byte s
  | .wrdat8 byte => Sys2Proof.Machine.execWrdat8 byte s
  | .wrdat16 word => Sys2Proof.Machine.execWrdat16 word s
  | .rstpulse => Sys2Proof.Machine.execRstpulse s
  | .delay micros => Sys2Proof.Machine.execDelay micros s
  -- the serial shifter
  | .sstart => Sys2Proof.Machine.execSstart s
  | .shout byte => Sys2Proof.Machine.execShout byte s
  | .shin bits => Sys2Proof.Machine.execShin bits s
  | .rdch control => Sys2Proof.Machine.execRdch control s
  -- the filter and the resolver
  | .filt control => Sys2Proof.Machine.execFilt control s
  | .resolve => Sys2Proof.Machine.execResolve s

end Sys2Proof.Machine
end

