-- ==== Sys2Proof/Machine/Step.lean ====
section
/-! DEFINITION. One step: the block takes the next command word from its port, decodes it and runs it (30_encoding.md R60,
60_exceptions.md R182, log 3). -/

namespace Sys2Proof.Machine

/-- One step. Nothing issued: the block waits, nothing changes. A word that decodes to no operation is refused
(30_encoding.md R66). -/
def step (s : State) : Host.Outcome State Fault Refusal :=
  match s.port with
  | [] => .next s
  | w :: _ =>
    match decode w with
    | none => refuseWord s.take
    | some i => exec i s.take

/-- The host issues the command word `w` as the next one. -/
def State.withFetchWord (s : State) (nbits w : Nat) : State := s.offer (BitVec.ofNat 32 (w % 2 ^ nbits))

end Sys2Proof.Machine
end

