-- ==== Sys2Proof/Machine/Observe.lean ====
section
/-! DEFINITION. The observations derived from the trace (00_scope.md R8): the level last driven onto a pin, what the LCD
controller latches (`Latched`), what the ADC samples on DIN (`DinSampled`). -/

namespace Sys2Proof.Machine

/-- The level a pin holds after an event, from the level it held before; `none` while nothing has driven it. -/
def levelStep (p : PinId) (before : Option Level) : Event → Option Level
  | .w q v => if q = p then some v else before
  | .r _ _ => before
  | .d _ => before

/-- The level last driven onto a pin in a trace. -/
def levelAfter (p : PinId) (tr : List Event) : Option Level := tr.foldl (levelStep p) none

/-- The byte on DB7..DB0; `none` while a data line has not been driven. -/
def dataLines : List (Option Level) → Option Byte
  | [] => some 0#8
  | none :: _ => none
  | some v :: l => (dataLines l).map fun (b : Byte) => (b <<< 1) ||| (BitVec.ofBool v).setWidth 8

/-- The pair (RS level, DB7..DB0 value) on the bus after a trace; `none` while a line has not been driven (log 23). -/
def busPair (b : BusConnection) (tr : List Event) : Option (Level × Byte) :=
  (levelAfter b.rs tr).bind fun v => (dataLines (b.db.map fun p => levelAfter p tr)).map fun d => (v, d)

/-- The event drives `p` from 0 to 1 while `sel` is 0, after the trace before it. -/
def risesSelected (p sel : PinId) (before : List Event) (e : Event) : Bool :=
  e == .w p true && levelAfter p before == some false && levelAfter sel before == some false

/-- `Latched` over the events that follow a trace. -/
def latchedFrom (b : BusConnection) (before : List Event) : List Event → List (Option (Level × Byte))
  | [] => []
  | e :: l =>
    (if risesSelected b.wr b.cs before e then [busPair b before] else []) ++ latchedFrom b (before ++ [e]) l

/-- `Latched(trace)` (R8): the bus pair at each 0 to 1 change of WR while CS is 0. -/
def latched (b : BusConnection) (tr : List Event) : List (Option (Level × Byte)) := latchedFrom b [] tr

/-- `DinSampled` over the events that follow a trace. -/
def dinSampledFrom (c : SerialConnection) (before : List Event) : List Event → List (Option Level)
  | [] => []
  | e :: l =>
    (if risesSelected c.clk c.tcs before e then [levelAfter c.din before] else []) ++ dinSampledFrom c (before ++ [e]) l

/-- `DinSampled(trace)` (R8): the level of DIN at each 0 to 1 change of CLK while TCS is 0. -/
def dinSampled (c : SerialConnection) (tr : List Event) : List (Option Level) := dinSampledFrom c [] tr

end Sys2Proof.Machine
end

