-- ==== Sys2Proof/Machine/Pseudo.lean ====
section
/-! DEFINITION. The pseudo-operations (30_encoding.md R70, 41_parallel_bus.md R106): INIT, WRDATA, SDESEL, DELAYMS, as
expansions into the nineteen operations, and how a host plays an expansion. -/

namespace Sys2Proof.Machine

/-- An entry of an `init` command table (R106, decision D25). -/
inductive InitEntry where
  /-- `Cmd(c, [p1, ..., pn])` -/
  | cmd (command : Byte) (params : List Byte)
  /-- `Wait(m)`, in milliseconds -/
  | wait (millis : Nat)
deriving DecidableEq, Repr

/-- A pseudo-operation (R70); `WRDATA` is resolved by the type of its operand. -/
inductive Pseudo where
  | init (seq : List InitEntry)
  | wrdataByte (byte : Byte)
  | wrdataWord (word : BitVec 16)
  | sdesel
  | delayms (millis : Nat)
deriving DecidableEq, Repr

/-- The operations of one table entry (R106). -/
def InitEntry.expand : InitEntry → List Instr
  | .cmd c ps => .wrcmd c :: ps.map .wrdat8
  | .wait m => [.delay (1000 * m)]

/-- The expansion of a pseudo-operation (R70, R106). -/
def Pseudo.expand (c : Config) : Pseudo → List Instr
  | .init seq => (if c.hasRst then [.rstpulse] else []) ++ seq.flatMap InitEntry.expand
  | .wrdataByte b => [.wrdat8 b]
  | .wrdataWord w => [.wrdat16 w]
  | .sdesel => [.pinwr c.ser.tcs true]
  | .delayms m => [.delay (1000 * m)]

/-- Whether the last operation ended `Ok`. -/
def State.lastOk (s : State) : Bool := (s.outcome.map OpOutcome.isOk).getD false

/-- Operations one after another; the first that does not return `Ok` ends the playback with its outcome (R106). -/
def runAll : List Instr → State → Host.Outcome State Fault Refusal
  | [], s => .next s
  | i :: l, s =>
    match exec i s with
    | .next t => if t.lastOk then runAll l t else .next t
    | .fault f => .fault f
    | .refused r => .refused r

/-- Every operation of the expansion has a command word: so a wait is at most 16777 ms (R70 (d), log 25). -/
def Pseudo.legal (c : Config) (p : Pseudo) : Bool := (p.expand c).all Instr.wellFormed

/-- A pseudo-operation: its expansion, read once when it is issued (20_memory.md R53); an empty expansion returns `Ok`. One whose
operand is out of range has no meaning and is refused before anything else (00_scope.md R9, 60_exceptions.md R171). -/
def execPseudo (p : Pseudo) (s : State) : Host.Outcome State Fault Refusal :=
  if p.legal s.cfg then runAll (p.expand s.cfg) (s.succeed .nothing) else refuseWord s

end Sys2Proof.Machine
end

