-- ==== Sys2Proof/Safety.lean ====
section
/-! DEFINITION. The terms claims are stated in: when a pin can be driven, when a connection is ready, the invariant of the
machine, what an operation leaves unchanged, the traces the rules give. -/

namespace Sys2Proof

open Machine

namespace Machine

/-! ### Preconditions on the state -/

/-- A register access under the bank lock would not have to wait. -/
def State.lockFree (s : State) (id : PinId) : Bool :=
  (s.cfg.find id).all fun d => (s.bank d.bank).lock == .free

/-- `PinWrite` to the pin goes through: initialised, registered, an output, its level registers writable, and on a SingleData
platform the bank lock free (40_pin_layer.md R84, 20_memory.md R50). -/
def State.drivable (s : State) (id : PinId) : Bool :=
  s.initialized && (s.cfg.find id).isSome && (s.pin id).dir == .output && (s.cfg.writableOf id).level &&
    (s.cfg.writeStyle == .setClear || s.lockFree id)

/-- Every output of the parallel bus can be driven (41_parallel_bus.md R100). -/
def State.busReady (s : State) : Bool := s.cfg.busOuts.all s.drivable

/-- Every output of the serial shifter can be driven and DOUT is a registered input (42_serial_adc.md R120). -/
def State.serialReady (s : State) : Bool :=
  s.cfg.serialOuts.all s.drivable && (s.pin s.cfg.ser.dout).dir == .input && (s.cfg.find s.cfg.ser.dout).isSome

/-- The RST line is wired and can be driven (41_parallel_bus.md R104). -/
def State.resetReady (s : State) : Bool := s.cfg.hasRst && s.drivable s.cfg.bus.rst

/-! ### The invariant of the machine -/

/-- The counters are as between operations (10_state.md R20). -/
structure State.CountersIdle (s : State) : Prop where
  pstep : s.pstep = .idle
  pbyte : s.pbyte = 0#1
  sstep : s.sstep = .idle
  sbit : s.sbit = 0#4
  scnt : s.scnt = 0#8
  rpass : s.rpass = 0#2

/-- What holds of the registers at every event: a well-formed configuration, `INITIALIZED` only after an attempt, nothing
touched before it, entries for registered pins only, no inverted pin, latches empty where unwritten, tables in the canonical
form. -/
structure State.Sound (s : State) : Prop where
  config : s.cfg.wellFormed = true
  tried : s.initialized = true → s.initTried = true
  untouched : s.initialized = false → s.pt = [] ∧ s.banks = []
  registered : ∀ id, s.cfg.find id = none → s.pin id = PinState.reset
  positive : ∀ id, (s.pin id).activeLow = false
  placeholders : ∀ b, (s.bank b).out &&& ~~~(s.bank b).written = 0#32
  pinTable : Table.wf PinState.reset s.pt = true
  bankTable : Table.wf Bank.reset s.banks = true
  pullTables : ∀ b, Table.wf Pull.unknown (s.bank b).pull = true

/-- What holds between operations: the registers are sound, the counters idle (10_state.md R20), every lock free (R15), the
pull registers cleared (R14). -/
structure State.Inv (s : State) : Prop where
  sound : s.Sound
  idle : s.CountersIdle
  locks : ∀ b, (s.bank b).lock = .free
  pulls : ∀ b, (s.bank b).pudctl = 0#32 ∧ (s.bank b).pudclk = 0#32

/-- `OUT` holds what the trace last drove (10_state.md R12). -/
def State.LatchesFollowTrace (s : State) : Prop :=
  ∀ id d, s.cfg.find id = some d → s.latch d.bank d.bit = levelAfter id s.trace

/-! ### What an operation leaves unchanged -/

/-- The flags are unchanged (10_state.md R28). -/
structure SameFlags (s t : State) : Prop where
  initialized : t.initialized = s.initialized
  initTried : t.initTried = s.initTried

/-- The configuration, the command port and the answer of `MapWindows()` are unchanged. -/
structure SameInputs (s t : State) : Prop where
  cfg : t.cfg = s.cfg
  port : t.port = s.port
  mapAnswer : t.mapAnswer = s.mapAnswer

/-- The accumulator and the registers of the filter and the resolver are unchanged. -/
structure SameWork (s t : State) : Prop where
  acc : t.acc = s.acc
  sb : t.sb = s.sb
  fr : t.fr = s.fr
  x1 : t.x1 = s.x1
  y1 : t.y1 = s.y1
  x2 : t.x2 = s.x2
  y2 : t.y2 = s.y2
  coord : t.coord = s.coord

/-- The step counters are unchanged. -/
structure SameCounters (s t : State) : Prop where
  pstep : t.pstep = s.pstep
  pbyte : t.pbyte = s.pbyte
  sstep : t.sstep = s.sstep
  sbit : t.sbit = s.sbit
  scnt : t.scnt = s.scnt
  rpass : t.rpass = s.rpass

/-- The trace, the clock and the inputs still to come are unchanged: no event happened. -/
structure NoEvent (s t : State) : Prop where
  trace : t.trace = s.trace
  now : t.now = s.now
  levels : t.levels = s.levels
  clock : t.clock = s.clock
  draws : t.draws = s.draws

/-- Every register of every bank but `OUT` is unchanged. -/
def SameBanksButOut (s t : State) : Prop :=
  ∀ b, (t.bank b).lock = (s.bank b).lock ∧ (t.bank b).fsel = (s.bank b).fsel ∧ (t.bank b).pull = (s.bank b).pull ∧
    (t.bank b).pudctl = (s.bank b).pudctl ∧ (t.bank b).pudclk = (s.bank b).pudclk

/-- No other register and no pin entry is touched: everything of the state but the outcome record. -/
def OnlyOutcome (s t : State) : Prop := t = { s with outcome := t.outcome }

/-- The pins of a list are open, each with the direction it had; every other entry of the pin table is unchanged (40_pin_layer.md
R80). -/
def OpensOnly (used : List PinId) (s t : State) : Prop :=
  ∀ id, t.pin id = if id ∈ used then { s.pin id with opened := true } else s.pin id

/-- The level of the latch at (b, k) after events that drive pins of the map, from the level before them. -/
def latchAfter (c : Config) (b k : Nat) (before : Option Level) (tr : List Event) : Option Level :=
  tr.foldl (fun l e =>
    match e with
    | .w p v => if (c.find p).any (fun d => d.bank == b && d.bit == k) then some v else l
    | .r _ _ => l
    | .d _ => l) before

/-- Every latch holds what the events drove onto it last, else what it held (10_state.md R12): no other bit of `OUT` changes. -/
def LatchesFollow (ev : List Event) (s t : State) : Prop :=
  ∀ b k, t.latch b k = latchAfter s.cfg b k (s.latch b k) ev

/-- The whole frame of a sequencer operation whose events are `ev` and whose pins are `used`: the events are appended, the
latches follow them, the pins used are open, and flags, inputs, other bank registers are unchanged. -/
structure RanEvents (ev : List Event) (used : List PinId) (s t : State) : Prop where
  trace : t.trace = s.trace ++ ev
  latches : LatchesFollow ev s t
  pins : OpensOnly used s t
  flags : SameFlags s t
  inputs : SameInputs s t
  banks : SameBanksButOut s t
  later : s.now + (ev.map Event.least).sum ≤ t.now

/-! ### The traces the rules give -/

/-- The events of step 4 (41_parallel_bus.md R107). -/
def driveTrace (c : Config) (b : Byte) : List Event :=
  [.w c.bus.db0 (b.getLsbD 0), .w c.bus.db1 (b.getLsbD 1), .w c.bus.db2 (b.getLsbD 2), .w c.bus.db3 (b.getLsbD 3),
   .w c.bus.db4 (b.getLsbD 4), .w c.bus.db5 (b.getLsbD 5), .w c.bus.db6 (b.getLsbD 6), .w c.bus.db7 (b.getLsbD 7)]

/-- The events of step 5 (41_parallel_bus.md R108). -/
def strobeTrace (c : Config) : List Event :=
  [.w c.bus.wr false, .d c.tWrLow, .w c.bus.wr true, .d c.tWrHigh]

/-- The events of a transaction (41_parallel_bus.md R100). -/
def transactionTrace (c : Config) (rs : Level) (bytes : List Byte) : List Event :=
  [.w c.bus.cs false] ++ (if c.hasRd then [.w c.bus.rd true] else []) ++ [.w c.bus.rs rs] ++
    bytes.flatMap (fun b => driveTrace c b ++ strobeTrace c) ++ [.w c.bus.cs true]

/-- The events of RSTPULSE (41_parallel_bus.md R104). -/
def resetTrace (c : Config) : List Event :=
  [.w c.bus.rst false, .d c.tRstLow, .w c.bus.rst true, .d c.tRstSettle]

/-- The events of SSTART (42_serial_adc.md R121). -/
def startTrace (c : Config) : List Event :=
  [.w c.ser.clk false, .w c.ser.tcs true, .w c.ser.din true, .w c.ser.clk true, .w c.ser.tcs false]

/-- The events of one clock that presents a bit on DIN (42_serial_adc.md R122). -/
def clockOutTrace (c : Config) (v : Level) : List Event :=
  [.w c.ser.clk false, .w c.ser.din v, .w c.ser.clk true]

/-- The events of SHOUT, bit 7 first (42_serial_adc.md R122). -/
def shiftOutTrace (c : Config) (b : Byte) : List Event :=
  [b.getLsbD 7, b.getLsbD 6, b.getLsbD 5, b.getLsbD 4, b.getLsbD 3, b.getLsbD 2, b.getLsbD 1, b.getLsbD 0].flatMap
    (clockOutTrace c)

/-- The events of SHIN, given the levels DOUT showed (42_serial_adc.md R123). -/
def shiftInTrace (c : Config) (vs : List Level) : List Event :=
  vs.flatMap fun v => [.w c.ser.clk false, .w c.ser.clk true, .r c.ser.dout v]

/-- The value of sampled bits, the first the most significant (30_encoding.md R65 (e)). -/
def bitsValue (vs : List Level) : Nat := vs.foldl (fun a v => 2 * a + v.toNat) 0

/-- The events of RDCH, given the levels DOUT showed (42_serial_adc.md R124). -/
def readTrace (c : Config) (ctrl : Byte) (vs : List Level) : List Event :=
  startTrace c ++ shiftOutTrace c ctrl ++ [.d c.tAdcSettle] ++ shiftInTrace c vs ++ [.w c.ser.tcs true]

/-- The levels DOUT shows for a sample of `n` bits (42_serial_adc.md R123). -/
def sampleBits (n : Nat) (v : Sample) : List Level := (List.range n).map fun j => v.getLsbD (n - 1 - j)

/-- The events of a filtered reading whose samples were these (43_filter_resolve.md R143). -/
def filterTrace (c : Config) (ctrl : Byte) (l : List Sample) : List Event :=
  l.flatMap fun v => readTrace c ctrl (sampleBits (conversionBits ctrl) v)

/-- A sample fits the conversion mode of a control byte (10_state.md R22). -/
def sampleFits (ctrl : Byte) (v : Sample) : Prop := v.toNat < 2 ^ conversionBits ctrl

end Machine

/-! ### What a command names -/

/-- The pin a pin operation names (20_memory.md R40 (1)). -/
def Instr.pinOperand : Instr → Option PinId
  | .pindir pin _ => some pin
  | .pinwr pin _ => some pin
  | .pinrd pin => some pin
  | .pinpull pin _ => some pin
  | .pintpulse pin _ => some pin
  | .pinclose pin => some pin
  | .pinwatch pin => some pin
  | .sysinit => none
  | .wrcmd _ => none
  | .wrdat8 _ => none
  | .wrdat16 _ => none
  | .rstpulse => none
  | .delay _ => none
  | .sstart => none
  | .shout _ => none
  | .shin _ => none
  | .rdch _ => none
  | .filt _ => none
  | .resolve => none

/-- The role pins a sequencer operation needs: those that must be outputs and those that must be inputs (40_pin_layer.md R92,
41_parallel_bus.md R100, R104, 42_serial_adc.md R120). -/
def Instr.roles (c : Config) : Instr → Option (List PinId × List PinId)
  | .wrcmd _ => some (c.busOuts, [])
  | .wrdat8 _ => some (c.busOuts, [])
  | .wrdat16 _ => some (c.busOuts, [])
  | .rstpulse => some ([c.bus.rst], [])
  | .sstart => some (c.serialOuts, c.serialIns)
  | .shout _ => some (c.serialOuts, c.serialIns)
  | .shin _ => some (c.serialOuts, c.serialIns)
  | .rdch _ => some (c.serialOuts, c.serialIns)
  | .filt _ => some (c.serialOuts, c.serialIns)
  | .resolve => some (c.serialOuts, c.serialIns)
  | .sysinit => none
  | .pindir _ _ => none
  | .pinwr _ _ => none
  | .pinrd _ => none
  | .pinpull _ _ => none
  | .pintpulse _ _ => none
  | .pinclose _ => none
  | .pinwatch _ => none
  | .delay _ => none

/-- An operation that neither its operand nor the configuration rules out (30_encoding.md R66 (d), (e), (f)). -/
def Config.permits (c : Config) : Instr → Bool
  | .shin n => legalBitCount n
  | .rstpulse => c.hasRst
  | .filt _ => !decide (c.window < 3)
  | .resolve => !decide (c.window < 3)
  | .sysinit => true
  | .pindir _ _ => true
  | .pinwr _ _ => true
  | .pinrd _ => true
  | .pinpull _ _ => true
  | .pintpulse _ _ => true
  | .pinclose _ => true
  | .pinwatch _ => true
  | .wrcmd _ => true
  | .wrdat8 _ => true
  | .wrdat16 _ => true
  | .delay _ => true
  | .sstart => true
  | .shout _ => true
  | .rdch _ => true

/-- The register-select level and the bytes of the transaction an operation makes (41_parallel_bus.md R101, R102, R103). -/
def Instr.transaction : Instr → Option (Level × List Byte)
  | .wrcmd b => some (false, [b])
  | .wrdat8 b => some (true, [b])
  | .wrdat16 w => some (true, [highByte w, lowByte w])
  | .sysinit => none
  | .pindir _ _ => none
  | .pinwr _ _ => none
  | .pinrd _ => none
  | .pinpull _ _ => none
  | .pintpulse _ _ => none
  | .pinclose _ => none
  | .pinwatch _ => none
  | .rstpulse => none
  | .delay _ => none
  | .sstart => none
  | .shout _ => none
  | .shin _ => none
  | .rdch _ => none
  | .filt _ => none
  | .resolve => none

namespace Machine

/-! ### The words rule R66 refuses, clause by clause -/

/-- The opcodes of the table (30_encoding.md R62). -/
def definedOpcodes : List Nat :=
  [0x01, 0x02, 0x03, 0x04, 0x05, 0x06, 0x07, 0x08, 0x10, 0x11, 0x12, 0x13, 0x14, 0x20, 0x21, 0x22, 0x23, 0x30, 0x31]

/-- R66 (a) to (d): an undefined opcode; a one in a field the format shows as 0; an illegal `arg`; SHIN with another bit
count. -/
def refusedByEncoding (w : Word) : Bool :=
  !definedOpcodes.contains (opField w) ||
  ([0x01, 0x13, 0x20, 0x31].contains (opField w) && imm24Field w != 0) ||
  ([0x10, 0x11, 0x21, 0x22, 0x23, 0x30].contains (opField w) && middleField w != 0) ||
  ([0x12].contains (opField w) && argField w != 0) ||
  ([0x02, 0x03, 0x06].contains (opField w) && decide (1 < argField w)) ||
  ([0x05].contains (opField w) && decide (2 < argField w)) ||
  ([0x04, 0x07, 0x08].contains (opField w) && argField w != 0) ||
  ([0x22].contains (opField w) && imm8Field w != 8#8 && imm8Field w != 12#8)

/-- R66 (e), (f): RSTPULSE without an RST line; FILT and RESOLVE with a window below 3. -/
def refusedByConfig (c : Config) (w : Word) : Bool :=
  ([0x13].contains (opField w) && !c.hasRst) || ([0x30, 0x31].contains (opField w) && decide (c.window < 3))

/-! ### Operations cut short -/

/-- Everything a pin write needs but the writability of the level registers. -/
def State.connected (s : State) (id : PinId) : Bool :=
  s.initialized && (s.cfg.find id).isSome && (s.pin id).dir == .output &&
    (s.cfg.writeStyle == .setClear || s.lockFree id)

end Machine

/-- The event is not a write to a pin whose level registers are read-only (60_exceptions.md R163). -/
def Config.allows (c : Config) : Event → Bool
  | .w p _ => (c.writableOf p).level
  | .r _ _ => true
  | .d _ => true

namespace Machine

/-- The pins events drive. -/
def drivenPins (ev : List Event) : List PinId :=
  ev.flatMap fun e =>
    match e with
    | .w p _ => [p]
    | .r _ _ => []
    | .d _ => []

end Machine

/-- The events of a sequencer operation up to its first read of an input, whatever the inputs show; every output role that the
operation drives at all is driven in them (41_parallel_bus.md R100, R104, 42_serial_adc.md R121 to R124, 43_filter_resolve.md R143,
R145). -/
def Instr.openingTrace (c : Config) : Instr → Option (List Event)
  | .wrcmd b => some (transactionTrace c false [b])
  | .wrdat8 b => some (transactionTrace c true [b])
  | .wrdat16 w => some (transactionTrace c true [highByte w, lowByte w])
  | .rstpulse => if c.hasRst then some (resetTrace c) else none
  | .sstart => some (startTrace c)
  | .shout b => some (shiftOutTrace c b)
  | .shin _ => some [.w c.ser.clk false, .w c.ser.clk true]
  | .rdch b => some (startTrace c ++ shiftOutTrace c b ++ [.d c.tAdcSettle])
  | .filt b => some (startTrace c ++ shiftOutTrace c b ++ [.d c.tAdcSettle])
  | .resolve => some (startTrace c ++ shiftOutTrace c c.ctrlX ++ [.d c.tAdcSettle])
  | .sysinit => none
  | .pindir _ _ => none
  | .pinwr _ _ => none
  | .pinrd _ => none
  | .pinpull _ _ => none
  | .pintpulse _ _ => none
  | .pinclose _ => none
  | .pinwatch _ => none
  | .delay _ => none

namespace Machine

/-! ### More frames -/

/-- An operation that only writes pins and waits ended `Ok`: its events happened, no input was used up, no work register
changed. -/
structure WroteOnly (ev : List Event) (used : List PinId) (s t : State) : Prop where
  ran : RanEvents ev used s t
  outcome : t.outcome = some (.ok .nothing)
  levels : t.levels = s.levels
  work : SameWork s t

/-- The two states agree on everything but the accumulator and the registers of the filter and the resolver. -/
def SameButWork (s t : State) : Prop :=
  t = { s with acc := t.acc, sb := t.sb, fr := t.fr, x1 := t.x1, y1 := t.y1, x2 := t.x2, y2 := t.y2, coord := t.coord }

/-- The levels DOUT shows for a window of samples read with a control byte (42_serial_adc.md R124). -/
def filterBits (ctrl : Byte) (l : List Sample) : List Level := l.flatMap (sampleBits (conversionBits ctrl))

/-- The levels read are those the outside supplies, as far as it supplies them, and these are used up. -/
structure ReadLevels (used : List Level) (s t : State) : Prop where
  supplied : used.take s.levels.length = s.levels.take used.length
  rest : t.levels = s.levels.drop used.length

/-- A list is another one sorted descending (43_filter_resolve.md R141). -/
def SortedFrom (sorted l : List Sample) : Prop := sorted.Perm l ∧ sorted.Pairwise fun a b => b.toNat ≤ a.toNat

/-- RESOLVE read these four windows, X, Y, X, Y, and kept their readings (43_filter_resolve.md R145). -/
structure ResolveRead (lx ly mx my : List Sample) (s t : State) : Prop where
  lengths : ∀ l ∈ [lx, ly, mx, my], l.length = s.cfg.window
  fitsX : ∀ v ∈ lx ++ mx, sampleFits s.cfg.ctrlX v
  fitsY : ∀ v ∈ ly ++ my, sampleFits s.cfg.ctrlY v
  levels : ReadLevels (filterBits s.cfg.ctrlX lx ++ filterBits s.cfg.ctrlY ly ++ filterBits s.cfg.ctrlX mx ++
    filterBits s.cfg.ctrlY my) s t
  ran : RanEvents (filterTrace s.cfg s.cfg.ctrlX lx ++ filterTrace s.cfg s.cfg.ctrlY ly ++ filterTrace s.cfg s.cfg.ctrlX mx ++
    filterTrace s.cfg s.cfg.ctrlY my) (s.cfg.serialOuts ++ s.cfg.serialIns) s t
  x1 : t.x1 = rankedMean lx
  y1 : t.y1 = rankedMean ly
  x2 : t.x2 = rankedMean mx
  y2 : t.y2 = rankedMean my
  fr : t.fr = rankedMean my
  sb : SortedFrom t.sb my
  acc : my.getLast? = some t.acc

/-- The exact rational a filtered reading stands for (10_state.md R24). -/
def Reading.value (r : Reading) : ℚ := (r.sum.toNat : ℚ) / (r.cnt.toNat : ℚ)

/-- A reading a window of samples can have: at least one sample kept, each at most 4095 (10_state.md R24). -/
def Reading.possible (r : Reading) : Prop := 0 < r.cnt.toNat ∧ r.sum.toNat ≤ 4095 * r.cnt.toNat

/-- The events of an entry of an `init` table (41_parallel_bus.md R106). -/
def entryTrace (c : Config) : InitEntry → List Event
  | .cmd b ps => transactionTrace c false [b] ++ ps.flatMap fun p => transactionTrace c true [p]
  | .wait m => [.d (microseconds (1000 * m))]

/-- The pins an entry of an `init` table uses (41_parallel_bus.md R106). -/
def entryPins (c : Config) : InitEntry → List PinId
  | .cmd _ _ => c.busOuts
  | .wait _ => []

/-- The entry is a command (41_parallel_bus.md R106). -/
def InitEntry.isCommand : InitEntry → Bool
  | .cmd _ _ => true
  | .wait _ => false

/-- Every wait of the table has a command word (30_encoding.md R70 (d)). -/
def waitsFit (seq : List InitEntry) : Prop := ∀ m, InitEntry.wait m ∈ seq → m ≤ 16777

end Machine

end Sys2Proof
end

