-- ==== Sys2Proof/Certificates/Slice0/Obligations.lean ====
section
/-! DEFINITION. The statements for the provers, in the order of OBLIGATIONS.json. Rules are those of spec/; "log n" is
notes/assumptions/n.md. -/

open Sys2Proof Sys2Proof.Machine

/-! ### The command word (30_encoding.md) -/

/-- R60 to R63: decoding the word of a well-formed operation gives the operation back, for every value of every operand. The
encoding is the spec's own (decision D1). -/
def Obligations.DecodeReadsEncode : Prop :=
  ∀ i : Instr, i.wellFormed = true → decode (encode i) = some i

/-- R60 to R63: a word that decodes is the one word of its operation, and the operation's operands are legal. The encoding is
the spec's own (decision D1). -/
def Obligations.EncodeReadsDecode : Prop :=
  ∀ (w : Word) (i : Instr), decode w = some i → encode i = w ∧ i.wellFormed = true

/-- R62, R66 (a) to (d): the decoder refuses exactly the words the clauses name, which are exactly the words outside the opcode
table; a word that decodes belongs to the row of its operation's mnemonic. The encoding and `Refused` are the spec's own
(decisions D1, D21). -/
def Obligations.DecodeRefusesExactly : Prop :=
  ∀ w : Word, (decode w = none ↔ refusedByEncoding w = true) ∧ ((decode w).isSome = inOpcodeTable w) ∧
    ∀ i, decode w = some i → ∃ r ∈ opcodeTable, r.mnemonic = i.mnemonic ∧ r.covers w = true

/-- R62: no word belongs to two rows of the opcode table. The encoding is the spec's own (decision D1). -/
def Obligations.OpcodeRowsDisjoint : Prop :=
  ∀ w : Word, ∀ r₁ ∈ opcodeTable, ∀ r₂ ∈ opcodeTable, r₁.covers w = true → r₂.covers w = true → r₁ = r₂

/-- 95_test_vectors.md E2, E7, E13, E15, E18, E19: words written out from the formats of R60 decode to the operations they stand
for. The encoding is the spec's own (decision D1). -/
def Obligations.SampleWordsDecode : Prop :=
  decode 0x02010025#32 = some (.pindir 37 .output) ∧ decode 0x05020004#32 = some (.pinpull 4 .up) ∧
    decode 0x1200F800#32 = some (.wrdat16 0xF800#16) ∧ decode 0x1400C350#32 = some (.delay 50000) ∧
    decode 0x2200000C#32 = some (.shin 12) ∧ decode 0x23000090#32 = some (.rdch 0x90#8)

/-- R66: for every word its clauses name, the outcome is `Refused`, and nothing else happens. The spec's own decision D21; the
port and the form of a refusal are the model's (logs 3, 5). -/
def Obligations.RefusedWordsDoNothing : Prop :=
  ∀ (s : State) (w : Word) (rest : List Word), s.port = w :: rest →
    (refusedByEncoding w = true ∨ refusedByConfig s.cfg w = true) →
    ∃ why, step s = .refused (.operation why { s with port := rest, outcome := some .refused })

/-- R60, R182: when the next command word decodes to an operation, a step is that operation, at the state with the word taken
from the port. The command word is the spec's own (decision D1), the port the model's (log 3). -/
def Obligations.StepRunsDecoded : Prop :=
  ∀ (s : State) (w : Word) (rest : List Word) (i : Instr), s.port = w :: rest → decode w = some i →
    step s = exec i { s with port := rest }

/-- R60, R182: the word of a well-formed operation, issued next, runs that operation, from every state. The command word is the
spec's own (decision D1), the port the model's (log 3). -/
def Obligations.IssuedWordRuns : Prop :=
  ∀ (s : State) (i : Instr), i.wellFormed = true → step (s.withFetchWord 32 (encode i).toNat) = exec i s

/-! ### Reset and configuration -/

/-- R33, R190: after reset the block is not initialised, no pin is open or has a direction, no level has been written, no pull
is known, the pull registers are cleared, every lock is free, the counters are idle, the trace is empty; for every
configuration. Most rows of R33 are the spec's own decision D13. -/
def Obligations.ResetLeavesNothingSet : Prop :=
  ∀ c : Config, (State.ofConfig c).initialized = false ∧ (State.ofConfig c).initTried = false ∧
    (∀ id, (State.ofConfig c).pin id = ⟨false, .unset, false⟩) ∧
    (∀ b k, (State.ofConfig c).latch b k = none ∧ ((State.ofConfig c).bank b).pullAt k = .unknown) ∧
    (∀ b, ((State.ofConfig c).bank b).lock = .free ∧ ((State.ofConfig c).bank b).pudctl = 0#32 ∧
      ((State.ofConfig c).bank b).pudclk = 0#32) ∧
    (State.ofConfig c).CountersIdle ∧ (State.ofConfig c).trace = []

/-- The invariant of `StepKeepsInvariant` and the agreement of `LatchesKeepFollowing` hold right after reset, in the reference
configuration and in every well-formed one. The reference configuration in `State.reset` is the model's choice (log 2), the
placeholders of unwritten bits too (log 10). -/
def Obligations.ResetIsSound : Prop :=
  State.reset.Inv ∧ State.reset.LatchesFollowTrace ∧
    ∀ c : Config, c.wellFormed = true → (State.ofConfig c).Inv ∧ (State.ofConfig c).LatchesFollowTrace

/-- R93, R32, R67, R5: a configuration is rejected when the block is built if a role names an id outside the map, if two roles share
an id, if a control byte of X or Y lacks the start bit, or if a parameter that R5 gives a value has another one (`P_EDGE_SUPPORT` is
false, `P_Y_CHECK` is true); a well-formed one is built. Decisions D11, D16, D20 and D24 are the spec's own; that the rejection is a
refusal of the build, and that nothing is checked later, is the model's (log 20). -/
def Obligations.MalformedConfigRejected : Prop :=
  ∀ c : Config,
    ((∃ r id, rolePin c r = some id ∧ c.find id = none) ∨
      (∃ r r' id, r ≠ r' ∧ rolePin c r = some id ∧ rolePin c r' = some id) ∨ c.ctrlX.getLsbD 7 = false ∨
      c.ctrlY.getLsbD 7 = false ∨ c.edgeSupport = true ∨ c.yCheck = false →
      State.configure c = .refused .malformedConfiguration) ∧
    (c.wellFormed = true → State.configure c = .next (State.ofConfig c))

/-- R41: the default formula has an inverse, and in a well-formed configuration no two ids are at one (bank, bit). -/
def Obligations.PinMapInjective : Prop :=
  (∀ id : PinId, ((PinDescriptor.ofId id).bank - 1) * 32 + (PinDescriptor.ofId id).bit.val = id) ∧
    ∀ (c : Config) (id₁ id₂ : PinId) (d₁ d₂ : PinDescriptor), c.wellFormed = true → c.find id₁ = some d₁ →
      c.find id₂ = some d₂ → d₁.bank = d₂.bank → d₁.bit = d₂.bit → id₁ = id₂

/-! ### The whole machine -/

/-- R33, R14, R15, R20: every step, also one that ends in `Refused`, keeps the invariant: sound registers and tables, idle
counters, free locks, cleared pull registers. The reset values are the spec's decision D13; placeholders and canonical tables
are the model's (logs 10, 21). -/
def Obligations.StepKeepsInvariant : Prop :=
  ∀ s t : State, s.Inv → (step s = .next t ∨ ∃ why, step s = .refused (.operation why t)) → t.Inv

/-- R10, R26, R27, R31: a step never changes the configuration, only appends to the trace, never turns the clock back (and
advances it by at least every delay it waits), and never clears a flag. That the configuration stands in the state is the
model's choice (log 2). -/
def Obligations.StepExtendsHistory : Prop :=
  ∀ s t : State, leftState (step s) = some t →
    t.cfg = s.cfg ∧ (∃ ev, t.trace = s.trace ++ ev ∧ s.now + (ev.map Event.least).sum ≤ t.now) ∧
      (s.initialized = true → t.initialized = true) ∧ (s.initTried = true → t.initTried = true)

/-- R10, R18: no operation but SYSINIT writes a flag, however the operation ends. `INIT_TRIED` is the spec's own (decision D4).
-/
def Obligations.OnlySysinitWritesFlags : Prop :=
  ∀ (i : Instr) (s t : State), i ≠ .sysinit → leftState (exec i s) = some t → SameFlags s t

/-- R18, R165, R209: after a failed initialisation every step leaves the block uninitialised, touches no pin and no bank, and
adds nothing but delays to the trace. That the attempt is never repeated is the spec's own decision D4. -/
def Obligations.FailedInitIsFinal : Prop :=
  ∀ s t : State, s.initTried = true → s.initialized = false → leftState (step s) = some t →
    t.initTried = true ∧ t.initialized = false ∧ t.pt = s.pt ∧ t.banks = s.banks ∧
      ∃ ev, t.trace = s.trace ++ ev ∧ ∀ e ∈ ev, ∃ n, e = .d n

/-- R11, R14, R22 to R25: a direction and its function-select field are written by PINDIR only, pulls and the pull registers by
PINPULL only, `open` is cleared by PINCLOSE only, the accumulator is written by the reading operations only, `SB` and `FR` by
FILT and RESOLVE only, the resolver's registers by RESOLVE only; no operation ends with a lock in another state. The
function-select field is held abstractly (log 12). -/
def Obligations.OnlyOwnersWrite : Prop :=
  ∀ (i : Instr) (s t : State), leftState (exec i s) = some t →
    ((∀ pin d, i ≠ .pindir pin d) →
      (∀ id, (t.pin id).dir = (s.pin id).dir) ∧ ∀ b, (t.bank b).fsel = (s.bank b).fsel) ∧
    ((∀ pin m, i ≠ .pinpull pin m) → ∀ b, (t.bank b).pull = (s.bank b).pull ∧ (t.bank b).pudctl = (s.bank b).pudctl ∧
      (t.bank b).pudclk = (s.bank b).pudclk) ∧
    ((∀ pin, i ≠ .pinclose pin) → ∀ id, (s.pin id).opened = true → (t.pin id).opened = true) ∧
    ((∀ n, i ≠ .shin n) → (∀ c, i ≠ .rdch c) → (∀ c, i ≠ .filt c) → i ≠ .resolve → t.acc = s.acc) ∧
    ((∀ c, i ≠ .filt c) → i ≠ .resolve → t.sb = s.sb ∧ t.fr = s.fr) ∧
    (i ≠ .resolve → t.x1 = s.x1 ∧ t.y1 = s.y1 ∧ t.x2 = s.x2 ∧ t.y2 = s.y2 ∧ t.coord = s.coord) ∧
    ∀ b, (t.bank b).lock = (s.bank b).lock

/-- R12: where the latches hold what the trace last drove, they do so after every step (the ids of a well-formed configuration
are at distinct bits). Unwritten bits are held by a mask (log 10). -/
def Obligations.LatchesKeepFollowing : Prop :=
  ∀ s t : State, s.cfg.wellFormed = true → s.LatchesFollowTrace → leftState (step s) = some t → t.LatchesFollowTrace

/-- R22 to R25, R33, R149: what an operation does, hands back and leaves does not depend on what stands in `ACC`, `SB`, `FR`,
`X1` to `Y2` and `COORD` before it: those are "never read before written". So the values that log 14 names for them at reset
bear on no result. -/
def Obligations.WorkRegistersNeverRead : Prop :=
  ∀ (i : Instr) (s s' t : State), SameButWork s s' → leftState (exec i s) = some t →
    ∃ t', leftState (exec i s') = some t' ∧ SameButWork t t'

/-- R172: a refused operation leaves the state as it was, but for `open` of the one pin that PINWR, PINPULL or PINWATCH names;
the outcome is `Refused`. `Refused` is the spec's own (decision D21); the form of a refusal is the model's (log 5). -/
def Obligations.RefusalLeavesState : Prop :=
  ∀ (i : Instr) (s t : State) (why : RefusalReason), exec i s = .refused (.operation why t) →
    t = { s with pt := t.pt, outcome := some .refused } ∧
      ((t.pt = s.pt) ∨ ∃ pin, i.pinOperand = some pin ∧ ((∃ v, i = .pinwr pin v) ∨ (∃ m, i = .pinpull pin m) ∨ i = .pinwatch pin) ∧
        ∀ id, t.pin id = if id = pin then { s.pin id with opened := true } else s.pin id)

/-- R88, R125, R206: where no lock is held, no operation but PINTPULSE can fail to end, and that one only by polling for ever.
The two faults are the model's names (logs 9, 11). -/
def Obligations.OnlyPulsePollsForever : Prop :=
  ∀ (i : Instr) (s : State) (f : Fault), (∀ b, (s.bank b).lock = .free) → exec i s = .fault f →
    ∃ pin target, i = .pintpulse pin target ∧ f = .pollNeverEnds pin

/-! ### Errors and refusals (60_exceptions.md) -/

/-- R164: a raise ends the operation, whatever statements would follow; it hands `Err(kind)` with its info to the host, sends
the counters to idle, and changes nothing else: no pin, no bank, no event of the trace. -/
def Obligations.RaiseLeavesTheRest : Prop :=
  ∀ (s : State) (e : ErrorKind) (info : Option PinId),
    (∀ (α : Type) (rest : α → State → Res Value), finish ((Res.err e info s).bind rest) = .next (s.raise e info)) ∧
    (s.raise e info).outcome = some (.err e info) ∧ (s.raise e info).CountersIdle ∧
      (s.raise e info).pt = s.pt ∧ (s.raise e info).banks = s.banks ∧ NoEvent s (s.raise e info) ∧
      SameFlags s (s.raise e info) ∧ SameInputs s (s.raise e info) ∧ SameWork s (s.raise e info) ∧
      (s.raise e info).accesses = s.accesses

/-- R161, R171: before initialisation every operation but SYSINIT and DELAY that is not refused for its operand or the
configuration raises `NotInitialized`, with the pin id when there is one; it is the first test, so nothing is touched. The order
of tests is in part the spec's own (decisions D15, D21). -/
def Obligations.UninitializedTouchesNothing : Prop :=
  ∀ (i : Instr) (s : State), s.initialized = false → i ≠ .sysinit → (∀ n, i ≠ .delay n) → s.cfg.permits i = true →
    exec i s = .next (s.raise .notInitialized i.pinOperand)

/-- R162: a pin operation on an id outside the map raises `PinNotRegistered` after the flag is tested, and changes nothing; in a
well-formed configuration no operation that names no pin raises it. -/
def Obligations.UnregisteredPinRaises : Prop :=
  (∀ (i : Instr) (s : State) (pin : PinId), i.pinOperand = some pin → s.initialized = true → s.cfg.find pin = none →
    exec i s = .next (s.raise .pinNotRegistered (some pin))) ∧
  ∀ (i : Instr) (s t : State) (info : Option PinId), i.pinOperand = none → s.cfg.wellFormed = true → exec i s = .next t →
    t.outcome ≠ some (.err .pinNotRegistered info)

/-- R163, R171: on a registered pin whose register is read-only PINDIR, PINWR and PINPULL raise `RegisterNotWritable` before the
register write, whatever the pin's direction and the pull mechanism; `PinCheck` has opened the pin. The spec's own decision D15.
-/
def Obligations.ReadOnlyRegisterRaises : Prop :=
  ∀ (s : State) (pin : PinId), s.initialized = true → (s.cfg.find pin).isSome = true →
    ((s.cfg.writableOf pin).dir = false → ∀ d,
      exec (.pindir pin d) s = .next ((s.openPin pin).raise .registerNotWritable (some pin))) ∧
    ((s.cfg.writableOf pin).level = false → ∀ v,
      exec (.pinwr pin v) s = .next ((s.openPin pin).raise .registerNotWritable (some pin))) ∧
    ((s.cfg.writableOf pin).pull = false → ∀ m,
      exec (.pinpull pin m) s = .next ((s.openPin pin).raise .registerNotWritable (some pin)))

/-- R84, R87, R90: PINWR to a pin that is not an output, PINPULL without the shared latch and PINWATCH with edge support are
refused after `PinCheck`, which has opened the pin; nothing else changes. The spec's own decisions D15, D16, D21, D23; the form
of a refusal is the model's (log 5). -/
def Obligations.RefusedAfterOpening : Prop :=
  ∀ (s : State) (pin : PinId), s.initialized = true → (s.cfg.find pin).isSome = true →
    ((s.cfg.writableOf pin).level = true → (s.pin pin).dir ≠ .output → ∀ v,
      exec (.pinwr pin v) s = .refused (.operation (.notAnOutput pin) (s.openPin pin).refuse)) ∧
    ((s.cfg.writableOf pin).pull = true → s.cfg.pullStyle = .absent → ∀ m,
      exec (.pinpull pin m) s = .refused (.operation (.noPullMechanism pin) (s.openPin pin).refuse)) ∧
    (s.cfg.edgeSupport = true →
      exec (.pinwatch pin) s = .refused (.operation (.edgeWatchUnspecified pin) (s.openPin pin).refuse))

/-- R92: a sequencer operation that is not refused for its operand or the configuration first raises `NotInitialized` on a block
that is not initialised, then is refused when a role pin that must be an output is none or one that must be an input is none; no
event and no change in either case. The spec's own decision D23; the form of a refusal is the model's (log 5). -/
def Obligations.SequencerChecksRoles : Prop :=
  ∀ (i : Instr) (s : State) (outs ins : List PinId), s.cfg.permits i = true → i.roles s.cfg = some (outs, ins) →
    (s.initialized = false → exec i s = .next (s.raise .notInitialized none)) ∧
    (s.initialized = true → ((∃ p ∈ outs, (s.pin p).dir ≠ .output) ∨ ∃ p ∈ ins, (s.pin p).dir ≠ .input) →
      exec i s = .refused (.operation .roleDirection s.refuse))

/-- R68: the status codes. The numbering is the spec's own (decision D2). -/
def Obligations.StatusCodes : Prop :=
  (∀ v, (OpOutcome.ok v).status = 0#4) ∧ OpOutcome.refused.status = 15#4 ∧
    ∀ info, (OpOutcome.err .notInitialized info).status = 1#4 ∧ (OpOutcome.err .pinNotRegistered info).status = 2#4 ∧
      (OpOutcome.err .registerNotWritable info).status = 3#4 ∧ (OpOutcome.err .mmapFailed info).status = 4#4 ∧
      (OpOutcome.err .unstableReading info).status = 5#4 ∧ (OpOutcome.err .outOfRange info).status = 6#4 ∧
      (OpOutcome.err .unimplemented info).status = 7#4

/-! ### The pin layer (40_pin_layer.md) -/

/-- R81: SYSINIT always completes. The first attempt asks `MapWindows()` and sets the flags; a later one reports what the first
gave and tries nothing. No event, nothing else changes; an error sends the counters to idle as every error does. The repeat is
the spec's own decision D4; the answer of `MapWindows()` is an input of the model (log 8). -/
def Obligations.SysinitRuns : Prop :=
  ∀ s : State,
    (s.initTried = true → s.initialized = true → exec .sysinit s = .next { s with outcome := some (.ok .nothing) }) ∧
    (s.initTried = true → s.initialized = false → exec .sysinit s = .next (s.raise .mmapFailed none)) ∧
    (s.initTried = false → s.mapWindows = true →
      exec .sysinit s = .next { s with initTried := true, initialized := true, outcome := some (.ok .nothing) }) ∧
    (s.initTried = false → s.mapWindows = false →
      exec .sysinit s = .next (({ s with initTried := true } : State).raise .mmapFailed none))

/-- R83, R50: PINDIR on a registered pin whose direction register is writable. The pin's direction and the one function-select
field change; every other field of the word, every other bank, every other pin stay; no event. The four accesses are the lock,
the read, the write-back and the release. The field is held abstractly (log 12); the record of accesses is the model's (log 16);
the read-only test is decision D15. -/
def Obligations.PindirRuns : Prop :=
  ∀ (s : State) (pin : PinId) (d : PinDescriptor) (dir : IoDir), s.initialized = true → s.cfg.find pin = some d →
    (s.cfg.writableOf pin).dir = true → (s.bank d.bank).lock = .free →
    ∃ t, exec (.pindir pin dir) s = .next t ∧ t.outcome = some (.ok .nothing) ∧
      (∀ id, t.pin id = if id = pin then { s.pin id with opened := true, dir := pinDirOf dir } else s.pin id) ∧
      (∀ b, t.bank b = if b = d.bank then { s.bank b with fsel := (t.bank b).fsel } else s.bank b) ∧
      (∀ k, (t.bank d.bank).fsel.getLsbD k =
        if k = d.bit.val then fieldSet dir else (s.bank d.bank).fsel.getLsbD k) ∧
      NoEvent s t ∧ SameFlags s t ∧ SameInputs s t ∧ SameWork s t ∧ SameCounters s t ∧
      t.accesses = s.accesses ++
        [.acquire d.bank, .read d.bank .fsel, .write d.bank .fsel (t.bank d.bank).fsel, .release d.bank]

/-- R84, R50, R52: PINWR to an output pin that is writable: `OUT[b][k] <- v` and no other bit, one event W, the pin open,
nothing else. On a SetClear platform one write of one bit and no lock; on a SingleData platform a read and a write of `DATA`
under the lock. The record of accesses and the mask of written bits are the model's (logs 10, 16). -/
def Obligations.PinwrRuns : Prop :=
  ∀ (s : State) (pin : PinId) (d : PinDescriptor) (v : Level), s.drivable pin = true → s.cfg.find pin = some d →
    ∃ t, exec (.pinwr pin v) s = .next t ∧ WroteOnly [.w pin v] [pin] s t ∧ SameCounters s t ∧
      (∀ b k, t.latch b k = if b = d.bank ∧ k = d.bit.val then some v else s.latch b k) ∧
      (s.cfg.writeStyle = .setClear →
        t.accesses = s.accesses ++ [.write d.bank (if v then .set else .clr) (oneHot d.bit)]) ∧
      (s.cfg.writeStyle = .singleData → t.accesses = s.accesses ++
        [.acquire d.bank, .read d.bank .data, .write d.bank .data (putBit (s.bank d.bank).out d.bit v), .release d.bank])

/-- R85, R13, R42, R21: PINRD of a registered pin: one event R with the level, which it returns: the bit of its pin in the word that
LEVEL returns. The level of a written output is its latch; on every other line it is the next level the outside supplies. In that
word every written output of the bank shows its latch. Where the pin carries DOUT, BUSY or PENIRQ, it is the level of that role's
register. No lock, no register written, the pin open, nothing else. The supplied levels and the record of accesses are the model's
(logs 6, 16, 17). -/
def Obligations.PinrdRuns : Prop :=
  ∀ (s : State) (pin : PinId) (d : PinDescriptor), s.initialized = true → s.cfg.find pin = some d →
    ∃ v t, exec (.pinrd pin) s = .next t ∧ t.outcome = some (.ok (.level v)) ∧ RanEvents [.r pin v] [pin] s t ∧
      t.banks = s.banks ∧ SameWork s t ∧ SameCounters s t ∧ t.accesses = s.accesses ++ [.read d.bank .level] ∧
      (∀ x, (s.pin pin).dir = .output → s.latch d.bank d.bit = some x → v = x ∧ t.levels = s.levels) ∧
      (∀ x l, ((s.pin pin).dir ≠ .output ∨ s.latch d.bank d.bit = none) → s.levels = x :: l → v = x ∧ t.levels = l) ∧
      v = (s.levelWord d).getLsbD d.bit ∧
      (∀ r, rolePin s.cfg r = some pin → r.isInput = true → s.roleLine r = some v) ∧
      (s.cfg.wellFormed = true → ∀ id e x, s.cfg.find id = some e → e.bank = d.bank → (s.pin id).dir = .output →
        s.latch e.bank e.bit = some x → (s.levelWord d).getLsbD e.bit = x)

/-- R13, R85 and the source's round trip (95_test_vectors.md S2): `set_direction(Out); write(v); read() == v`, in both write
styles. -/
def Obligations.WriteReadRoundTrip : Prop :=
  ∀ (s : State) (pin : PinId) (d : PinDescriptor) (v : Level), s.initialized = true → s.cfg.find pin = some d →
    (s.cfg.writableOf pin).dir = true → (s.cfg.writableOf pin).level = true → (s.bank d.bank).lock = .free →
    ∃ t u r, exec (.pindir pin .output) s = .next t ∧ exec (.pinwr pin v) t = .next u ∧ exec (.pinrd pin) u = .next r ∧
      r.outcome = some (.ok (.level v))

/-- R87, R204: PINPULL on a registered pin of a SharedLatch platform: the pin takes the pull, the other pins of the bank keep
theirs, both pull registers end cleared; one event D(T_PULL); the accesses are configure, strobe, clear, clear, all between
taking and giving back the lock. The code of a pull is uninterpreted (log 13); the record of accesses is the model's (log 16).
-/
def Obligations.PinpullRuns : Prop :=
  ∀ (s : State) (pin : PinId) (d : PinDescriptor) (m : PullMode), s.initialized = true → s.cfg.find pin = some d →
    (s.cfg.writableOf pin).pull = true → s.cfg.pullStyle = .sharedLatch → (s.bank d.bank).lock = .free →
    ∃ t, exec (.pinpull pin m) s = .next t ∧ t.outcome = some (.ok .nothing) ∧
      t.trace = s.trace ++ [.d s.cfg.tPull] ∧ s.now + s.cfg.tPull ≤ t.now ∧ t.levels = s.levels ∧
      OpensOnly [pin] s t ∧
      (∀ b, t.bank b =
        if b = d.bank then { s.bank b with pull := (t.bank b).pull, pudctl := 0#32, pudclk := 0#32 } else s.bank b) ∧
      (∀ k, (t.bank d.bank).pullAt k = if k = d.bit.val then pullOf m else (s.bank d.bank).pullAt k) ∧
      SameFlags s t ∧ SameInputs s t ∧ SameWork s t ∧ SameCounters s t ∧
      t.accesses = s.accesses ++
        [.acquire d.bank, .write d.bank .pudctl (Config.pullCode m), .write d.bank .pudclk (oneHot d.bit),
         .write d.bank .pudctl 0#32, .write d.bank .pudclk 0#32, .release d.bank]

/-- R88: PINTPULSE on a line that the block does not drive and that shows: any number of the target level (a stale pulse), the
opposite level, any number of it, the target level, any number of it, the opposite level. It reads exactly these, one event R
each, and returns the time from just after the first poll of the pulse to just after the poll that ends it: the sum of what the
clock ran at the polls between, where the clock is given. Where the time is taken is the spec's own decision D27; the supplied
levels and clock are the model's inputs (logs 6, 7). -/
def Obligations.PintpulseMeasures : Prop :=
  ∀ (s : State) (pin : PinId) (target : Level) (a b c : Nat) (rest : List Level), s.initialized = true →
    (s.cfg.find pin).isSome = true → (s.pin pin).dir ≠ .output →
    s.levels = List.replicate a target ++ (!target) :: (List.replicate b (!target) ++ target ::
      (List.replicate c target ++ (!target) :: rest)) →
    ∃ n t, exec (.pintpulse pin target) s = .next t ∧ t.outcome = some (.ok (.duration n)) ∧
      RanEvents (((List.replicate a target ++ (!target) :: (List.replicate b (!target) ++ target ::
        (List.replicate c target ++ [!target])))).map (.r pin)) [pin] s t ∧
      t.levels = rest ∧ t.banks = s.banks ∧ SameWork s t ∧ SameCounters s t ∧
      (a + b + c + 3 ≤ s.clock.length → n = ((s.clock.drop (a + b + 2)).take (c + 1)).sum)

/-- R88, R13, R206: on a line the block itself drives PINTPULSE never ends: the line cannot take both levels. That nobody else
drives the line meanwhile, and the fault's name, are the model's (logs 1, 9). -/
def Obligations.PintpulseOnDrivenLine : Prop :=
  ∀ (s : State) (pin : PinId) (d : PinDescriptor) (v target : Level), s.initialized = true → s.cfg.find pin = some d →
    (s.pin pin).dir = .output → s.latch d.bank d.bit = some v →
    exec (.pintpulse pin target) s = .fault (.pollNeverEnds pin)

/-- R89: PINCLOSE on a registered pin clears `open` and returns `Ok`; directions, banks and all else stay; a second close
changes nothing and returns `Ok`. The spec's own decision D22. -/
def Obligations.PincloseRuns : Prop :=
  ∀ (s : State) (pin : PinId), s.initialized = true → (s.cfg.find pin).isSome = true →
    ∃ t, exec (.pinclose pin) s = .next t ∧ t = { s with pt := t.pt, outcome := some (.ok .nothing) } ∧
      (∀ id, t.pin id = if id = pin then { s.pin id with opened := false } else s.pin id) ∧
      exec (.pinclose pin) t = .next t

/-- R90: PINWATCH on a registered pin of a block without edge support raises `Unimplemented` with the pin id, after `PinCheck`
has opened the pin: that is all it does. The spec's own decision D16. -/
def Obligations.PinwatchIsStub : Prop :=
  ∀ (s : State) (pin : PinId), s.initialized = true → (s.cfg.find pin).isSome = true → s.cfg.edgeSupport = false →
    ∃ t, exec (.pinwatch pin) s = .next t ∧ t.outcome = some (.err .unimplemented (some pin)) ∧ OpensOnly [pin] s t ∧
      t.CountersIdle ∧ t.banks = s.banks ∧ NoEvent s t ∧ SameFlags s t ∧ SameInputs s t ∧ SameWork s t ∧
      t.accesses = s.accesses

/-! ### The parallel write sequencer (41_parallel_bus.md) -/

/-- R100 to R103, R107, R108: on a bus whose outputs can be driven WRCMD, WRDAT8 and WRDAT16 complete, with exactly the events
of the six steps, the bus pins open, `PSTEP` and `PBYTE` idle, and nothing else changed. The order of the data pins is the
spec's own decision D5. -/
def Obligations.TransactionsRun : Prop :=
  ∀ (i : Instr) (s : State) (rs : Level) (bytes : List Byte), s.busReady = true → i.transaction = some (rs, bytes) →
    ∃ t, exec i s = .next t ∧ WroteOnly (transactionTrace s.cfg rs bytes) s.cfg.busOuts s t ∧ t.pstep = .idle ∧
      t.pbyte = 0#1 ∧ t.sstep = s.sstep ∧ t.sbit = s.sbit ∧ t.scnt = s.scnt ∧ t.rpass = s.rpass

/-- R110: after a transaction that returned `Ok`, CS, WR and RD (when wired) are 1, RS is the level of the transaction, the data
lines hold its last byte, `PSTEP` is idle, RST is not touched. The spec marks R110 as its inference from R100. -/
def Obligations.BusAfterTransaction : Prop :=
  ∀ (i : Instr) (s t : State) (rs : Level) (bytes : List Byte) (last : Byte), s.cfg.wellFormed = true →
    i.transaction = some (rs, bytes) → bytes.getLast? = some last → exec i s = .next t →
    t.outcome = some (.ok .nothing) →
    t.roleLine .cs = some true ∧ t.roleLine .wr = some true ∧ (s.cfg.hasRd = true → t.roleLine .rd = some true) ∧
      t.roleLine .rs = some rs ∧
      [.db0, .db1, .db2, .db3, .db4, .db5, .db6, .db7].map t.roleLine = (bitsLowFirst last).map some ∧
      t.pstep = .idle ∧ t.roleLine .rst = s.roleLine .rst

/-- R109: a transaction that returned `Ok` adds to what the controller has latched exactly its bytes, in order, each with its
register-select level, whatever the lines were before. The spec marks R109 as its inference from R100, R107 and R108. -/
def Obligations.ControllerLatchesBytes : Prop :=
  ∀ (i : Instr) (s t : State) (rs : Level) (bytes : List Byte), s.cfg.wellFormed = true →
    i.transaction = some (rs, bytes) → exec i s = .next t → t.outcome = some (.ok .nothing) →
    latched s.cfg.bus t.trace = latched s.cfg.bus s.trace ++ bytes.map fun b => some (rs, b)

/-- R111, R120, R143, R145, R163: a sequencer operation whose role pins are ready but for writability stops at its first write to a
pin whose level registers are read-only, with `RegisterNotWritable` and the pin's id; the events before it stay, the counters return
to idle, no input is read, nothing else changes. It holds for WRCMD, WRDAT8, WRDAT16, RSTPULSE, SSTART, SHOUT, SHIN, RDCH, FILT and
RESOLVE: each drives every role it drives before it reads an input. SHIN has cleared the accumulator by then (R123). What an aborted
operation leaves is the spec's own decision D28. -/
def Obligations.FailedWriteAborts : Prop :=
  ∀ (i : Instr) (s : State) (outs ins : List PinId) (ev rest : List Event) (p : PinId) (v : Level),
    s.cfg.permits i = true → i.roles s.cfg = some (outs, ins) → outs.all s.connected = true →
    ins.all (fun q => (s.pin q).dir == .input) = true →
    i.openingTrace s.cfg = some ev → ev.dropWhile s.cfg.allows = .w p v :: rest →
    ∃ t, exec i s = .next t ∧ t.outcome = some (.err .registerNotWritable (some p)) ∧
      RanEvents (ev.takeWhile s.cfg.allows) (drivenPins (ev.takeWhile s.cfg.allows) ++ [p]) s t ∧ t.CountersIdle ∧
      t.levels = s.levels ∧ SameWork s { t with acc := s.acc } ∧ ((∀ n, i ≠ .shin n) → t.acc = s.acc) ∧
      ((∃ n, i = .shin n) → t.acc = 0#12)

/-- R104: on a wiring with an RST line that can be driven RSTPULSE completes: low, wait, high, settle; RST is 1 after it; no
other pin is touched. The hold between the two writes is the spec's own decision D6. -/
def Obligations.RstpulseRuns : Prop :=
  ∀ s : State, s.resetReady = true →
    ∃ t, exec .rstpulse s = .next t ∧ WroteOnly (resetTrace s.cfg) [s.cfg.bus.rst] s t ∧ SameCounters s t ∧
      t.roleLine .rst = some true

/-- R105, R200, R27: DELAY, opcode 0x14 with any 24-bit time in microseconds, completes in every state, initialised or not: one event
D, the clock at least as much later, no pin, no register, no flag changed. The encoding is the spec's own (decision D1); that times
are held in nanoseconds, and that `exec` takes a time no word holds, are the model's choices (logs 18, 26). -/
def Obligations.DelayRuns : Prop :=
  ∀ (s : State) (n : Nat), (n < 2 ^ 24 → decode (BitVec.ofNat 32 (0x14000000 + n)) = some (.delay n)) ∧
    ∃ t, exec (.delay n) s = .next t ∧
      t = { s with outcome := some (.ok .nothing), trace := s.trace ++ [.d (1000 * n)], now := t.now, clock := t.clock,
                   draws := t.draws } ∧
      s.now + 1000 * n ≤ t.now

/-- R106: INIT of a table whose waits have a command word, on a bus that is ready, and with RST ready where it is wired, plays the
whole table: the reset pulse first where there is an RST line, then each entry in order, each command and each parameter a whole
transaction, each wait a delay in milliseconds. The pins used are open, the latches hold what was driven, the counters are idle as
its transactions leave them, nothing else changes. The form of the table is the spec's own (decision D25); a table with a wait beyond
16777 ms is refused (`PseudoStops`), which is the model's choice (log 25). -/
def Obligations.InitPlaysTable : Prop :=
  ∀ (s : State) (seq : List InitEntry), s.busReady = true → (s.cfg.hasRst = true → s.resetReady = true) → waitsFit seq →
    ∃ t, execPseudo (.init seq) s = .next t ∧
      WroteOnly ((if s.cfg.hasRst then resetTrace s.cfg else []) ++ seq.flatMap (entryTrace s.cfg))
        ((if s.cfg.hasRst then [s.cfg.bus.rst] else []) ++ seq.flatMap (entryPins s.cfg)) s t ∧
      (if seq.any InitEntry.isCommand then t.pstep = .idle ∧ t.pbyte = 0#1 else t.pstep = s.pstep ∧ t.pbyte = s.pbyte) ∧
      t.sstep = s.sstep ∧ t.sbit = s.sbit ∧ t.scnt = s.scnt ∧ t.rpass = s.rpass

/-! ### The serial shifter (42_serial_adc.md) -/

/-- R121: SSTART on a connection that is ready completes with its five writes; CLK and DIN are left high, TCS low, as the last
writes say. -/
def Obligations.SstartRuns : Prop :=
  ∀ s : State, s.serialReady = true →
    ∃ t, exec .sstart s = .next t ∧ WroteOnly (startTrace s.cfg) s.cfg.serialOuts s t ∧ t.sstep = .idle ∧
      t.sbit = s.sbit ∧ t.pstep = s.pstep ∧ t.pbyte = s.pbyte ∧ t.scnt = s.scnt ∧ t.rpass = s.rpass ∧
      (s.cfg.wellFormed = true →
        t.roleLine .clk = some true ∧ t.roleLine .din = some true ∧ t.roleLine .tcs = some false)

/-- R122: SHOUT on a connection that is ready completes with 24 writes, bit 7 first; CLK is left high, DIN at bit 0, TCS is not
touched. -/
def Obligations.ShoutRuns : Prop :=
  ∀ (s : State) (b : Byte), s.serialReady = true →
    ∃ t, exec (.shout b) s = .next t ∧ WroteOnly (shiftOutTrace s.cfg b) [s.cfg.ser.clk, s.cfg.ser.din] s t ∧
      t.sstep = .idle ∧ t.sbit = 0#4 ∧ t.pstep = s.pstep ∧ t.pbyte = s.pbyte ∧ t.scnt = s.scnt ∧ t.rpass = s.rpass ∧
      (s.cfg.wellFormed = true → t.roleLine .clk = some true ∧ t.roleLine .din = some (b.getLsbD 0) ∧
        t.roleLine .tcs = s.roleLine .tcs)

/-- R123, R65 (e): SHIN of 8 or 12 bits on a connection that is ready completes: for each bit CLK low, CLK high, one sample of
DOUT; the value returned and left in `ACC` is that of the bits sampled, the first the most significant; the bits are those the
outside supplies, as far as it supplies them. The supplied levels are the model's inputs (log 6). -/
def Obligations.ShinRuns : Prop :=
  ∀ (s : State) (n : Nat), s.serialReady = true → (n = 8 ∨ n = 12) →
    ∃ t vs v, exec (.shin n) s = .next t ∧ vs.length = n ∧ t.outcome = some (.ok (.sample v)) ∧
      v.toNat = bitsValue vs ∧ t.acc = v ∧ RanEvents (shiftInTrace s.cfg vs) [s.cfg.ser.clk, s.cfg.ser.dout] s t ∧
      vs.take s.levels.length = s.levels.take n ∧ t.levels = s.levels.drop n ∧
      t.sb = s.sb ∧ t.fr = s.fr ∧ t.x1 = s.x1 ∧ t.y1 = s.y1 ∧ t.x2 = s.x2 ∧ t.y2 = s.y2 ∧ t.coord = s.coord ∧
      t.sstep = .idle ∧ t.sbit = 0#4 ∧ t.pstep = s.pstep ∧ t.pbyte = s.pbyte ∧ t.scnt = s.scnt ∧ t.rpass = s.rpass

/-- R124, R64: RDCH on a connection that is ready completes: the framing, the control byte, the settle delay, 8 bits when bit 3
of the control byte is 1 and 12 when it is 0, the deselection; the value returned and left in `ACC` is that of the bits sampled.
The choice of the bit count is the spec's own decision D7; the supplied levels are the model's inputs (log 6). -/
def Obligations.RdchRuns : Prop :=
  ∀ (s : State) (c : Byte), s.serialReady = true →
    ∃ t vs v, exec (.rdch c) s = .next t ∧ vs.length = (if c.getLsbD 3 then 8 else 12) ∧
      t.outcome = some (.ok (.sample v)) ∧ v.toNat = bitsValue vs ∧ t.acc = v ∧
      RanEvents (readTrace s.cfg c vs) (s.cfg.serialOuts ++ s.cfg.serialIns) s t ∧
      vs.take s.levels.length = s.levels.take vs.length ∧ t.levels = s.levels.drop vs.length ∧
      t.sb = s.sb ∧ t.fr = s.fr ∧ t.x1 = s.x1 ∧ t.y1 = s.y1 ∧ t.x2 = s.x2 ∧ t.y2 = s.y2 ∧ t.coord = s.coord ∧
      t.sstep = .idle ∧ t.sbit = 0#4 ∧ t.pstep = s.pstep ∧ t.pbyte = s.pbyte ∧ t.scnt = s.scnt ∧ t.rpass = s.rpass

/-- R121, R122, R124: what the ADC samples on DIN. SSTART adds nothing; SHOUT with TCS low adds the bits of its byte, most
significant first; RDCH adds the bits of its control byte and then bit 0 once for each clock of the read-out. The spec marks
these as its inferences from the pseudocode. -/
def Obligations.AdcSamplesControlByte : Prop :=
  ∀ (s t : State), s.cfg.wellFormed = true → s.serialReady = true →
    (exec .sstart s = .next t → dinSampled s.cfg.ser t.trace = dinSampled s.cfg.ser s.trace) ∧
    (∀ b, exec (.shout b) s = .next t → levelAfter s.cfg.ser.tcs s.trace = some false →
      dinSampled s.cfg.ser t.trace = dinSampled s.cfg.ser s.trace ++ (bitsHighFirst b).map some) ∧
    (∀ c, exec (.rdch c) s = .next t → dinSampled s.cfg.ser t.trace = dinSampled s.cfg.ser s.trace ++
      (bitsHighFirst c).map some ++ List.replicate (if c.getLsbD 3 then 8 else 12) (some (c.getLsbD 0)))

/-- R125: the shifter never waits on an input: the four serial operations end after a number of events that depends on the
operand alone: 5, 24, 3n, and 31 + 3n (67 for a 12-bit read, 55 for an 8-bit read). The spec marks R125 as its inference from
R121 to R124. -/
def Obligations.SerialEventCounts : Prop :=
  ∀ s : State, s.serialReady = true →
    (∃ t, exec .sstart s = .next t ∧ t.trace.length = s.trace.length + 5) ∧
    (∀ b, ∃ t, exec (.shout b) s = .next t ∧ t.trace.length = s.trace.length + 24) ∧
    (∀ n, n = 8 ∨ n = 12 → ∃ t, exec (.shin n) s = .next t ∧ t.trace.length = s.trace.length + 3 * n) ∧
    (∀ c, ∃ t, exec (.rdch c) s = .next t ∧ t.trace.length = s.trace.length + (if c.getLsbD 3 then 55 else 67))

/-- R128: the sequence SSTART, SHOUT c, DELAY 6, SHIN n, PINWR TCS 1 leaves the same state as RDCH c, but for the outcome handed
to the host, when `n` matches bit 3 of c and `T_ADC_SETTLE` is 6 µs. The spec marks R128 as its inference from R124. -/
def Obligations.PrimitivesMakeRdch : Prop :=
  ∀ (s : State) (c : Byte), s.serialReady = true → s.cfg.tAdcSettle = microseconds 6 →
    ∃ t u, exec (.rdch c) s = .next t ∧
      runAll [.sstart, .shout c, .delay 6, .shin (if c.getLsbD 3 then 8 else 12), .pinwr s.cfg.ser.tcs true] s = .next u ∧
      u.trace = t.trace ∧ u = { t with outcome := u.outcome }

/-! ### The filter and the resolver (43_filter_resolve.md) -/

/-- R143: FILT on a connection that is ready, with a window of 3 to 255: it reads that many samples one after another, whatever DOUT
shows, returns and leaves in `FR` their ranked mean, leaves `SB` as the samples sorted descending and `ACC` at the last sample; its
trace is that of the reads alone. The bits of the samples are those the outside supplies, as far as it supplies them. The ranked
mean is in part the spec's own (decisions D8, D9); the supplied levels are the model's inputs (log 6). -/
def Obligations.FiltRuns : Prop :=
  ∀ (s : State) (c : Byte), s.serialReady = true → 3 ≤ s.cfg.window → s.cfg.window ≤ 255 →
    ∃ t l, exec (.filt c) s = .next t ∧ l.length = s.cfg.window ∧ (∀ v ∈ l, sampleFits c v) ∧
      ReadLevels (filterBits c l) s t ∧ t.outcome = some (.ok (.reading (rankedMean l))) ∧ t.fr = rankedMean l ∧
      SortedFrom t.sb l ∧ l.getLast? = some t.acc ∧
      RanEvents (filterTrace s.cfg c l) (s.cfg.serialOuts ++ s.cfg.serialIns) s t ∧
      t.x1 = s.x1 ∧ t.y1 = s.y1 ∧ t.x2 = s.x2 ∧ t.y2 = s.y2 ∧ t.coord = s.coord ∧ t.sstep = .idle ∧ t.sbit = 0#4 ∧
      t.scnt = 0#8 ∧ t.rpass = s.rpass ∧ t.pstep = s.pstep ∧ t.pbyte = s.pbyte

/-- R141: the ranked mean of 3 to 255 samples is the exact sum and count of the samples in ranks 2 to W - 3 of the descending
order when W is at least 5, and of all of them when W is 3 or 4. The least remainder and the exact pair are the spec's own
(decisions D8, D9). -/
def Obligations.RankedMeanIsMiddle : Prop :=
  ∀ l : List Sample, 3 ≤ l.length → l.length ≤ 255 →
    ∃ T : List Sample, T.Perm l ∧ T.Pairwise (fun a b => b.toNat ≤ a.toNat) ∧
      (rankedMean l).sum.toNat =
        sampleSum (if 5 ≤ l.length then (T.drop 2).take (l.length - 4) else T) ∧
      (rankedMean l).cnt.toNat = if 5 ≤ l.length then l.length - 4 else l.length

/-- R142 (a), (b), (c): the ranked mean depends on the multiset of samples only; identical samples give that value; the value
lies between any bounds of the samples. The spec marks these as its inferences from R141. -/
def Obligations.RankedMeanProperties : Prop :=
  (∀ l l' : List Sample, l.Perm l' → rankedMean l = rankedMean l') ∧
  (∀ (v : Sample) (n : Nat), 3 ≤ n → n ≤ 255 → (rankedMean (List.replicate n v)).value = (v.toNat : ℚ)) ∧
  ∀ (l : List Sample) (lo hi : Nat), 3 ≤ l.length → l.length ≤ 255 → (∀ v ∈ l, lo ≤ v.toNat ∧ v.toNat ≤ hi) →
    (lo : ℚ) ≤ (rankedMean l).value ∧ (rankedMean l).value ≤ (hi : ℚ)

/-- R142 (d): two samples not less than all the others and two not greater than all the others leave no mark on the result: it
is the sum and the count of the others. The spec marks this as its inference from R141. -/
def Obligations.RankedMeanDropsOutliers : Prop :=
  ∀ (l mid : List Sample) (a b c d : Sample), mid ≠ [] → mid.length ≤ 251 →
    (∀ v ∈ mid, v.toNat ≤ a.toNat ∧ v.toNat ≤ b.toNat ∧ c.toNat ≤ v.toNat ∧ d.toNat ≤ v.toNat) →
    l.Perm (a :: b :: c :: d :: mid) →
    (rankedMean l).sum.toNat = sampleSum mid ∧ (rankedMean l).cnt.toNat = mid.length

/-- R145, R148: RESOLVE on a connection that is ready, with a window of 3 to 255, completes whatever DOUT shows: it reads the four
windows X, Y, X, Y in that order and keeps the four readings; when they resolve it returns the coordinate, which it leaves in
`COORD`, and when they do not it raises the error. The bits of the samples are those the outside supplies, as far as it supplies
them. Rounding and the place of the bounds are the spec's own (decisions D8 to D11); the supplied levels are the model's inputs
(log 6). -/
def Obligations.ResolveRuns : Prop :=
  ∀ s : State, s.serialReady = true → 3 ≤ s.cfg.window → s.cfg.window ≤ 255 →
    ∃ t lx ly mx my, exec .resolve s = .next t ∧ ResolveRead lx ly mx my s t ∧
      (∀ c, resolveValues s.cfg.yCheck (rankedMean lx) (rankedMean ly) (rankedMean mx) (rankedMean my) = .ok c →
        t.outcome = some (.ok (.coord c)) ∧ t.coord = c) ∧
      (∀ e, resolveValues s.cfg.yCheck (rankedMean lx) (rankedMean ly) (rankedMean mx) (rankedMean my) = .error e →
        t.outcome = some (.err e none)) ∧
      t.sstep = .idle ∧ t.sbit = 0#4 ∧ t.scnt = 0#8 ∧ t.rpass = 0#2 ∧
      (t.outcome.any OpOutcome.isOk = true → t.pstep = s.pstep ∧ t.pbyte = s.pbyte)

/-- R145, R166, R167, R169: when the four readings that RESOLVE takes do not resolve, it has taken all four windows all the same; it
raises the error and returns no coordinate: `COORD` is not written, the counters are idle, and the pins are left as by a RESOLVE that
succeeds. The place of the bounds is the spec's own (decision D11); the supplied levels are the model's inputs (log 6). -/
def Obligations.ResolveRejects : Prop :=
  ∀ s : State, s.serialReady = true → 3 ≤ s.cfg.window → s.cfg.window ≤ 255 →
    ∃ t lx ly mx my, exec .resolve s = .next t ∧ ResolveRead lx ly mx my s t ∧
      ∀ e, resolveValues s.cfg.yCheck (rankedMean lx) (rankedMean ly) (rankedMean mx) (rankedMean my) = .error e →
        t.outcome = some (.err e none) ∧ t.coord = s.coord ∧ t.CountersIdle

/-- R148, R144, R146: over the exact rational values of four possible readings: unstable when a distance exceeds 50; else out of
range when the rounded-down X average is below 100 or, where the Y bound is applied, the rounded-down Y average is above 4000;
else the coordinate of the rounded-down averages, which fit 12 bits. Rounding, the order of the tests and the place of the
bounds are the spec's own (decisions D8, D10, D11). -/
def Obligations.ResolveValuesFollowsRule : Prop :=
  ∀ (yCheck : Bool) (x1 y1 x2 y2 : Reading), x1.possible → y1.possible → x2.possible → y2.possible →
    (50 < |x1.value - x2.value| ∨ 50 < |y1.value - y2.value| →
      resolveValues yCheck x1 y1 x2 y2 = .error .unstableReading) ∧
    (|x1.value - x2.value| ≤ 50 → |y1.value - y2.value| ≤ 50 →
      (⌊(x1.value + x2.value) / 2⌋ < 100 ∨ (yCheck = true ∧ 4000 < ⌊(y1.value + y2.value) / 2⌋) →
        resolveValues yCheck x1 y1 x2 y2 = .error .outOfRange) ∧
      (100 ≤ ⌊(x1.value + x2.value) / 2⌋ → (yCheck = true → ⌊(y1.value + y2.value) / 2⌋ ≤ 4000) →
        ∃ c, resolveValues yCheck x1 y1 x2 y2 = .ok c ∧ (c.x.toNat : ℤ) = ⌊(x1.value + x2.value) / 2⌋ ∧
          (c.y.toNat : ℤ) = ⌊(y1.value + y2.value) / 2⌋))

/-! ### The pseudo-operations (30_encoding.md R70, 41_parallel_bus.md R106) -/

/-- R106, R70: the first operation of INIT that does not return `Ok` ends the playback with its outcome, and the rest of the table is
not played. DELAYMS of at most 16777 ms is DELAY of 1000 times as many microseconds; beyond that it is refused, and so is INIT with
such a wait: no event, no change. The forms are the spec's own (decisions D1, D25); that INIT is refused whole is the model's choice
(log 25), and so is the form of a refusal (log 5). -/
def Obligations.PseudoStops : Prop :=
  (∀ (s u : State) (seq : List InitEntry) (pre post : List Instr) (i : Instr), waitsFit seq →
    (Pseudo.init seq).expand s.cfg = pre ++ i :: post → runAll pre (s.succeed .nothing) = .next u → u.lastOk = true →
    (∀ t e info, exec i u = .next t → t.outcome = some (.err e info) → execPseudo (.init seq) s = .next t) ∧
    (∀ r, exec i u = .refused r → execPseudo (.init seq) s = .refused r) ∧
    ∀ f, exec i u = .fault f → execPseudo (.init seq) s = .fault f) ∧
  ∀ (s : State) (m : Nat),
    (m ≤ 16777 → execPseudo (.delayms m) s = exec (.delay (1000 * m)) s) ∧
    (16777 < m → execPseudo (.delayms m) s = .refused (.operation .malformedCommand s.refuse) ∧
      ∀ seq, InitEntry.wait m ∈ seq → execPseudo (.init seq) s = .refused (.operation .malformedCommand s.refuse))
end

