-- ==== Sys2Proof/Laws/Bits.lean ====
section
/-! SUPPORT. Laws of the bit operations. -/

namespace Sys2Proof.Machine

@[simp] theorem oneHot_getLsbD (k j : Nat) (hk : k < 32) : (oneHot k).getLsbD j = decide (j = k) := by
  unfold oneHot
  rw [BitVec.getLsbD_shiftLeft]
  by_cases hj : j = k
  · subst hj; simp [hk]
  · by_cases hlt : j < k
    · simp [hj, hlt]
    · have hne : j - k ≠ 0 := by omega
      simp [hj, hlt, hne]

@[simp] theorem oneHot_getElem (k j : Nat) (hk : k < 32) (hj : j < 32) : (oneHot k)[j] = decide (j = k) := by
  rw [← BitVec.getLsbD_eq_getElem]; exact oneHot_getLsbD k j hk

/-- Replacing one bit changes that bit and no other. -/
theorem putBit_getLsbD (w : Word) (k : Nat) (v : Bool) (j : Nat) (hk : k < 32) :
    (putBit w k v).getLsbD j = if j = k then v else w.getLsbD j := by
  unfold putBit
  by_cases hj : j < 32
  · cases v <;> by_cases h : j = k <;> simp [hk, h, hj]
  · have : j ≠ k := by omega
    cases v <;> simp [this, BitVec.getLsbD_of_ge, not_lt.mp hj]

/-- The bits of a word built from bits. -/
theorem wordOfBits_getLsbD (f : Nat → Bool) (n j : Nat) (hn : n ≤ 32) :
    (wordOfBits f n).getLsbD j = (decide (j < n) && f j) := by
  induction n with
  | zero => simp [wordOfBits]
  | succ n ih =>
    rw [wordOfBits, putBit_getLsbD _ _ _ _ (by omega), ih (by omega)]
    by_cases h : j = n
    · simp [h]
    · have : j < n + 1 ↔ j < n := by omega
      simp [h, this]

/-- The accumulator doubles and takes the new bit, modulo its width. -/
theorem shiftIn_toNat (a : Sample) (v : Level) (h : a.toNat < 2 ^ 11) :
    (shiftIn a v).toNat = 2 * a.toNat + v.toNat := by
  unfold shiftIn
  rw [BitVec.toNat_append, BitVec.extractLsb'_toNat, ← Nat.shiftLeft_add_eq_or_of_lt (by cases v <;> decide)]
  simp [Nat.shiftLeft_eq]
  omega

end Sys2Proof.Machine
end

