-- ==== Sys2Proof/Laws/Table.lean ====
section
/-! SUPPORT. Laws of sparse tables: reading after writing, and the canonical form that every write keeps. -/

namespace Sys2Proof.Machine

variable {α : Type}

@[simp] theorem Table.get_nil (d : α) (k : Nat) : Table.get d [] k = d := rfl

/-- Reading after `put`: the written key has the new value, every other key the old one. -/
theorem Table.get_put (d : α) (t : Table α) (k : Nat) (v : α) (j : Nat) :
    Table.get d (Table.put t k v) j = if j = k then v else Table.get d t j := by
  induction t with
  | nil => simp [Table.put, Table.get]
  | cons e t ih =>
    obtain ⟨a, x⟩ := e
    by_cases hk : k = a
    · subst hk; by_cases hj : j = k <;> simp [Table.put, Table.get, hj]
    · by_cases hlt : k < a
      · by_cases hj : j = k <;> simp [Table.put, Table.get, hk, hlt, hj]
      · by_cases hj : j = a
        · subst hj; simp [Table.put, Table.get, hk, hlt, Ne.symm hk]
        · simp [Table.put, Table.get, hk, hlt, hj, ih]

/-- Removing a key leaves every other key as it was. -/
theorem Table.get_filter (d : α) (t : Table α) (k j : Nat) :
    Table.get d (t.filter (fun e => e.1 != k)) j = if j = k then d else Table.get d t j := by
  induction t with
  | nil => simp
  | cons e t ih =>
    obtain ⟨a, x⟩ := e
    by_cases ha : a = k
    · subst ha; by_cases hj : j = a <;> simp [Table.get, hj] at ih ⊢ <;> exact ih
    · have : (a != k) = true := by simpa using ha
      by_cases hj : j = a
      · subst hj; simp [Table.get, this, ha]
      · simp [Table.get, this, hj, ih]

/-- Reading after a write. -/
theorem Table.get_set [DecidableEq α] (d : α) (t : Table α) (k : Nat) (v : α) (j : Nat) :
    Table.get d (Table.set d t k v) j = if j = k then v else Table.get d t j := by
  unfold Table.set
  split
  · next h => subst h; exact Table.get_filter v t k j
  · exact Table.get_put d t k v j

theorem Table.rising_cons (a : Nat) (x : α) (t : Table α) :
    Table.rising ((a, x) :: t) = true ↔ (∀ e ∈ t, a < e.1) ∧ Table.rising t = true := by
  simp [Table.rising]

theorem Table.mem_put (t : Table α) (k : Nat) (v : α) (e : Nat × α) (h : e ∈ Table.put t k v) :
    e = (k, v) ∨ e ∈ t := by
  induction t with
  | nil => simpa [Table.put] using h
  | cons b t ih =>
    obtain ⟨a, x⟩ := b
    simp only [Table.put] at h
    split at h
    · simp at h ⊢; tauto
    · split at h
      · simpa using h
      · simp only [List.mem_cons] at h ⊢
        rcases h with h | h
        · exact .inr (.inl h)
        · rcases ih h with h | h
          · exact .inl h
          · exact .inr (.inr h)

theorem Table.rising_put (t : Table α) (k : Nat) (v : α) (h : Table.rising t = true) :
    Table.rising (Table.put t k v) = true := by
  induction t with
  | nil => simp [Table.put, Table.rising]
  | cons b t ih =>
    obtain ⟨a, x⟩ := b
    obtain ⟨h1, h2⟩ := (Table.rising_cons a x t).mp h
    simp only [Table.put]
    split
    · next hk => subst hk; exact (Table.rising_cons _ _ _).mpr ⟨h1, h2⟩
    · split
      · next hk hlt =>
        refine (Table.rising_cons _ _ _).mpr ⟨?_, h⟩
        intro e he
        rcases List.mem_cons.mp he with rfl | he
        · exact hlt
        · exact lt_trans hlt (h1 e he)
      · next hk hlt =>
        refine (Table.rising_cons _ _ _).mpr ⟨?_, ih h2⟩
        intro e he
        rcases Table.mem_put t k v e he with rfl | he
        · exact lt_of_le_of_ne (not_lt.mp hlt) (Ne.symm hk)
        · exact h1 e he

theorem Table.rising_filter (t : Table α) (p : Nat × α → Bool) (h : Table.rising t = true) :
    Table.rising (t.filter p) = true := by
  induction t with
  | nil => rfl
  | cons b t ih =>
    obtain ⟨a, x⟩ := b
    obtain ⟨h1, h2⟩ := (Table.rising_cons a x t).mp h
    by_cases hp : p (a, x) = true
    · rw [List.filter_cons_of_pos hp]
      exact (Table.rising_cons _ _ _).mpr ⟨fun e he => h1 e (List.mem_filter.mp he).1, ih h2⟩
    · rw [List.filter_cons_of_neg hp]; exact ih h2

/-- Every write keeps the canonical form. -/
theorem Table.wf_set [DecidableEq α] (d : α) (t : Table α) (k : Nat) (v : α) (h : Table.wf d t = true) :
    Table.wf d (Table.set d t k v) = true := by
  obtain ⟨hr, hd⟩ : Table.rising t = true ∧ ∀ e ∈ t, e.2 ≠ d := by simpa [Table.wf] using h
  suffices hs : Table.rising (Table.set d t k v) = true ∧ ∀ e ∈ Table.set d t k v, e.2 ≠ d by
    simpa [Table.wf] using hs
  unfold Table.set
  split
  · exact ⟨Table.rising_filter t _ hr, fun e he => hd e (List.mem_filter.mp he).1⟩
  · next hv =>
    refine ⟨Table.rising_put t k v hr, fun e he => ?_⟩
    rcases Table.mem_put t k v e he with rfl | he
    · exact hv
    · exact hd e he

theorem Table.wf_nil [DecidableEq α] (d : α) : Table.wf d ([] : Table α) = true := rfl

end Sys2Proof.Machine
end

