-- ==== Sys2Proof/Laws/State.lean ====
section
/-! SUPPORT. One lemma per field per update of the state, so that no proof unfolds an update. -/

namespace Sys2Proof.Machine

variable (s : State)

/-! ### `setPin` -/

@[simp] theorem State.setPin_cfg (id : PinId) (p : PinState) : (s.setPin id p).cfg = s.cfg := rfl
@[simp] theorem State.setPin_port (id : PinId) (p : PinState) : (s.setPin id p).port = s.port := rfl
@[simp] theorem State.setPin_outcome (id : PinId) (p : PinState) : (s.setPin id p).outcome = s.outcome := rfl
@[simp] theorem State.setPin_initialized (id : PinId) (p : PinState) : (s.setPin id p).initialized = s.initialized := rfl
@[simp] theorem State.setPin_initTried (id : PinId) (p : PinState) : (s.setPin id p).initTried = s.initTried := rfl
@[simp] theorem State.setPin_pt (id : PinId) (p : PinState) : (s.setPin id p).pt = Table.set PinState.reset s.pt id p := rfl
@[simp] theorem State.setPin_banks (id : PinId) (p : PinState) : (s.setPin id p).banks = s.banks := rfl
@[simp] theorem State.setPin_pstep (id : PinId) (p : PinState) : (s.setPin id p).pstep = s.pstep := rfl
@[simp] theorem State.setPin_pbyte (id : PinId) (p : PinState) : (s.setPin id p).pbyte = s.pbyte := rfl
@[simp] theorem State.setPin_sstep (id : PinId) (p : PinState) : (s.setPin id p).sstep = s.sstep := rfl
@[simp] theorem State.setPin_sbit (id : PinId) (p : PinState) : (s.setPin id p).sbit = s.sbit := rfl
@[simp] theorem State.setPin_scnt (id : PinId) (p : PinState) : (s.setPin id p).scnt = s.scnt := rfl
@[simp] theorem State.setPin_rpass (id : PinId) (p : PinState) : (s.setPin id p).rpass = s.rpass := rfl
@[simp] theorem State.setPin_acc (id : PinId) (p : PinState) : (s.setPin id p).acc = s.acc := rfl
@[simp] theorem State.setPin_sb (id : PinId) (p : PinState) : (s.setPin id p).sb = s.sb := rfl
@[simp] theorem State.setPin_fr (id : PinId) (p : PinState) : (s.setPin id p).fr = s.fr := rfl
@[simp] theorem State.setPin_x1 (id : PinId) (p : PinState) : (s.setPin id p).x1 = s.x1 := rfl
@[simp] theorem State.setPin_y1 (id : PinId) (p : PinState) : (s.setPin id p).y1 = s.y1 := rfl
@[simp] theorem State.setPin_x2 (id : PinId) (p : PinState) : (s.setPin id p).x2 = s.x2 := rfl
@[simp] theorem State.setPin_y2 (id : PinId) (p : PinState) : (s.setPin id p).y2 = s.y2 := rfl
@[simp] theorem State.setPin_coord (id : PinId) (p : PinState) : (s.setPin id p).coord = s.coord := rfl
@[simp] theorem State.setPin_trace (id : PinId) (p : PinState) : (s.setPin id p).trace = s.trace := rfl
@[simp] theorem State.setPin_now (id : PinId) (p : PinState) : (s.setPin id p).now = s.now := rfl
@[simp] theorem State.setPin_accesses (id : PinId) (p : PinState) : (s.setPin id p).accesses = s.accesses := rfl
@[simp] theorem State.setPin_levels (id : PinId) (p : PinState) : (s.setPin id p).levels = s.levels := rfl
@[simp] theorem State.setPin_clock (id : PinId) (p : PinState) : (s.setPin id p).clock = s.clock := rfl
@[simp] theorem State.setPin_mapAnswer (id : PinId) (p : PinState) : (s.setPin id p).mapAnswer = s.mapAnswer := rfl
@[simp] theorem State.setPin_draws (id : PinId) (p : PinState) : (s.setPin id p).draws = s.draws := rfl

/-! ### `setBank` -/

@[simp] theorem State.setBank_cfg (b : Nat) (k : Bank) : (s.setBank b k).cfg = s.cfg := rfl
@[simp] theorem State.setBank_port (b : Nat) (k : Bank) : (s.setBank b k).port = s.port := rfl
@[simp] theorem State.setBank_outcome (b : Nat) (k : Bank) : (s.setBank b k).outcome = s.outcome := rfl
@[simp] theorem State.setBank_initialized (b : Nat) (k : Bank) : (s.setBank b k).initialized = s.initialized := rfl
@[simp] theorem State.setBank_initTried (b : Nat) (k : Bank) : (s.setBank b k).initTried = s.initTried := rfl
@[simp] theorem State.setBank_pt (b : Nat) (k : Bank) : (s.setBank b k).pt = s.pt := rfl
@[simp] theorem State.setBank_banks (b : Nat) (k : Bank) : (s.setBank b k).banks = Table.set Bank.reset s.banks b k := rfl
@[simp] theorem State.setBank_pstep (b : Nat) (k : Bank) : (s.setBank b k).pstep = s.pstep := rfl
@[simp] theorem State.setBank_pbyte (b : Nat) (k : Bank) : (s.setBank b k).pbyte = s.pbyte := rfl
@[simp] theorem State.setBank_sstep (b : Nat) (k : Bank) : (s.setBank b k).sstep = s.sstep := rfl
@[simp] theorem State.setBank_sbit (b : Nat) (k : Bank) : (s.setBank b k).sbit = s.sbit := rfl
@[simp] theorem State.setBank_scnt (b : Nat) (k : Bank) : (s.setBank b k).scnt = s.scnt := rfl
@[simp] theorem State.setBank_rpass (b : Nat) (k : Bank) : (s.setBank b k).rpass = s.rpass := rfl
@[simp] theorem State.setBank_acc (b : Nat) (k : Bank) : (s.setBank b k).acc = s.acc := rfl
@[simp] theorem State.setBank_sb (b : Nat) (k : Bank) : (s.setBank b k).sb = s.sb := rfl
@[simp] theorem State.setBank_fr (b : Nat) (k : Bank) : (s.setBank b k).fr = s.fr := rfl
@[simp] theorem State.setBank_x1 (b : Nat) (k : Bank) : (s.setBank b k).x1 = s.x1 := rfl
@[simp] theorem State.setBank_y1 (b : Nat) (k : Bank) : (s.setBank b k).y1 = s.y1 := rfl
@[simp] theorem State.setBank_x2 (b : Nat) (k : Bank) : (s.setBank b k).x2 = s.x2 := rfl
@[simp] theorem State.setBank_y2 (b : Nat) (k : Bank) : (s.setBank b k).y2 = s.y2 := rfl
@[simp] theorem State.setBank_coord (b : Nat) (k : Bank) : (s.setBank b k).coord = s.coord := rfl
@[simp] theorem State.setBank_trace (b : Nat) (k : Bank) : (s.setBank b k).trace = s.trace := rfl
@[simp] theorem State.setBank_now (b : Nat) (k : Bank) : (s.setBank b k).now = s.now := rfl
@[simp] theorem State.setBank_accesses (b : Nat) (k : Bank) : (s.setBank b k).accesses = s.accesses := rfl
@[simp] theorem State.setBank_levels (b : Nat) (k : Bank) : (s.setBank b k).levels = s.levels := rfl
@[simp] theorem State.setBank_clock (b : Nat) (k : Bank) : (s.setBank b k).clock = s.clock := rfl
@[simp] theorem State.setBank_mapAnswer (b : Nat) (k : Bank) : (s.setBank b k).mapAnswer = s.mapAnswer := rfl
@[simp] theorem State.setBank_draws (b : Nat) (k : Bank) : (s.setBank b k).draws = s.draws := rfl

/-! ### `emit` -/

@[simp] theorem State.emit_cfg (e : Event) : (s.emit e).cfg = s.cfg := rfl
@[simp] theorem State.emit_port (e : Event) : (s.emit e).port = s.port := rfl
@[simp] theorem State.emit_outcome (e : Event) : (s.emit e).outcome = s.outcome := rfl
@[simp] theorem State.emit_initialized (e : Event) : (s.emit e).initialized = s.initialized := rfl
@[simp] theorem State.emit_initTried (e : Event) : (s.emit e).initTried = s.initTried := rfl
@[simp] theorem State.emit_pt (e : Event) : (s.emit e).pt = s.pt := rfl
@[simp] theorem State.emit_banks (e : Event) : (s.emit e).banks = s.banks := rfl
@[simp] theorem State.emit_pstep (e : Event) : (s.emit e).pstep = s.pstep := rfl
@[simp] theorem State.emit_pbyte (e : Event) : (s.emit e).pbyte = s.pbyte := rfl
@[simp] theorem State.emit_sstep (e : Event) : (s.emit e).sstep = s.sstep := rfl
@[simp] theorem State.emit_sbit (e : Event) : (s.emit e).sbit = s.sbit := rfl
@[simp] theorem State.emit_scnt (e : Event) : (s.emit e).scnt = s.scnt := rfl
@[simp] theorem State.emit_rpass (e : Event) : (s.emit e).rpass = s.rpass := rfl
@[simp] theorem State.emit_acc (e : Event) : (s.emit e).acc = s.acc := rfl
@[simp] theorem State.emit_sb (e : Event) : (s.emit e).sb = s.sb := rfl
@[simp] theorem State.emit_fr (e : Event) : (s.emit e).fr = s.fr := rfl
@[simp] theorem State.emit_x1 (e : Event) : (s.emit e).x1 = s.x1 := rfl
@[simp] theorem State.emit_y1 (e : Event) : (s.emit e).y1 = s.y1 := rfl
@[simp] theorem State.emit_x2 (e : Event) : (s.emit e).x2 = s.x2 := rfl
@[simp] theorem State.emit_y2 (e : Event) : (s.emit e).y2 = s.y2 := rfl
@[simp] theorem State.emit_coord (e : Event) : (s.emit e).coord = s.coord := rfl
@[simp] theorem State.emit_trace (e : Event) : (s.emit e).trace = s.trace ++ [e] := rfl
@[simp] theorem State.emit_now (e : Event) : (s.emit e).now = s.now + e.least + s.gap := rfl
@[simp] theorem State.emit_accesses (e : Event) : (s.emit e).accesses = s.accesses := rfl
@[simp] theorem State.emit_levels (e : Event) : (s.emit e).levels = s.levels := rfl
@[simp] theorem State.emit_clock (e : Event) : (s.emit e).clock = s.clock.tail := rfl
@[simp] theorem State.emit_mapAnswer (e : Event) : (s.emit e).mapAnswer = s.mapAnswer := rfl
@[simp] theorem State.emit_draws (e : Event) : (s.emit e).draws = s.draws + 1 := rfl

/-! ### `delayed` -/

@[simp] theorem State.delayed_cfg (t : Nat) : (s.delayed t).cfg = s.cfg := rfl
@[simp] theorem State.delayed_port (t : Nat) : (s.delayed t).port = s.port := rfl
@[simp] theorem State.delayed_outcome (t : Nat) : (s.delayed t).outcome = s.outcome := rfl
@[simp] theorem State.delayed_initialized (t : Nat) : (s.delayed t).initialized = s.initialized := rfl
@[simp] theorem State.delayed_initTried (t : Nat) : (s.delayed t).initTried = s.initTried := rfl
@[simp] theorem State.delayed_pt (t : Nat) : (s.delayed t).pt = s.pt := rfl
@[simp] theorem State.delayed_banks (t : Nat) : (s.delayed t).banks = s.banks := rfl
@[simp] theorem State.delayed_pstep (t : Nat) : (s.delayed t).pstep = s.pstep := rfl
@[simp] theorem State.delayed_pbyte (t : Nat) : (s.delayed t).pbyte = s.pbyte := rfl
@[simp] theorem State.delayed_sstep (t : Nat) : (s.delayed t).sstep = s.sstep := rfl
@[simp] theorem State.delayed_sbit (t : Nat) : (s.delayed t).sbit = s.sbit := rfl
@[simp] theorem State.delayed_scnt (t : Nat) : (s.delayed t).scnt = s.scnt := rfl
@[simp] theorem State.delayed_rpass (t : Nat) : (s.delayed t).rpass = s.rpass := rfl
@[simp] theorem State.delayed_acc (t : Nat) : (s.delayed t).acc = s.acc := rfl
@[simp] theorem State.delayed_sb (t : Nat) : (s.delayed t).sb = s.sb := rfl
@[simp] theorem State.delayed_fr (t : Nat) : (s.delayed t).fr = s.fr := rfl
@[simp] theorem State.delayed_x1 (t : Nat) : (s.delayed t).x1 = s.x1 := rfl
@[simp] theorem State.delayed_y1 (t : Nat) : (s.delayed t).y1 = s.y1 := rfl
@[simp] theorem State.delayed_x2 (t : Nat) : (s.delayed t).x2 = s.x2 := rfl
@[simp] theorem State.delayed_y2 (t : Nat) : (s.delayed t).y2 = s.y2 := rfl
@[simp] theorem State.delayed_coord (t : Nat) : (s.delayed t).coord = s.coord := rfl
@[simp] theorem State.delayed_trace (t : Nat) : (s.delayed t).trace = s.trace ++ [.d t] := rfl
@[simp] theorem State.delayed_now (t : Nat) : (s.delayed t).now = s.now + t + s.gap := rfl
@[simp] theorem State.delayed_accesses (t : Nat) : (s.delayed t).accesses = s.accesses := rfl
@[simp] theorem State.delayed_levels (t : Nat) : (s.delayed t).levels = s.levels := rfl
@[simp] theorem State.delayed_clock (t : Nat) : (s.delayed t).clock = s.clock.tail := rfl
@[simp] theorem State.delayed_mapAnswer (t : Nat) : (s.delayed t).mapAnswer = s.mapAnswer := rfl
@[simp] theorem State.delayed_draws (t : Nat) : (s.delayed t).draws = s.draws + 1 := rfl

/-! ### `record` -/

@[simp] theorem State.record_cfg (a : Access) : (s.record a).cfg = s.cfg := rfl
@[simp] theorem State.record_port (a : Access) : (s.record a).port = s.port := rfl
@[simp] theorem State.record_outcome (a : Access) : (s.record a).outcome = s.outcome := rfl
@[simp] theorem State.record_initialized (a : Access) : (s.record a).initialized = s.initialized := rfl
@[simp] theorem State.record_initTried (a : Access) : (s.record a).initTried = s.initTried := rfl
@[simp] theorem State.record_pt (a : Access) : (s.record a).pt = s.pt := rfl
@[simp] theorem State.record_banks (a : Access) : (s.record a).banks = s.banks := rfl
@[simp] theorem State.record_pstep (a : Access) : (s.record a).pstep = s.pstep := rfl
@[simp] theorem State.record_pbyte (a : Access) : (s.record a).pbyte = s.pbyte := rfl
@[simp] theorem State.record_sstep (a : Access) : (s.record a).sstep = s.sstep := rfl
@[simp] theorem State.record_sbit (a : Access) : (s.record a).sbit = s.sbit := rfl
@[simp] theorem State.record_scnt (a : Access) : (s.record a).scnt = s.scnt := rfl
@[simp] theorem State.record_rpass (a : Access) : (s.record a).rpass = s.rpass := rfl
@[simp] theorem State.record_acc (a : Access) : (s.record a).acc = s.acc := rfl
@[simp] theorem State.record_sb (a : Access) : (s.record a).sb = s.sb := rfl
@[simp] theorem State.record_fr (a : Access) : (s.record a).fr = s.fr := rfl
@[simp] theorem State.record_x1 (a : Access) : (s.record a).x1 = s.x1 := rfl
@[simp] theorem State.record_y1 (a : Access) : (s.record a).y1 = s.y1 := rfl
@[simp] theorem State.record_x2 (a : Access) : (s.record a).x2 = s.x2 := rfl
@[simp] theorem State.record_y2 (a : Access) : (s.record a).y2 = s.y2 := rfl
@[simp] theorem State.record_coord (a : Access) : (s.record a).coord = s.coord := rfl
@[simp] theorem State.record_trace (a : Access) : (s.record a).trace = s.trace := rfl
@[simp] theorem State.record_now (a : Access) : (s.record a).now = s.now := rfl
@[simp] theorem State.record_accesses (a : Access) : (s.record a).accesses = s.accesses ++ [a] := rfl
@[simp] theorem State.record_levels (a : Access) : (s.record a).levels = s.levels := rfl
@[simp] theorem State.record_clock (a : Access) : (s.record a).clock = s.clock := rfl
@[simp] theorem State.record_mapAnswer (a : Access) : (s.record a).mapAnswer = s.mapAnswer := rfl
@[simp] theorem State.record_draws (a : Access) : (s.record a).draws = s.draws := rfl

/-! ### `memRead` -/

@[simp] theorem State.memRead_cfg (b : Nat) (r : BankReg) : (s.memRead b r).cfg = s.cfg := rfl
@[simp] theorem State.memRead_port (b : Nat) (r : BankReg) : (s.memRead b r).port = s.port := rfl
@[simp] theorem State.memRead_outcome (b : Nat) (r : BankReg) : (s.memRead b r).outcome = s.outcome := rfl
@[simp] theorem State.memRead_initialized (b : Nat) (r : BankReg) : (s.memRead b r).initialized = s.initialized := rfl
@[simp] theorem State.memRead_initTried (b : Nat) (r : BankReg) : (s.memRead b r).initTried = s.initTried := rfl
@[simp] theorem State.memRead_pt (b : Nat) (r : BankReg) : (s.memRead b r).pt = s.pt := rfl
@[simp] theorem State.memRead_banks (b : Nat) (r : BankReg) : (s.memRead b r).banks = s.banks := rfl
@[simp] theorem State.memRead_pstep (b : Nat) (r : BankReg) : (s.memRead b r).pstep = s.pstep := rfl
@[simp] theorem State.memRead_pbyte (b : Nat) (r : BankReg) : (s.memRead b r).pbyte = s.pbyte := rfl
@[simp] theorem State.memRead_sstep (b : Nat) (r : BankReg) : (s.memRead b r).sstep = s.sstep := rfl
@[simp] theorem State.memRead_sbit (b : Nat) (r : BankReg) : (s.memRead b r).sbit = s.sbit := rfl
@[simp] theorem State.memRead_scnt (b : Nat) (r : BankReg) : (s.memRead b r).scnt = s.scnt := rfl
@[simp] theorem State.memRead_rpass (b : Nat) (r : BankReg) : (s.memRead b r).rpass = s.rpass := rfl
@[simp] theorem State.memRead_acc (b : Nat) (r : BankReg) : (s.memRead b r).acc = s.acc := rfl
@[simp] theorem State.memRead_sb (b : Nat) (r : BankReg) : (s.memRead b r).sb = s.sb := rfl
@[simp] theorem State.memRead_fr (b : Nat) (r : BankReg) : (s.memRead b r).fr = s.fr := rfl
@[simp] theorem State.memRead_x1 (b : Nat) (r : BankReg) : (s.memRead b r).x1 = s.x1 := rfl
@[simp] theorem State.memRead_y1 (b : Nat) (r : BankReg) : (s.memRead b r).y1 = s.y1 := rfl
@[simp] theorem State.memRead_x2 (b : Nat) (r : BankReg) : (s.memRead b r).x2 = s.x2 := rfl
@[simp] theorem State.memRead_y2 (b : Nat) (r : BankReg) : (s.memRead b r).y2 = s.y2 := rfl
@[simp] theorem State.memRead_coord (b : Nat) (r : BankReg) : (s.memRead b r).coord = s.coord := rfl
@[simp] theorem State.memRead_trace (b : Nat) (r : BankReg) : (s.memRead b r).trace = s.trace := rfl
@[simp] theorem State.memRead_now (b : Nat) (r : BankReg) : (s.memRead b r).now = s.now := rfl
@[simp] theorem State.memRead_accesses (b : Nat) (r : BankReg) : (s.memRead b r).accesses = s.accesses ++ [.read b r] := rfl
@[simp] theorem State.memRead_levels (b : Nat) (r : BankReg) : (s.memRead b r).levels = s.levels := rfl
@[simp] theorem State.memRead_clock (b : Nat) (r : BankReg) : (s.memRead b r).clock = s.clock := rfl
@[simp] theorem State.memRead_mapAnswer (b : Nat) (r : BankReg) : (s.memRead b r).mapAnswer = s.mapAnswer := rfl
@[simp] theorem State.memRead_draws (b : Nat) (r : BankReg) : (s.memRead b r).draws = s.draws := rfl

/-! ### `memWrite` -/

@[simp] theorem State.memWrite_cfg (b : Nat) (r : BankReg) (v : Word) : (s.memWrite b r v).cfg = s.cfg := rfl
@[simp] theorem State.memWrite_port (b : Nat) (r : BankReg) (v : Word) : (s.memWrite b r v).port = s.port := rfl
@[simp] theorem State.memWrite_outcome (b : Nat) (r : BankReg) (v : Word) : (s.memWrite b r v).outcome = s.outcome := rfl
@[simp] theorem State.memWrite_initialized (b : Nat) (r : BankReg) (v : Word) : (s.memWrite b r v).initialized = s.initialized := rfl
@[simp] theorem State.memWrite_initTried (b : Nat) (r : BankReg) (v : Word) : (s.memWrite b r v).initTried = s.initTried := rfl
@[simp] theorem State.memWrite_pt (b : Nat) (r : BankReg) (v : Word) : (s.memWrite b r v).pt = s.pt := rfl
@[simp] theorem State.memWrite_banks (b : Nat) (r : BankReg) (v : Word) : (s.memWrite b r v).banks = Table.set Bank.reset s.banks b ((s.bank b).afterWrite r v) := rfl
@[simp] theorem State.memWrite_pstep (b : Nat) (r : BankReg) (v : Word) : (s.memWrite b r v).pstep = s.pstep := rfl
@[simp] theorem State.memWrite_pbyte (b : Nat) (r : BankReg) (v : Word) : (s.memWrite b r v).pbyte = s.pbyte := rfl
@[simp] theorem State.memWrite_sstep (b : Nat) (r : BankReg) (v : Word) : (s.memWrite b r v).sstep = s.sstep := rfl
@[simp] theorem State.memWrite_sbit (b : Nat) (r : BankReg) (v : Word) : (s.memWrite b r v).sbit = s.sbit := rfl
@[simp] theorem State.memWrite_scnt (b : Nat) (r : BankReg) (v : Word) : (s.memWrite b r v).scnt = s.scnt := rfl
@[simp] theorem State.memWrite_rpass (b : Nat) (r : BankReg) (v : Word) : (s.memWrite b r v).rpass = s.rpass := rfl
@[simp] theorem State.memWrite_acc (b : Nat) (r : BankReg) (v : Word) : (s.memWrite b r v).acc = s.acc := rfl
@[simp] theorem State.memWrite_sb (b : Nat) (r : BankReg) (v : Word) : (s.memWrite b r v).sb = s.sb := rfl
@[simp] theorem State.memWrite_fr (b : Nat) (r : BankReg) (v : Word) : (s.memWrite b r v).fr = s.fr := rfl
@[simp] theorem State.memWrite_x1 (b : Nat) (r : BankReg) (v : Word) : (s.memWrite b r v).x1 = s.x1 := rfl
@[simp] theorem State.memWrite_y1 (b : Nat) (r : BankReg) (v : Word) : (s.memWrite b r v).y1 = s.y1 := rfl
@[simp] theorem State.memWrite_x2 (b : Nat) (r : BankReg) (v : Word) : (s.memWrite b r v).x2 = s.x2 := rfl
@[simp] theorem State.memWrite_y2 (b : Nat) (r : BankReg) (v : Word) : (s.memWrite b r v).y2 = s.y2 := rfl
@[simp] theorem State.memWrite_coord (b : Nat) (r : BankReg) (v : Word) : (s.memWrite b r v).coord = s.coord := rfl
@[simp] theorem State.memWrite_trace (b : Nat) (r : BankReg) (v : Word) : (s.memWrite b r v).trace = s.trace := rfl
@[simp] theorem State.memWrite_now (b : Nat) (r : BankReg) (v : Word) : (s.memWrite b r v).now = s.now := rfl
@[simp] theorem State.memWrite_accesses (b : Nat) (r : BankReg) (v : Word) : (s.memWrite b r v).accesses = s.accesses ++ [.write b r v] := rfl
@[simp] theorem State.memWrite_levels (b : Nat) (r : BankReg) (v : Word) : (s.memWrite b r v).levels = s.levels := rfl
@[simp] theorem State.memWrite_clock (b : Nat) (r : BankReg) (v : Word) : (s.memWrite b r v).clock = s.clock := rfl
@[simp] theorem State.memWrite_mapAnswer (b : Nat) (r : BankReg) (v : Word) : (s.memWrite b r v).mapAnswer = s.mapAnswer := rfl
@[simp] theorem State.memWrite_draws (b : Nat) (r : BankReg) (v : Word) : (s.memWrite b r v).draws = s.draws := rfl

/-! ### `release` -/

@[simp] theorem State.release_cfg (b : Nat) : (s.release b).cfg = s.cfg := rfl
@[simp] theorem State.release_port (b : Nat) : (s.release b).port = s.port := rfl
@[simp] theorem State.release_outcome (b : Nat) : (s.release b).outcome = s.outcome := rfl
@[simp] theorem State.release_initialized (b : Nat) : (s.release b).initialized = s.initialized := rfl
@[simp] theorem State.release_initTried (b : Nat) : (s.release b).initTried = s.initTried := rfl
@[simp] theorem State.release_pt (b : Nat) : (s.release b).pt = s.pt := rfl
@[simp] theorem State.release_banks (b : Nat) : (s.release b).banks = Table.set Bank.reset s.banks b { s.bank b with lock := .free } := rfl
@[simp] theorem State.release_pstep (b : Nat) : (s.release b).pstep = s.pstep := rfl
@[simp] theorem State.release_pbyte (b : Nat) : (s.release b).pbyte = s.pbyte := rfl
@[simp] theorem State.release_sstep (b : Nat) : (s.release b).sstep = s.sstep := rfl
@[simp] theorem State.release_sbit (b : Nat) : (s.release b).sbit = s.sbit := rfl
@[simp] theorem State.release_scnt (b : Nat) : (s.release b).scnt = s.scnt := rfl
@[simp] theorem State.release_rpass (b : Nat) : (s.release b).rpass = s.rpass := rfl
@[simp] theorem State.release_acc (b : Nat) : (s.release b).acc = s.acc := rfl
@[simp] theorem State.release_sb (b : Nat) : (s.release b).sb = s.sb := rfl
@[simp] theorem State.release_fr (b : Nat) : (s.release b).fr = s.fr := rfl
@[simp] theorem State.release_x1 (b : Nat) : (s.release b).x1 = s.x1 := rfl
@[simp] theorem State.release_y1 (b : Nat) : (s.release b).y1 = s.y1 := rfl
@[simp] theorem State.release_x2 (b : Nat) : (s.release b).x2 = s.x2 := rfl
@[simp] theorem State.release_y2 (b : Nat) : (s.release b).y2 = s.y2 := rfl
@[simp] theorem State.release_coord (b : Nat) : (s.release b).coord = s.coord := rfl
@[simp] theorem State.release_trace (b : Nat) : (s.release b).trace = s.trace := rfl
@[simp] theorem State.release_now (b : Nat) : (s.release b).now = s.now := rfl
@[simp] theorem State.release_accesses (b : Nat) : (s.release b).accesses = s.accesses ++ [.release b] := rfl
@[simp] theorem State.release_levels (b : Nat) : (s.release b).levels = s.levels := rfl
@[simp] theorem State.release_clock (b : Nat) : (s.release b).clock = s.clock := rfl
@[simp] theorem State.release_mapAnswer (b : Nat) : (s.release b).mapAnswer = s.mapAnswer := rfl
@[simp] theorem State.release_draws (b : Nat) : (s.release b).draws = s.draws := rfl

/-! ### `markWritten` -/

@[simp] theorem State.markWritten_cfg (b k : Nat) : (s.markWritten b k).cfg = s.cfg := rfl
@[simp] theorem State.markWritten_port (b k : Nat) : (s.markWritten b k).port = s.port := rfl
@[simp] theorem State.markWritten_outcome (b k : Nat) : (s.markWritten b k).outcome = s.outcome := rfl
@[simp] theorem State.markWritten_initialized (b k : Nat) : (s.markWritten b k).initialized = s.initialized := rfl
@[simp] theorem State.markWritten_initTried (b k : Nat) : (s.markWritten b k).initTried = s.initTried := rfl
@[simp] theorem State.markWritten_pt (b k : Nat) : (s.markWritten b k).pt = s.pt := rfl
@[simp] theorem State.markWritten_banks (b k : Nat) : (s.markWritten b k).banks = Table.set Bank.reset s.banks b { s.bank b with written := (s.bank b).written ||| oneHot k } := rfl
@[simp] theorem State.markWritten_pstep (b k : Nat) : (s.markWritten b k).pstep = s.pstep := rfl
@[simp] theorem State.markWritten_pbyte (b k : Nat) : (s.markWritten b k).pbyte = s.pbyte := rfl
@[simp] theorem State.markWritten_sstep (b k : Nat) : (s.markWritten b k).sstep = s.sstep := rfl
@[simp] theorem State.markWritten_sbit (b k : Nat) : (s.markWritten b k).sbit = s.sbit := rfl
@[simp] theorem State.markWritten_scnt (b k : Nat) : (s.markWritten b k).scnt = s.scnt := rfl
@[simp] theorem State.markWritten_rpass (b k : Nat) : (s.markWritten b k).rpass = s.rpass := rfl
@[simp] theorem State.markWritten_acc (b k : Nat) : (s.markWritten b k).acc = s.acc := rfl
@[simp] theorem State.markWritten_sb (b k : Nat) : (s.markWritten b k).sb = s.sb := rfl
@[simp] theorem State.markWritten_fr (b k : Nat) : (s.markWritten b k).fr = s.fr := rfl
@[simp] theorem State.markWritten_x1 (b k : Nat) : (s.markWritten b k).x1 = s.x1 := rfl
@[simp] theorem State.markWritten_y1 (b k : Nat) : (s.markWritten b k).y1 = s.y1 := rfl
@[simp] theorem State.markWritten_x2 (b k : Nat) : (s.markWritten b k).x2 = s.x2 := rfl
@[simp] theorem State.markWritten_y2 (b k : Nat) : (s.markWritten b k).y2 = s.y2 := rfl
@[simp] theorem State.markWritten_coord (b k : Nat) : (s.markWritten b k).coord = s.coord := rfl
@[simp] theorem State.markWritten_trace (b k : Nat) : (s.markWritten b k).trace = s.trace := rfl
@[simp] theorem State.markWritten_now (b k : Nat) : (s.markWritten b k).now = s.now := rfl
@[simp] theorem State.markWritten_accesses (b k : Nat) : (s.markWritten b k).accesses = s.accesses := rfl
@[simp] theorem State.markWritten_levels (b k : Nat) : (s.markWritten b k).levels = s.levels := rfl
@[simp] theorem State.markWritten_clock (b k : Nat) : (s.markWritten b k).clock = s.clock := rfl
@[simp] theorem State.markWritten_mapAnswer (b k : Nat) : (s.markWritten b k).mapAnswer = s.mapAnswer := rfl
@[simp] theorem State.markWritten_draws (b k : Nat) : (s.markWritten b k).draws = s.draws := rfl

/-! ### `takeLevel` -/

@[simp] theorem State.takeLevel_cfg : (s.takeLevel).cfg = s.cfg := rfl
@[simp] theorem State.takeLevel_port : (s.takeLevel).port = s.port := rfl
@[simp] theorem State.takeLevel_outcome : (s.takeLevel).outcome = s.outcome := rfl
@[simp] theorem State.takeLevel_initialized : (s.takeLevel).initialized = s.initialized := rfl
@[simp] theorem State.takeLevel_initTried : (s.takeLevel).initTried = s.initTried := rfl
@[simp] theorem State.takeLevel_pt : (s.takeLevel).pt = s.pt := rfl
@[simp] theorem State.takeLevel_banks : (s.takeLevel).banks = s.banks := rfl
@[simp] theorem State.takeLevel_pstep : (s.takeLevel).pstep = s.pstep := rfl
@[simp] theorem State.takeLevel_pbyte : (s.takeLevel).pbyte = s.pbyte := rfl
@[simp] theorem State.takeLevel_sstep : (s.takeLevel).sstep = s.sstep := rfl
@[simp] theorem State.takeLevel_sbit : (s.takeLevel).sbit = s.sbit := rfl
@[simp] theorem State.takeLevel_scnt : (s.takeLevel).scnt = s.scnt := rfl
@[simp] theorem State.takeLevel_rpass : (s.takeLevel).rpass = s.rpass := rfl
@[simp] theorem State.takeLevel_acc : (s.takeLevel).acc = s.acc := rfl
@[simp] theorem State.takeLevel_sb : (s.takeLevel).sb = s.sb := rfl
@[simp] theorem State.takeLevel_fr : (s.takeLevel).fr = s.fr := rfl
@[simp] theorem State.takeLevel_x1 : (s.takeLevel).x1 = s.x1 := rfl
@[simp] theorem State.takeLevel_y1 : (s.takeLevel).y1 = s.y1 := rfl
@[simp] theorem State.takeLevel_x2 : (s.takeLevel).x2 = s.x2 := rfl
@[simp] theorem State.takeLevel_y2 : (s.takeLevel).y2 = s.y2 := rfl
@[simp] theorem State.takeLevel_coord : (s.takeLevel).coord = s.coord := rfl
@[simp] theorem State.takeLevel_trace : (s.takeLevel).trace = s.trace := rfl
@[simp] theorem State.takeLevel_now : (s.takeLevel).now = s.now := rfl
@[simp] theorem State.takeLevel_accesses : (s.takeLevel).accesses = s.accesses := rfl
@[simp] theorem State.takeLevel_levels : (s.takeLevel).levels = s.levels.tail := rfl
@[simp] theorem State.takeLevel_clock : (s.takeLevel).clock = s.clock := rfl
@[simp] theorem State.takeLevel_mapAnswer : (s.takeLevel).mapAnswer = s.mapAnswer := rfl
@[simp] theorem State.takeLevel_draws : (s.takeLevel).draws = s.draws + 1 := rfl

/-! ### `idle` -/

@[simp] theorem State.idle_cfg : (s.idle).cfg = s.cfg := rfl
@[simp] theorem State.idle_port : (s.idle).port = s.port := rfl
@[simp] theorem State.idle_outcome : (s.idle).outcome = s.outcome := rfl
@[simp] theorem State.idle_initialized : (s.idle).initialized = s.initialized := rfl
@[simp] theorem State.idle_initTried : (s.idle).initTried = s.initTried := rfl
@[simp] theorem State.idle_pt : (s.idle).pt = s.pt := rfl
@[simp] theorem State.idle_banks : (s.idle).banks = s.banks := rfl
@[simp] theorem State.idle_pstep : (s.idle).pstep = .idle := rfl
@[simp] theorem State.idle_pbyte : (s.idle).pbyte = 0#1 := rfl
@[simp] theorem State.idle_sstep : (s.idle).sstep = .idle := rfl
@[simp] theorem State.idle_sbit : (s.idle).sbit = 0#4 := rfl
@[simp] theorem State.idle_scnt : (s.idle).scnt = 0#8 := rfl
@[simp] theorem State.idle_rpass : (s.idle).rpass = 0#2 := rfl
@[simp] theorem State.idle_acc : (s.idle).acc = s.acc := rfl
@[simp] theorem State.idle_sb : (s.idle).sb = s.sb := rfl
@[simp] theorem State.idle_fr : (s.idle).fr = s.fr := rfl
@[simp] theorem State.idle_x1 : (s.idle).x1 = s.x1 := rfl
@[simp] theorem State.idle_y1 : (s.idle).y1 = s.y1 := rfl
@[simp] theorem State.idle_x2 : (s.idle).x2 = s.x2 := rfl
@[simp] theorem State.idle_y2 : (s.idle).y2 = s.y2 := rfl
@[simp] theorem State.idle_coord : (s.idle).coord = s.coord := rfl
@[simp] theorem State.idle_trace : (s.idle).trace = s.trace := rfl
@[simp] theorem State.idle_now : (s.idle).now = s.now := rfl
@[simp] theorem State.idle_accesses : (s.idle).accesses = s.accesses := rfl
@[simp] theorem State.idle_levels : (s.idle).levels = s.levels := rfl
@[simp] theorem State.idle_clock : (s.idle).clock = s.clock := rfl
@[simp] theorem State.idle_mapAnswer : (s.idle).mapAnswer = s.mapAnswer := rfl
@[simp] theorem State.idle_draws : (s.idle).draws = s.draws := rfl

/-! ### `succeed` -/

@[simp] theorem State.succeed_cfg (v : Value) : (s.succeed v).cfg = s.cfg := rfl
@[simp] theorem State.succeed_port (v : Value) : (s.succeed v).port = s.port := rfl
@[simp] theorem State.succeed_outcome (v : Value) : (s.succeed v).outcome = some (.ok v) := rfl
@[simp] theorem State.succeed_initialized (v : Value) : (s.succeed v).initialized = s.initialized := rfl
@[simp] theorem State.succeed_initTried (v : Value) : (s.succeed v).initTried = s.initTried := rfl
@[simp] theorem State.succeed_pt (v : Value) : (s.succeed v).pt = s.pt := rfl
@[simp] theorem State.succeed_banks (v : Value) : (s.succeed v).banks = s.banks := rfl
@[simp] theorem State.succeed_pstep (v : Value) : (s.succeed v).pstep = s.pstep := rfl
@[simp] theorem State.succeed_pbyte (v : Value) : (s.succeed v).pbyte = s.pbyte := rfl
@[simp] theorem State.succeed_sstep (v : Value) : (s.succeed v).sstep = s.sstep := rfl
@[simp] theorem State.succeed_sbit (v : Value) : (s.succeed v).sbit = s.sbit := rfl
@[simp] theorem State.succeed_scnt (v : Value) : (s.succeed v).scnt = s.scnt := rfl
@[simp] theorem State.succeed_rpass (v : Value) : (s.succeed v).rpass = s.rpass := rfl
@[simp] theorem State.succeed_acc (v : Value) : (s.succeed v).acc = s.acc := rfl
@[simp] theorem State.succeed_sb (v : Value) : (s.succeed v).sb = s.sb := rfl
@[simp] theorem State.succeed_fr (v : Value) : (s.succeed v).fr = s.fr := rfl
@[simp] theorem State.succeed_x1 (v : Value) : (s.succeed v).x1 = s.x1 := rfl
@[simp] theorem State.succeed_y1 (v : Value) : (s.succeed v).y1 = s.y1 := rfl
@[simp] theorem State.succeed_x2 (v : Value) : (s.succeed v).x2 = s.x2 := rfl
@[simp] theorem State.succeed_y2 (v : Value) : (s.succeed v).y2 = s.y2 := rfl
@[simp] theorem State.succeed_coord (v : Value) : (s.succeed v).coord = s.coord := rfl
@[simp] theorem State.succeed_trace (v : Value) : (s.succeed v).trace = s.trace := rfl
@[simp] theorem State.succeed_now (v : Value) : (s.succeed v).now = s.now := rfl
@[simp] theorem State.succeed_accesses (v : Value) : (s.succeed v).accesses = s.accesses := rfl
@[simp] theorem State.succeed_levels (v : Value) : (s.succeed v).levels = s.levels := rfl
@[simp] theorem State.succeed_clock (v : Value) : (s.succeed v).clock = s.clock := rfl
@[simp] theorem State.succeed_mapAnswer (v : Value) : (s.succeed v).mapAnswer = s.mapAnswer := rfl
@[simp] theorem State.succeed_draws (v : Value) : (s.succeed v).draws = s.draws := rfl

/-! ### `raise` -/

@[simp] theorem State.raise_cfg (e : ErrorKind) (i : Option PinId) : (s.raise e i).cfg = s.cfg := rfl
@[simp] theorem State.raise_port (e : ErrorKind) (i : Option PinId) : (s.raise e i).port = s.port := rfl
@[simp] theorem State.raise_outcome (e : ErrorKind) (i : Option PinId) : (s.raise e i).outcome = some (.err e i) := rfl
@[simp] theorem State.raise_initialized (e : ErrorKind) (i : Option PinId) : (s.raise e i).initialized = s.initialized := rfl
@[simp] theorem State.raise_initTried (e : ErrorKind) (i : Option PinId) : (s.raise e i).initTried = s.initTried := rfl
@[simp] theorem State.raise_pt (e : ErrorKind) (i : Option PinId) : (s.raise e i).pt = s.pt := rfl
@[simp] theorem State.raise_banks (e : ErrorKind) (i : Option PinId) : (s.raise e i).banks = s.banks := rfl
@[simp] theorem State.raise_pstep (e : ErrorKind) (i : Option PinId) : (s.raise e i).pstep = .idle := rfl
@[simp] theorem State.raise_pbyte (e : ErrorKind) (i : Option PinId) : (s.raise e i).pbyte = 0#1 := rfl
@[simp] theorem State.raise_sstep (e : ErrorKind) (i : Option PinId) : (s.raise e i).sstep = .idle := rfl
@[simp] theorem State.raise_sbit (e : ErrorKind) (i : Option PinId) : (s.raise e i).sbit = 0#4 := rfl
@[simp] theorem State.raise_scnt (e : ErrorKind) (i : Option PinId) : (s.raise e i).scnt = 0#8 := rfl
@[simp] theorem State.raise_rpass (e : ErrorKind) (i : Option PinId) : (s.raise e i).rpass = 0#2 := rfl
@[simp] theorem State.raise_acc (e : ErrorKind) (i : Option PinId) : (s.raise e i).acc = s.acc := rfl
@[simp] theorem State.raise_sb (e : ErrorKind) (i : Option PinId) : (s.raise e i).sb = s.sb := rfl
@[simp] theorem State.raise_fr (e : ErrorKind) (i : Option PinId) : (s.raise e i).fr = s.fr := rfl
@[simp] theorem State.raise_x1 (e : ErrorKind) (i : Option PinId) : (s.raise e i).x1 = s.x1 := rfl
@[simp] theorem State.raise_y1 (e : ErrorKind) (i : Option PinId) : (s.raise e i).y1 = s.y1 := rfl
@[simp] theorem State.raise_x2 (e : ErrorKind) (i : Option PinId) : (s.raise e i).x2 = s.x2 := rfl
@[simp] theorem State.raise_y2 (e : ErrorKind) (i : Option PinId) : (s.raise e i).y2 = s.y2 := rfl
@[simp] theorem State.raise_coord (e : ErrorKind) (i : Option PinId) : (s.raise e i).coord = s.coord := rfl
@[simp] theorem State.raise_trace (e : ErrorKind) (i : Option PinId) : (s.raise e i).trace = s.trace := rfl
@[simp] theorem State.raise_now (e : ErrorKind) (i : Option PinId) : (s.raise e i).now = s.now := rfl
@[simp] theorem State.raise_accesses (e : ErrorKind) (i : Option PinId) : (s.raise e i).accesses = s.accesses := rfl
@[simp] theorem State.raise_levels (e : ErrorKind) (i : Option PinId) : (s.raise e i).levels = s.levels := rfl
@[simp] theorem State.raise_clock (e : ErrorKind) (i : Option PinId) : (s.raise e i).clock = s.clock := rfl
@[simp] theorem State.raise_mapAnswer (e : ErrorKind) (i : Option PinId) : (s.raise e i).mapAnswer = s.mapAnswer := rfl
@[simp] theorem State.raise_draws (e : ErrorKind) (i : Option PinId) : (s.raise e i).draws = s.draws := rfl

/-! ### `refuse` -/

@[simp] theorem State.refuse_cfg : (s.refuse).cfg = s.cfg := rfl
@[simp] theorem State.refuse_port : (s.refuse).port = s.port := rfl
@[simp] theorem State.refuse_outcome : (s.refuse).outcome = some .refused := rfl
@[simp] theorem State.refuse_initialized : (s.refuse).initialized = s.initialized := rfl
@[simp] theorem State.refuse_initTried : (s.refuse).initTried = s.initTried := rfl
@[simp] theorem State.refuse_pt : (s.refuse).pt = s.pt := rfl
@[simp] theorem State.refuse_banks : (s.refuse).banks = s.banks := rfl
@[simp] theorem State.refuse_pstep : (s.refuse).pstep = s.pstep := rfl
@[simp] theorem State.refuse_pbyte : (s.refuse).pbyte = s.pbyte := rfl
@[simp] theorem State.refuse_sstep : (s.refuse).sstep = s.sstep := rfl
@[simp] theorem State.refuse_sbit : (s.refuse).sbit = s.sbit := rfl
@[simp] theorem State.refuse_scnt : (s.refuse).scnt = s.scnt := rfl
@[simp] theorem State.refuse_rpass : (s.refuse).rpass = s.rpass := rfl
@[simp] theorem State.refuse_acc : (s.refuse).acc = s.acc := rfl
@[simp] theorem State.refuse_sb : (s.refuse).sb = s.sb := rfl
@[simp] theorem State.refuse_fr : (s.refuse).fr = s.fr := rfl
@[simp] theorem State.refuse_x1 : (s.refuse).x1 = s.x1 := rfl
@[simp] theorem State.refuse_y1 : (s.refuse).y1 = s.y1 := rfl
@[simp] theorem State.refuse_x2 : (s.refuse).x2 = s.x2 := rfl
@[simp] theorem State.refuse_y2 : (s.refuse).y2 = s.y2 := rfl
@[simp] theorem State.refuse_coord : (s.refuse).coord = s.coord := rfl
@[simp] theorem State.refuse_trace : (s.refuse).trace = s.trace := rfl
@[simp] theorem State.refuse_now : (s.refuse).now = s.now := rfl
@[simp] theorem State.refuse_accesses : (s.refuse).accesses = s.accesses := rfl
@[simp] theorem State.refuse_levels : (s.refuse).levels = s.levels := rfl
@[simp] theorem State.refuse_clock : (s.refuse).clock = s.clock := rfl
@[simp] theorem State.refuse_mapAnswer : (s.refuse).mapAnswer = s.mapAnswer := rfl
@[simp] theorem State.refuse_draws : (s.refuse).draws = s.draws := rfl

/-! ### `markTried` -/

@[simp] theorem State.markTried_cfg : (s.markTried).cfg = s.cfg := rfl
@[simp] theorem State.markTried_port : (s.markTried).port = s.port := rfl
@[simp] theorem State.markTried_outcome : (s.markTried).outcome = s.outcome := rfl
@[simp] theorem State.markTried_initialized : (s.markTried).initialized = s.initialized := rfl
@[simp] theorem State.markTried_initTried : (s.markTried).initTried = true := rfl
@[simp] theorem State.markTried_pt : (s.markTried).pt = s.pt := rfl
@[simp] theorem State.markTried_banks : (s.markTried).banks = s.banks := rfl
@[simp] theorem State.markTried_pstep : (s.markTried).pstep = s.pstep := rfl
@[simp] theorem State.markTried_pbyte : (s.markTried).pbyte = s.pbyte := rfl
@[simp] theorem State.markTried_sstep : (s.markTried).sstep = s.sstep := rfl
@[simp] theorem State.markTried_sbit : (s.markTried).sbit = s.sbit := rfl
@[simp] theorem State.markTried_scnt : (s.markTried).scnt = s.scnt := rfl
@[simp] theorem State.markTried_rpass : (s.markTried).rpass = s.rpass := rfl
@[simp] theorem State.markTried_acc : (s.markTried).acc = s.acc := rfl
@[simp] theorem State.markTried_sb : (s.markTried).sb = s.sb := rfl
@[simp] theorem State.markTried_fr : (s.markTried).fr = s.fr := rfl
@[simp] theorem State.markTried_x1 : (s.markTried).x1 = s.x1 := rfl
@[simp] theorem State.markTried_y1 : (s.markTried).y1 = s.y1 := rfl
@[simp] theorem State.markTried_x2 : (s.markTried).x2 = s.x2 := rfl
@[simp] theorem State.markTried_y2 : (s.markTried).y2 = s.y2 := rfl
@[simp] theorem State.markTried_coord : (s.markTried).coord = s.coord := rfl
@[simp] theorem State.markTried_trace : (s.markTried).trace = s.trace := rfl
@[simp] theorem State.markTried_now : (s.markTried).now = s.now := rfl
@[simp] theorem State.markTried_accesses : (s.markTried).accesses = s.accesses := rfl
@[simp] theorem State.markTried_levels : (s.markTried).levels = s.levels := rfl
@[simp] theorem State.markTried_clock : (s.markTried).clock = s.clock := rfl
@[simp] theorem State.markTried_mapAnswer : (s.markTried).mapAnswer = s.mapAnswer := rfl
@[simp] theorem State.markTried_draws : (s.markTried).draws = s.draws := rfl

/-! ### `markInitialized` -/

@[simp] theorem State.markInitialized_cfg : (s.markInitialized).cfg = s.cfg := rfl
@[simp] theorem State.markInitialized_port : (s.markInitialized).port = s.port := rfl
@[simp] theorem State.markInitialized_outcome : (s.markInitialized).outcome = s.outcome := rfl
@[simp] theorem State.markInitialized_initialized : (s.markInitialized).initialized = true := rfl
@[simp] theorem State.markInitialized_initTried : (s.markInitialized).initTried = s.initTried := rfl
@[simp] theorem State.markInitialized_pt : (s.markInitialized).pt = s.pt := rfl
@[simp] theorem State.markInitialized_banks : (s.markInitialized).banks = s.banks := rfl
@[simp] theorem State.markInitialized_pstep : (s.markInitialized).pstep = s.pstep := rfl
@[simp] theorem State.markInitialized_pbyte : (s.markInitialized).pbyte = s.pbyte := rfl
@[simp] theorem State.markInitialized_sstep : (s.markInitialized).sstep = s.sstep := rfl
@[simp] theorem State.markInitialized_sbit : (s.markInitialized).sbit = s.sbit := rfl
@[simp] theorem State.markInitialized_scnt : (s.markInitialized).scnt = s.scnt := rfl
@[simp] theorem State.markInitialized_rpass : (s.markInitialized).rpass = s.rpass := rfl
@[simp] theorem State.markInitialized_acc : (s.markInitialized).acc = s.acc := rfl
@[simp] theorem State.markInitialized_sb : (s.markInitialized).sb = s.sb := rfl
@[simp] theorem State.markInitialized_fr : (s.markInitialized).fr = s.fr := rfl
@[simp] theorem State.markInitialized_x1 : (s.markInitialized).x1 = s.x1 := rfl
@[simp] theorem State.markInitialized_y1 : (s.markInitialized).y1 = s.y1 := rfl
@[simp] theorem State.markInitialized_x2 : (s.markInitialized).x2 = s.x2 := rfl
@[simp] theorem State.markInitialized_y2 : (s.markInitialized).y2 = s.y2 := rfl
@[simp] theorem State.markInitialized_coord : (s.markInitialized).coord = s.coord := rfl
@[simp] theorem State.markInitialized_trace : (s.markInitialized).trace = s.trace := rfl
@[simp] theorem State.markInitialized_now : (s.markInitialized).now = s.now := rfl
@[simp] theorem State.markInitialized_accesses : (s.markInitialized).accesses = s.accesses := rfl
@[simp] theorem State.markInitialized_levels : (s.markInitialized).levels = s.levels := rfl
@[simp] theorem State.markInitialized_clock : (s.markInitialized).clock = s.clock := rfl
@[simp] theorem State.markInitialized_mapAnswer : (s.markInitialized).mapAnswer = s.mapAnswer := rfl
@[simp] theorem State.markInitialized_draws : (s.markInitialized).draws = s.draws := rfl

/-! ### `offer` -/

@[simp] theorem State.offer_cfg (w : Word) : (s.offer w).cfg = s.cfg := rfl
@[simp] theorem State.offer_port (w : Word) : (s.offer w).port = w :: s.port := rfl
@[simp] theorem State.offer_outcome (w : Word) : (s.offer w).outcome = s.outcome := rfl
@[simp] theorem State.offer_initialized (w : Word) : (s.offer w).initialized = s.initialized := rfl
@[simp] theorem State.offer_initTried (w : Word) : (s.offer w).initTried = s.initTried := rfl
@[simp] theorem State.offer_pt (w : Word) : (s.offer w).pt = s.pt := rfl
@[simp] theorem State.offer_banks (w : Word) : (s.offer w).banks = s.banks := rfl
@[simp] theorem State.offer_pstep (w : Word) : (s.offer w).pstep = s.pstep := rfl
@[simp] theorem State.offer_pbyte (w : Word) : (s.offer w).pbyte = s.pbyte := rfl
@[simp] theorem State.offer_sstep (w : Word) : (s.offer w).sstep = s.sstep := rfl
@[simp] theorem State.offer_sbit (w : Word) : (s.offer w).sbit = s.sbit := rfl
@[simp] theorem State.offer_scnt (w : Word) : (s.offer w).scnt = s.scnt := rfl
@[simp] theorem State.offer_rpass (w : Word) : (s.offer w).rpass = s.rpass := rfl
@[simp] theorem State.offer_acc (w : Word) : (s.offer w).acc = s.acc := rfl
@[simp] theorem State.offer_sb (w : Word) : (s.offer w).sb = s.sb := rfl
@[simp] theorem State.offer_fr (w : Word) : (s.offer w).fr = s.fr := rfl
@[simp] theorem State.offer_x1 (w : Word) : (s.offer w).x1 = s.x1 := rfl
@[simp] theorem State.offer_y1 (w : Word) : (s.offer w).y1 = s.y1 := rfl
@[simp] theorem State.offer_x2 (w : Word) : (s.offer w).x2 = s.x2 := rfl
@[simp] theorem State.offer_y2 (w : Word) : (s.offer w).y2 = s.y2 := rfl
@[simp] theorem State.offer_coord (w : Word) : (s.offer w).coord = s.coord := rfl
@[simp] theorem State.offer_trace (w : Word) : (s.offer w).trace = s.trace := rfl
@[simp] theorem State.offer_now (w : Word) : (s.offer w).now = s.now := rfl
@[simp] theorem State.offer_accesses (w : Word) : (s.offer w).accesses = s.accesses := rfl
@[simp] theorem State.offer_levels (w : Word) : (s.offer w).levels = s.levels := rfl
@[simp] theorem State.offer_clock (w : Word) : (s.offer w).clock = s.clock := rfl
@[simp] theorem State.offer_mapAnswer (w : Word) : (s.offer w).mapAnswer = s.mapAnswer := rfl
@[simp] theorem State.offer_draws (w : Word) : (s.offer w).draws = s.draws := rfl

/-! ### `take` -/

@[simp] theorem State.take_cfg : (s.take).cfg = s.cfg := rfl
@[simp] theorem State.take_port : (s.take).port = s.port.tail := rfl
@[simp] theorem State.take_outcome : (s.take).outcome = s.outcome := rfl
@[simp] theorem State.take_initialized : (s.take).initialized = s.initialized := rfl
@[simp] theorem State.take_initTried : (s.take).initTried = s.initTried := rfl
@[simp] theorem State.take_pt : (s.take).pt = s.pt := rfl
@[simp] theorem State.take_banks : (s.take).banks = s.banks := rfl
@[simp] theorem State.take_pstep : (s.take).pstep = s.pstep := rfl
@[simp] theorem State.take_pbyte : (s.take).pbyte = s.pbyte := rfl
@[simp] theorem State.take_sstep : (s.take).sstep = s.sstep := rfl
@[simp] theorem State.take_sbit : (s.take).sbit = s.sbit := rfl
@[simp] theorem State.take_scnt : (s.take).scnt = s.scnt := rfl
@[simp] theorem State.take_rpass : (s.take).rpass = s.rpass := rfl
@[simp] theorem State.take_acc : (s.take).acc = s.acc := rfl
@[simp] theorem State.take_sb : (s.take).sb = s.sb := rfl
@[simp] theorem State.take_fr : (s.take).fr = s.fr := rfl
@[simp] theorem State.take_x1 : (s.take).x1 = s.x1 := rfl
@[simp] theorem State.take_y1 : (s.take).y1 = s.y1 := rfl
@[simp] theorem State.take_x2 : (s.take).x2 = s.x2 := rfl
@[simp] theorem State.take_y2 : (s.take).y2 = s.y2 := rfl
@[simp] theorem State.take_coord : (s.take).coord = s.coord := rfl
@[simp] theorem State.take_trace : (s.take).trace = s.trace := rfl
@[simp] theorem State.take_now : (s.take).now = s.now := rfl
@[simp] theorem State.take_accesses : (s.take).accesses = s.accesses := rfl
@[simp] theorem State.take_levels : (s.take).levels = s.levels := rfl
@[simp] theorem State.take_clock : (s.take).clock = s.clock := rfl
@[simp] theorem State.take_mapAnswer : (s.take).mapAnswer = s.mapAnswer := rfl
@[simp] theorem State.take_draws : (s.take).draws = s.draws := rfl

/-! ### `storeSample` -/

@[simp] theorem State.storeSample_cfg (i : Nat) (v : Sample) : (s.storeSample i v).cfg = s.cfg := rfl
@[simp] theorem State.storeSample_port (i : Nat) (v : Sample) : (s.storeSample i v).port = s.port := rfl
@[simp] theorem State.storeSample_outcome (i : Nat) (v : Sample) : (s.storeSample i v).outcome = s.outcome := rfl
@[simp] theorem State.storeSample_initialized (i : Nat) (v : Sample) : (s.storeSample i v).initialized = s.initialized := rfl
@[simp] theorem State.storeSample_initTried (i : Nat) (v : Sample) : (s.storeSample i v).initTried = s.initTried := rfl
@[simp] theorem State.storeSample_pt (i : Nat) (v : Sample) : (s.storeSample i v).pt = s.pt := rfl
@[simp] theorem State.storeSample_banks (i : Nat) (v : Sample) : (s.storeSample i v).banks = s.banks := rfl
@[simp] theorem State.storeSample_pstep (i : Nat) (v : Sample) : (s.storeSample i v).pstep = s.pstep := rfl
@[simp] theorem State.storeSample_pbyte (i : Nat) (v : Sample) : (s.storeSample i v).pbyte = s.pbyte := rfl
@[simp] theorem State.storeSample_sstep (i : Nat) (v : Sample) : (s.storeSample i v).sstep = s.sstep := rfl
@[simp] theorem State.storeSample_sbit (i : Nat) (v : Sample) : (s.storeSample i v).sbit = s.sbit := rfl
@[simp] theorem State.storeSample_scnt (i : Nat) (v : Sample) : (s.storeSample i v).scnt = s.scnt := rfl
@[simp] theorem State.storeSample_rpass (i : Nat) (v : Sample) : (s.storeSample i v).rpass = s.rpass := rfl
@[simp] theorem State.storeSample_acc (i : Nat) (v : Sample) : (s.storeSample i v).acc = s.acc := rfl
@[simp] theorem State.storeSample_sb (i : Nat) (v : Sample) : (s.storeSample i v).sb = s.sb.take i ++ v :: s.sb.drop (i + 1) := rfl
@[simp] theorem State.storeSample_fr (i : Nat) (v : Sample) : (s.storeSample i v).fr = s.fr := rfl
@[simp] theorem State.storeSample_x1 (i : Nat) (v : Sample) : (s.storeSample i v).x1 = s.x1 := rfl
@[simp] theorem State.storeSample_y1 (i : Nat) (v : Sample) : (s.storeSample i v).y1 = s.y1 := rfl
@[simp] theorem State.storeSample_x2 (i : Nat) (v : Sample) : (s.storeSample i v).x2 = s.x2 := rfl
@[simp] theorem State.storeSample_y2 (i : Nat) (v : Sample) : (s.storeSample i v).y2 = s.y2 := rfl
@[simp] theorem State.storeSample_coord (i : Nat) (v : Sample) : (s.storeSample i v).coord = s.coord := rfl
@[simp] theorem State.storeSample_trace (i : Nat) (v : Sample) : (s.storeSample i v).trace = s.trace := rfl
@[simp] theorem State.storeSample_now (i : Nat) (v : Sample) : (s.storeSample i v).now = s.now := rfl
@[simp] theorem State.storeSample_accesses (i : Nat) (v : Sample) : (s.storeSample i v).accesses = s.accesses := rfl
@[simp] theorem State.storeSample_levels (i : Nat) (v : Sample) : (s.storeSample i v).levels = s.levels := rfl
@[simp] theorem State.storeSample_clock (i : Nat) (v : Sample) : (s.storeSample i v).clock = s.clock := rfl
@[simp] theorem State.storeSample_mapAnswer (i : Nat) (v : Sample) : (s.storeSample i v).mapAnswer = s.mapAnswer := rfl
@[simp] theorem State.storeSample_draws (i : Nat) (v : Sample) : (s.storeSample i v).draws = s.draws := rfl

/-! ### `rank` -/

@[simp] theorem State.rank_cfg : (s.rank).cfg = s.cfg := rfl
@[simp] theorem State.rank_port : (s.rank).port = s.port := rfl
@[simp] theorem State.rank_outcome : (s.rank).outcome = s.outcome := rfl
@[simp] theorem State.rank_initialized : (s.rank).initialized = s.initialized := rfl
@[simp] theorem State.rank_initTried : (s.rank).initTried = s.initTried := rfl
@[simp] theorem State.rank_pt : (s.rank).pt = s.pt := rfl
@[simp] theorem State.rank_banks : (s.rank).banks = s.banks := rfl
@[simp] theorem State.rank_pstep : (s.rank).pstep = s.pstep := rfl
@[simp] theorem State.rank_pbyte : (s.rank).pbyte = s.pbyte := rfl
@[simp] theorem State.rank_sstep : (s.rank).sstep = s.sstep := rfl
@[simp] theorem State.rank_sbit : (s.rank).sbit = s.sbit := rfl
@[simp] theorem State.rank_scnt : (s.rank).scnt = 0#8 := rfl
@[simp] theorem State.rank_rpass : (s.rank).rpass = s.rpass := rfl
@[simp] theorem State.rank_acc : (s.rank).acc = s.acc := rfl
@[simp] theorem State.rank_sb : (s.rank).sb = sortDescending (s.sb.take s.cfg.window) := rfl
@[simp] theorem State.rank_fr : (s.rank).fr = rankedMean (s.sb.take s.cfg.window) := rfl
@[simp] theorem State.rank_x1 : (s.rank).x1 = s.x1 := rfl
@[simp] theorem State.rank_y1 : (s.rank).y1 = s.y1 := rfl
@[simp] theorem State.rank_x2 : (s.rank).x2 = s.x2 := rfl
@[simp] theorem State.rank_y2 : (s.rank).y2 = s.y2 := rfl
@[simp] theorem State.rank_coord : (s.rank).coord = s.coord := rfl
@[simp] theorem State.rank_trace : (s.rank).trace = s.trace := rfl
@[simp] theorem State.rank_now : (s.rank).now = s.now := rfl
@[simp] theorem State.rank_accesses : (s.rank).accesses = s.accesses := rfl
@[simp] theorem State.rank_levels : (s.rank).levels = s.levels := rfl
@[simp] theorem State.rank_clock : (s.rank).clock = s.clock := rfl
@[simp] theorem State.rank_mapAnswer : (s.rank).mapAnswer = s.mapAnswer := rfl
@[simp] theorem State.rank_draws : (s.rank).draws = s.draws := rfl

/-! ### The pin table and the banks after an update -/

@[simp] theorem State.pin_setPin (id j : PinId) (p : PinState) :
    (s.setPin id p).pin j = if j = id then p else s.pin j := Table.get_set _ _ _ _ _

@[simp] theorem State.bank_setPin (id : PinId) (p : PinState) (b : Nat) : (s.setPin id p).bank b = s.bank b := rfl

@[simp] theorem State.bank_setBank (b j : Nat) (k : Bank) :
    (s.setBank b k).bank j = if j = b then k else s.bank j := Table.get_set _ _ _ _ _

@[simp] theorem State.pin_setBank (b : Nat) (k : Bank) (id : PinId) : (s.setBank b k).pin id = s.pin id := rfl

@[simp] theorem State.bank_memWrite (b j : Nat) (r : BankReg) (v : Word) :
    (s.memWrite b r v).bank j = if j = b then (s.bank b).afterWrite r v else s.bank j := Table.get_set _ _ _ _ _

@[simp] theorem State.bank_release (b j : Nat) :
    (s.release b).bank j = if j = b then { s.bank b with lock := .free } else s.bank j := Table.get_set _ _ _ _ _

@[simp] theorem State.bank_markWritten (b k j : Nat) :
    (s.markWritten b k).bank j =
      if j = b then { s.bank b with written := (s.bank b).written ||| oneHot k } else s.bank j :=
  Table.get_set _ _ _ _ _

@[simp] theorem State.pin_emit (e : Event) (j : PinId) : (s.emit e).pin j = s.pin j := rfl
@[simp] theorem State.bank_emit (e : Event) (j : Nat) : (s.emit e).bank j = s.bank j := rfl
@[simp] theorem State.pin_delayed (t : Nat) (j : PinId) : (s.delayed t).pin j = s.pin j := rfl
@[simp] theorem State.bank_delayed (t : Nat) (j : Nat) : (s.delayed t).bank j = s.bank j := rfl
@[simp] theorem State.pin_record (a : Access) (j : PinId) : (s.record a).pin j = s.pin j := rfl
@[simp] theorem State.bank_record (a : Access) (j : Nat) : (s.record a).bank j = s.bank j := rfl
@[simp] theorem State.pin_memRead (b : Nat) (r : BankReg) (j : PinId) : (s.memRead b r).pin j = s.pin j := rfl
@[simp] theorem State.bank_memRead (b : Nat) (r : BankReg) (j : Nat) : (s.memRead b r).bank j = s.bank j := rfl
@[simp] theorem State.pin_memWrite (b : Nat) (r : BankReg) (v : Word) (j : PinId) : (s.memWrite b r v).pin j = s.pin j := rfl
@[simp] theorem State.pin_release (b : Nat) (j : PinId) : (s.release b).pin j = s.pin j := rfl
@[simp] theorem State.pin_markWritten (b k : Nat) (j : PinId) : (s.markWritten b k).pin j = s.pin j := rfl
@[simp] theorem State.pin_takeLevel (j : PinId) : (s.takeLevel).pin j = s.pin j := rfl
@[simp] theorem State.bank_takeLevel (j : Nat) : (s.takeLevel).bank j = s.bank j := rfl
@[simp] theorem State.pin_idle (j : PinId) : (s.idle).pin j = s.pin j := rfl
@[simp] theorem State.bank_idle (j : Nat) : (s.idle).bank j = s.bank j := rfl
@[simp] theorem State.pin_succeed (v : Value) (j : PinId) : (s.succeed v).pin j = s.pin j := rfl
@[simp] theorem State.bank_succeed (v : Value) (j : Nat) : (s.succeed v).bank j = s.bank j := rfl
@[simp] theorem State.pin_raise (e : ErrorKind) (i : Option PinId) (j : PinId) : (s.raise e i).pin j = s.pin j := rfl
@[simp] theorem State.bank_raise (e : ErrorKind) (i : Option PinId) (j : Nat) : (s.raise e i).bank j = s.bank j := rfl
@[simp] theorem State.pin_refuse (j : PinId) : (s.refuse).pin j = s.pin j := rfl
@[simp] theorem State.bank_refuse (j : Nat) : (s.refuse).bank j = s.bank j := rfl
@[simp] theorem State.pin_markTried (j : PinId) : (s.markTried).pin j = s.pin j := rfl
@[simp] theorem State.bank_markTried (j : Nat) : (s.markTried).bank j = s.bank j := rfl
@[simp] theorem State.pin_markInitialized (j : PinId) : (s.markInitialized).pin j = s.pin j := rfl
@[simp] theorem State.bank_markInitialized (j : Nat) : (s.markInitialized).bank j = s.bank j := rfl
@[simp] theorem State.pin_offer (w : Word) (j : PinId) : (s.offer w).pin j = s.pin j := rfl
@[simp] theorem State.bank_offer (w : Word) (j : Nat) : (s.offer w).bank j = s.bank j := rfl
@[simp] theorem State.pin_take (j : PinId) : (s.take).pin j = s.pin j := rfl
@[simp] theorem State.bank_take (j : Nat) : (s.take).bank j = s.bank j := rfl
@[simp] theorem State.pin_storeSample (i : Nat) (v : Sample) (j : PinId) : (s.storeSample i v).pin j = s.pin j := rfl
@[simp] theorem State.bank_storeSample (i : Nat) (v : Sample) (j : Nat) : (s.storeSample i v).bank j = s.bank j := rfl
@[simp] theorem State.pin_rank (j : PinId) : (s.rank).pin j = s.pin j := rfl
@[simp] theorem State.bank_rank (j : Nat) : (s.rank).bank j = s.bank j := rfl

end Sys2Proof.Machine
end

