-- ==== Sys2Proof/Laws/Ops.lean ====
section
/-! SUPPORT. One law per shared operation: what it can do, said once. The runs of pin events (`RanEvents`) compose. -/

namespace Sys2Proof.Machine

/-! ### Running operations -/

section
variable {α β γ : Type}

@[simp] theorem Res.bind_ok (a : α) (s : State) (f : α → State → Res β) : (Res.ok a s).bind f = f a s := rfl
@[simp] theorem Res.bind_err (e : ErrorKind) (i : Option PinId) (s : State) (f : α → State → Res β) :
    (Res.err e i s).bind f = .err e i s := rfl
@[simp] theorem Res.bind_refused (w : RefusalReason) (s : State) (f : α → State → Res β) :
    (Res.refused w s).bind f = .refused w s := rfl
@[simp] theorem Res.bind_stuck (g : Fault) (f : α → State → Res β) : (Res.stuck g).bind f = .stuck g := rfl

theorem Res.bind_assoc (r : Res α) (f : α → State → Res β) (g : β → State → Res γ) :
    (r.bind f).bind g = r.bind fun a s => (f a s).bind g := by
  cases r <;> rfl

/-- An operation that goes on to an end went on at each statement. -/
theorem Res.bind_eq_ok {r : Res α} {f : α → State → Res β} {b : β} {t : State} (h : r.bind f = .ok b t) :
    ∃ a u, r = .ok a u ∧ f a u = .ok b t := by
  cases r with
  | ok a u => exact ⟨a, u, rfl, h⟩
  | err => cases h
  | refused => cases h
  | stuck => cases h

@[simp] theorem finish_ok (v : Value) (s : State) : finish (.ok v s) = .next (s.succeed v) := rfl
@[simp] theorem finish_err (e : ErrorKind) (i : Option PinId) (s : State) : finish (.err e i s) = .next (s.raise e i) := rfl
@[simp] theorem finish_refused (w : RefusalReason) (s : State) :
    finish (.refused w s) = .refused (.operation w s.refuse) := rfl
@[simp] theorem finish_stuck (f : Fault) : finish (.stuck f) = .fault f := rfl
@[simp] theorem finishUnit_ok (u : Unit) (s : State) : finishUnit (.ok u s) = .next (s.succeed .nothing) := rfl
@[simp] theorem finishUnit_err (e : ErrorKind) (i : Option PinId) (s : State) :
    finishUnit (.err e i s) = .next (s.raise e i) := rfl
@[simp] theorem finishUnit_refused (w : RefusalReason) (s : State) :
    finishUnit (.refused w s) = .refused (.operation w s.refuse) := rfl
@[simp] theorem finishUnit_stuck (f : Fault) : finishUnit (.stuck f) = .fault f := rfl

/-- A next state comes from an operation that ended `Ok` or raised an error. -/
theorem finish_eq_next {r : Res Value} {t : State} (h : finish r = .next t) :
    (∃ v s, r = .ok v s ∧ t = s.succeed v) ∨ (∃ e i s, r = .err e i s ∧ t = s.raise e i) := by
  cases r with
  | ok v s => exact .inl ⟨v, s, rfl, by simpa [finish, eq_comm] using h⟩
  | err e i s => exact .inr ⟨e, i, s, rfl, by simpa [finish, eq_comm] using h⟩
  | refused => simp [finish] at h
  | stuck => simp [finish] at h

end

/-! ### The configuration -/

/-- The descriptor found for an id is the id's own. -/
theorem Config.find_id {c : Config} {id : PinId} {d : PinDescriptor} (h : c.find id = some d) : d.id = id := by
  simpa using List.find?_some h

theorem Config.find_mem {c : Config} {id : PinId} {d : PinDescriptor} (h : c.find id = some d) : d ∈ c.regmap :=
  List.mem_of_find?_eq_some h

/-! ### The pin table and the latches -/

theorem State.pin_openPin (s : State) (id j : PinId) :
    (s.openPin id).pin j = if j = id then { s.pin id with opened := true } else s.pin j := by
  unfold State.openPin
  split
  · next h =>
    split
    · next hj => subst hj; cases hp : s.pin j; simp_all
    · rfl
  · simp

@[simp] theorem State.bank_openPin (s : State) (id : PinId) (b : Nat) : (s.openPin id).bank b = s.bank b := by
  unfold State.openPin; split <;> simp

theorem State.openPin_eq (s : State) (id : PinId) : s.openPin id = { s with pt := (s.openPin id).pt } := by
  unfold State.openPin; split <;> rfl

@[simp] theorem State.openPin_cfg (s : State) (id : PinId) : (s.openPin id).cfg = s.cfg := by
  rw [State.openPin_eq]

@[simp] theorem State.latch_openPin (s : State) (id : PinId) (b k : Nat) : (s.openPin id).latch b k = s.latch b k := by
  simp [State.latch]

/-- The latch after a write of `SET` (`v` true) or `CLR` (`v` false) with one bit. -/
theorem latch_setClear (s : State) (b b' : Nat) (k : Fin 32) (j : Nat) (v : Level) :
    (s.memWrite b' (if v then .set else .clr) (oneHot k)).latch b j =
      if b = b' ∧ j = k then some v else s.latch b j := by
  have hk := k.isLt
  unfold State.latch
  by_cases hb : b = b'
  · subst hb
    by_cases hj : j = k.val
    · subst hj; cases v <;> simp [Bank.afterWrite, hk]
    · by_cases h32 : j < 32
      · cases v <;> simp [Bank.afterWrite, hj, h32, oneHot_getElem k j hk h32]
      · cases v <;> simp [Bank.afterWrite, hj, BitVec.getLsbD_of_ge _ j (not_lt.mp h32)]
  · cases v <;> simp [hb]

/-- The bank after the read-modify-write of `DATA` under the lock. -/
def Bank.afterData (k : Bank) (i : Nat) (v : Level) : Bank :=
  { k with lock := .free, out := putBit k.out i v, written := k.written ||| oneHot i }

theorem Bank.afterData_latch (k : Bank) (i : Fin 32) (j : Nat) (v : Level) :
    (if (k.afterData i v).written.getLsbD j then some ((k.afterData i v).out.getLsbD j) else none) =
      if j = i then some v else if k.written.getLsbD j then some (k.out.getLsbD j) else none := by
  have hk := i.isLt
  by_cases hj : j = i.val
  · subst hj; simp only [Bank.afterData, putBit_getLsbD _ _ _ _ hk]; simp [hk]
  · simp [Bank.afterData, putBit_getLsbD, hk, hj]

/-- Only the banks and the record of accesses change. -/
def BanksOnly (s t : State) : Prop := t = { s with banks := t.banks, accesses := t.accesses }

theorem BanksOnly.trans {s t u : State} (h : BanksOnly s t) (g : BanksOnly t u) : BanksOnly s u := by
  unfold BanksOnly at *
  rw [g, h]

theorem BanksOnly.setBank (s : State) (b : Nat) (k : Bank) : BanksOnly s (s.setBank b k) := rfl
theorem BanksOnly.record (s : State) (a : Access) : BanksOnly s (s.record a) := rfl
theorem BanksOnly.memRead (s : State) (b : Nat) (r : BankReg) : BanksOnly s (s.memRead b r) := rfl
theorem BanksOnly.memWrite (s : State) (b : Nat) (r : BankReg) (v : Word) : BanksOnly s (s.memWrite b r v) := rfl
theorem BanksOnly.release (s : State) (b : Nat) : BanksOnly s (s.release b) := rfl
theorem BanksOnly.markWritten (s : State) (b k : Nat) : BanksOnly s (s.markWritten b k) := rfl

/-- What the register write of a level does: the one latch bit takes the level; no other latch bit and no other register
changes (40_pin_layer.md R84). -/
structure LineWritten (d : PinDescriptor) (v : Level) (s t : State) : Prop where
  rest : BanksOnly s t
  latch : ∀ b k, t.latch b k = if b = d.bank ∧ k = d.bit then some v else s.latch b k
  banks : SameBanksButOut s t
  canonical : Table.wf Bank.reset s.banks = true → Table.wf Bank.reset t.banks = true

theorem writeLine_ok (d : PinDescriptor) (v : Level) (s : State)
    (h : s.cfg.writeStyle = .setClear ∨ (s.bank d.bank).lock = .free) :
    ∃ t, writeLine d v s = .ok () t ∧ LineWritten d v s t := by
  unfold writeLine
  cases hs : s.cfg.writeStyle with
  | setClear =>
    refine ⟨_, rfl, BanksOnly.memWrite _ _ _ _, fun b k => latch_setClear s b d.bank d.bit k v, fun b => ?_,
      fun hw => by rw [State.memWrite_banks]; exact Table.wf_set _ _ _ _ hw⟩
    by_cases hb : b = d.bank
    · subst hb; cases v <;> simp [Bank.afterWrite]
    · cases v <;> simp [hb]
  | singleData =>
    have hl : (s.bank d.bank).lock = .free := by simpa [hs] using h
    have hb : ∀ b, (((((((s.setBank d.bank { s.bank d.bank with lock := .held }).record (.acquire d.bank)).memRead d.bank
        .data).memWrite d.bank .data (putBit (s.bank d.bank).out d.bit v)).markWritten d.bank d.bit).release d.bank)).bank b =
        if b = d.bank then (s.bank d.bank).afterData d.bit v else s.bank b := by
      intro b
      by_cases hb : b = d.bank
      · subst hb; simp [Bank.afterWrite, Bank.afterData]
      · simp [hb]
    refine ⟨(((((s.setBank d.bank { s.bank d.bank with lock := .held }).record (.acquire d.bank)).memRead d.bank
        .data).memWrite d.bank .data (putBit (s.bank d.bank).out d.bit v)).markWritten d.bank d.bit).release d.bank,
      by simp [acquire, hl], ((((((BanksOnly.setBank _ _ _).trans (BanksOnly.record _ _)).trans (BanksOnly.memRead _ _ _)).trans
        (BanksOnly.memWrite _ _ _ _)).trans (BanksOnly.markWritten _ _ _)).trans (BanksOnly.release _ _)), fun b k => ?_, fun b => ?_, fun hw => ?_⟩
    · unfold State.latch
      rw [hb]
      by_cases hbb : b = d.bank
      · subst hbb; simpa using Bank.afterData_latch (s.bank d.bank) d.bit k v
      · simp [hbb]
    · rw [hb]
      by_cases hbb : b = d.bank
      · subst hbb; simp [Bank.afterData, hl]
      · simp [hbb]
    · simp only [State.release_banks, State.markWritten_banks, State.memWrite_banks, State.memRead_banks, State.record_banks,
        State.setBank_banks]
      exact Table.wf_set _ _ _ _ (Table.wf_set _ _ _ _ (Table.wf_set _ _ _ _ (Table.wf_set _ _ _ _ hw)))

/-! ### Runs of pin events -/

/-- The outcome record, the inputs and the registers beside the pins are untouched: what a pin write or a delay leaves alone. -/
structure Quiet (s t : State) : Prop where
  outcome : t.outcome = s.outcome
  levels : t.levels = s.levels
  work : SameWork s t
  counters : SameCounters s t

theorem Quiet.refl (s : State) : Quiet s s :=
  ⟨rfl, rfl, ⟨rfl, rfl, rfl, rfl, rfl, rfl, rfl, rfl⟩, ⟨rfl, rfl, rfl, rfl, rfl, rfl⟩⟩

theorem Quiet.trans {s t u : State} (h : Quiet s t) (g : Quiet t u) : Quiet s u := by
  obtain ⟨h1, h2, ⟨a1, a2, a3, a4, a5, a6, a7, a8⟩, ⟨b1, b2, b3, b4, b5, b6⟩⟩ := h
  obtain ⟨g1, g2, ⟨c1, c2, c3, c4, c5, c6, c7, c8⟩, ⟨d1, d2, d3, d4, d5, d6⟩⟩ := g
  exact ⟨g1.trans h1, g2.trans h2,
    ⟨c1.trans a1, c2.trans a2, c3.trans a3, c4.trans a4, c5.trans a5, c6.trans a6, c7.trans a7, c8.trans a8⟩,
    ⟨d1.trans b1, d2.trans b2, d3.trans b3, d4.trans b4, d5.trans b5, d6.trans b6⟩⟩

theorem latchAfter_append (c : Config) (b k : Nat) (l : Option Level) (e f : List Event) :
    latchAfter c b k l (e ++ f) = latchAfter c b k (latchAfter c b k l e) f := by
  simp [latchAfter, List.foldl_append]

theorem latchAfter_nil (c : Config) (b k : Nat) (l : Option Level) : latchAfter c b k l [] = l := rfl

/-- Nothing happened to the pins: a step of the counters or of the registers beside them. -/
theorem RanEvents.of_same {s t : State} (hc : t.cfg = s.cfg) (hp : t.pt = s.pt) (hb : t.banks = s.banks)
    (ht : t.trace = s.trace) (hn : t.now = s.now) (hi : t.initialized = s.initialized) (hr : t.initTried = s.initTried)
    (ho : t.port = s.port) (hm : t.mapAnswer = s.mapAnswer) : RanEvents [] [] s t where
  trace := by simp [ht]
  latches := by intro b k; unfold State.latch State.bank; rw [hb]; rfl
  pins := by intro id; simp [State.pin, hp]
  flags := ⟨hi, hr⟩
  inputs := ⟨hc, ho, hm⟩
  banks := by intro b; simp [State.bank, hb]
  later := by simp [hn]

/-- Runs compose. -/
theorem RanEvents.trans {e f : List Event} {p q : List PinId} {s t u : State} (h : RanEvents e p s t)
    (g : RanEvents f q t u) : RanEvents (e ++ f) (p ++ q) s u where
  trace := by rw [g.trace, h.trace, List.append_assoc]
  latches := by
    intro b k
    rw [g.latches b k, h.latches b k, h.inputs.cfg, latchAfter_append]
  pins := by
    intro id
    have hg := g.pins id
    have hh := h.pins id
    rw [hh] at hg
    rw [hg]
    by_cases h1 : id ∈ p <;> by_cases h2 : id ∈ q <;> simp [h1, h2]
  flags := ⟨g.flags.initialized.trans h.flags.initialized, g.flags.initTried.trans h.flags.initTried⟩
  inputs := ⟨g.inputs.cfg.trans h.inputs.cfg, g.inputs.port.trans h.inputs.port, g.inputs.mapAnswer.trans h.inputs.mapAnswer⟩
  banks := by
    intro b
    obtain ⟨h1, h2, h3, h4, h5⟩ := h.banks b
    obtain ⟨g1, g2, g3, g4, g5⟩ := g.banks b
    exact ⟨g1.trans h1, g2.trans h2, g3.trans h3, g4.trans h4, g5.trans h5⟩
  later := by
    have := h.later
    have := g.later
    simp only [List.map_append, List.sum_append]
    omega

/-- The pins used may be listed in any way. -/
theorem RanEvents.congr {e f : List Event} {p q : List PinId} {s t : State} (h : RanEvents e p s t) (he : e = f)
    (hp : ∀ id, id ∈ p ↔ id ∈ q) : RanEvents f q s t := by
  subst he
  exact { h with pins := fun id => by rw [h.pins id]; simp [hp] }

/-- A part without events or pins changes no account of a run. -/
theorem RanEvents.quietly {e : List Event} {p : List PinId} {s t u : State} (h : RanEvents e p s t) (g : RanEvents [] [] t u) :
    RanEvents e p s u := (h.trans g).congr (by simp) (by simp)

theorem RanEvents.drivable {e : List Event} {p : List PinId} {s t : State} (h : RanEvents e p s t) (id : PinId) :
    t.drivable id = s.drivable id := by
  have hd : (t.pin id).dir = (s.pin id).dir := by rw [h.pins id]; split <;> rfl
  have hl : t.lockFree id = s.lockFree id := by
    unfold State.lockFree
    rw [h.inputs.cfg]
    cases s.cfg.find id with
    | none => rfl
    | some d => simp [(h.banks d.bank).1]
  simp [State.drivable, h.flags.initialized, h.inputs.cfg, hd, hl]

/-! ### Delay and PinWrite -/

theorem delayed_ran (s : State) (t : Nat) : RanEvents [.d t] [] s (s.delayed t) where
  trace := by simp
  latches := by intro b k; rfl
  pins := by intro id; simp
  flags := ⟨rfl, rfl⟩
  inputs := ⟨rfl, rfl, rfl⟩
  banks := by intro b; simp
  later := by simp [Event.least]

theorem delayed_quiet (s : State) (t : Nat) : Quiet s (s.delayed t) :=
  ⟨rfl, rfl, ⟨rfl, rfl, rfl, rfl, rfl, rfl, rfl, rfl⟩, ⟨rfl, rfl, rfl, rfl, rfl, rfl⟩⟩

/-- What a pin that can be driven gives `PinCheck`. -/
theorem State.drivable_spec {s : State} {id : PinId} (h : s.drivable id = true) :
    s.initialized = true ∧ (∃ d, s.cfg.find id = some d ∧
      (s.cfg.writeStyle = .setClear ∨ (s.bank d.bank).lock = .free)) ∧
      (s.pin id).dir = .output ∧ (s.cfg.writableOf id).level = true := by
  simp only [State.drivable, Bool.and_eq_true, Bool.or_eq_true, beq_iff_eq, Option.isSome_iff_exists] at h
  obtain ⟨⟨⟨⟨h1, d, h2⟩, h3⟩, h4⟩, h5⟩ := h
  refine ⟨h1, ⟨d, h2, ?_⟩, h3, h4⟩
  simpa [State.lockFree, h2] using h5

/-- `PinWrite` to a pin that can be driven goes through: one event, one latch bit, the pin open (40_pin_layer.md R84). -/
theorem pinWrite_ok {s : State} {id : PinId} (v : Level) (h : s.drivable id = true) :
    ∃ t, pinWrite id v s = .ok () t ∧ RanEvents [.w id v] [id] s t ∧ Quiet s t := by
  obtain ⟨hi, ⟨d, hd, hw⟩, hdir, hlev⟩ := State.drivable_spec h
  obtain ⟨u, hu, hl⟩ := writeLine_ok d v (s.openPin id) (by simpa using hw)
  have hpin : ((s.openPin id).pin id).dir = .output := by simp [State.pin_openPin, hdir]
  refine ⟨u.emit (.w id v), by simp [pinWrite, pinCheck, hi, hd, hlev, hpin, hu], ?_, ?_⟩
  · have hr : u = _ := hl.rest
    have hcfg : u.cfg = s.cfg := by rw [hr, State.openPin_eq]
    have hpt : u.pt = (s.openPin id).pt := by rw [hr]
    refine ⟨?_, ?_, ?_, ?_, ?_, ?_, ?_⟩
    · rw [State.emit_trace, hr, State.openPin_eq]
    · intro b k
      have : (u.emit (.w id v)).latch b k = u.latch b k := rfl
      rw [this, hl.latch, State.latch_openPin]
      simp only [latchAfter, List.foldl_cons, List.foldl_nil, hd, Option.any_some]
      by_cases h1 : b = d.bank
      · subst h1; by_cases h2 : k = d.bit.val
        · subst h2; simp
        · simp [h2, Ne.symm h2]
      · simp [h1, Ne.symm h1]
    · intro j
      have : (u.emit (.w id v)).pin j = (s.openPin id).pin j := by
        simp [State.pin, hpt]
      rw [this, State.pin_openPin]
      by_cases hj : j = id <;> simp [hj]
    · constructor <;> rw [hr, State.openPin_eq] <;> rfl
    · constructor <;> rw [hr, State.openPin_eq] <;> rfl
    · intro b
      have := hl.banks b
      simpa using this
    · have : u.now = s.now := by rw [hr, State.openPin_eq]
      simp [this, Event.least]
  · have hr : u = _ := hl.rest
    rw [State.openPin_eq] at hr
    constructor
    · rw [State.emit_outcome, hr]
    · rw [State.emit_levels, hr]
    · constructor <;> rw [hr] <;> rfl
    · constructor <;> rw [hr] <;> rfl

/-! ### PinRead and SeqCheck -/

/-- The outcome record, the accumulator, the other registers and the counters are untouched by a sample; levels of the outside
may be used up. -/
structure QuietButLevels (s t : State) : Prop where
  outcome : t.outcome = s.outcome
  work : SameWork s t
  counters : SameCounters s t

/-- The sampled bit: the latch of a written output, else the outside's next level (10_state.md R13). -/
theorem State.inLevel_eq (s : State) (d : PinDescriptor) : s.inLevel d = (s.driven d).getD s.nextLevel := by
  simp [State.inLevel, State.inBit]

/-- The bits of LEVEL (20_memory.md R42). -/
theorem State.levelWord_getLsbD (s : State) (d : PinDescriptor) (j : Nat) (hj : j < 32) :
    (s.levelWord d).getLsbD j = s.inBit d j := by
  rw [State.levelWord, wordOfBits_getLsbD _ _ _ le_rfl]
  simp [hj]

/-- `PinRead` masks the bit of its pin (40_pin_layer.md R85). -/
theorem State.levelWord_mask (s : State) (d : PinDescriptor) : (s.levelWord d).getLsbD d.bit = s.inLevel d :=
  s.levelWord_getLsbD d d.bit d.bit.isLt

theorem State.sampled_spec (s : State) (d : PinDescriptor) :
    RanEvents [.r d.id (s.inLevel d)] [] s (s.sampled d) ∧ QuietButLevels s (s.sampled d) := by
  unfold State.sampled
  constructor
  · split <;>
    exact
      { trace := by simp
        latches := by intro b k; rfl
        pins := by intro id; simp
        flags := ⟨rfl, rfl⟩
        inputs := ⟨rfl, rfl, rfl⟩
        banks := by intro b; simp
        later := by simp [Event.least] }
  · split <;> exact ⟨rfl, ⟨rfl, rfl, rfl, rfl, rfl, rfl, rfl, rfl⟩, ⟨rfl, rfl, rfl, rfl, rfl, rfl⟩⟩

/-- Opening a pin is no event. -/
theorem State.openPin_ran (s : State) (id : PinId) : RanEvents [] [id] s (s.openPin id) ∧ Quiet s (s.openPin id) := by
  have he := State.openPin_eq s id
  refine ⟨⟨?_, fun b k => ?_, fun j => ?_, ?_, ?_, fun b => ?_, ?_⟩, ?_⟩
  · rw [he]; simp
  · rw [State.latch_openPin]; rfl
  · rw [State.pin_openPin]
    by_cases hj : j = id <;> simp [hj]
  · constructor <;> rw [he]
  · constructor <;> rw [he]
  · simp
  · rw [he]; simp
  · refine ⟨?_, ?_, ?_, ?_⟩
    · rw [he]
    · rw [he]
    · constructor <;> rw [he]
    · constructor <;> rw [he]

/-- `PinCheck` of a registered pin on an initialised block opens it. -/
theorem pinCheck_ok {s : State} {id : PinId} {d : PinDescriptor} (hi : s.initialized = true) (hd : s.cfg.find id = some d) :
    pinCheck id s = .ok d (s.openPin id) := by
  simp [pinCheck, hi, hd]

/-- `PinRead` of a registered pin on an initialised block samples it: one event, no latch bit changes (40_pin_layer.md R85). -/
theorem pinRead_ok {s : State} {id : PinId} (hi : s.initialized = true) (hd : (s.cfg.find id).isSome = true) :
    ∃ v t, pinRead id s = .ok v t ∧ RanEvents [.r id v] [id] s t ∧ QuietButLevels s t := by
  obtain ⟨d, hd⟩ := Option.isSome_iff_exists.mp hd
  obtain ⟨ho, hq⟩ := State.openPin_ran s id
  obtain ⟨hs, hw⟩ := State.sampled_spec (s.openPin id) d
  refine ⟨_, _, by rw [pinRead, pinCheck_ok hi hd]; rfl, ?_, ?_⟩
  · have := ho.trans hs
    rw [Config.find_id hd] at this
    exact this.congr (by simp) (by simp)
  · obtain ⟨a1, a2, a3⟩ := hw
    obtain ⟨b1, _, b3, b4⟩ := hq
    exact ⟨a1.trans b1,
      ⟨a2.acc.trans b3.acc, a2.sb.trans b3.sb, a2.fr.trans b3.fr, a2.x1.trans b3.x1, a2.y1.trans b3.y1, a2.x2.trans b3.x2,
        a2.y2.trans b3.y2, a2.coord.trans b3.coord⟩,
      ⟨a3.pstep.trans b4.pstep, a3.pbyte.trans b4.pbyte, a3.sstep.trans b4.sstep, a3.sbit.trans b4.sbit,
        a3.scnt.trans b4.scnt, a3.rpass.trans b4.rpass⟩⟩

theorem Quiet.toQuietButLevels {s t : State} (h : Quiet s t) : QuietButLevels s t := ⟨h.outcome, h.work, h.counters⟩

/-- `SeqCheck` passes when the block is initialised and every role pin has its direction (40_pin_layer.md R92). -/
theorem seqCheck_ok {outs ins : List PinId} {s : State} (hi : s.initialized = true)
    (ho : ∀ p ∈ outs, (s.pin p).dir = .output) (hn : ∀ p ∈ ins, (s.pin p).dir = .input) :
    seqCheck outs ins s = .ok () s := by
  simp only [seqCheck, hi, if_true]
  rw [if_pos]
  simpa using ⟨ho, hn⟩

/-- Before initialisation `SeqCheck` raises `NotInitialized` and touches nothing. -/
theorem seqCheck_uninitialized {outs ins : List PinId} {s : State} (hi : s.initialized = false) :
    seqCheck outs ins s = .err .notInitialized none s := by
  simp [seqCheck, hi]

theorem RanEvents.initialized {e : List Event} {p : List PinId} {s t : State} (h : RanEvents e p s t) :
    t.initialized = s.initialized := h.flags.initialized

theorem RanEvents.dir {e : List Event} {p : List PinId} {s t : State} (h : RanEvents e p s t) (id : PinId) :
    (t.pin id).dir = (s.pin id).dir := by
  rw [h.pins id]; split <;> rfl

end Sys2Proof.Machine
end

