-- ==== Sys2Proof/Laws/Parallel.lean ====
section
/-! SUPPORT. The laws of the parallel write sequencer: what each part of a transaction does to a bus that is ready. -/

namespace Sys2Proof.Machine

/-- What a part of a transaction leaves alone: everything beside the pins, `PSTEP` and `PBYTE`. -/
structure BusQuiet (s t : State) : Prop where
  outcome : t.outcome = s.outcome
  levels : t.levels = s.levels
  work : SameWork s t
  sstep : t.sstep = s.sstep
  sbit : t.sbit = s.sbit
  scnt : t.scnt = s.scnt
  rpass : t.rpass = s.rpass

theorem Quiet.toBus {s t : State} (h : Quiet s t) : BusQuiet s t :=
  ⟨h.outcome, h.levels, h.work, h.counters.sstep, h.counters.sbit, h.counters.scnt, h.counters.rpass⟩

theorem SameWork.trans {s t u : State} (h : SameWork s t) (g : SameWork t u) : SameWork s u :=
  ⟨g.acc.trans h.acc, g.sb.trans h.sb, g.fr.trans h.fr, g.x1.trans h.x1, g.y1.trans h.y1, g.x2.trans h.x2, g.y2.trans h.y2,
    g.coord.trans h.coord⟩

theorem BusQuiet.trans {s t u : State} (h : BusQuiet s t) (g : BusQuiet t u) : BusQuiet s u :=
  ⟨g.outcome.trans h.outcome, g.levels.trans h.levels, h.work.trans g.work, g.sstep.trans h.sstep, g.sbit.trans h.sbit,
    g.scnt.trans h.scnt, g.rpass.trans h.rpass⟩

/-- A part of a transaction: its events happen, everything else is left alone. -/
structure BusRan (ev : List Event) (used : List PinId) (s t : State) : Prop where
  ran : RanEvents ev used s t
  quiet : BusQuiet s t

theorem BusRan.trans {e f : List Event} {p q : List PinId} {s t u : State} (h : BusRan e p s t) (g : BusRan f q t u) :
    BusRan (e ++ f) (p ++ q) s u := ⟨h.ran.trans g.ran, h.quiet.trans g.quiet⟩

/-- The counters of the sequencer move. -/
theorem BusRan.counters (s : State) (p : PStep) (b : BitVec 1) : BusRan [] [] s { s with pstep := p, pbyte := b } :=
  ⟨RanEvents.of_same rfl rfl rfl rfl rfl rfl rfl rfl rfl,
    ⟨rfl, rfl, ⟨rfl, rfl, rfl, rfl, rfl, rfl, rfl, rfl⟩, rfl, rfl, rfl, rfl⟩⟩

theorem busRan_write {s : State} {id : PinId} (v : Level) (h : s.drivable id = true) :
    ∃ t, pinWrite id v s = .ok () t ∧ BusRan [.w id v] [id] s t := by
  obtain ⟨t, ht, hr, hq⟩ := pinWrite_ok v h
  exact ⟨t, ht, hr, hq.toBus⟩

theorem busRan_delayed (s : State) (t : Nat) : BusRan [.d t] [] s (s.delayed t) := ⟨delayed_ran s t, (delayed_quiet s t).toBus⟩

/-- Pins that can be driven are written one after another. -/
theorem pinWrites_ok (l : List (PinId × Level)) (s : State) (h : ∀ e ∈ l, s.drivable e.1 = true) :
    ∃ t, pinWrites l s = .ok () t ∧ BusRan (l.map fun e => .w e.1 e.2) (l.map (·.1)) s t := by
  induction l generalizing s with
  | nil => exact ⟨s, rfl, BusRan.counters s s.pstep s.pbyte⟩
  | cons e l ih =>
    obtain ⟨u, hu, ru⟩ := busRan_write e.2 (h e (by simp))
    obtain ⟨t, ht, rt⟩ := ih u fun f hf => by rw [ru.ran.drivable]; exact h f (by simp [hf])
    exact ⟨t, by simp [pinWrites, hu, ht], ru.trans rt⟩

/-- `DriveData(b)` on pins that can be driven (41_parallel_bus.md R107). -/
theorem driveData_ok (b : Byte) (s : State) (h : ∀ p ∈ s.cfg.bus.db, s.drivable p = true) :
    ∃ t, driveData b s = .ok () t ∧ BusRan (driveTrace s.cfg b) s.cfg.bus.db s t := by
  obtain ⟨t, ht, hr⟩ := pinWrites_ok (s.cfg.bus.db.zip (bitsLowFirst b)) s fun e he => h _ (List.of_mem_zip he).1
  exact ⟨t, ht, hr⟩

/-- `WrPulse()` on a strobe that can be driven (41_parallel_bus.md R108). -/
theorem wrPulse_ok (s : State) (h : s.drivable s.cfg.bus.wr = true) :
    ∃ t, wrPulse s = .ok () t ∧ BusRan (strobeTrace s.cfg) [s.cfg.bus.wr] s t := by
  obtain ⟨u, hu, ru⟩ := busRan_write false h
  have r1 := ru.trans (busRan_delayed u u.cfg.tWrLow)
  have hd : (u.delayed u.cfg.tWrLow).drivable s.cfg.bus.wr = true := by rw [r1.ran.drivable]; exact h
  obtain ⟨t, ht, rt⟩ := busRan_write true hd
  have r2 := (r1.trans rt).trans (busRan_delayed t t.cfg.tWrHigh)
  have hc : u.cfg = s.cfg := ru.ran.inputs.cfg
  have hc2 : t.cfg = s.cfg := (r1.trans rt).ran.inputs.cfg
  refine ⟨_, ?_, r2.ran.congr ?_ ?_, r2.quiet⟩
  · simp only [wrPulse, hu, Res.bind_ok]
    rw [show (u.delayed u.cfg.tWrLow).cfg.bus.wr = s.cfg.bus.wr by simp [hc], ht]
    rfl
  · simp [strobeTrace, hc, hc2]
  · simp

/-- Steps 4 and 5 for the bytes of a transaction (41_parallel_bus.md R100). -/
theorem xferBytes_ok (l : List Byte) (j : Nat) (s : State) (hdb : ∀ p ∈ s.cfg.bus.db, s.drivable p = true)
    (hwr : s.drivable s.cfg.bus.wr = true) :
    ∃ t used, xferBytes j l s = .ok () t ∧ BusRan (l.flatMap fun b => driveTrace s.cfg b ++ strobeTrace s.cfg) used s t ∧
      (∀ p, p ∈ used ↔ l ≠ [] ∧ (p ∈ s.cfg.bus.db ∨ p = s.cfg.bus.wr)) := by
  induction l generalizing j s with
  | nil => exact ⟨s, [], rfl, BusRan.counters s s.pstep s.pbyte, by simp⟩
  | cons b l ih =>
    have c1 := BusRan.counters s .four (BitVec.ofNat 1 j)
    obtain ⟨u, hu, ru⟩ := driveData_ok b { s with pbyte := BitVec.ofNat 1 j, pstep := .four } hdb
    have r1 := c1.trans ru
    have c2 := BusRan.counters u .five u.pbyte
    have hc : u.cfg = s.cfg := r1.ran.inputs.cfg
    have r2 := r1.trans c2
    obtain ⟨v, hv, rv⟩ := wrPulse_ok { u with pstep := .five } (by
      rw [r2.ran.drivable]; show s.drivable u.cfg.bus.wr = true; rw [hc]; exact hwr)
    have r3 := r2.trans rv
    have hc3 : v.cfg = s.cfg := r3.ran.inputs.cfg
    obtain ⟨t, used, ht, rt, hused⟩ := ih (j + 1) v
      (by rw [hc3]; intro p hp; rw [r3.ran.drivable]; exact hdb p hp) (by rw [hc3, r3.ran.drivable]; exact hwr)
    have r4 := r3.trans rt
    refine ⟨t, _, by simp only [xferBytes, hu, hv, ht, Res.bind_ok], ⟨r4.ran.congr ?_ (fun _ => Iff.rfl), r4.quiet⟩, ?_⟩
    · simp [hc, hc3, driveTrace, strobeTrace]
    · intro p
      simp only [List.mem_append, hused, hc3, List.not_mem_nil, false_or, List.mem_singleton, or_false, hc, ne_eq,
        reduceCtorEq, not_false_eq_true, true_and]
      tauto

theorem busReady_spec {s : State} (h : s.busReady = true) : ∀ p ∈ s.cfg.busOuts, s.drivable p = true := by
  simpa [State.busReady] using h

/-- Step 2 of a transaction (41_parallel_bus.md R100, R113). -/
theorem deassertRead_ok (s : State) (h : s.cfg.hasRd = true → s.drivable s.cfg.bus.rd = true) :
    ∃ t, deassertRead s = .ok () t ∧ BusRan (if s.cfg.hasRd then [.w s.cfg.bus.rd true] else [])
      (if s.cfg.hasRd then [s.cfg.bus.rd] else []) s t := by
  cases hr : s.cfg.hasRd with
  | true =>
    obtain ⟨t, ht, rt⟩ := busRan_write true (h hr)
    exact ⟨t, by simpa [deassertRead, hr] using ht, by simpa using rt⟩
  | false => exact ⟨s, by simp [deassertRead, hr], by simpa using BusRan.counters s s.pstep s.pbyte⟩

/-- A transaction on a bus that is ready: its whole trace, and nothing else but the counters, which end idle
(41_parallel_bus.md R100, R110). -/
theorem busXfer_ok (rs : Level) (l : List Byte) (s : State) (hl : l ≠ []) (h : s.busReady = true) :
    ∃ t, busXfer rs l s = .ok () t ∧ BusRan (transactionTrace s.cfg rs l) s.cfg.busOuts s t ∧ t.pstep = .idle ∧
      t.pbyte = 0#1 := by
  have hr := busReady_spec h
  have hcs : s.drivable s.cfg.bus.cs = true := hr _ (by simp [Config.busOuts])
  have hrs : s.drivable s.cfg.bus.rs = true := hr _ (by simp [Config.busOuts])
  have hwr : s.drivable s.cfg.bus.wr = true := hr _ (by simp [Config.busOuts])
  have hdb : ∀ p ∈ s.cfg.bus.db, s.drivable p = true := fun p hp => hr _ (by simp [Config.busOuts, hp])
  have hrd : s.cfg.hasRd = true → s.drivable s.cfg.bus.rd = true := fun hh => hr _ (by simp [Config.busOuts, hh])
  have hseq : seqCheck s.cfg.busOuts [] s = .ok () s :=
    seqCheck_ok (State.drivable_spec hcs).1 (fun p hp => (State.drivable_spec (hr p hp)).2.2.1) (by simp)
  have r0 := BusRan.counters s .one s.pbyte
  obtain ⟨s1, h1, q1⟩ := busRan_write (s := { s with pstep := .one }) false hcs
  have r1 := (r0.trans q1).trans (BusRan.counters s1 .two s1.pbyte)
  have c1 : s1.cfg = s.cfg := r1.ran.inputs.cfg
  obtain ⟨s2, h2, q2⟩ := deassertRead_ok { s1 with pstep := .two } (by
    intro hh
    have hh' : s1.cfg.hasRd = true := hh
    rw [r1.ran.drivable]
    show s.drivable s1.cfg.bus.rd = true
    rw [c1] at hh' ⊢
    exact hrd hh')
  have r2 := (r1.trans q2).trans (BusRan.counters s2 .three s2.pbyte)
  have c2 : s2.cfg = s.cfg := r2.ran.inputs.cfg
  obtain ⟨s3, h3, q3⟩ := busRan_write (s := { s2 with pstep := .three }) (id := s2.cfg.bus.rs) rs (by
    rw [r2.ran.drivable, c2]; exact hrs)
  have r3 := r2.trans q3
  have c3 : s3.cfg = s.cfg := r3.ran.inputs.cfg
  obtain ⟨s4, used, h4, q4, hu⟩ := xferBytes_ok l 0 s3
    (by rw [c3]; intro p hp; rw [r3.ran.drivable]; exact hdb p hp) (by rw [c3, r3.ran.drivable]; exact hwr)
  have r4 := (r3.trans q4).trans (BusRan.counters s4 .six s4.pbyte)
  have c4 : s4.cfg = s.cfg := r4.ran.inputs.cfg
  obtain ⟨s5, h5, q5⟩ := busRan_write (s := { s4 with pstep := .six }) (id := s4.cfg.bus.cs) true (by
    rw [r4.ran.drivable, c4]; exact hcs)
  have r5 := (r4.trans q5).trans (BusRan.counters s5 .idle 0#1)
  refine ⟨{ s5 with pstep := .idle, pbyte := 0#1 }, ?_, ⟨r5.ran.congr ?_ ?_, r5.quiet⟩, rfl, rfl⟩
  · simp only [busXfer, hseq, h1, h2, h3, h4, h5, Res.bind_ok]
  · simp [transactionTrace, c1, c2, c3, c4]
  · intro p
    simp only [c1, c2, c4, List.mem_append, hu, c3, List.not_mem_nil, hl, ne_eq, not_false_eq_true, true_and,
      false_or, or_false, Config.busOuts, List.mem_cons]
    tauto

end Sys2Proof.Machine
end

