-- ==== Sys2Proof/Laws/Serial.lean ====
section
/-! SUPPORT. The laws of the serial shifter: what each part of a serial operation does to a connection that is ready. -/

namespace Sys2Proof.Machine

/-- What a part of a serial operation leaves alone: everything beside the pins, `SSTEP`, `SBIT`, `ACC` and the levels of the
outside it uses up. -/
structure SerialQuiet (s t : State) : Prop where
  outcome : t.outcome = s.outcome
  sb : t.sb = s.sb
  fr : t.fr = s.fr
  x1 : t.x1 = s.x1
  y1 : t.y1 = s.y1
  x2 : t.x2 = s.x2
  y2 : t.y2 = s.y2
  coord : t.coord = s.coord
  pstep : t.pstep = s.pstep
  pbyte : t.pbyte = s.pbyte
  scnt : t.scnt = s.scnt
  rpass : t.rpass = s.rpass

theorem SerialQuiet.trans {s t u : State} (h : SerialQuiet s t) (g : SerialQuiet t u) : SerialQuiet s u :=
  ⟨g.outcome.trans h.outcome, g.sb.trans h.sb, g.fr.trans h.fr, g.x1.trans h.x1, g.y1.trans h.y1, g.x2.trans h.x2,
    g.y2.trans h.y2, g.coord.trans h.coord, g.pstep.trans h.pstep, g.pbyte.trans h.pbyte, g.scnt.trans h.scnt,
    g.rpass.trans h.rpass⟩

theorem QuietButLevels.toSerial {s t : State} (h : QuietButLevels s t) : SerialQuiet s t :=
  ⟨h.outcome, h.work.sb, h.work.fr, h.work.x1, h.work.y1, h.work.x2, h.work.y2, h.work.coord, h.counters.pstep,
    h.counters.pbyte, h.counters.scnt, h.counters.rpass⟩

/-- A part of a serial operation: its events happen, everything else is left alone. -/
structure SerialRan (ev : List Event) (used : List PinId) (s t : State) : Prop where
  ran : RanEvents ev used s t
  quiet : SerialQuiet s t

theorem SerialRan.trans {e f : List Event} {p q : List PinId} {s t u : State} (h : SerialRan e p s t) (g : SerialRan f q t u) :
    SerialRan (e ++ f) (p ++ q) s u := ⟨h.ran.trans g.ran, h.quiet.trans g.quiet⟩

theorem SerialRan.congr {e f : List Event} {p q : List PinId} {s t : State} (h : SerialRan e p s t) (he : e = f)
    (hp : ∀ id, id ∈ p ↔ id ∈ q) : SerialRan f q s t := ⟨h.ran.congr he hp, h.quiet⟩

/-- The counters and the accumulator move. -/
theorem SerialRan.counters (s : State) (p : SStep) (b : BitVec 4) (a : Sample) :
    SerialRan [] [] s { s with sstep := p, sbit := b, acc := a } :=
  ⟨RanEvents.of_same rfl rfl rfl rfl rfl rfl rfl rfl rfl, ⟨rfl, rfl, rfl, rfl, rfl, rfl, rfl, rfl, rfl, rfl, rfl, rfl⟩⟩

/-- A run keeps the connection ready. -/
theorem RanEvents.serialReady {e : List Event} {p : List PinId} {s t : State} (h : RanEvents e p s t) :
    t.serialReady = s.serialReady := by
  have hd : t.drivable = s.drivable := funext h.drivable
  unfold State.serialReady
  rw [h.inputs.cfg, hd, h.dir]

/-- What a ready connection gives. -/
theorem State.serialReady_spec {s : State} (h : s.serialReady = true) :
    s.drivable s.cfg.ser.clk = true ∧ s.drivable s.cfg.ser.din = true ∧ s.drivable s.cfg.ser.tcs = true ∧
      (s.pin s.cfg.ser.dout).dir = .input ∧ (s.cfg.find s.cfg.ser.dout).isSome = true ∧ s.initialized = true := by
  simp only [State.serialReady, Config.serialOuts, List.all_cons, List.all_nil, Bool.and_true, Bool.and_eq_true,
    beq_iff_eq] at h
  obtain ⟨⟨⟨h1, h2, h3⟩, h4⟩, h5⟩ := h
  exact ⟨h1, h2, h3, h4, h5, (State.drivable_spec h1).1⟩

/-- The precondition passes on a ready connection (42_serial_adc.md R120). -/
theorem serialCheck_ok {s : State} (h : s.serialReady = true) : serialCheck s = .ok () s := by
  obtain ⟨h1, h2, h3, h4, _, hi⟩ := State.serialReady_spec h
  refine seqCheck_ok hi ?_ ?_
  · intro p hp
    simp only [Config.serialOuts, List.mem_cons, List.not_mem_nil, or_false] at hp
    rcases hp with rfl | rfl | rfl
    · exact (State.drivable_spec h1).2.2.1
    · exact (State.drivable_spec h2).2.2.1
    · exact (State.drivable_spec h3).2.2.1
  · intro p hp
    simp only [Config.serialIns, List.mem_cons, List.not_mem_nil, or_false] at hp
    subst hp; exact h4

/-- A write to one of the shifter's outputs, kept with the readiness of what follows. -/
theorem serialWrite {s : State} {id : PinId} (v : Level) (h : s.drivable id = true) :
    ∃ t, pinWrite id v s = .ok () t ∧ SerialRan [.w id v] [id] s t ∧ t.sstep = s.sstep ∧ t.sbit = s.sbit ∧
      t.acc = s.acc ∧ t.levels = s.levels := by
  obtain ⟨t, ht, hr, hq⟩ := pinWrite_ok v h
  exact ⟨t, ht, ⟨hr, hq.toQuietButLevels.toSerial⟩, hq.counters.sstep, hq.counters.sbit, hq.work.acc, hq.levels⟩

/-- The framing on a ready connection (42_serial_adc.md R121). -/
theorem startFrame_ok {s : State} (h : s.serialReady = true) :
    ∃ t, startFrame s = .ok () t ∧ SerialRan (startTrace s.cfg) s.cfg.serialOuts s t ∧ t.sstep = .idle ∧ t.sbit = s.sbit ∧
      t.acc = s.acc ∧ t.levels = s.levels := by
  have r0 := SerialRan.counters s .start s.sbit s.acc
  obtain ⟨s1, h1, q1, a1, b1, d1, l1⟩ := serialWrite (s := { s with sstep := .start }) (id := s.cfg.ser.clk) false
    (State.serialReady_spec h).1
  have r1 := r0.trans q1
  have c1 : s1.cfg = s.cfg := r1.ran.inputs.cfg
  have y1 : s1.serialReady = true := by rw [r1.ran.serialReady]; exact h
  obtain ⟨s2, h2, q2, a2, b2, d2, l2⟩ := serialWrite true (State.serialReady_spec y1).2.2.1
  have r2 := r1.trans q2
  have c2 : s2.cfg = s.cfg := r2.ran.inputs.cfg
  have y2 : s2.serialReady = true := by rw [r2.ran.serialReady]; exact h
  obtain ⟨s3, h3, q3, a3, b3, d3, l3⟩ := serialWrite true (State.serialReady_spec y2).2.1
  have r3 := r2.trans q3
  have c3 : s3.cfg = s.cfg := r3.ran.inputs.cfg
  have y3 : s3.serialReady = true := by rw [r3.ran.serialReady]; exact h
  obtain ⟨s4, h4, q4, a4, b4, d4, l4⟩ := serialWrite true (State.serialReady_spec y3).1
  have r4 := r3.trans q4
  have c4 : s4.cfg = s.cfg := r4.ran.inputs.cfg
  have y4 : s4.serialReady = true := by rw [r4.ran.serialReady]; exact h
  obtain ⟨s5, h5, q5, a5, b5, d5, l5⟩ := serialWrite false (State.serialReady_spec y4).2.2.1
  have r5 := (r4.trans q5).trans (SerialRan.counters s5 .idle s5.sbit s5.acc)
  refine ⟨{ s5 with sstep := .idle }, ?_, r5.congr ?_ ?_, rfl, ?_, ?_, ?_⟩
  · simp only [startFrame, h1, h2, h3, h4, h5, Res.bind_ok]
  · simp [startTrace, c1, c2, c3, c4]
  · intro p
    simp only [c1, c2, c3, c4, Config.serialOuts, List.mem_append, List.mem_cons, List.not_mem_nil, or_false, false_or]
    tauto
  · exact b5.trans (b4.trans (b3.trans (b2.trans b1)))
  · exact d5.trans (d4.trans (d3.trans (d2.trans d1)))
  · exact l5.trans (l4.trans (l3.trans (l2.trans l1)))

/-- The clocks that present bits on DIN (42_serial_adc.md R122). -/
theorem shiftOutBits_ok (l : List Level) (j : Nat) (s : State) (h : s.serialReady = true) :
    ∃ t used, shiftOutBits j l s = .ok () t ∧ SerialRan (l.flatMap (clockOutTrace s.cfg)) used s t ∧ t.sstep = s.sstep ∧
      t.acc = s.acc ∧ t.levels = s.levels ∧ (∀ p, p ∈ used ↔ l ≠ [] ∧ (p = s.cfg.ser.clk ∨ p = s.cfg.ser.din)) := by
  induction l generalizing j s with
  | nil => exact ⟨s, [], rfl, SerialRan.counters s s.sstep s.sbit s.acc, rfl, rfl, rfl, by simp⟩
  | cons v l ih =>
    have r0 := SerialRan.counters s s.sstep (BitVec.ofNat 4 j) s.acc
    obtain ⟨s1, h1, q1, a1, _, d1, l1⟩ := serialWrite (s := { s with sbit := BitVec.ofNat 4 j }) (id := s.cfg.ser.clk) false
      (State.serialReady_spec h).1
    have r1 := r0.trans q1
    have c1 : s1.cfg = s.cfg := r1.ran.inputs.cfg
    have y1 : s1.serialReady = true := by rw [r1.ran.serialReady]; exact h
    obtain ⟨s2, h2, q2, a2, _, d2, l2⟩ := serialWrite v (State.serialReady_spec y1).2.1
    have r2 := r1.trans q2
    have c2 : s2.cfg = s.cfg := r2.ran.inputs.cfg
    have y2 : s2.serialReady = true := by rw [r2.ran.serialReady]; exact h
    obtain ⟨s3, h3, q3, a3, _, d3, l3⟩ := serialWrite true (State.serialReady_spec y2).1
    have r3 := r2.trans q3
    have c3 : s3.cfg = s.cfg := r3.ran.inputs.cfg
    have y3 : s3.serialReady = true := by rw [r3.ran.serialReady]; exact h
    obtain ⟨t, used, ht, rt, at', dt, lt', hu⟩ := ih (j + 1) s3 y3
    refine ⟨t, _, by simp only [shiftOutBits, h1, h2, h3, ht, Res.bind_ok], (r3.trans rt).congr ?_ (fun _ => Iff.rfl), ?_, ?_,
      ?_, ?_⟩
    · simp [c1, c2, c3, clockOutTrace]
    · exact at'.trans (a3.trans (a2.trans a1))
    · exact dt.trans (d3.trans (d2.trans d1))
    · exact lt'.trans (l3.trans (l2.trans l1))
    · intro p
      simp only [c1, c2, c3, hu, List.mem_append, List.mem_cons, List.not_mem_nil, or_false, false_or, ne_eq, reduceCtorEq,
        not_false_eq_true, true_and]
      tauto

/-- `shift_out(byte)` on a ready connection (42_serial_adc.md R122). -/
theorem shiftOut_ok (b : Byte) {s : State} (h : s.serialReady = true) :
    ∃ t, shiftOut b s = .ok () t ∧ SerialRan (shiftOutTrace s.cfg b) [s.cfg.ser.clk, s.cfg.ser.din] s t ∧ t.sstep = .idle ∧
      t.sbit = 0#4 ∧ t.acc = s.acc ∧ t.levels = s.levels := by
  have r0 := SerialRan.counters s .out s.sbit s.acc
  obtain ⟨t, used, ht, rt, _, dt, lt', hu⟩ := shiftOutBits_ok (bitsHighFirst b) 0 { s with sstep := .out } h
  have r1 := (r0.trans rt).trans (SerialRan.counters t .idle 0#4 t.acc)
  refine ⟨{ t with sstep := .idle, sbit := 0#4 }, by simp only [shiftOut, ht, Res.bind_ok], r1.congr ?_ ?_, rfl, rfl, dt, lt'⟩
  · simp [shiftOutTrace, bitsHighFirst, BitVec.getMsbD, List.range_succ]
  · intro p
    simp [hu, bitsHighFirst]

/-- A sample of DOUT on a ready connection: the outside's next level, and one level of the outside used up. -/
theorem serialRead {s : State} (h : s.serialReady = true) :
    ∃ t, pinRead s.cfg.ser.dout s = .ok s.nextLevel t ∧ SerialRan [.r s.cfg.ser.dout s.nextLevel] [s.cfg.ser.dout] s t ∧
      t.sstep = s.sstep ∧ t.sbit = s.sbit ∧ t.acc = s.acc ∧ t.levels = s.levels.tail := by
  obtain ⟨_, _, _, hdir, hd, hi⟩ := State.serialReady_spec h
  obtain ⟨d, hd⟩ := Option.isSome_iff_exists.mp hd
  have hid := Config.find_id hd
  obtain ⟨ho, hq⟩ := State.openPin_ran s s.cfg.ser.dout
  obtain ⟨hs, hw⟩ := State.sampled_spec (s.openPin s.cfg.ser.dout) d
  have hdr : (s.openPin s.cfg.ser.dout).driven d = none := by
    simp [State.driven, hid, State.pin_openPin, hdir]
  have hv : (s.openPin s.cfg.ser.dout).inLevel d = s.nextLevel := by
    rw [State.inLevel_eq, hdr, State.openPin_eq]; rfl
  have hl : ((s.openPin s.cfg.ser.dout).sampled d).levels = s.levels.tail := by
    unfold State.sampled
    rw [hdr, State.openPin_eq]; rfl
  rw [hv, hid] at hs
  refine ⟨_, by rw [pinRead, pinCheck_ok hi hd, ← hv]; rfl, ⟨(ho.trans hs).congr (by simp) (by simp), ?_⟩, ?_, ?_, ?_, hl⟩
  · exact hq.toQuietButLevels.toSerial.trans hw.toSerial
  · exact hw.counters.sstep.trans hq.counters.sstep
  · exact hw.counters.sbit.trans hq.counters.sbit
  · exact hw.work.acc.trans hq.work.acc

/-- The levels sampled are those the outside supplies, as far as it supplies them. -/
def SampledFrom (supplied vs : List Level) : Prop := vs.take supplied.length = supplied.take vs.length

theorem SampledFrom.cons {v : Level} {supplied vs : List Level} (h : SampledFrom supplied.tail vs)
    (hv : ∀ x l, supplied = x :: l → v = x) : SampledFrom supplied (v :: vs) := by
  cases supplied with
  | nil => simp [SampledFrom]
  | cons x l => simpa [SampledFrom, hv x l rfl] using h

theorem SampledFrom.append {sup a b : List Level} (h : SampledFrom sup a)
    (g : SampledFrom (sup.drop a.length) b) : SampledFrom sup (a ++ b) := by
  unfold SampledFrom at *
  rw [List.take_append, h, List.length_append, List.take_add]
  rw [List.length_drop] at g
  rw [g]

theorem State.nextLevel_supplied (s : State) : ∀ x l, s.levels = x :: l → s.nextLevel = x := by
  intro x l h; simp [State.nextLevel, h]

/-- The clocks that sample DOUT (42_serial_adc.md R123). -/
theorem shiftInBits_ok (n j : Nat) (s : State) (h : s.serialReady = true) :
    ∃ t used vs, shiftInBits j n s = .ok () t ∧ vs.length = n ∧ SerialRan (shiftInTrace s.cfg vs) used s t ∧
      t.sstep = s.sstep ∧ t.acc = vs.foldl shiftIn s.acc ∧ t.levels = s.levels.drop n ∧ SampledFrom s.levels vs ∧
      (∀ p, p ∈ used ↔ n ≠ 0 ∧ (p = s.cfg.ser.clk ∨ p = s.cfg.ser.dout)) := by
  induction n generalizing j s with
  | zero =>
    exact ⟨s, [], [], rfl, rfl, SerialRan.counters s s.sstep s.sbit s.acc, rfl, rfl, rfl, by simp [SampledFrom], by simp⟩
  | succ n ih =>
    have r0 := SerialRan.counters s s.sstep (BitVec.ofNat 4 j) s.acc
    obtain ⟨s1, h1, q1, a1, _, d1, l1⟩ := serialWrite (s := { s with sbit := BitVec.ofNat 4 j }) (id := s.cfg.ser.clk) false
      (State.serialReady_spec h).1
    have r1 := r0.trans q1
    have c1 : s1.cfg = s.cfg := r1.ran.inputs.cfg
    have y1 : s1.serialReady = true := by rw [r1.ran.serialReady]; exact h
    obtain ⟨s2, h2, q2, a2, _, d2, l2⟩ := serialWrite true (State.serialReady_spec y1).1
    have r2 := r1.trans q2
    have c2 : s2.cfg = s.cfg := r2.ran.inputs.cfg
    have y2 : s2.serialReady = true := by rw [r2.ran.serialReady]; exact h
    obtain ⟨s3, h3, q3, a3, b3, d3, l3⟩ := serialRead y2
    have r3 := (r2.trans q3).trans (SerialRan.counters s3 s3.sstep s3.sbit (shiftIn s3.acc s2.nextLevel))
    have c3 : s3.cfg = s.cfg := r3.ran.inputs.cfg
    have y3 : ({ s3 with acc := shiftIn s3.acc s2.nextLevel } : State).serialReady = true := by
      rw [r3.ran.serialReady]; exact h
    obtain ⟨t, used, vs, ht, hn, rt, at', dt, lt', st, hu⟩ := ih (j + 1) _ y3
    have hl2 : s2.levels = s.levels := l2.trans l1
    refine ⟨t, _, s2.nextLevel :: vs, by simp only [shiftInBits, h1, h2, h3, ht, Res.bind_ok], by simp [hn],
      (r3.trans rt).congr ?_ (fun _ => Iff.rfl), ?_, ?_, ?_, ?_, ?_⟩
    · simp [c1, c2, c3, shiftInTrace]
    · exact at'.trans (a3.trans (a2.trans a1))
    · rw [dt]
      show List.foldl shiftIn (shiftIn s3.acc s2.nextLevel) vs = _
      rw [d3.trans (d2.trans d1)]; rfl
    · rw [lt']
      show s3.levels.drop n = _
      rw [l3, hl2, List.drop_tail]
    · refine SampledFrom.cons ?_ (by rw [← hl2]; exact s2.nextLevel_supplied)
      have hst : SampledFrom s3.levels vs := st
      rwa [l3, hl2] at hst
    · intro p
      simp only [c1, c2, c3, hu, List.mem_append, List.mem_cons, List.not_mem_nil, or_false, false_or, ne_eq,
        Nat.add_eq_zero_iff, one_ne_zero, and_false, not_false_eq_true, true_and]
      tauto

theorem foldl_shiftIn_toNat (vs : List Level) (a : Sample) (m : Nat) (ha : a.toNat < 2 ^ m) (hm : m + vs.length ≤ 12) :
    (vs.foldl shiftIn a).toNat = vs.foldl (fun x v => 2 * x + v.toNat) a.toNat := by
  induction vs generalizing a m with
  | nil => rfl
  | cons v vs ih =>
    simp only [List.length_cons] at hm
    have h11 : a.toNat < 2 ^ 11 := lt_of_lt_of_le ha (Nat.pow_le_pow_right (by decide) (by omega))
    have hs := shiftIn_toNat a v h11
    have : (shiftIn a v).toNat < 2 ^ (m + 1) := by
      rw [hs, pow_succ]; cases v <;> simp <;> omega
    simp only [List.foldl_cons]
    rw [ih (shiftIn a v) (m + 1) this (by omega), hs]

/-- The accumulator holds the value of the sampled bits, the first the most significant (42_serial_adc.md R123). -/
theorem shiftIn_value (vs : List Level) (h : vs.length ≤ 12) : (vs.foldl shiftIn 0#12).toNat = bitsValue vs := by
  simpa [bitsValue] using foldl_shiftIn_toNat vs 0#12 0 (by decide) (by omega)

theorem foldl_bits_append (vs : List Level) (a : Nat) :
    vs.foldl (fun x v => 2 * x + v.toNat) a = a * 2 ^ vs.length + bitsValue vs := by
  induction vs generalizing a with
  | nil => simp [bitsValue]
  | cons v vs ih =>
    have h0 := ih (2 * a + v.toNat)
    have h1 := ih v.toNat
    simp only [List.foldl_cons, List.length_cons, bitsValue, pow_succ] at *
    rw [h0]
    simp only [Nat.mul_zero, Nat.zero_add]
    rw [h1]; ring

/-- `n` bits make a value below `2^n`. -/
theorem bitsValue_lt (vs : List Level) : bitsValue vs < 2 ^ vs.length := by
  induction vs with
  | nil => simp [bitsValue]
  | cons v vs ih =>
    have : bitsValue (v :: vs) = v.toNat * 2 ^ vs.length + bitsValue vs := by
      rw [← foldl_bits_append]; simp [bitsValue]
    rw [this, List.length_cons, pow_succ]
    cases v <;> simp <;> omega

/-- `shift_in(n_bits)` on a ready connection (42_serial_adc.md R123). -/
theorem shiftInto_ok {n : Nat} {s : State} (hn : n ≠ 0) (h : s.serialReady = true) :
    ∃ t vs, shiftInto n s = .ok (vs.foldl shiftIn 0#12) t ∧ vs.length = n ∧
      SerialRan (shiftInTrace s.cfg vs) [s.cfg.ser.clk, s.cfg.ser.dout] s t ∧ t.sstep = .idle ∧ t.sbit = 0#4 ∧
      t.acc = vs.foldl shiftIn 0#12 ∧ t.levels = s.levels.drop n ∧ SampledFrom s.levels vs := by
  have r0 := SerialRan.counters s .input s.sbit 0#12
  obtain ⟨t, used, vs, ht, hl, rt, _, dt, lt', st, hu⟩ := shiftInBits_ok n 0 { s with sstep := .input, acc := 0#12 } h
  have r1 := (r0.trans rt).trans (SerialRan.counters t .idle 0#4 t.acc)
  have hacc : t.acc = vs.foldl shiftIn 0#12 := dt
  refine ⟨{ t with sstep := .idle, sbit := 0#4 }, vs, by simp only [shiftInto, ht, Res.bind_ok, hacc], hl, r1.congr ?_ ?_, rfl,
    rfl, hacc, lt', st⟩
  · simp
  · intro p
    simp [hu, hn]

theorem conversionBits_cases (c : Byte) : conversionBits c = 8 ∨ conversionBits c = 12 := by
  unfold conversionBits; split <;> simp

/-- `read_channel(control_byte)` on a ready connection (42_serial_adc.md R124). -/
theorem readChannel_ok (c : Byte) {s : State} (h : s.serialReady = true) :
    ∃ t vs, readChannel c s = .ok (vs.foldl shiftIn 0#12) t ∧ vs.length = conversionBits c ∧
      SerialRan (readTrace s.cfg c vs) (s.cfg.serialOuts ++ s.cfg.serialIns) s t ∧ t.sstep = .idle ∧ t.sbit = 0#4 ∧
      t.acc = vs.foldl shiftIn 0#12 ∧ t.levels = s.levels.drop (conversionBits c) ∧ SampledFrom s.levels vs := by
  obtain ⟨s1, h1, r1, a1, b1, d1, l1⟩ := startFrame_ok h
  have c1 : s1.cfg = s.cfg := r1.ran.inputs.cfg
  have y1 : s1.serialReady = true := by rw [r1.ran.serialReady]; exact h
  obtain ⟨s2, h2, q2, a2, b2, d2, l2⟩ := shiftOut_ok c y1
  have r2 := (r1.trans q2).trans (SerialRan.counters s2 .settle s2.sbit s2.acc)
  have r3 := r2.trans ⟨delayed_ran _ s2.cfg.tAdcSettle, (delayed_quiet _ _).toQuietButLevels.toSerial⟩
  have c2 : s2.cfg = s.cfg := r2.ran.inputs.cfg
  have y3 : ({ s2 with sstep := .settle }.delayed s2.cfg.tAdcSettle).serialReady = true := by
    rw [r3.ran.serialReady]; exact h
  obtain ⟨s3, vs, h3, hl, q3, a3, b3, d3, l3, st⟩ :=
    shiftInto_ok (n := conversionBits c) (by rcases conversionBits_cases c with h | h <;> rw [h] <;> decide) y3
  have r4 := (r3.trans q3).trans (SerialRan.counters s3 .deselect s3.sbit s3.acc)
  have c3 : s3.cfg = s.cfg := r4.ran.inputs.cfg
  have y4 : ({ s3 with sstep := .deselect } : State).serialReady = true := by rw [r4.ran.serialReady]; exact h
  obtain ⟨s5, h5, q5, a5, b5, d5, l5⟩ := serialWrite true (State.serialReady_spec y4).2.2.1
  have r5 := (r4.trans q5).trans (SerialRan.counters s5 .idle s5.sbit s5.acc)
  have hlev : ({ s2 with sstep := .settle }.delayed s2.cfg.tAdcSettle).levels = s.levels := l2.trans l1
  refine ⟨{ s5 with sstep := .idle }, vs, ?_, hl, r5.congr ?_ ?_, rfl, b5.trans b3, d5.trans d3, ?_, ?_⟩
  · have h5' : pinWrite s3.cfg.ser.tcs true { s3 with sstep := .deselect } = .ok () s5 := h5
    simp only [readChannel, h1, h2, Res.bind_ok]
    rw [h3]
    simp only [Res.bind_ok, h5']
  · simp [readTrace, c1, c2, c3]
  · intro p
    simp only [c1, c2, c3, State.delayed_cfg, Config.serialOuts, Config.serialIns, List.mem_append, List.mem_cons,
      List.not_mem_nil, or_false]
    tauto
  · rw [← hlev, ← l3]; exact l5
  · rw [hlev] at st; exact st

end Sys2Proof.Machine
end

