-- ==== Sys2Proof/Laws/Filter.lean ====
section
/-! SUPPORT. The laws of the filter and the resolver: the sorted window and its mean, the reads of a filtered reading on a ready
connection. -/

namespace Sys2Proof.Machine

/-! ### Sorting and the ranked mean -/

theorem insertDescending_perm (v : Sample) (l : List Sample) : (insertDescending v l).Perm (v :: l) := by
  induction l with
  | nil => exact List.Perm.refl _
  | cons a l ih =>
    simp only [insertDescending]
    split
    · exact List.Perm.refl _
    · exact (List.Perm.cons a ih).trans (List.Perm.swap v a l)

/-- Sorting keeps the samples. -/
theorem sortDescending_perm (l : List Sample) : (sortDescending l).Perm l := by
  induction l with
  | nil => exact List.Perm.refl _
  | cons a l ih => exact (insertDescending_perm a _).trans (List.Perm.cons a ih)

theorem insertDescending_sorted (v : Sample) (l : List Sample) (h : l.Pairwise fun a b => b.toNat ≤ a.toNat) :
    (insertDescending v l).Pairwise fun a b => b.toNat ≤ a.toNat := by
  induction l with
  | nil => simp [insertDescending]
  | cons a l ih =>
    obtain ⟨h1, h2⟩ := List.pairwise_cons.mp h
    simp only [insertDescending]
    split
    · next hv =>
      refine List.pairwise_cons.mpr ⟨fun b hb => ?_, h⟩
      rcases List.mem_cons.mp hb with rfl | hb
      · exact hv
      · exact (h1 b hb).trans hv
    · next hv =>
      refine List.pairwise_cons.mpr ⟨fun b hb => ?_, ih h2⟩
      rcases List.mem_cons.mp ((insertDescending_perm v l).mem_iff.mp hb) with rfl | hb
      · omega
      · exact h1 b hb

/-- The result of the sort is descending (20_memory.md R56). -/
theorem sortDescending_sorted (l : List Sample) : (sortDescending l).Pairwise fun a b => b.toNat ≤ a.toNat := by
  induction l with
  | nil => exact List.Pairwise.nil
  | cons a l ih => exact insertDescending_sorted a _ ih

@[simp] theorem sortDescending_length (l : List Sample) : (sortDescending l).length = l.length :=
  (sortDescending_perm l).length_eq

theorem keptSamples_length (t : List Sample) :
    (keptSamples t).length = if 5 ≤ t.length then t.length - 4 else t.length := by
  unfold keptSamples pDrop pMinRemainder
  split <;> simp <;> omega

theorem sampleSum_le (l : List Sample) : sampleSum l ≤ 4095 * l.length := by
  induction l with
  | nil => simp [sampleSum]
  | cons a l ih =>
    have : a.toNat < 4096 := a.isLt
    simp only [sampleSum, List.map_cons, List.sum_cons, List.length_cons] at *
    omega

/-- A reading of at most 255 samples holds their sum and their count exactly (10_state.md R24). -/
theorem readingOf_exact (k : List Sample) (h : k.length ≤ 255) :
    (readingOf k).sum.toNat = sampleSum k ∧ (readingOf k).cnt.toNat = k.length := by
  have := sampleSum_le k
  constructor
  · simp only [readingOf, BitVec.toNat_ofNat]
    exact Nat.mod_eq_of_lt (by omega)
  · simp only [readingOf, BitVec.toNat_ofNat]
    exact Nat.mod_eq_of_lt (by omega)

/-! ### The sampled bits and the sample -/

theorem shiftIn_getLsbD (a : Sample) (v : Level) (j : Nat) (hj : j < 12) :
    (shiftIn a v).getLsbD j = if j = 0 then v else a.getLsbD (j - 1) := by
  unfold shiftIn
  rw [BitVec.getLsbD_append]
  cases j with
  | zero => simp
  | succ j => simp; omega

/-- The bits sampled are the bits of the sample, from the highest down (42_serial_adc.md R123). -/
theorem sampleBits_shiftIn (vs : List Level) (h : vs.length ≤ 12) :
    sampleBits vs.length (vs.foldl shiftIn 0#12) = vs := by
  have key : ∀ (l : List Level) (a : Sample), l.length ≤ 12 → ∀ j, j < l.length →
      (l.foldl shiftIn a).getLsbD (l.length - 1 - j) = l.getD j false := by
    intro l
    induction l using List.reverseRecOn with
    | nil => intro a _ j hj; simp at hj
    | append_singleton l v ih =>
      intro a hl j hj
      simp only [List.length_append, List.length_cons, List.length_nil] at hl hj ⊢
      rw [List.foldl_append, List.foldl_cons, List.foldl_nil, shiftIn_getLsbD _ _ _ (by omega)]
      by_cases hj' : j = l.length
      · subst hj'; simp
      · have hlt : j < l.length := by omega
        rw [if_neg (by omega), show l.length + (0 + 1) - 1 - j - 1 = l.length - 1 - j by omega, ih a (by omega) j hlt]
        simp [List.getD, List.getElem?_append_left hlt]
  apply List.ext_getElem
  · simp [sampleBits]
  · intro j h1 h2
    have := key vs 0#12 h j h2
    simp [sampleBits, this, List.getD, List.getElem?_eq_getElem h2]

/-- A sample read in `n` bits fits them. -/
theorem sampleFits_shiftIn (c : Byte) (vs : List Level) (h : vs.length = conversionBits c) :
    sampleFits c (vs.foldl shiftIn 0#12) := by
  have hl : vs.length ≤ 12 := by rcases conversionBits_cases c with hc | hc <;> omega
  unfold sampleFits
  rw [shiftIn_value vs hl, ← h]
  exact bitsValue_lt vs

/-! ### The reads of a filtered reading -/

/-- What a filtered reading leaves alone: everything beside the pins, the shifter's and the filter's own registers and the levels
of the outside it uses up. -/
structure FilterQuiet (s t : State) : Prop where
  outcome : t.outcome = s.outcome
  x1 : t.x1 = s.x1
  y1 : t.y1 = s.y1
  x2 : t.x2 = s.x2
  y2 : t.y2 = s.y2
  coord : t.coord = s.coord
  pstep : t.pstep = s.pstep
  pbyte : t.pbyte = s.pbyte
  rpass : t.rpass = s.rpass

theorem FilterQuiet.trans {s t u : State} (h : FilterQuiet s t) (g : FilterQuiet t u) : FilterQuiet s u :=
  ⟨g.outcome.trans h.outcome, g.x1.trans h.x1, g.y1.trans h.y1, g.x2.trans h.x2, g.y2.trans h.y2, g.coord.trans h.coord,
    g.pstep.trans h.pstep, g.pbyte.trans h.pbyte, g.rpass.trans h.rpass⟩

theorem SerialQuiet.toFilter {s t : State} (h : SerialQuiet s t) : FilterQuiet s t :=
  ⟨h.outcome, h.x1, h.y1, h.x2, h.y2, h.coord, h.pstep, h.pbyte, h.rpass⟩

/-- A part of a filtered reading: its events happen, everything else is left alone. -/
structure FilterRan (ev : List Event) (used : List PinId) (s t : State) : Prop where
  ran : RanEvents ev used s t
  quiet : FilterQuiet s t

theorem FilterRan.trans {e f : List Event} {p q : List PinId} {s t u : State} (h : FilterRan e p s t) (g : FilterRan f q t u) :
    FilterRan (e ++ f) (p ++ q) s u := ⟨h.ran.trans g.ran, h.quiet.trans g.quiet⟩

/-- The registers of the filter move. -/
theorem FilterRan.registers (s : State) (n : BitVec 8) (b : List Sample) (r : Reading) :
    FilterRan [] [] s { s with scnt := n, sb := b, fr := r } :=
  ⟨RanEvents.of_same rfl rfl rfl rfl rfl rfl rfl rfl rfl, ⟨rfl, rfl, rfl, rfl, rfl, rfl, rfl, rfl, rfl⟩⟩

/-- The pins of the serial connection. -/
def serialPins (c : Config) : List PinId := c.serialOuts ++ c.serialIns

theorem storeSample_take (s : State) (i : Nat) (v : Sample) (h : i ≤ s.sb.length) :
    (s.storeSample i v).sb.take (i + 1) = s.sb.take i ++ [v] ∧ i + 1 ≤ (s.storeSample i v).sb.length := by
  have hl : (s.sb.take i).length = i := by simp [h]
  constructor
  · simp only [State.storeSample_sb]
    rw [List.take_append, hl]
    simp [List.take_take]
  · simp only [State.storeSample_sb, List.length_append, hl, List.length_cons]
    omega

/-- The reads into `SB` on a ready connection (43_filter_resolve.md R143). -/
theorem fillSamples_ok (c : Byte) (n i : Nat) (s : State) (h : s.serialReady = true) (hi : i ≤ s.sb.length) :
    ∃ t l used, fillSamples c i n s = .ok () t ∧ l.length = n ∧ (∀ v ∈ l, sampleFits c v) ∧
      FilterRan (filterTrace s.cfg c l) used s t ∧ t.sb.take (i + n) = s.sb.take i ++ l ∧
      t.levels = s.levels.drop (n * conversionBits c) ∧
      SampledFrom s.levels (l.flatMap (sampleBits (conversionBits c))) ∧
      (n ≠ 0 → t.sstep = .idle ∧ t.sbit = 0#4 ∧ l.getLast? = some t.acc) ∧
      (∀ p, p ∈ used ↔ n ≠ 0 ∧ p ∈ serialPins s.cfg) := by
  induction n generalizing i s with
  | zero =>
    exact ⟨s, [], [], rfl, rfl, by simp, FilterRan.registers s s.scnt s.sb s.fr, by simp, by simp, by simp [SampledFrom],
      by simp, by simp⟩
  | succ n ih =>
    have r0 := FilterRan.registers s (BitVec.ofNat 8 i) s.sb s.fr
    obtain ⟨s1, vs, h1, hl, q1, a1, b1, d1, l1, st⟩ := readChannel_ok c (s := { s with scnt := BitVec.ofNat 8 i }) h
    have hle : vs.length ≤ 12 := by rcases conversionBits_cases c with hc | hc <;> omega
    have r1 := r0.trans ⟨q1.ran, q1.quiet.toFilter⟩
    have r2 := r1.trans (FilterRan.registers s1 s1.scnt (s1.storeSample i (vs.foldl shiftIn 0#12)).sb s1.fr)
    have hsb : s1.sb = s.sb := q1.quiet.sb
    obtain ⟨htake, hlen⟩ := storeSample_take s1 i (vs.foldl shiftIn 0#12) (by rw [hsb]; exact hi)
    have c1 : s1.cfg = s.cfg := r1.ran.inputs.cfg
    have y1 : (s1.storeSample i (vs.foldl shiftIn 0#12)).serialReady = true := by
      have : (s1.storeSample i (vs.foldl shiftIn 0#12)).serialReady = s1.serialReady := rfl
      rw [this, r1.ran.serialReady]; exact h
    obtain ⟨t, l, used, ht, hn, hf, rt, hs, lt', st', he, hu⟩ := ih (i + 1) _ y1 hlen
    have r3 := r2.trans rt
    have hbits : sampleBits (conversionBits c) (vs.foldl shiftIn 0#12) = vs := by
      rw [← hl]; exact sampleBits_shiftIn vs hle
    have hlev : (s1.storeSample i (vs.foldl shiftIn 0#12)).levels = s.levels.drop (conversionBits c) := l1
    refine ⟨t, vs.foldl shiftIn 0#12 :: l, _, by simp only [fillSamples, h1, ht, Res.bind_ok], by simp [hn], ?_,
      ⟨r3.ran.congr ?_ (fun _ => Iff.rfl), r3.quiet⟩, ?_, ?_, ?_, fun _ => ?_, ?_⟩
    · intro v hv
      rcases List.mem_cons.mp hv with rfl | hv
      · exact sampleFits_shiftIn c vs hl
      · exact hf v hv
    · simp [filterTrace, hbits, c1]
    · rw [show i + (n + 1) = i + 1 + n by omega, hs, htake, hsb]; simp
    · rw [lt', hlev, List.drop_drop]; congr 1; ring
    · have hst : SampledFrom s.levels vs := st
      rw [hlev] at st'
      simp only [List.flatMap_cons, hbits]
      unfold SampledFrom at *
      rw [List.take_append, hst, List.length_append, List.take_add, hl]
      congr 1
      rw [List.length_drop] at st'
      exact st'
    · by_cases hz : n = 0
      · subst hz
        have hl0 : l = [] := List.eq_nil_of_length_eq_zero hn
        subst hl0
        have ht0 : t = s1.storeSample i (vs.foldl shiftIn 0#12) := by simpa [fillSamples, eq_comm] using ht
        subst ht0
        exact ⟨a1, b1, by simp [d1]⟩
      · obtain ⟨e1, e2, e3⟩ := he hz
        refine ⟨e1, e2, ?_⟩
        rw [List.getLast?_cons, e3]; rfl
    · intro p
      simp only [hu, c1, State.storeSample_cfg, serialPins, List.mem_append, List.not_mem_nil, or_false, false_or, ne_eq,
        Nat.add_eq_zero_iff, one_ne_zero, and_false, not_false_eq_true, true_and]
      tauto

/-- A filtered reading on a ready connection (43_filter_resolve.md R143). -/
theorem filterChannel_ok (c : Byte) (s : State) (h : s.serialReady = true) (hw : s.cfg.window ≠ 0) :
    ∃ t l, filterChannel c s = .ok (rankedMean l) t ∧ l.length = s.cfg.window ∧ (∀ v ∈ l, sampleFits c v) ∧
      FilterRan (filterTrace s.cfg c l) (serialPins s.cfg) s t ∧ t.sb = sortDescending l ∧ t.fr = rankedMean l ∧
      t.levels = s.levels.drop (s.cfg.window * conversionBits c) ∧
      SampledFrom s.levels (l.flatMap (sampleBits (conversionBits c))) ∧ t.sstep = .idle ∧ t.sbit = 0#4 ∧ t.scnt = 0#8 ∧
      l.getLast? = some t.acc := by
  obtain ⟨u, l, used, hu, hn, hf, ru, hs, hl, st, he, hused⟩ := fillSamples_ok c s.cfg.window 0 s h (Nat.zero_le _)
  have hc : u.cfg = s.cfg := ru.ran.inputs.cfg
  have htake : u.sb.take s.cfg.window = l := by simpa using hs
  obtain ⟨e1, e2, e3⟩ := he hw
  have r := ru.trans (FilterRan.registers u 0#8 (sortDescending (u.sb.take u.cfg.window)) (rankedMean (u.sb.take u.cfg.window)))
  refine ⟨{ u with scnt := BitVec.ofNat 8 s.cfg.window }.rank, l, ?_, hn, hf, ⟨r.ran.congr (by simp) ?_, r.quiet⟩, ?_, ?_, hl,
    st, e1, e2, rfl, e3⟩
  · simp [filterChannel, hu, hc, htake]
  · intro p; simp [hused, hw]
  · simp [hc, htake]
  · simp [hc, htake]

/-- A run keeps the window and the connection. -/
theorem FilterRan.ready {e : List Event} {p : List PinId} {s t : State} (h : FilterRan e p s t) :
    t.cfg = s.cfg ∧ t.serialReady = s.serialReady := ⟨h.ran.inputs.cfg, h.ran.serialReady⟩

/-- The precondition of FILT and RESOLVE passes on a ready connection with a window of at least 3. -/
theorem filterCheck_ok {s : State} (h : s.serialReady = true) (h3 : 3 ≤ s.cfg.window) : filterCheck s = .ok () s := by
  rw [filterCheck, if_neg (by omega), serialCheck_ok h]

theorem filterBits_length (c : Byte) (l : List Sample) : (filterBits c l).length = l.length * conversionBits c := by
  induction l with
  | nil => simp [filterBits]
  | cons a l ih => simp only [filterBits, List.flatMap_cons, List.length_append] at ih ⊢; rw [ih]; simp [sampleBits]; ring

theorem RanEvents.readings (s : State) (n : BitVec 2) (a b c d : Reading) :
    RanEvents [] [] s { s with rpass := n, x1 := a, y1 := b, x2 := c, y2 := d } :=
  RanEvents.of_same rfl rfl rfl rfl rfl rfl rfl rfl rfl

/-- The four windows of RESOLVE on a ready connection (43_filter_resolve.md R145). -/
theorem readPasses_ok (s : State) (h : s.serialReady = true) (hw : s.cfg.window ≠ 0) :
    ∃ t lx ly mx my, readPasses s = .ok () t ∧ ResolveRead lx ly mx my s t ∧ t.coord = s.coord ∧ t.sstep = .idle ∧
      t.sbit = 0#4 ∧ t.scnt = 0#8 ∧ t.rpass = 0#2 ∧ t.pstep = s.pstep ∧ t.pbyte = s.pbyte ∧ t.outcome = s.outcome := by
  have r0 := RanEvents.readings s 0#2 s.x1 s.y1 s.x2 s.y2
  obtain ⟨t1, l1, ht1, hn1, hf1, hr1, hsb1, hfr1, hl1, hs1, a1, b1, c1, d1⟩ :=
    filterChannel_ok s.cfg.ctrlX { s with rpass := 0#2 }
      (by rw [← h]; exact r0.serialReady) hw
  have k1 := hr1.ready
  have q1 := r0.trans hr1.ran
  have r1 := q1.trans (RanEvents.readings t1 1#2 (rankedMean l1) t1.y1 t1.x2 t1.y2)
  obtain ⟨t2, l2, ht2, hn2, hf2, hr2, hsb2, hfr2, hl2, hs2, a2, b2, c2, d2⟩ :=
    filterChannel_ok t1.cfg.ctrlY { t1 with x1 := rankedMean l1, rpass := 1#2 }
      (by rw [← h]; exact r1.serialReady) (by simp only [k1.1]; exact hw)
  have r2 := (r1.trans hr2.ran).trans (RanEvents.readings t2 2#2 t2.x1 (rankedMean l2) t2.x2 t2.y2)
  have k2 := hr2.ready
  obtain ⟨t3, l3, ht3, hn3, hf3, hr3, hsb3, hfr3, hl3, hs3, a3, b3, c3, d3⟩ :=
    filterChannel_ok t2.cfg.ctrlX { t2 with y1 := rankedMean l2, rpass := 2#2 }
      (by rw [← h]; exact r2.serialReady) (by simp only [k2.1, k1.1]; exact hw)
  have r3 := (r2.trans hr3.ran).trans (RanEvents.readings t3 3#2 t3.x1 t3.y1 (rankedMean l3) t3.y2)
  have k3 := hr3.ready
  obtain ⟨t4, l4, ht4, hn4, hf4, hr4, hsb4, hfr4, hl4, hs4, a4, b4, c4, d4⟩ :=
    filterChannel_ok t3.cfg.ctrlY { t3 with x2 := rankedMean l3, rpass := 3#2 }
      (by rw [← h]; exact r3.serialReady) (by simp only [k3.1, k2.1, k1.1]; exact hw)
  have r4 := (r3.trans hr4.ran).trans (RanEvents.readings t4 0#2 t4.x1 t4.y1 t4.x2 (rankedMean l4))
  have e1 : t1.cfg = s.cfg := k1.1
  have e2 : t2.cfg = s.cfg := k2.1.trans e1
  have e3 : t3.cfg = s.cfg := k3.1.trans e2
  have hp : readPasses s = .ok () { t4 with y2 := rankedMean l4, rpass := 0#2 } := by
    simp only [readPasses, ht1, Res.bind_ok, ht2, ht3, ht4]
  simp only [e1, e2, e3] at hn2 hn3 hn4 hf2 hf3 hf4 hr2 hr3 hr4 hl2 hl3 hl4 hs2 hs3 hs4 r4
  refine ⟨{ t4 with y2 := rankedMean l4, rpass := 0#2 }, l1, l2, l3, l4, ?_, ?_, ?_, a4, b4, c4, rfl, ?_, ?_, ?_⟩
  · exact hp
  · constructor
    · simp [hn1, hn2, hn3, hn4]
    · simp only [List.mem_append]; rintro v (h | h); exacts [hf1 v h, hf3 v h]
    · simp only [List.mem_append]; rintro v (h | h); exacts [hf2 v h, hf4 v h]
    · have m1 : (filterBits s.cfg.ctrlX l1).length = s.cfg.window * conversionBits s.cfg.ctrlX := by rw [filterBits_length, hn1]
      have m2 : (filterBits s.cfg.ctrlY l2).length = s.cfg.window * conversionBits s.cfg.ctrlY := by rw [filterBits_length, hn2]
      have m3 : (filterBits s.cfg.ctrlX l3).length = s.cfg.window * conversionBits s.cfg.ctrlX := by rw [filterBits_length, hn3]
      have m4 : (filterBits s.cfg.ctrlY l4).length = s.cfg.window * conversionBits s.cfg.ctrlY := by rw [filterBits_length, hn4]
      constructor
      · refine SampledFrom.append (SampledFrom.append (SampledFrom.append hs1 ?_) ?_) ?_
        · rw [m1, ← hl1]; exact hs2
        · rw [List.length_append, m1, m2, ← List.drop_drop, ← hl1, ← hl2]; exact hs3
        · rw [List.length_append, List.length_append, m1, m2, m3, ← List.drop_drop, ← List.drop_drop, ← hl1, ← hl2, ← hl3]; exact hs4
      · show t4.levels = _
        rw [hl4, hl3, hl2, hl1]
        simp only [List.drop_drop, List.length_append, m1, m2, m3, m4]
    · refine r4.congr (by simp) ?_
      intro id; simp only [serialPins, List.nil_append, List.append_nil, List.mem_append]; tauto
    · exact hr4.quiet.x1.trans (hr3.quiet.x1.trans hr2.quiet.x1)
    · exact hr4.quiet.y1.trans hr3.quiet.y1
    · exact hr4.quiet.x2
    · rfl
    · exact hfr4
    · show SortedFrom t4.sb l4
      rw [hsb4]; exact ⟨sortDescending_perm l4, sortDescending_sorted l4⟩
    · exact d4
  · exact hr4.quiet.coord.trans (hr3.quiet.coord.trans (hr2.quiet.coord.trans hr1.quiet.coord))
  · exact hr4.quiet.pstep.trans (hr3.quiet.pstep.trans (hr2.quiet.pstep.trans hr1.quiet.pstep))
  · exact hr4.quiet.pbyte.trans (hr3.quiet.pbyte.trans (hr2.quiet.pbyte.trans hr1.quiet.pbyte))
  · exact hr4.quiet.outcome.trans (hr3.quiet.outcome.trans (hr2.quiet.outcome.trans hr1.quiet.outcome))

end Sys2Proof.Machine
end

