-- ==== Sys2Proof/Laws/Moves.lean ====
section
/-! SUPPORT. Everything an operation can do, said once: however it ends, it is a sequence of elementary moves of the kinds its
row of `Instr.moves` lists. What holds of every move holds of every operation. -/

namespace Sys2Proof.Machine

/-- The kinds of elementary moves. -/
inductive Kind where
  | counters
  | acc
  | filter
  | resolver
  | outcome
  | opened
  | wrote
  | waited
  | sampled
  | directed
  | pulled
  | closed
  | flags
deriving DecidableEq, Repr

/-- The bank after the locked read-modify-write of a function-select field. -/
def Bank.directed (k : Bank) (i : Nat) (v : Bool) : Bank := { k with lock := .free, fsel := putBit k.fsel i v }

/-- The bank after the pull sequence. -/
def Bank.pulled (k : Bank) (i : Nat) (m : Pull) : Bank :=
  { k with lock := .free, pull := Table.set .unknown k.pull i m, pudctl := 0#32, pudclk := 0#32 }

/-- Only the two tables and the record of accesses change, the tables as said, and they stay in the canonical form. -/
structure Retabled (s t : State) (pins : PinId → PinState) (banks : Nat → Bank) : Prop where
  rest : t = { s with pt := t.pt, banks := t.banks, accesses := t.accesses }
  pin : ∀ id, t.pin id = pins id
  bank : ∀ b, t.bank b = banks b
  pinTable : Table.wf PinState.reset s.pt = true → Table.wf PinState.reset t.pt = true
  bankTable : Table.wf Bank.reset s.banks = true → Table.wf Bank.reset t.banks = true

/-- One elementary move. -/
inductive Move : Kind → State → State → Prop
  | counters (s : State) (a : PStep) (b : BitVec 1) (c : SStep) (d : BitVec 4) (e : BitVec 8) (f : BitVec 2) :
      Move .counters s { s with pstep := a, pbyte := b, sstep := c, sbit := d, scnt := e, rpass := f }
  | acc (s : State) (a : Sample) : Move .acc s { s with acc := a }
  | filter (s : State) (b : List Sample) (r : Reading) : Move .filter s { s with sb := b, fr := r }
  | resolver (s : State) (a b c d : Reading) (k : Coord) :
      Move .resolver s { s with x1 := a, y1 := b, x2 := c, y2 := d, coord := k }
  | outcome (s : State) (o : Option OpOutcome) : Move .outcome s { s with outcome := o }
  | opened (s : State) (id : PinId) (hi : s.initialized = true) (hd : (s.cfg.find id).isSome = true) :
      Move .opened s (s.openPin id)
  | wrote (s t : State) (d : PinDescriptor) (v : Level) (hi : s.initialized = true) (hd : s.cfg.find d.id = some d)
      (ho : (s.pin d.id).dir = .output) (hw : (s.cfg.writableOf d.id).level = true)
      (hl : s.cfg.writeStyle = .setClear ∨ (s.bank d.bank).lock = .free) (h : writeLine d v s = .ok () t) :
      Move .wrote s (t.emit (.w d.id v))
  | waited (s : State) (t : Nat) : Move .waited s (s.delayed t)
  | sampled (s : State) (id : PinId) (v : Level) (n : Nat) (c : List Nat) (k : Nat) (l : List Level) (a : List Access)
      (hi : s.initialized = true) (hd : (s.cfg.find id).isSome = true) (hn : s.now ≤ n) :
      Move .sampled s { s with trace := s.trace ++ [.r id v], now := n, clock := c, draws := k, levels := l, accesses := a }
  | drew (s : State) (k : Nat) : Move .sampled s { s with draws := k }
  | directed (s t : State) (d : PinDescriptor) (dir : IoDir) (hi : s.initialized = true)
      (hd : s.cfg.find d.id = some d) (hl : (s.bank d.bank).lock = .free)
      (h : Retabled s t (fun id => if id = d.id then { s.pin d.id with dir := pinDirOf dir } else s.pin id)
        (fun b => if b = d.bank then (s.bank d.bank).directed d.bit (fieldSet dir) else s.bank b)) :
      Move .directed s t
  | pulled (s u t : State) (d : PinDescriptor) (m : Pull) (hi : s.initialized = true)
      (hd : s.cfg.find d.id = some d) (hl : (s.bank d.bank).lock = .free) (hu : u = s.delayed s.cfg.tPull)
      (h : Retabled u t s.pin (fun b => if b = d.bank then (s.bank d.bank).pulled d.bit m else s.bank b)) :
      Move .pulled s t
  | closed (s : State) (id : PinId) (hi : s.initialized = true) (hd : (s.cfg.find id).isSome = true) :
      Move .closed s (s.closePin id)
  | flags (s : State) (v : Bool) (h : s.initTried = false) (hv : s.initialized = true → v = true) :
      Move .flags s { s with initTried := true, initialized := v }

/-- A sequence of moves of the given kinds. -/
def Moves (K : List Kind) (s t : State) : Prop := Relation.ReflTransGen (fun a b => ∃ k ∈ K, Move k a b) s t

theorem Moves.refl (K : List Kind) (s : State) : Moves K s s := Relation.ReflTransGen.refl

theorem Moves.trans {K : List Kind} {s t u : State} (h : Moves K s t) (g : Moves K t u) : Moves K s u :=
  Relation.ReflTransGen.trans h g

theorem Moves.one {K : List Kind} {k : Kind} {s t : State} (hk : k ∈ K) (h : Move k s t) : Moves K s t :=
  Relation.ReflTransGen.single ⟨k, hk, h⟩

theorem Moves.mono {K L : List Kind} {s t : State} (hKL : ∀ k ∈ K, k ∈ L) (h : Moves K s t) : Moves L s t := by
  induction h with
  | refl => exact Relation.ReflTransGen.refl
  | tail _ hm ih => obtain ⟨k, hk, hm⟩ := hm; exact ih.tail ⟨k, hKL k hk, hm⟩

/-- What every move of the kinds keeps, every sequence of them keeps. -/
theorem Moves.keeps {K : List Kind} {P : State → Prop} {s t : State} (h : Moves K s t) (hs : P s)
    (step : ∀ k ∈ K, ∀ a b, Move k a b → P a → P b) : P t := by
  induction h with
  | refl => exact hs
  | tail _ hm ih => obtain ⟨k, hk, hm⟩ := hm; exact step k hk _ _ hm ih

/-- What every move of the kinds relates, every sequence of them relates, where the relation composes. -/
theorem Moves.relates {K : List Kind} {R : State → State → Prop} {s t : State} (h : Moves K s t) (refl : ∀ a, R a a)
    (trans : ∀ a b c, R a b → R b c → R a c) (step : ∀ k ∈ K, ∀ a b, Move k a b → R a b) : R s t := by
  induction h with
  | refl => exact refl s
  | tail _ hm ih => obtain ⟨k, hk, hm⟩ := hm; exact trans _ _ _ ih (step k hk _ _ hm)

/-- However a running operation stands, the state it stands in is reached by moves of the kinds. -/
def Res.Reach {α : Type} (K : List Kind) (s : State) : Res α → Prop
  | .ok _ t => Moves K s t
  | .err _ _ t => Moves K s t
  | .refused _ t => Moves K s t
  | .stuck _ => True

theorem Res.Reach.from {α : Type} {K : List Kind} {s u : State} {r : Res α} (h : r.Reach K u) (g : Moves K s u) :
    r.Reach K s := by
  cases r with
  | ok => exact g.trans h
  | err => exact g.trans h
  | refused => exact g.trans h
  | stuck => trivial

theorem Res.Reach.bind {α β : Type} {K : List Kind} {s : State} {r : Res α} {f : α → State → Res β} (h : r.Reach K s)
    (g : ∀ a t, r = .ok a t → (f a t).Reach K t) : (r.bind f).Reach K s := by
  cases r with
  | ok a t => exact (g a t rfl).from h
  | err => exact h
  | refused => exact h
  | stuck => trivial

theorem Res.Reach.mono {α : Type} {K L : List Kind} {s : State} {r : Res α} (hKL : ∀ k ∈ K, k ∈ L) (h : r.Reach K s) :
    r.Reach L s := by
  cases r with
  | ok => exact Moves.mono hKL h
  | err => exact Moves.mono hKL h
  | refused => exact Moves.mono hKL h
  | stuck => trivial

/-! ### The shared operations -/

theorem pinCheck_reach (id : PinId) (s : State) : (pinCheck id s).Reach [.opened] s := by
  unfold pinCheck
  split
  · next hi =>
    split
    · exact Moves.refl _ _
    · next d hd => exact Moves.one (by simp) (.opened s id hi (by simp [hd]))
  · exact Moves.refl _ _

/-- What `PinCheck` gives when it goes on. -/
theorem pinCheck_eq_ok {id : PinId} {s t : State} {d : PinDescriptor} (h : pinCheck id s = .ok d t) :
    s.initialized = true ∧ s.cfg.find id = some d ∧ t = s.openPin id ∧ d.id = id := by
  unfold pinCheck at h
  split at h
  · next hi =>
    split at h
    · cases h
    · next d' hd => cases h; exact ⟨hi, hd, rfl, Config.find_id hd⟩
  · cases h

theorem State.openPin_initialized (s : State) (id : PinId) : (s.openPin id).initialized = s.initialized := by
  rw [State.openPin_eq]

/-- The register write of a level goes on, or waits for a held lock. -/
theorem writeLine_cases (d : PinDescriptor) (v : Level) (s : State) :
    ((s.cfg.writeStyle = .setClear ∨ (s.bank d.bank).lock = .free) ∧ ∃ t, writeLine d v s = .ok () t ∧ LineWritten d v s t) ∨
      writeLine d v s = .stuck (.lockWait d.bank) := by
  by_cases h : s.cfg.writeStyle = .setClear ∨ (s.bank d.bank).lock = .free
  · exact .inl ⟨h, writeLine_ok d v s h⟩
  · rw [not_or] at h
    have hs : s.cfg.writeStyle = .singleData := by cases hh : s.cfg.writeStyle <;> simp_all
    have hl : (s.bank d.bank).lock = .held := by cases hh : (s.bank d.bank).lock <;> simp_all
    right
    simp [writeLine, hs, acquire, hl]

/-- What the register write of a level does when it goes on. -/
theorem writeLine_eq_ok {d : PinDescriptor} {v : Level} {s t : State}
    (hl : s.cfg.writeStyle = .setClear ∨ (s.bank d.bank).lock = .free) (h : writeLine d v s = .ok () t) :
    LineWritten d v s t := by
  obtain ⟨u, hu, hw⟩ := writeLine_ok d v s hl
  rw [hu] at h; cases h; exact hw

/-- `PinWrite` opens the pin, and writes it or stops. -/
theorem pinWrite_reach (id : PinId) (v : Level) (s : State) : (pinWrite id v s).Reach [.opened, .wrote] s := by
  refine Res.Reach.bind ((pinCheck_reach id s).mono (by simp)) fun d t h => ?_
  obtain ⟨hi, hd, rfl, hid⟩ := pinCheck_eq_ok h
  have hi' : (s.openPin id).initialized = true := by rw [State.openPin_initialized]; exact hi
  split
  · next hw =>
    split
    · next ho =>
      rcases writeLine_cases d v (s.openPin id) with ⟨hl, u, hu, _⟩ | hu
      · rw [hu]
        refine Moves.one (k := .wrote) (by simp) ?_
        rw [← hid]
        exact .wrote _ _ d v (by rw [hid]; exact hi') (by simp [hid, hd]) (by rw [hid]; exact ho) (by rw [hid]; exact hw)
          (by rw [hid]; exact hl) (by rw [hid]; exact hu)
      · rw [hu]; trivial
    · exact Moves.refl _ _
  · exact Moves.refl _ _

theorem State.sampled_eq (s : State) (d : PinDescriptor) : ∃ n c k l a, s.now ≤ n ∧ s.sampled d =
    { s with trace := s.trace ++ [.r d.id (s.inLevel d)], now := n, clock := c, draws := k, levels := l, accesses := a } := by
  unfold State.sampled
  split
  · exact ⟨_, _, _, _, _, Nat.le_add_right_of_le (Nat.le_add_right _ _), rfl⟩
  · exact ⟨_, _, _, _, _, Nat.le_add_right_of_le (Nat.le_add_right _ _), rfl⟩

theorem State.sampled_move {s : State} {d : PinDescriptor} (hi : s.initialized = true)
    (hd : (s.cfg.find d.id).isSome = true) : Move .sampled s (s.sampled d) := by
  obtain ⟨n, c, k, l, a, hn, he⟩ := s.sampled_eq d
  rw [he]
  exact .sampled s d.id _ n c k l a hi hd hn

theorem pinRead_reach (id : PinId) (s : State) : (pinRead id s).Reach [.opened, .sampled] s := by
  refine Res.Reach.bind ((pinCheck_reach id s).mono (by simp)) fun d t h => ?_
  obtain ⟨hi, hd, rfl, hid⟩ := pinCheck_eq_ok h
  exact Moves.one (by simp) (State.sampled_move (by rw [State.openPin_initialized]; exact hi) (by simp [hid, hd]))

theorem seqCheck_reach (outs ins : List PinId) (s : State) : (seqCheck outs ins s).Reach [] s := by
  unfold seqCheck
  split
  · split <;> exact Moves.refl _ _
  · exact Moves.refl _ _

/-- A step of the counters before what follows. -/
theorem Res.Reach.after_counters {α : Type} {K : List Kind} {s : State} {r : Res α} (hK : Kind.counters ∈ K) (a : PStep)
    (b : BitVec 1) (c : SStep) (d : BitVec 4) (e : BitVec 8) (f : BitVec 2)
    (h : r.Reach K { s with pstep := a, pbyte := b, sstep := c, sbit := d, scnt := e, rpass := f }) : r.Reach K s :=
  h.from (Moves.one hK (.counters s a b c d e f))

end Sys2Proof.Machine
end

