-- ==== Sys2Proof/Laws/Exec.lean ====
section
/-! SUPPORT. The moves of every operation, and what they give: what a step can do, said once. -/

namespace Sys2Proof.Machine

/-! ### The parallel write sequencer -/

theorem pinWrite_reach_bus (id : PinId) (v : Level) (s : State) : (pinWrite id v s).Reach [.counters, .opened, .wrote, .waited] s :=
  (pinWrite_reach id v s).mono (by simp)

theorem pinWrites_reach (l : List (PinId × Level)) (s : State) :
    (pinWrites l s).Reach [.counters, .opened, .wrote, .waited] s := by
  induction l generalizing s with
  | nil => exact Moves.refl _ _
  | cons e l ih => exact (pinWrite_reach_bus e.1 e.2 s).bind fun _ t _ => ih t

theorem wrPulse_reach (s : State) : (wrPulse s).Reach [.counters, .opened, .wrote, .waited] s := by
  refine Res.Reach.bind (pinWrite_reach_bus _ _ s) fun _ t _ => ?_
  refine Res.Reach.from ?_ (Moves.one (k := .waited) (by simp) (.waited t t.cfg.tWrLow))
  refine Res.Reach.bind (pinWrite_reach_bus _ _ (t.delayed t.cfg.tWrLow)) fun _ u _ => ?_
  exact Moves.one (k := .waited) (by simp) (.waited u u.cfg.tWrHigh)

theorem xferBytes_reach (l : List Byte) (j : Nat) (s : State) :
    (xferBytes j l s).Reach [.counters, .opened, .wrote, .waited] s := by
  induction l generalizing j s with
  | nil => exact Moves.refl _ _
  | cons b l ih =>
    refine Res.Reach.bind ?_ fun _ t _ => ?_
    · exact (pinWrites_reach _ _).after_counters (by simp) .four (BitVec.ofNat 1 j) s.sstep s.sbit s.scnt s.rpass
    · refine Res.Reach.bind ?_ fun _ u _ => ih (j + 1) u
      exact (wrPulse_reach _).after_counters (by simp) .five t.pbyte t.sstep t.sbit t.scnt t.rpass

theorem busXfer_reach (rs : Level) (l : List Byte) (s : State) :
    (busXfer rs l s).Reach [.counters, .opened, .wrote, .waited] s := by
  refine Res.Reach.bind ((seqCheck_reach _ _ s).mono (by simp)) fun _ s _ => ?_
  refine Res.Reach.bind ((pinWrite_reach_bus _ _ _).after_counters (by simp) .one s.pbyte s.sstep s.sbit s.scnt s.rpass)
    fun _ s _ => ?_
  refine Res.Reach.bind (Res.Reach.after_counters (by simp) .two s.pbyte s.sstep s.sbit s.scnt s.rpass ?_) fun _ s _ => ?_
  · unfold deassertRead
    split
    · exact pinWrite_reach_bus _ _ _
    · exact Moves.refl _ _
  refine Res.Reach.bind ((pinWrite_reach_bus _ _ _).after_counters (by simp) .three s.pbyte s.sstep s.sbit s.scnt s.rpass)
    fun _ s _ => ?_
  refine Res.Reach.bind (xferBytes_reach l 0 s) fun _ s _ => ?_
  refine Res.Reach.bind ((pinWrite_reach_bus _ _ _).after_counters (by simp) .six s.pbyte s.sstep s.sbit s.scnt s.rpass)
    fun _ s _ => ?_
  exact Moves.one (by simp) (.counters s .idle 0#1 s.sstep s.sbit s.scnt s.rpass)

/-! ### The serial shifter -/

theorem pinWrite_reach_serial (id : PinId) (v : Level) (s : State) :
    (pinWrite id v s).Reach [.counters, .acc, .opened, .wrote, .waited, .sampled] s := (pinWrite_reach id v s).mono (by simp)

theorem startFrame_reach (s : State) : (startFrame s).Reach [.counters, .opened, .wrote, .waited] s := by
  refine Res.Reach.bind ((pinWrite_reach_bus _ _ _).after_counters (by simp) s.pstep s.pbyte .start s.sbit s.scnt s.rpass)
    fun _ s _ => ?_
  refine Res.Reach.bind (pinWrite_reach_bus _ _ s) fun _ s _ => ?_
  refine Res.Reach.bind (pinWrite_reach_bus _ _ s) fun _ s _ => ?_
  refine Res.Reach.bind (pinWrite_reach_bus _ _ s) fun _ s _ => ?_
  refine Res.Reach.bind (pinWrite_reach_bus _ _ s) fun _ s _ => ?_
  exact Moves.one (by simp) (.counters s s.pstep s.pbyte .idle s.sbit s.scnt s.rpass)

theorem shiftOutBits_reach (l : List Level) (j : Nat) (s : State) :
    (shiftOutBits j l s).Reach [.counters, .opened, .wrote, .waited] s := by
  induction l generalizing j s with
  | nil => exact Moves.refl _ _
  | cons v l ih =>
    refine Res.Reach.bind ((pinWrite_reach_bus _ _ _).after_counters (by simp) s.pstep s.pbyte s.sstep (BitVec.ofNat 4 j)
      s.scnt s.rpass) fun _ s _ => ?_
    refine Res.Reach.bind (pinWrite_reach_bus _ _ s) fun _ s _ => ?_
    exact Res.Reach.bind (pinWrite_reach_bus _ _ s) fun _ s _ => ih (j + 1) s

theorem shiftOut_reach (b : Byte) (s : State) :
    (shiftOut b s).Reach [.counters, .opened, .wrote, .waited] s := by
  refine Res.Reach.bind ((shiftOutBits_reach _ _ _).after_counters (by simp) s.pstep s.pbyte .out s.sbit s.scnt s.rpass)
    fun _ s _ => ?_
  exact Moves.one (by simp) (.counters s s.pstep s.pbyte .idle 0#4 s.scnt s.rpass)

theorem shiftInBits_reach (n j : Nat) (s : State) :
    (shiftInBits j n s).Reach [.counters, .acc, .opened, .wrote, .waited, .sampled] s := by
  induction n generalizing j s with
  | zero => exact Moves.refl _ _
  | succ n ih =>
    refine Res.Reach.bind ((pinWrite_reach_serial _ _ _).after_counters (by simp) s.pstep s.pbyte s.sstep (BitVec.ofNat 4 j)
      s.scnt s.rpass) fun _ s _ => ?_
    refine Res.Reach.bind (pinWrite_reach_serial _ _ s) fun _ s _ => ?_
    refine Res.Reach.bind ((pinRead_reach _ s).mono (by simp)) fun v s _ => ?_
    exact (ih (j + 1) _).from (Moves.one (by simp) (.acc s (shiftIn s.acc v)))

theorem shiftInto_reach (n : Nat) (s : State) :
    (shiftInto n s).Reach [.counters, .acc, .opened, .wrote, .waited, .sampled] s := by
  have h0 : Moves [.counters, .acc, .opened, .wrote, .waited, .sampled] s { s with sstep := .input, acc := 0#12 } :=
    (Moves.one (by simp) (.counters s s.pstep s.pbyte .input s.sbit s.scnt s.rpass)).trans
      (Moves.one (k := .acc) (by simp) (.acc _ 0#12))
  refine Res.Reach.bind ((shiftInBits_reach _ _ _).from h0) fun _ s _ => ?_
  exact Moves.one (by simp) (.counters s s.pstep s.pbyte .idle 0#4 s.scnt s.rpass)

theorem readChannel_reach (c : Byte) (s : State) :
    (readChannel c s).Reach [.counters, .acc, .opened, .wrote, .waited, .sampled] s := by
  refine Res.Reach.bind ((startFrame_reach s).mono (by simp)) fun _ s _ => ?_
  refine Res.Reach.bind ((shiftOut_reach c s).mono (by simp)) fun _ s _ => ?_
  have h0 : Moves [.counters, .acc, .opened, .wrote, .waited, .sampled] s
      (({ s with sstep := .settle } : State).delayed s.cfg.tAdcSettle) :=
    (Moves.one (by simp) (.counters s s.pstep s.pbyte .settle s.sbit s.scnt s.rpass)).trans
      (Moves.one (k := .waited) (by simp) (.waited _ _))
  refine Res.Reach.bind ((shiftInto_reach _ _).from h0) fun v s _ => ?_
  refine Res.Reach.bind ((pinWrite_reach_serial _ _ _).after_counters (by simp) s.pstep s.pbyte .deselect s.sbit s.scnt s.rpass)
    fun _ s _ => ?_
  exact Moves.one (by simp) (.counters s s.pstep s.pbyte .idle s.sbit s.scnt s.rpass)

theorem serialCheck_reach (s : State) : (serialCheck s).Reach [] s := seqCheck_reach _ _ s

/-! ### The filter and the resolver -/

theorem fillSamples_reach (c : Byte) (n i : Nat) (s : State) :
    (fillSamples c i n s).Reach [.counters, .acc, .opened, .wrote, .waited, .sampled, .filter] s := by
  induction n generalizing i s with
  | zero => exact Moves.refl _ _
  | succ n ih =>
    refine Res.Reach.bind (((readChannel_reach c _).mono (by simp)).after_counters (by simp) s.pstep s.pbyte s.sstep s.sbit
      (BitVec.ofNat 8 i) s.rpass) fun v s _ => ?_
    exact (ih (i + 1) _).from (Moves.one (k := .filter) (by simp) (.filter s (s.storeSample i v).sb s.fr))

theorem filterChannel_reach (c : Byte) (s : State) :
    (filterChannel c s).Reach [.counters, .acc, .opened, .wrote, .waited, .sampled, .filter] s := by
  refine Res.Reach.bind (fillSamples_reach c _ 0 s) fun _ u _ => ?_
  exact (Moves.one (by simp) (.counters u u.pstep u.pbyte u.sstep u.sbit 0#8 u.rpass)).trans
    (Moves.one (k := .filter) (by simp) (.filter _ _ _))

theorem filterCheck_reach (s : State) : (filterCheck s).Reach [] s := by
  unfold filterCheck
  split
  · exact Moves.refl _ _
  · exact serialCheck_reach s

theorem readPasses_reach (s : State) :
    (readPasses s).Reach [.counters, .acc, .opened, .wrote, .waited, .sampled, .filter, .resolver] s := by
  have hf : ∀ c s, (filterChannel c s).Reach [.counters, .acc, .opened, .wrote, .waited, .sampled, .filter, .resolver] s :=
    fun c s => (filterChannel_reach c s).mono (by simp)
  have hr : ∀ (s : State) (a b c d : Reading) (f : BitVec 2),
      Moves [.counters, .acc, .opened, .wrote, .waited, .sampled, .filter, .resolver] s
        { s with x1 := a, y1 := b, x2 := c, y2 := d, rpass := f } := fun s a b c d f =>
    (Moves.one (by simp) (.counters s s.pstep s.pbyte s.sstep s.sbit s.scnt f)).trans
      (Moves.one (k := .resolver) (by simp) (.resolver _ a b c d s.coord))
  refine Res.Reach.bind ((hf _ _).after_counters (by simp) s.pstep s.pbyte s.sstep s.sbit s.scnt 0#2) fun r s _ => ?_
  refine Res.Reach.bind ((hf _ _).from (hr s r s.y1 s.x2 s.y2 1#2)) fun r s _ => ?_
  refine Res.Reach.bind ((hf _ _).from (hr s s.x1 r s.x2 s.y2 2#2)) fun r s _ => ?_
  refine Res.Reach.bind ((hf _ _).from (hr s s.x1 s.y1 r s.y2 3#2)) fun r s _ => ?_
  exact hr s s.x1 s.y1 s.x2 r 0#2

theorem resolveReadings_reach (s : State) : (resolveReadings s).Reach [.resolver] s := by
  unfold resolveReadings
  split
  · exact Moves.one (by simp) (.resolver s s.x1 s.y1 s.x2 s.y2 _)
  · exact Moves.refl _ _

/-! ### The pin layer -/

/-- Only the two tables and the record of accesses change. -/
def TablesOnly (s t : State) : Prop := t = { s with pt := t.pt, banks := t.banks, accesses := t.accesses }

theorem TablesOnly.trans {s t u : State} (h : TablesOnly s t) (g : TablesOnly t u) : TablesOnly s u := by
  unfold TablesOnly at *
  rw [g, h]

theorem TablesOnly.of_banks {s t : State} (h : BanksOnly s t) : TablesOnly s t := by
  unfold TablesOnly BanksOnly at *
  rw [h]

theorem TablesOnly.setPin (s : State) (id : PinId) (p : PinState) : TablesOnly s (s.setPin id p) := rfl

theorem BanksOnly.setPull (s : State) (b k : Nat) (m : Pull) : BanksOnly s (s.setPull b k m) := rfl

/-- Banks changed before a delay or after it, the delay is the same where the clock and the draws are. -/
theorem BanksOnly.delayed {s t : State} (h : BanksOnly s t) (n : Nat) : BanksOnly (s.delayed n) (t.delayed n) := by
  unfold BanksOnly at *
  rw [h]; rfl

/-- The state after taking a lock that is free. -/
def State.locked (s : State) (b : Nat) : State := (s.setBank b { s.bank b with lock := .held }).record (.acquire b)

theorem BanksOnly.locked (s : State) (b : Nat) : BanksOnly s (s.locked b) := rfl

theorem acquire_free {b : Nat} {s : State} (h : (s.bank b).lock = .free) : acquire b s = .ok () (s.locked b) := by
  simp [acquire, h, State.locked]

/-- The state after the locked read-modify-write of a function-select field. -/
def State.directionSet (s : State) (d : PinDescriptor) (dir : IoDir) : State :=
  ((((s.locked d.bank).memRead d.bank .fsel).memWrite d.bank .fsel (putBit (s.bank d.bank).fsel d.bit (fieldSet dir))).setPin
    d.id { s.pin d.id with dir := pinDirOf dir }).release d.bank

theorem setDirection_free {d : PinDescriptor} (dir : IoDir) {s : State} (h : (s.bank d.bank).lock = .free) :
    setDirection d dir s = .ok () (s.directionSet d dir) := by
  simp [setDirection, acquire_free h, State.directionSet, State.locked]

theorem State.directionSet_rest (s : State) (d : PinDescriptor) (dir : IoDir) : TablesOnly s (s.directionSet d dir) :=
  ((((TablesOnly.of_banks (BanksOnly.locked s _)).trans (.of_banks (BanksOnly.memRead _ _ _))).trans
    (.of_banks (BanksOnly.memWrite _ _ _ _))).trans (.setPin _ _ _)).trans (.of_banks (BanksOnly.release _ _))

/-- The state after the pull sequence. -/
def State.pullSet (s : State) (d : PinDescriptor) (m : PullMode) : State :=
  ((((((s.locked d.bank).memWrite d.bank .pudctl (Config.pullCode m)).memWrite d.bank .pudclk (oneHot d.bit)).delayed
    s.cfg.tPull).setPull d.bank d.bit (pullOf m)).memWrite d.bank .pudctl 0#32).memWrite d.bank .pudclk 0#32 |>.release d.bank

theorem pullSequence_free {d : PinDescriptor} (m : PullMode) {s : State} (h : (s.bank d.bank).lock = .free) :
    pullSequence d m s = .ok () (s.pullSet d m) := by
  simp only [pullSequence, acquire_free h, Res.bind_ok]; rfl

theorem State.pullSet_rest (s : State) (d : PinDescriptor) (m : PullMode) :
    TablesOnly (s.delayed s.cfg.tPull) (s.pullSet d m) :=
  .of_banks (((((((BanksOnly.locked s _).trans (BanksOnly.memWrite _ _ _ _)).trans (BanksOnly.memWrite _ _ _ _)).delayed
    s.cfg.tPull).trans (BanksOnly.setPull _ _ _ _)).trans (BanksOnly.memWrite _ _ _ _)).trans
    (BanksOnly.memWrite _ _ _ _) |>.trans (BanksOnly.release _ _))

/-- The read-modify-write of a function-select field: it goes on with the one field changed, or waits for a held lock. -/
theorem setDirection_cases (d : PinDescriptor) (dir : IoDir) (s : State) :
    ((s.bank d.bank).lock = .free ∧ ∃ t, setDirection d dir s = .ok () t ∧
      Retabled s t (fun id => if id = d.id then { s.pin d.id with dir := pinDirOf dir } else s.pin id)
        (fun b => if b = d.bank then (s.bank d.bank).directed d.bit (fieldSet dir) else s.bank b) ∧
      t.accesses = s.accesses ++ [.acquire d.bank, .read d.bank .fsel,
        .write d.bank .fsel (putBit (s.bank d.bank).fsel d.bit (fieldSet dir)), .release d.bank]) ∨
      ((s.bank d.bank).lock = .held ∧ setDirection d dir s = .stuck (.lockWait d.bank)) := by
  cases hl : (s.bank d.bank).lock with
  | held => exact .inr ⟨rfl, by simp [setDirection, acquire, hl]⟩
  | free =>
    refine .inl ⟨rfl, _, setDirection_free dir hl, ⟨State.directionSet_rest s d dir, fun id => ?_, fun b => ?_, fun h => ?_,
      fun h => ?_⟩, ?_⟩
    · by_cases hid : id = d.id <;> simp [State.directionSet, State.locked, hid]
    · by_cases hb : b = d.bank
      · subst hb; simp [State.directionSet, State.locked, Bank.afterWrite, Bank.directed]
      · simp [State.directionSet, State.locked, hb]
    · simp only [State.directionSet, State.locked, State.release_pt, State.setPin_pt, State.memWrite_pt, State.memRead_pt,
        State.record_pt, State.setBank_pt]
      exact Table.wf_set _ _ _ _ h
    · simp only [State.directionSet, State.locked, State.release_banks, State.setPin_banks, State.memWrite_banks,
        State.memRead_banks, State.record_banks, State.setBank_banks]
      repeat' apply Table.wf_set
      exact h
    · simp [State.directionSet, State.locked]

/-- The pull sequence: it goes on with the one pull changed, or waits for a held lock. -/
theorem pullSequence_cases (d : PinDescriptor) (m : PullMode) (s : State) :
    ((s.bank d.bank).lock = .free ∧ ∃ t, pullSequence d m s = .ok () t ∧
      Retabled (s.delayed s.cfg.tPull) t s.pin
        (fun b => if b = d.bank then (s.bank d.bank).pulled d.bit (pullOf m) else s.bank b) ∧
      t.accesses = s.accesses ++
        [.acquire d.bank, .write d.bank .pudctl (Config.pullCode m), .write d.bank .pudclk (oneHot d.bit),
         .write d.bank .pudctl 0#32, .write d.bank .pudclk 0#32, .release d.bank]) ∨
      ((s.bank d.bank).lock = .held ∧ pullSequence d m s = .stuck (.lockWait d.bank)) := by
  cases hl : (s.bank d.bank).lock with
  | held => exact .inr ⟨rfl, by simp [pullSequence, acquire, hl]⟩
  | free =>
    refine .inl ⟨rfl, _, pullSequence_free m hl, ⟨State.pullSet_rest s d m, fun id => ?_, fun b => ?_,
      fun h => ?_, fun h => ?_⟩, ?_⟩
    · simp [State.pullSet, State.locked, State.setPull]
    · by_cases hb : b = d.bank
      · subst hb; simp [State.pullSet, State.locked, State.setPull, Bank.afterWrite, Bank.pulled]
      · simp [State.pullSet, State.locked, State.setPull, hb]
    · simpa [State.pullSet, State.locked, State.setPull] using h
    · simp only [State.pullSet, State.locked, State.release_banks, State.setPull, State.delayed_banks,
        State.memWrite_banks, State.record_banks, State.setBank_banks] at h ⊢
      repeat' apply Table.wf_set
      exact h
    · simp [State.pullSet, State.locked, State.setPull]

/-- The polled line is a registered pin of an initialised block. -/
def Pollable (d : PinDescriptor) (s : State) : Prop := s.initialized = true ∧ (s.cfg.find d.id).isSome = true

theorem Pollable.move {d : PinDescriptor} {s t : State} (h : Pollable d s) (m : Move .sampled s t) : Pollable d t := by
  cases m <;> exact h

theorem Pollable.sampled {d : PinDescriptor} {s : State} (h : Pollable d s) : Move .sampled s (s.sampled d) :=
  State.sampled_move h.1 h.2

theorem State.sampledAs_move {s : State} {d : PinDescriptor} (h : Pollable d s) (v : Level) :
    Move .sampled s (s.sampledAs d v) :=
  .sampled s d.id v _ _ _ _ _ h.1 h.2 (Nat.le_add_right_of_le (Nat.le_add_right _ _))

theorem pollSupplied_reach {d : PinDescriptor} (x : Level) (n : Nat) {s : State} (h : Pollable d s) :
    Moves [.sampled] s (pollSupplied d x n s).2 ∧ Pollable d (pollSupplied d x n s).2 := by
  induction n generalizing s with
  | zero => exact ⟨Moves.refl _ _, h⟩
  | succ n ih =>
    have hm := h.sampled
    simp only [pollSupplied]
    split
    · exact ⟨Moves.one (by simp) hm, h.move hm⟩
    · obtain ⟨h1, h2⟩ := ih (h.move hm)
      exact ⟨(Moves.one (by simp) hm).trans h1, h2⟩

theorem pollRepeat_reach {d : PinDescriptor} (v : Level) (n : Nat) {s : State} (h : Pollable d s) :
    Moves [.sampled] s (pollRepeat d v n s) ∧ Pollable d (pollRepeat d v n s) := by
  induction n generalizing s with
  | zero => exact ⟨Moves.refl _ _, h⟩
  | succ n ih =>
    have hm := State.sampledAs_move h v
    obtain ⟨h1, h2⟩ := ih (h.move hm)
    exact ⟨(Moves.one (by simp) hm).trans h1, h2⟩

/-- A polling phase samples, and ends, or polls for ever. -/
theorem pollUntil_reach {d : PinDescriptor} (x : Level) {s : State} (h : Pollable d s) :
    (pollUntil d x s).Reach [.sampled] s ∧ ∀ t, pollUntil d x s = .ok () t → Pollable d t := by
  unfold pollUntil
  split
  · split
    · refine ⟨Moves.one (by simp) h.sampled, fun t ht => ?_⟩
      cases ht; exact h.move h.sampled
    · exact ⟨trivial, fun t ht => by cases ht⟩
  · obtain ⟨h1, h2⟩ := pollSupplied_reach x s.levels.length h
    split
    · next u hu =>
      rw [hu] at h1 h2
      refine ⟨h1, fun t ht => ?_⟩
      cases ht; exact h2
    · next u hu =>
      rw [hu] at h1 h2
      split
      · next n hn =>
        have m0 : Move .sampled u { u with draws := u.draws + 1 } := .drew u _
        have p0 : Pollable d { u with draws := u.draws + 1 } := h2
        obtain ⟨m1, p1⟩ := pollRepeat_reach (!x) n p0
        have m2 := State.sampledAs_move p1 x
        refine ⟨((h1.trans (Moves.one (by simp) m0)).trans m1).trans (Moves.one (by simp) m2), fun t ht => ?_⟩
        cases ht; exact p1.move m2
      · exact ⟨trivial, fun t ht => by cases ht⟩

/-! ### Every operation -/

/-- The kinds of moves of an operation. -/
def movesOf : Instr → List Kind
  | .sysinit => [.flags, .counters, .outcome]
  | .pindir _ _ => [.opened, .directed, .counters, .outcome]
  | .pinwr _ _ => [.opened, .wrote, .counters, .outcome]
  | .pinrd _ => [.opened, .sampled, .counters, .outcome]
  | .pinpull _ _ => [.opened, .pulled, .counters, .outcome]
  | .pintpulse _ _ => [.opened, .sampled, .counters, .outcome]
  | .pinclose _ => [.closed, .counters, .outcome]
  | .pinwatch _ => [.opened, .counters, .outcome]
  | .wrcmd _ => [.counters, .opened, .wrote, .waited, .outcome]
  | .wrdat8 _ => [.counters, .opened, .wrote, .waited, .outcome]
  | .wrdat16 _ => [.counters, .opened, .wrote, .waited, .outcome]
  | .rstpulse => [.counters, .opened, .wrote, .waited, .outcome]
  | .delay _ => [.counters, .waited, .outcome]
  | .sstart => [.counters, .opened, .wrote, .waited, .outcome]
  | .shout _ => [.counters, .opened, .wrote, .waited, .outcome]
  | .shin _ => [.counters, .acc, .opened, .wrote, .waited, .sampled, .outcome]
  | .rdch _ => [.counters, .acc, .opened, .wrote, .waited, .sampled, .outcome]
  | .filt _ => [.counters, .acc, .opened, .wrote, .waited, .sampled, .filter, .outcome]
  | .resolve => [.counters, .acc, .opened, .wrote, .waited, .sampled, .filter, .resolver, .outcome]

theorem State.raise_moves {K : List Kind} (s : State) (e : ErrorKind) (i : Option PinId) (hc : Kind.counters ∈ K)
    (ho : Kind.outcome ∈ K) : Moves K s (s.raise e i) :=
  (Moves.one hc (.counters s .idle 0#1 .idle 0#4 0#8 0#2)).trans (Moves.one ho (.outcome _ _))

/-- The end of an operation adds a step of the counters and the outcome. -/
theorem finish_moves {K : List Kind} {s t : State} {r : Res Value} (h : r.Reach K s) (hc : Kind.counters ∈ K)
    (ho : Kind.outcome ∈ K) (hl : leftState (finish r) = some t) : Moves K s t := by
  cases r with
  | ok v u =>
    have : u.succeed v = t := by simpa [finish, leftState] using hl
    subst this
    exact Moves.trans h (Moves.one ho (.outcome _ _))
  | err e i u =>
    have : u.raise e i = t := by simpa [finish, leftState] using hl
    subst this
    exact Moves.trans h (State.raise_moves u e i hc ho)
  | refused w u =>
    have : u.refuse = t := by simpa [finish, leftState] using hl
    subst this
    exact Moves.trans h (Moves.one ho (.outcome _ _))
  | stuck => simp [finish, leftState] at hl

theorem finishUnit_moves {K : List Kind} {s t : State} {r : Res Unit} (h : r.Reach K s) (hc : Kind.counters ∈ K)
    (ho : Kind.outcome ∈ K) (hl : leftState (finishUnit r) = some t) : Moves K s t :=
  finish_moves (r := r.bind fun _ s => .ok .nothing s) (Res.Reach.bind h fun _ t _ => Moves.refl K t) hc ho hl

/-- However an operation ends, the state it leaves is reached by its moves. -/
theorem exec_moves (i : Instr) {s t : State} (h : leftState (exec i s) = some t) : Moves (movesOf i) s t := by
  cases i with
  | sysinit =>
    simp only [exec, execSysinit, leftState, Option.some.injEq] at h
    subst h
    split
    · split
      · exact Moves.one (k := .outcome) (by simp [movesOf]) (.outcome s _)
      · exact State.raise_moves s _ _ (by simp [movesOf]) (by simp [movesOf])
    · next ht =>
      split
      · exact (Moves.one (k := .flags) (by simp [movesOf]) (.flags s true (by simpa using ht) fun _ => rfl)).trans
          (Moves.one (k := .outcome) (by simp [movesOf]) (.outcome _ _))
      · exact (Moves.one (k := .flags) (by simp [movesOf]) (.flags s s.initialized (by simpa using ht) fun h => h)).trans
          (State.raise_moves _ _ _ (by simp [movesOf]) (by simp [movesOf]))
  | pindir pin dir =>
    refine finishUnit_moves ?_ (by simp [movesOf]) (by simp [movesOf]) h
    refine Res.Reach.bind ((pinCheck_reach pin s).mono (by simp [movesOf])) fun d u hu => ?_
    obtain ⟨hi, hd, rfl, hid⟩ := pinCheck_eq_ok hu
    split
    · rcases setDirection_cases d dir (s.openPin pin) with ⟨hl, v, hv, hr, _⟩ | ⟨_, hv⟩
      · rw [hv]
        exact Moves.one (k := .directed) (by simp [movesOf]) (.directed _ _ d dir (by rw [State.openPin_initialized]; exact hi)
          (by simp [hid, hd]) hl hr)
      · rw [hv]; trivial
    · exact Moves.refl _ _
  | pinwr pin v => exact finishUnit_moves ((pinWrite_reach pin v s).mono (by simp [movesOf])) (by simp [movesOf]) (by simp [movesOf]) h
  | pinrd pin =>
    refine finish_moves ?_ (by simp [movesOf]) (by simp [movesOf]) h
    exact Res.Reach.bind ((pinRead_reach pin s).mono (by simp [movesOf])) fun _ _ _ => Moves.refl _ _
  | pinpull pin m =>
    refine finishUnit_moves ?_ (by simp [movesOf]) (by simp [movesOf]) h
    refine Res.Reach.bind ((pinCheck_reach pin s).mono (by simp [movesOf])) fun d u hu => ?_
    obtain ⟨hi, hd, rfl, hid⟩ := pinCheck_eq_ok hu
    split
    · split
      · rcases pullSequence_cases d m (s.openPin pin) with ⟨hl, v, hv, hr, _⟩ | ⟨_, hv⟩
        · rw [hv]
          exact Moves.one (k := .pulled) (by simp [movesOf]) (.pulled _ _ _ d (pullOf m)
            (by rw [State.openPin_initialized]; exact hi) (by simp [hid, hd]) hl rfl hr)
        · rw [hv]; trivial
      · exact Moves.refl _ _
    · exact Moves.refl _ _
  | pintpulse pin x =>
    refine finish_moves ?_ (by simp [movesOf]) (by simp [movesOf]) h
    refine Res.Reach.bind ((pinCheck_reach pin s).mono (by simp [movesOf])) fun d u hu => ?_
    obtain ⟨hi, hd, rfl, hid⟩ := pinCheck_eq_ok hu
    have p0 : Pollable d (s.openPin pin) := ⟨by rw [State.openPin_initialized]; exact hi, by simp [hid, hd]⟩
    obtain ⟨r1, p1⟩ := pollUntil_reach (!x) p0
    refine Res.Reach.bind (r1.mono (by simp [movesOf])) fun _ a ha => ?_
    obtain ⟨r2, p2⟩ := pollUntil_reach x (p1 a ha)
    refine Res.Reach.bind (r2.mono (by simp [movesOf])) fun _ b hb => ?_
    obtain ⟨r3, p3⟩ := pollUntil_reach (!x) (p2 b hb)
    exact Res.Reach.bind (r3.mono (by simp [movesOf])) fun _ c hc => Moves.refl _ _
  | pinclose pin =>
    refine finishUnit_moves ?_ (by simp [movesOf]) (by simp [movesOf]) h
    split
    · next hi =>
      split
      · exact Moves.refl _ _
      · next d hd => exact Moves.one (k := .closed) (by simp [movesOf]) (.closed s pin hi (by simp [hd]))
    · exact Moves.refl _ _
  | pinwatch pin =>
    refine finishUnit_moves ?_ (by simp [movesOf]) (by simp [movesOf]) h
    refine Res.Reach.bind ((pinCheck_reach pin s).mono (by simp [movesOf])) fun d u _ => ?_
    split <;> exact Moves.refl _ _
  | wrcmd b => exact finishUnit_moves ((busXfer_reach _ _ s).mono (by simp [movesOf])) (by simp [movesOf]) (by simp [movesOf]) h
  | wrdat8 b => exact finishUnit_moves ((busXfer_reach _ _ s).mono (by simp [movesOf])) (by simp [movesOf]) (by simp [movesOf]) h
  | wrdat16 w => exact finishUnit_moves ((busXfer_reach _ _ s).mono (by simp [movesOf])) (by simp [movesOf]) (by simp [movesOf]) h
  | rstpulse =>
    refine finishUnit_moves ?_ (by simp [movesOf]) (by simp [movesOf]) h
    split
    · refine Res.Reach.bind ((seqCheck_reach _ _ s).mono (by simp)) fun _ s _ => ?_
      refine Res.Reach.bind ((pinWrite_reach _ _ s).mono (by simp [movesOf])) fun _ a _ => ?_
      refine Res.Reach.from ?_ (Moves.one (k := .waited) (by simp [movesOf]) (.waited a a.cfg.tRstLow))
      refine Res.Reach.bind ((pinWrite_reach _ _ _).mono (by simp [movesOf])) fun _ b _ => ?_
      exact Moves.one (k := .waited) (by simp [movesOf]) (.waited b b.cfg.tRstSettle)
    · exact Moves.refl _ _
  | delay n =>
    exact finishUnit_moves (r := .ok () (s.delayed (microseconds n)))
      (Moves.one (k := .waited) (by simp [movesOf]) (.waited s _)) (by simp [movesOf]) (by simp [movesOf]) h
  | sstart =>
    refine finishUnit_moves ?_ (by simp [movesOf]) (by simp [movesOf]) h
    exact Res.Reach.bind ((serialCheck_reach s).mono (by simp)) fun _ u _ => (startFrame_reach u).mono (by simp [movesOf])
  | shout b =>
    refine finishUnit_moves ?_ (by simp [movesOf]) (by simp [movesOf]) h
    exact Res.Reach.bind ((serialCheck_reach s).mono (by simp)) fun _ u _ => (shiftOut_reach b u).mono (by simp [movesOf])
  | shin n =>
    refine finish_moves ?_ (by simp [movesOf]) (by simp [movesOf]) h
    split
    · refine Res.Reach.bind ((serialCheck_reach s).mono (by simp)) fun _ u _ => ?_
      exact Res.Reach.bind ((shiftInto_reach n u).mono (by simp [movesOf])) fun _ _ _ => Moves.refl _ _
    · exact Moves.refl _ _
  | rdch c =>
    refine finish_moves ?_ (by simp [movesOf]) (by simp [movesOf]) h
    refine Res.Reach.bind ((serialCheck_reach s).mono (by simp)) fun _ u _ => ?_
    exact Res.Reach.bind ((readChannel_reach c u).mono (by simp [movesOf])) fun _ _ _ => Moves.refl _ _
  | filt c =>
    refine finish_moves ?_ (by simp [movesOf]) (by simp [movesOf]) h
    refine Res.Reach.bind ((filterCheck_reach s).mono (by simp)) fun _ u _ => ?_
    exact Res.Reach.bind ((filterChannel_reach c u).mono (by simp [movesOf])) fun _ _ _ => Moves.refl _ _
  | resolve =>
    refine finish_moves ?_ (by simp [movesOf]) (by simp [movesOf]) h
    refine Res.Reach.bind ((filterCheck_reach s).mono (by simp)) fun _ u _ => ?_
    refine Res.Reach.bind ((readPasses_reach u).mono (by simp [movesOf])) fun _ v _ => ?_
    exact (resolveReadings_reach v).mono (by simp [movesOf])

end Sys2Proof.Machine
end

