-- ==== Sys2Proof/Laws/Canonical.lean ====
section
/-! SUPPORT. What a step can do, said once; and the tables of the state stay in their one canonical form under every operation, and
have it after reset. -/

namespace Sys2Proof.Machine

/-- A step changes nothing, refuses a word, or is an operation. -/
theorem step_cases {s t : State} (h : leftState (step s) = some t) :
    t = s ∨ (∃ w, decode w = none ∧ t = s.take.refuse) ∨ ∃ i, leftState (exec i s.take) = some t := by
  unfold step at h
  split at h
  · left; simpa [leftState, eq_comm] using h
  · split at h
    · next w _ _ _ hd => exact .inr (.inl ⟨w, hd, by simpa [refuseWord, leftState, eq_comm] using h⟩)
    · exact .inr (.inr ⟨_, h⟩)

/-- Every table of the state is in the canonical form: keys strictly rising, no entry equal to what an unlisted key reads as. -/
structure State.Canonical (s : State) : Prop where
  pinTable : Table.wf PinState.reset s.pt = true
  bankTable : Table.wf Bank.reset s.banks = true
  pullTables : ∀ b, Table.wf Pull.unknown (s.bank b).pull = true

theorem State.canonical_ofConfig (c : Config) : (State.ofConfig c).Canonical := ⟨rfl, rfl, fun _ => rfl⟩

theorem State.canonical_reset : State.reset.Canonical := State.canonical_ofConfig _

theorem Move.canonical {k : Kind} {s t : State} (h : Move k s t) (hs : s.Canonical) : t.Canonical := by
  obtain ⟨hp, hb, hu⟩ := hs
  cases h with
  | opened _ id =>
    refine ⟨?_, by rw [State.openPin_eq]; exact hb, fun b => by rw [State.bank_openPin]; exact hu b⟩
    unfold State.openPin
    split
    · exact hp
    · rw [State.setPin_pt]; exact Table.wf_set _ _ _ _ hp
  | wrote _ u d v _ _ _ _ hl h =>
    have hw := writeLine_eq_ok hl h
    refine ⟨by rw [State.emit_pt, hw.rest]; exact hp, hw.canonical hb, fun b => ?_⟩
    have : (u.emit (.w d.id v)).bank b = u.bank b := rfl
    rw [this, (hw.banks b).2.2.1]; exact hu b
  | directed _ _ d dir _ _ _ h =>
    refine ⟨h.pinTable hp, h.bankTable hb, fun b => ?_⟩
    rw [h.bank]
    split
    · exact hu d.bank
    · exact hu b
  | pulled _ u _ d m _ _ _ hd h =>
    subst hd
    refine ⟨h.pinTable hp, h.bankTable hb, fun b => ?_⟩
    rw [h.bank]
    split
    · exact Table.wf_set _ _ _ _ (hu d.bank)
    · exact hu b
  | closed _ id =>
    unfold State.closePin
    split
    · exact ⟨Table.wf_set _ _ _ _ hp, hb, hu⟩
    · exact ⟨hp, hb, hu⟩
  | _ => exact ⟨hp, hb, hu⟩

/-- Every operation, however it ends, keeps the canonical form. -/
theorem exec_keeps_canonical {i : Instr} {s t : State} (h : leftState (exec i s) = some t) (hs : s.Canonical) : t.Canonical :=
  (exec_moves i h).keeps hs fun _ _ _ _ m hc => m.canonical hc

/-- Every step keeps the canonical form. -/
theorem step_keeps_canonical {s t : State} (h : leftState (step s) = some t) (hs : s.Canonical) : t.Canonical := by
  rcases step_cases h with rfl | ⟨_, _, rfl⟩ | ⟨_, hi⟩
  · exact hs
  · exact ⟨hs.pinTable, hs.bankTable, hs.pullTables⟩
  · exact exec_keeps_canonical hi ⟨hs.pinTable, hs.bankTable, hs.pullTables⟩

end Sys2Proof.Machine
end

