-- ==== Sys2Proof/Laws/Decode.lean ====
section
/-! SUPPORT. The fields of an encoded word are the fields it was built from. -/

namespace Sys2Proof

theorem opField_word24 (op : Byte) (low : BitVec 24) : opField (word24 op low) = op.toNat := by
  have := low.isLt
  have := op.isLt
  simp only [opField, word24, BitVec.extractLsb'_toNat, BitVec.toNat_append, Nat.shiftRight_eq_div_pow]
  rw [← Nat.shiftLeft_add_eq_or_of_lt low.isLt, Nat.shiftLeft_eq]
  omega

theorem imm24Field_word24 (op : Byte) (low : BitVec 24) : imm24Field (word24 op low) = low.toNat := by
  have := low.isLt
  have := op.isLt
  simp only [imm24Field, word24, BitVec.extractLsb'_toNat, BitVec.toNat_append, Nat.shiftRight_eq_div_pow]
  rw [← Nat.shiftLeft_add_eq_or_of_lt low.isLt, Nat.shiftLeft_eq]
  omega

theorem middleField_word24 (op : Byte) (low : BitVec 24) : middleField (word24 op low) = low.toNat / 256 := by
  have := low.isLt
  have := op.isLt
  simp only [middleField, word24, BitVec.extractLsb'_toNat, BitVec.toNat_append, Nat.shiftRight_eq_div_pow]
  rw [← Nat.shiftLeft_add_eq_or_of_lt low.isLt, Nat.shiftLeft_eq]
  omega

theorem imm8Field_word24 (op : Byte) (low : BitVec 24) : (imm8Field (word24 op low)).toNat = low.toNat % 256 := by
  have := low.isLt
  have := op.isLt
  simp only [imm8Field, word24, BitVec.extractLsb'_toNat, BitVec.toNat_append, Nat.shiftRight_eq_div_pow]
  rw [← Nat.shiftLeft_add_eq_or_of_lt low.isLt, Nat.shiftLeft_eq]
  omega

theorem word16_toNat (op arg : Byte) (low : BitVec 16) :
    (word16 op arg low).toNat = op.toNat * 2 ^ 24 + arg.toNat * 2 ^ 16 + low.toNat := by
  have hin : (arg ++ low).toNat = arg.toNat * 2 ^ 16 + low.toNat := by
    rw [BitVec.toNat_append, ← Nat.shiftLeft_add_eq_or_of_lt low.isLt, Nat.shiftLeft_eq]
  rw [word16, BitVec.toNat_append, ← Nat.shiftLeft_add_eq_or_of_lt (arg ++ low).isLt, Nat.shiftLeft_eq, hin]
  omega

theorem opField_word16 (op arg : Byte) (low : BitVec 16) : opField (word16 op arg low) = op.toNat := by
  have := low.isLt
  have := arg.isLt
  have := op.isLt
  simp only [opField, BitVec.extractLsb'_toNat, word16_toNat, Nat.shiftRight_eq_div_pow]
  omega

theorem argField_word16 (op arg : Byte) (low : BitVec 16) : argField (word16 op arg low) = arg.toNat := by
  have := low.isLt
  have := arg.isLt
  have := op.isLt
  simp only [argField, BitVec.extractLsb'_toNat, word16_toNat, Nat.shiftRight_eq_div_pow]
  omega

theorem lowField_word16 (op arg : Byte) (low : BitVec 16) : lowField (word16 op arg low) = low := by
  have := low.isLt
  have := arg.isLt
  apply BitVec.eq_of_toNat_eq
  simp only [lowField, BitVec.extractLsb'_toNat, word16_toNat, Nat.shiftRight_eq_div_pow]
  omega

theorem byte_setWidth_toNat (b : Byte) : (b.setWidth 24).toNat = b.toNat := by
  have := b.isLt
  simp only [BitVec.toNat_setWidth]
  omega

theorem middleField_byte (op b : Byte) : middleField (word24 op (b.setWidth 24)) = 0 := by
  have := b.isLt
  rw [middleField_word24, byte_setWidth_toNat]; omega

theorem imm8Field_byte (op b : Byte) : imm8Field (word24 op (b.setWidth 24)) = b := by
  have := b.isLt
  apply BitVec.eq_of_toNat_eq
  rw [imm8Field_word24, byte_setWidth_toNat]; omega

theorem pinBits_toNat {id : PinId} (h : wellFormedPin id = true) : (pinBits id).toNat = id := by
  have h2 : id < 65536 := by simpa [wellFormedPin] using h
  simp [pinBits, Nat.mod_eq_of_lt h2]

theorem dirOfArg_argOfDir (d : IoDir) : dirOfArg (argOfDir d).toNat = some d := by cases d <;> rfl
theorem levelOfArg_argOfLevel (v : Level) : levelOfArg (argOfLevel v).toNat = some v := by cases v <;> rfl
theorem pullOfArg_argOfPull (m : PullMode) : pullOfArg (argOfPull m).toNat = some m := by cases m <;> rfl

end Sys2Proof
end

