-- ==== Sys2Proof/Laws/PerInstr.lean ====
section
/-! SUPPORT. Statements made per instruction: the decoder reads back what the encoder writes (30_encoding.md R60 to R63). -/

namespace Sys2Proof.Laws

/-- The decoder reads a well-formed instruction back from its word. -/
def RoundTrip.Statement (i : Instr) : Prop := i.wellFormed = true → decode (encode i) = some i

theorem RoundTrip.sysinit : RoundTrip.Statement .sysinit := fun _ => by decide

theorem RoundTrip.pindir (p : PinId) (d : IoDir) : RoundTrip.Statement (.pindir p d) := fun h => by
  simp [decode, encode, opField_word16, decodeP, argField_word16, lowField_word16, dirOfArg_argOfDir, pinBits_toNat h]

theorem RoundTrip.pinwr (p : PinId) (v : Level) : RoundTrip.Statement (.pinwr p v) := fun h => by
  simp [decode, encode, opField_word16, decodeP, argField_word16, lowField_word16, levelOfArg_argOfLevel, pinBits_toNat h]

theorem RoundTrip.pinrd (p : PinId) : RoundTrip.Statement (.pinrd p) := fun h => by
  simp [decode, encode, opField_word16, decodeP0, argField_word16, lowField_word16, pinBits_toNat h]

theorem RoundTrip.pinpull (p : PinId) (m : PullMode) : RoundTrip.Statement (.pinpull p m) := fun h => by
  simp [decode, encode, opField_word16, decodeP, argField_word16, lowField_word16, pullOfArg_argOfPull, pinBits_toNat h]

theorem RoundTrip.pintpulse (p : PinId) (t : Level) : RoundTrip.Statement (.pintpulse p t) := fun h => by
  simp [decode, encode, opField_word16, decodeP, argField_word16, lowField_word16, levelOfArg_argOfLevel, pinBits_toNat h]

theorem RoundTrip.pinclose (p : PinId) : RoundTrip.Statement (.pinclose p) := fun h => by
  simp [decode, encode, opField_word16, decodeP0, argField_word16, lowField_word16, pinBits_toNat h]

theorem RoundTrip.pinwatch (p : PinId) : RoundTrip.Statement (.pinwatch p) := fun h => by
  simp [decode, encode, opField_word16, decodeP0, argField_word16, lowField_word16, pinBits_toNat h]

theorem RoundTrip.wrcmd (b : Byte) : RoundTrip.Statement (.wrcmd b) := fun _ => by
  simp [decode, encode, opField_word24, decodeB, middleField_byte, imm8Field_byte]

theorem RoundTrip.wrdat8 (b : Byte) : RoundTrip.Statement (.wrdat8 b) := fun _ => by
  simp [decode, encode, opField_word24, decodeB, middleField_byte, imm8Field_byte]

theorem RoundTrip.wrdat16 (w : BitVec 16) : RoundTrip.Statement (.wrdat16 w) := fun _ => by
  simp [decode, encode, opField_word16, decodeH, argField_word16, lowField_word16]

theorem RoundTrip.rstpulse : RoundTrip.Statement .rstpulse := fun _ => by decide

theorem RoundTrip.delay (t : Nat) : RoundTrip.Statement (.delay t) := fun h => by
  have ht : t < 16777216 := by simpa [Instr.wellFormed] using h
  simp [decode, encode, opField_word24, imm24Field_word24, Nat.mod_eq_of_lt ht]

theorem RoundTrip.sstart : RoundTrip.Statement .sstart := fun _ => by decide

theorem RoundTrip.shout (b : Byte) : RoundTrip.Statement (.shout b) := fun _ => by
  simp [decode, encode, opField_word24, decodeB, middleField_byte, imm8Field_byte]

theorem RoundTrip.shin (n : Nat) : RoundTrip.Statement (.shin n) := fun h => by
  have hn : n = 8 ∨ n = 12 := by simpa [Instr.wellFormed, legalBitCount] using h
  rcases hn with rfl | rfl <;> decide

theorem RoundTrip.rdch (c : Byte) : RoundTrip.Statement (.rdch c) := fun _ => by
  simp [decode, encode, opField_word24, decodeB, middleField_byte, imm8Field_byte]

theorem RoundTrip.filt (c : Byte) : RoundTrip.Statement (.filt c) := fun _ => by
  simp [decode, encode, opField_word24, decodeB, middleField_byte, imm8Field_byte]

theorem RoundTrip.resolve : RoundTrip.Statement .resolve := fun _ => by decide

end Sys2Proof.Laws
end

