-- ==== Sys2Proof/Machine/Listing.lean ====
section
/-! DEFINITION. The listing form of a command (30_encoding.md R69): a mnemonic and its operands, a role name standing for the
pin the wiring gives it; read by `assemble`, written by `Instr.listing`. -/

namespace Sys2Proof.Machine

/-- An operand of a listing line: a number, a direction, a pull mode or a role name. -/
inductive ListingOperand where
  | number (n : Nat)
  | direction (d : IoDir)
  | pull (m : PullMode)
  | role (r : Role)
deriving DecidableEq, Repr

/-- A listing line (R69). -/
structure ListingLine where
  mnemonic : String
  operands : List ListingOperand
deriving DecidableEq, Repr

/-- The pin a pin operand names: a number or a role (R69). -/
def ListingOperand.pin (c : Config) : ListingOperand → Option PinId
  | .number n => some n
  | .role r => rolePin c r
  | .direction _ => none
  | .pull _ => none

/-- A level operand: 0 or 1 (R69). -/
def ListingOperand.level : ListingOperand → Option Level
  | .number n => levelOfArg n
  | .role _ => none
  | .direction _ => none
  | .pull _ => none

/-- A byte operand: a number that fits eight bits. -/
def ListingOperand.byte : ListingOperand → Option Byte
  | .number n => if n < 2 ^ 8 then some (BitVec.ofNat 8 n) else none
  | .role _ => none
  | .direction _ => none
  | .pull _ => none

/-- A line read as an operation without the check of its operands' ranges. -/
def ListingLine.read (c : Config) (l : ListingLine) : Option Instr :=
  match l.mnemonic, l.operands with
  | "SYSINIT", [] => some .sysinit
  | "PINDIR", [p, .direction d] => (p.pin c).map fun id => .pindir id d
  | "PINWR", [p, v] => (p.pin c).bind fun id => v.level.map fun b => .pinwr id b
  | "PINRD", [p] => (p.pin c).map .pinrd
  | "PINPULL", [p, .pull m] => (p.pin c).map fun id => .pinpull id m
  | "PINTPULSE", [p, v] => (p.pin c).bind fun id => v.level.map fun b => .pintpulse id b
  | "PINCLOSE", [p] => (p.pin c).map .pinclose
  | "PINWATCH", [p] => (p.pin c).map .pinwatch
  | "WRCMD", [b] => b.byte.map .wrcmd
  | "WRDAT8", [b] => b.byte.map .wrdat8
  | "WRDAT16", [.number n] => if n < 2 ^ 16 then some (.wrdat16 (BitVec.ofNat 16 n)) else none
  | "RSTPULSE", [] => some .rstpulse
  | "DELAY", [.number n] => some (.delay n)
  | "SSTART", [] => some .sstart
  | "SHOUT", [b] => b.byte.map .shout
  | "SHIN", [.number n] => some (.shin n)
  | "RDCH", [b] => b.byte.map .rdch
  | "FILT", [b] => b.byte.map .filt
  | "RESOLVE", [] => some .resolve
  | _, _ => none

/-- The operation of a listing line (R69); `none` for a line that names no legal command. -/
def assemble (c : Config) (l : ListingLine) : Option Instr := (l.read c).filter Instr.wellFormed

/-- The number of a level. -/
def levelNumber (v : Level) : Nat := if v then 1 else 0

/-- The operands of an operation in a listing, with pins as numbers (R69). -/
def Instr.listingOperands : Instr → List ListingOperand
  | .sysinit => []
  | .pindir p d => [.number p, .direction d]
  | .pinwr p v => [.number p, .number (levelNumber v)]
  | .pinrd p => [.number p]
  | .pinpull p m => [.number p, .pull m]
  | .pintpulse p t => [.number p, .number (levelNumber t)]
  | .pinclose p => [.number p]
  | .pinwatch p => [.number p]
  | .wrcmd b => [.number b.toNat]
  | .wrdat8 b => [.number b.toNat]
  | .wrdat16 w => [.number w.toNat]
  | .rstpulse => []
  | .delay t => [.number t]
  | .sstart => []
  | .shout b => [.number b.toNat]
  | .shin n => [.number n]
  | .rdch c => [.number c.toNat]
  | .filt c => [.number c.toNat]
  | .resolve => []

/-- The listing line of an operation (R69). -/
def listing (i : Instr) : ListingLine := ⟨i.mnemonic, Instr.listingOperands i⟩

/-- The text of a direction, `In` or `Out` (R69). -/
def directionText : IoDir → String
  | .input => "In"
  | .output => "Out"

/-- The text of a pull mode, `Off`, `Down` or `Up` (R69). -/
def pullText : PullMode → String
  | .off => "Off"
  | .down => "Down"
  | .up => "Up"

/-- The text of a role name (00_scope.md R7). -/
def roleText : Role → String
  | .cs => "CS"
  | .wr => "WR"
  | .rs => "RS"
  | .rd => "RD"
  | .rst => "RST"
  | .db0 => "DB0"
  | .db1 => "DB1"
  | .db2 => "DB2"
  | .db3 => "DB3"
  | .db4 => "DB4"
  | .db5 => "DB5"
  | .db6 => "DB6"
  | .db7 => "DB7"
  | .clk => "CLK"
  | .din => "DIN"
  | .dout => "DOUT"
  | .tcs => "TCS"
  | .busy => "BUSY"
  | .penirq => "PENIRQ"

/-- The text of an operand; numbers in decimal (R69). -/
def ListingOperand.text : ListingOperand → String
  | .number n => Nat.repr n
  | .direction d => directionText d
  | .pull m => pullText m
  | .role r => roleText r

/-- The text of a line: the mnemonic, then the operands separated by commas (R69). -/
def ListingLine.text (l : ListingLine) : String :=
  match l.operands with
  | [] => l.mnemonic
  | _ :: _ => l.mnemonic ++ " " ++ String.intercalate ", " (l.operands.map (·.text))

end Sys2Proof.Machine
end

