-- ==== Sys2Proof/Tests/Slice0.lean ====
section
/-! SUPPORT. Tests: ill-formed terms are refused, words written out from the formats decode (95_test_vectors.md 2.1), single steps
give what the vectors of 95_test_vectors.md give, and every statement's hypotheses are met by a concrete state. -/

namespace Sys2Proof.Tests

open Machine

/-! ### Helper states -/

/-- The reference configuration of 95_test_vectors.md section 0 with only the pins the tests use in its map (so that they run
fast). -/
def bench : Config :=
  { Config.reference with
    regmap := [4, 8, 9, 10, 11, 12, 16, 17, 18, 19, 20, 21, 22, 23, 32, 33, 34, 35, 37].map PinDescriptor.ofId }

/-- An output pin nothing has used yet. -/
def outPin : PinState := ⟨false, .output, false⟩

/-- The pin table with every role given its direction, and pin 37 an output. -/
def readyPins : Table PinState :=
  [8, 9, 10, 11, 12, 16, 17, 18, 19, 20, 21, 22, 23, 32, 33].map (fun id => (id, outPin)) ++
    [(34, ⟨false, .input, false⟩), (35, outPin), (37, outPin)]

/-- Initialised, nothing else. -/
def started (c : Config) : State := { State.ofConfig c with initialized := true, initTried := true }

/-- Initialised, every direction set. -/
def readyWith (c : Config) : State := { started c with pt := readyPins }

/-- The same in the bench configuration. -/
def ready : State := readyWith bench

/-- The bench configuration with one pin's level registers read-only. -/
def readOnlyLevel (id : PinId) : Config := { bench with writable := [(id, ⟨true, false, true⟩)] }

/-- The trace left and the outcome handed out. -/
def seen (r : Host.Outcome State Fault Refusal) : Option (List Event × Option OpOutcome) :=
  (leftState r).map fun t => (t.trace, t.outcome)

/-! ### Ill-formed terms -/

theorem test_pin_too_large :
    [Instr.pindir 65536 .input, .pinwr 65536 true, .pinrd 65536, .pinpull 65536 .up, .pintpulse 65536 true,
      .pinclose 65536, .pinwatch 65536].all (fun i => !i.wellFormed) = true := by decide
theorem test_delay_too_long : (Instr.delay 16777216).wellFormed = false := by decide
theorem test_bit_count : (Instr.shin 10).wellFormed = false ∧ (Instr.shin 0).wellFormed = false ∧
    (Instr.shin 16).wellFormed = false := by decide
theorem test_ids_distinct : ({ Config.reference with regmap := [.ofId 1, .ofId 1] } : Config).idsDistinct = false := by decide
theorem test_lines_distinct :
    ({ Config.reference with regmap := [.ofId 1, { PinDescriptor.ofId 1 with id := 2 }] } : Config).linesDistinct = false := by
  decide
theorem test_follows_formula :
    ({ Config.reference with regmap := [{ PinDescriptor.ofId 1 with bank := 2 }] } : Config).followsFormula = false := by decide
theorem test_roles_registered : ({ Config.reference with regmap := [.ofId 1] } : Config).rolesRegistered = false := by decide
theorem test_roles_distinct :
    ({ Config.reference with ser := { Config.reference.ser with clk := 8 } } : Config).rolesDistinct = false := by decide
theorem test_control_bytes : ({ Config.reference with ctrlX := 0x10#8 } : Config).controlBytesLegal = false ∧
    ({ Config.reference with ctrlY := 0x7F#8 } : Config).controlBytesLegal = false := by decide
theorem test_window : ({ Config.reference with window := 256 } : Config).windowLegal = false := by decide
theorem test_delays : ({ Config.reference with tPull := 999 } : Config).delaysLegal = false := by decide
theorem test_writable : ({ Config.reference with writable := [(3, .all)] } : Config).writableLegal = false := by decide

theorem test_fixed_parameters : ({ Config.reference with edgeSupport := true } : Config).fixedLegal = false ∧
    ({ Config.reference with yCheck := false } : Config).fixedLegal = false ∧ Config.reference.fixedLegal = true := by decide

/-! ### Words written out: op in bits 31..24, then the fields of the format (vectors E1 to E19) -/

theorem test_decode_pin_layer :
    decode 0b00000001000000000000000000000000#32 = some .sysinit ∧
    decode 0b00000010000000010000000000100101#32 = some (.pindir 37 .output) ∧
    decode 0b00000010000000000000000000100010#32 = some (.pindir 34 .input) ∧
    decode 0b00000011000000010000000000100101#32 = some (.pinwr 37 true) ∧
    decode 0b00000011000000000000000000100101#32 = some (.pinwr 37 false) ∧
    decode 0b00000100000000000000000000100101#32 = some (.pinrd 37) ∧
    decode 0b00000101000000100000000000000100#32 = some (.pinpull 4 .up) ∧
    decode 0b00000101000000010000000000000100#32 = some (.pinpull 4 .down) ∧
    decode 0b00000101000000000000000000000100#32 = some (.pinpull 4 .off) ∧
    decode 0b00000110000000010000000000100010#32 = some (.pintpulse 34 true) ∧
    decode 0b00000111000000000000000000100101#32 = some (.pinclose 37) ∧
    decode 0b00001000000000000000000000100101#32 = some (.pinwatch 37) := by decide
theorem test_decode_sequencers :
    decode 0b00010000000000000000000000101100#32 = some (.wrcmd 0x2C#8) ∧
    decode 0b00010001000000000000000010100101#32 = some (.wrdat8 0xA5#8) ∧
    decode 0b00010010000000001111100000000000#32 = some (.wrdat16 0xF800#16) ∧
    decode 0b00010011000000000000000000000000#32 = some .rstpulse ∧
    decode 0b00010100000000001100001101010000#32 = some (.delay 50000) ∧
    decode 0b00100000000000000000000000000000#32 = some .sstart ∧
    decode 0b00100001000000000000000010010000#32 = some (.shout 0x90#8) ∧
    decode 0b00100010000000000000000000001100#32 = some (.shin 12) ∧
    decode 0b00100010000000000000000000001000#32 = some (.shin 8) ∧
    decode 0b00100011000000000000000010010000#32 = some (.rdch 0x90#8) ∧
    decode 0b00110000000000000000000011010000#32 = some (.filt 0xD0#8) ∧
    decode 0b00110001000000000000000000000000#32 = some .resolve := by decide
/-- Vectors X1 to X10. -/
theorem test_decode_refuses :
    [0x00000000#32, 0x09000000#32, 0x0F000000#32, 0x15000000#32, 0x24000000#32, 0x32000000#32, 0xFF000000#32, 0x01000001#32,
      0x10000100#32, 0x1201F800#32, 0x02020005#32, 0x03020025#32, 0x05030004#32, 0x04010025#32, 0x07010025#32, 0x08FF0025#32,
      0x2200000A#32, 0x22000000#32, 0x22000010#32].all (fun w => decode w == none) = true := by decide
/-- Vectors E20 to E26, and `DELAY 16777215`, `PINDIR 65535, Out`. -/
theorem test_fields :
    [0x90#8, 0xD0#8, 0x98#8, 0x80#8, 0xFF#8, 0x9B#8, 0x10#8].map conversionBits = [12, 12, 8, 12, 8, 8, 12] ∧
    [0x90#8, 0xD0#8, 0x80#8, 0xFF#8].map controlChannel = [1#3, 5#3, 0#3, 7#3] ∧
    decode 0x14FFFFFF#32 = some (.delay 16777215) ∧ decode 0x0201FFFF#32 = some (.pindir 65535 .output) := by decide
theorem test_table_word : decodeTableWord 32 0x0201FFFF = some (.pindir 65535 .output) := by decide

/-! ### One step each (vectors of 95_test_vectors.md 2.2 to 2.6) -/

/-- L1, L3. -/
theorem test_sysinit :
    (leftState (exec .sysinit { State.reset with mapAnswer := some true })).map (fun t => (t.initTried, t.initialized, t.outcome)) =
      some (true, true, some (.ok .nothing)) ∧
    (leftState (exec .sysinit { State.reset with mapAnswer := some false })).map (fun t => (t.initTried, t.initialized, t.outcome)) =
      some (true, false, some (.err .mmapFailed none)) := by decide
/-- L8. -/
theorem test_pindir :
    (leftState (exec (.pindir 37 .output) (started bench))).map (fun t => (t.pin 37, (t.bank 2).fsel, (t.bank 2).lock)) =
      some (⟨true, .output, false⟩, 0x20#32, .free) := by decide
/-- L27. -/
theorem test_pindir_read_only :
    (leftState (exec (.pindir 37 .output) (started { bench with writable := [(37, ⟨false, true, true⟩)] }))).map
      (fun t => (t.pin 37, t.outcome)) =
      some (⟨true, .unset, false⟩, some (.err .registerNotWritable (some 37))) := by decide
/-- L9. -/
theorem test_pinwr :
    (leftState (exec (.pinwr 37 true) ready)).map (fun t => (t.trace, t.latch 2 5, t.accesses)) =
      some ([.w 37 true], some true, [.write 2 .set 0x20#32]) := by decide
/-- L30. -/
theorem test_pinwr_single_data :
    (leftState (exec (.pinwr 37 true) (readyWith { bench with writeStyle := .singleData }))).map
      (fun t => (t.trace, t.latch 2 5, t.accesses)) =
      some ([.w 37 true], some true, [.acquire 2, .read 2 .data, .write 2 .data 0x20#32, .release 2]) := by decide
/-- L16. -/
theorem test_pinrd_input :
    seen (exec (.pinrd 34) { ready with levels := [true] }) = some ([.r 34 true], some (.ok (.level true))) := by decide
/-- L7. -/
theorem test_pinrd_unregistered :
    seen (exec (.pinrd 200) ready) = some ([], some (.err .pinNotRegistered (some 200))) := by decide
/-- L18. -/
theorem test_pinpull :
    (leftState (exec (.pinpull 4 .up) ready)).map (fun t => (t.trace, (t.bank 1).pullAt 4, (t.bank 1).pullAt 5)) =
      some ([.d 1000], .up, .unknown) ∧
    (leftState (exec (.pinpull 4 .up) ready)).map (fun t => ((t.bank 1).lock, (t.bank 1).pudctl, (t.bank 1).pudclk)) =
      some (.free, 0#32, 0#32) := by decide
/-- L41: a stale pulse first; the clock runs 1, 2, 4, ... at the polls, so the pulse lasts what the sixth poll took. -/
theorem test_pintpulse :
    seen (exec (.pintpulse 34 true)
      { ready with levels := [true, true, false, false, true, false], clock := [1, 2, 4, 8, 16, 32] }) =
      some ([.r 34 true, .r 34 true, .r 34 false, .r 34 false, .r 34 true, .r 34 false], some (.ok (.duration 32))) := by
  decide
/-- L22. -/
theorem test_pinclose :
    (leftState (exec (.pinclose 37) { ready with pt := [(37, ⟨true, .output, false⟩)] })).map (fun t => (t.pt, t.outcome)) =
      some ([(37, outPin)], some (.ok .nothing)) := by decide
/-- L20. -/
theorem test_pinwatch :
    (leftState (exec (.pinwatch 17) (started bench))).map (fun t => (t.pt, t.outcome)) =
      some ([(17, ⟨true, .unset, false⟩)], some (.err .unimplemented (some 17))) := by decide
/-- The example of R101. -/
theorem test_wrcmd :
    seen (exec (.wrcmd 0x2C#8) ready) =
      some ([.w 8 false, .w 11 true, .w 10 false, .w 16 false, .w 17 false, .w 18 true, .w 19 true, .w 20 false, .w 21 true,
        .w 22 false, .w 23 false, .w 9 false, .d 5000, .w 9 true, .d 5000, .w 8 true], some (.ok .nothing)) := by decide
/-- Program 6, command 3: the strobe is read-only. -/
theorem test_wrcmd_aborts :
    seen (exec (.wrcmd 0x2C#8) (readyWith (readOnlyLevel 9))) =
      some ([.w 8 false, .w 11 true, .w 10 false, .w 16 false, .w 17 false, .w 18 true, .w 19 true, .w 20 false, .w 21 true,
        .w 22 false, .w 23 false], some (.err .registerNotWritable (some 9))) := by decide
/-- The example of R102. -/
theorem test_wrdat8 :
    (leftState (exec (.wrdat8 0xA5#8) ready)).map (fun t => latched t.cfg.bus t.trace) = some [some (true, 0xA5#8)] := by decide
/-- The example of R103. -/
theorem test_wrdat16 :
    (leftState (exec (.wrdat16 0xF800#16) ready)).map (fun t => (latched t.cfg.bus t.trace, t.trace.length)) =
      some ([some (true, 0xF8#8), some (true, 0x00#8)], 28) := by decide
/-- The example of R104. -/
theorem test_rstpulse : seen (exec .rstpulse ready) = some ([.w 12 false, .d 0, .w 12 true, .d 10000], some (.ok .nothing)) := by
  decide
/-- Program 4, command 4. -/
theorem test_delay : seen (exec (.delay 5) State.reset) = some ([.d 5000], some (.ok .nothing)) := by decide
/-- A1. -/
theorem test_sstart :
    seen (exec .sstart ready) = some ([.w 32 false, .w 35 true, .w 33 true, .w 32 true, .w 35 false], some (.ok .nothing)) := by
  decide
/-- A32: DIN has no direction. -/
theorem test_sstart_refused :
    seen (exec .sstart { ready with pt := [(32, outPin), (34, ⟨false, .input, false⟩), (35, outPin)] }) =
      some ([], some .refused) := by decide
/-- A2: the bits of 0x90 on DIN, most significant first, with TCS driven low before. -/
theorem test_shout :
    (leftState (exec (.shout 0x90#8) { ready with trace := [.w 35 false] })).map (fun t => dinSampled t.cfg.ser t.trace) =
      some ([true, false, false, true, false, false, false, false].map some) := by decide
/-- The example of R123. -/
theorem test_shin :
    (leftState (exec (.shin 12)
      { ready with levels := [true, false, true, false, true, false, true, false, true, false, true, true] })).map
      (fun t => (t.outcome, t.acc)) = some (some (.ok (.sample 0xAAB#12)), 0xAAB#12) := by decide
/-- A22. -/
theorem test_rdch :
    (leftState (exec (.rdch 0x98#8) { ready with levels := [true, true, false, false, true, false, false, false] })).map
      (fun t => (t.outcome, t.trace.length, (dinSampled t.cfg.ser t.trace).length)) =
      some (some (.ok (.sample 200#12)), 55, 16) := by decide
/-- F1, F2, F6, F10, F18. -/
theorem test_ranked_mean :
    rankedMean [100#12, 99#12, 98#12, 97#12, 96#12, 95#12, 94#12, 93#12, 50#12, 1#12] = ⟨573, 6⟩ ∧ rankedMean [1#12, 93#12, 100#12, 50#12, 97#12, 95#12, 99#12, 94#12, 98#12, 96#12] = ⟨573, 6⟩ ∧
    rankedMean [4095#12, 4095#12, 0#12, 0#12, 10#12, 20#12, 30#12, 40#12, 50#12, 60#12] = ⟨210, 6⟩ ∧ rankedMean [1#12, 2#12, 3#12, 4#12, 5#12] = ⟨3, 1⟩ ∧
    rankedMean [1000#12, 3#12, 3#12] = ⟨1006, 3⟩ := by decide
/-- V1, V2, V3, V9, V14, V17, V18, V20, V24. -/
theorem test_resolve_values :
    resolveValues true ⟨500, 1⟩ ⟨2000, 1⟩ ⟨560, 1⟩ ⟨2000, 1⟩ = .error .unstableReading ∧
    resolveValues true ⟨500, 1⟩ ⟨2000, 1⟩ ⟨510, 1⟩ ⟨2010, 1⟩ = .ok ⟨505, 2005⟩ ∧
    resolveValues true ⟨500, 1⟩ ⟨2000, 1⟩ ⟨550, 1⟩ ⟨2000, 1⟩ = .ok ⟨525, 2000⟩ ∧
    resolveValues true ⟨99, 1⟩ ⟨2000, 1⟩ ⟨100, 1⟩ ⟨2000, 1⟩ = .error .outOfRange ∧
    resolveValues true ⟨50, 1⟩ ⟨4050, 1⟩ ⟨120, 1⟩ ⟨4050, 1⟩ = .error .unstableReading ∧
    resolveValues true ⟨3000, 6⟩ ⟨12000, 6⟩ ⟨3300, 6⟩ ⟨12000, 6⟩ = .ok ⟨525, 2000⟩ ∧
    resolveValues true ⟨3000, 6⟩ ⟨12000, 6⟩ ⟨3301, 6⟩ ⟨12000, 6⟩ = .error .unstableReading ∧
    resolveValues true ⟨4095, 1⟩ ⟨0, 1⟩ ⟨4095, 1⟩ ⟨0, 1⟩ = .ok ⟨4095, 0⟩ ∧
    resolveValues false ⟨500, 1⟩ ⟨4095, 1⟩ ⟨500, 1⟩ ⟨4095, 1⟩ = .ok ⟨500, 4095⟩ := by
  simp only [resolveValues, jitterExceeded, averageFloor, distance, pJitter, pXMin, pYMax]
  decide

/-- A window of 3, 8-bit control bytes, and the pins of the serial connection alone (to keep the runs short). -/
def small : Config := { bench with regmap := [.ofId 32, .ofId 33, .ofId 34, .ofId 35], window := 3, ctrlX := 0xD8#8, ctrlY := 0x98#8 }

/-- Ready, and DOUT shows windows of 8-bit samples. -/
def showing (ls : List (List Sample)) : State := { readyWith small with levels := ls.flatMap (filterBits 0xD8#8) }

/-- A window of one sample three times. -/
def thrice (v : Sample) : List Sample := [v, v, v]

/-- A window of 3 keeps all (F18 in the small). -/
theorem test_filt :
    (leftState (exec (.filt 0x98#8) (showing [[3#12, 200#12, 5#12]]))).map (fun t => (t.outcome, t.sb, t.trace.length)) =
      some (some (.ok (.reading ⟨208, 3⟩)), [200#12, 5#12, 3#12], 165) := by decide +kernel
/-- R66 (f). -/
theorem test_filt_window_too_small :
    seen (exec (.filt 0x98#8) (readyWith { small with window := 2 })) = some ([], some .refused) := by decide
/-- X readings 120 and 130, Y readings 50 and 60. -/
theorem test_resolve :
    (leftState (exec .resolve (showing [thrice 120#12, thrice 50#12, thrice 130#12, thrice 60#12]))).map
      (fun t => (t.outcome, t.coord, t.levels)) = some (some (.ok (.coord ⟨125, 55⟩)), ⟨125, 55⟩, []) := by decide +kernel
/-- X readings 120 and 180: all four windows are read, no coordinate. -/
theorem test_resolve_unstable :
    (leftState (exec .resolve (showing [thrice 120#12, thrice 50#12, thrice 180#12, thrice 60#12]))).map
      (fun t => (t.outcome, t.coord, t.levels)) = some (some (.err .unstableReading none), ⟨0, 0⟩, []) := by decide +kernel
/-- The next command word runs. -/
theorem test_step :
    (leftState (step { State.reset with port := [0x14000005#32, 0x01000000#32] })).map (fun t => (t.trace, t.port)) =
      some ([.d 5000], [0x01000000#32]) := by decide
/-- The example of R106. -/
theorem test_init_expansion :
    (Pseudo.init [.cmd 0x01#8 [], .wait 50, .cmd 0x3A#8 [0x55#8]]).expand bench =
      [.rstpulse, .wrcmd 0x01#8, .delay 50000, .wrcmd 0x3A#8, .wrdat8 0x55#8] := by decide

/-- R70 (d): 16777 is the last wait with a word; beyond it DELAYMS is refused, and so is INIT, before its reset pulse. -/
theorem test_delayms_range :
    seen (execPseudo (.delayms 16777) ready) = some ([.d 16777000000], some (.ok .nothing)) ∧
    seen (execPseudo (.delayms 16778) ready) = some ([], some .refused) ∧
    seen (execPseudo (.init [.wait 16778]) ready) = some ([], some .refused) := by decide
/-- R106: the strobe is read-only, so the playback ends in its first command; the second is not played. -/
theorem test_init_stops :
    (leftState (execPseudo (.init [.cmd 0x01#8 [], .wait 50]) (readyWith (readOnlyLevel 9)))).map
      (fun t => (t.outcome, t.trace.length)) = some (some (.err .registerNotWritable (some 9)), 15) := by decide
/-- A33: DIN is read-only. -/
theorem test_rdch_aborts :
    seen (exec (.rdch 0x90#8) (readyWith (readOnlyLevel 33))) =
      some ([.w 32 false, .w 35 true], some (.err .registerNotWritable (some 33))) := by decide
/-- R21: DOUT is the `IN` bit of pin 34, whatever its latch held when it was an output; CLK is the `OUT` bit of pin 32. -/
theorem test_role_registers :
    ({ ready with levels := [false], banks := [(2, { Bank.reset with out := 0x5#32, written := 0x5#32 })] } : State).roleLine
      .dout = some false ∧
    ({ ready with levels := [false], banks := [(2, { Bank.reset with out := 0x5#32, written := 0x5#32 })] } : State).roleLine
      .clk = some true := by decide
/-- R42: a read of LEVEL that samples pin 34 (bit 2 of bank 2) shows the outside there and the latches of the written outputs of
the bank: bit 0 is 1 and bit 5 is 0. -/
theorem test_level_word :
    let s : State := { ready with levels := [true], banks := [(2, { Bank.reset with out := 0x1#32, written := 0x21#32 })] }
    (s.levelWord (.ofId 34)).getLsbD 2 = true ∧ (s.levelWord (.ofId 34)).getLsbD 0 = true ∧
      (s.levelWord (.ofId 34)).getLsbD 5 = false := by
  refine ⟨?_, ?_, ?_⟩ <;> (rw [State.levelWord, wordOfBits_getLsbD _ _ _ le_rfl]; rfl)

/-! ### The hypotheses of the statements are met: one witness for each statement that has hypotheses -/

/-- A small invariant-keeping state that is not the reset state: initialised, pin 37 an output, one level written. -/
def running : State :=
  { started bench with
    pt := [(37, ⟨true, .output, false⟩)]
    banks := [(2, { Bank.reset with fsel := 0x20#32, out := 0x20#32, written := 0x20#32 })]
    trace := [.w 37 true] }

theorem witness_DecodeReadsEncode : (Instr.pindir 65535 .output).wellFormed = true ∧ (Instr.delay 16777215).wellFormed = true ∧
    (Instr.shin 8).wellFormed = true ∧ (Instr.shin 12).wellFormed = true := by decide
theorem witness_EncodeReadsDecode : decode 0x05020004#32 = some (.pinpull 4 .up) := by decide
theorem witness_DecodeRefusesExactly : decode 0x2200000C#32 = some (.shin 12) ∧ refusedByEncoding 0x2200000D#32 = true := by decide
theorem witness_OpcodeRowsDisjoint : ∃ r ∈ opcodeTable, r.covers 0x0201FFFF#32 = true := by decide
/-- One word for each clause of R66, at the first value past the legal ones. -/
theorem witness_RefusedWordsDoNothing :
    [0x09000000#32, 0x01000001#32, 0x10000100#32, 0x12010000#32, 0x02020005#32, 0x05030004#32, 0x04010025#32, 0x22000009#32].all
      refusedByEncoding = true ∧
    refusedByConfig { bench with hasRst := false } 0x13000000#32 = true ∧
    refusedByConfig { bench with window := 2 } 0x30000090#32 = true ∧
    refusedByConfig { bench with window := 2 } 0x31000000#32 = true ∧
    (State.reset.offer 0x09000000#32).port = [0x09000000#32] := by decide
theorem witness_StepRunsDecoded : (State.reset.offer 0x01000000#32).port = 0x01000000#32 :: [] ∧
    decode 0x01000000#32 = some .sysinit := by decide
theorem witness_IssuedWordRuns : (Instr.pintpulse 65535 true).wellFormed = true := by decide
theorem witness_bench_wellFormed : bench.wellFormed = true := by decide +kernel
theorem witness_ResetIsSound : bench.wellFormed = true := witness_bench_wellFormed
/-- One configuration for each way to be malformed, and a well-formed one. -/
theorem witness_MalformedConfigRejected :
    (rolePin bench .cs = some 8 ∧ ({ bench with regmap := [] } : Config).find 8 = none) ∧
    (rolePin { bench with ser := { bench.ser with clk := 8 } } .clk = some 8 ∧
      rolePin { bench with ser := { bench.ser with clk := 8 } } .cs = some 8) ∧
    (0x10#8).getLsbD 7 = false ∧ ({ bench with edgeSupport := true } : Config).edgeSupport = true ∧
    ({ bench with yCheck := false } : Config).yCheck = false ∧ bench.wellFormed = true :=
  ⟨by decide, by decide, by decide, rfl, rfl, witness_bench_wellFormed⟩
theorem witness_PinMapInjective : bench.wellFormed = true ∧
    bench.find 37 = some (PinDescriptor.ofId 37) := ⟨witness_bench_wellFormed, by decide⟩

theorem running_bank (b : Nat) : running.bank b =
    if b = 2 then { Bank.reset with fsel := 0x20#32, out := 0x20#32, written := 0x20#32 } else Bank.reset := rfl
theorem running_pin (id : PinId) : running.pin id = if id = 37 then ⟨true, .output, false⟩ else PinState.reset := rfl

theorem running_inv : running.Inv where
  sound :=
    { config := witness_bench_wellFormed
      tried := fun _ => rfl
      untouched := fun h => absurd h (by decide)
      registered := by
        intro id h
        rw [running_pin, if_neg]
        rintro rfl
        exact absurd h (by decide)
      positive := by intro id; rw [running_pin]; split <;> rfl
      placeholders := by intro b; rw [running_bank]; split <;> decide
      pinTable := by decide
      bankTable := by decide
      pullTables := by intro b; rw [running_bank]; split <;> rfl }
  idle := ⟨rfl, rfl, rfl, rfl, rfl, rfl⟩
  locks := by intro b; rw [running_bank]; split <;> rfl
  pulls := by intro b; rw [running_bank]; split <;> exact ⟨rfl, rfl⟩

/-- A state of the invariant from which a step goes on. -/
theorem witness_StepKeepsInvariant : running.Inv ∧ ∃ t, step running = .next t := ⟨running_inv, _, rfl⟩
theorem witness_StepExtendsHistory : ∃ t, leftState (step (State.reset.offer 0x14000005#32)) = some t := ⟨_, rfl⟩
theorem witness_OnlySysinitWritesFlags : ∃ t, leftState (exec (.delay 5) State.reset) = some t := ⟨_, rfl⟩
theorem witness_FailedInitIsFinal : ∃ t, leftState (step { State.reset with initTried := true, port := [0x01000000#32] }) = some t :=
  ⟨_, rfl⟩
theorem witness_OnlyOwnersWrite : ∃ t, leftState (exec (.pinwr 37 true) ready) = some t := ⟨_, rfl⟩
theorem witness_LatchesKeepFollowing : running.cfg.wellFormed = true ∧ running.LatchesFollowTrace ∧
    ∃ t, leftState (step (running.offer 0x03000025#32)) = some t := by
  refine ⟨witness_bench_wellFormed, fun id d h => ?_, _, rfl⟩
  have hm : d ∈ ([4, 8, 9, 10, 11, 12, 16, 17, 18, 19, 20, 21, 22, 23, 32, 33, 34, 35, 37] : List Nat).map PinDescriptor.ofId :=
    List.mem_of_find?_eq_some h
  have hid : d.id = id := by simpa using List.find?_some h
  obtain ⟨n, hn, rfl⟩ := List.mem_map.mp hm
  subst hid
  have key : ∀ n ∈ ([4, 8, 9, 10, 11, 12, 16, 17, 18, 19, 20, 21, 22, 23, 32, 33, 34, 35, 37] : List Nat), running.latch (PinDescriptor.ofId n).bank (PinDescriptor.ofId n).bit =
      levelAfter (PinDescriptor.ofId n).id running.trace := by decide
  exact key n hn
theorem witness_WorkRegistersNeverRead : SameButWork ready { ready with acc := 7#12, sb := [] } ∧
    ∃ t, leftState (exec .sstart ready) = some t := ⟨rfl, _, rfl⟩
theorem witness_RefusalLeavesState :
    exec (.pinwr 34 true) ready = .refused (.operation (.notAnOutput 34) (ready.openPin 34).refuse) := rfl
theorem witness_OnlyPulsePollsForever : (∀ b, (running.bank b).lock = .free) ∧
    exec (.pintpulse 37 true) running = .fault (.pollNeverEnds 37) := ⟨running_inv.locks, rfl⟩
theorem witness_UninitializedTouchesNothing : State.reset.initialized = false ∧ State.reset.cfg.permits (.shin 8) = true ∧
    State.reset.cfg.permits .resolve = true := by decide
/-- The first id past the map, and an operation that names no pin. -/
theorem witness_UnregisteredPinRaises :
    (Instr.pinrd 64).pinOperand = some 64 ∧ ready.initialized = true ∧ ready.cfg.find 64 = none ∧
    Instr.sstart.pinOperand = none ∧ ready.cfg.wellFormed = true ∧ ∃ t, exec .sstart ready = .next t :=
  ⟨rfl, rfl, by decide, rfl, witness_bench_wellFormed, _, rfl⟩
theorem witness_ReadOnlyRegisterRaises :
    (started { bench with writable := [(37, ⟨false, false, false⟩)] }).initialized = true ∧
    (bench.find 37).isSome = true ∧
    ({ bench with writable := [(37, ⟨false, false, false⟩)] } : Config).writableOf 37 = ⟨false, false, false⟩ := by
  decide
theorem witness_RefusedAfterOpening :
    ready.initialized = true ∧ (ready.cfg.find 34).isSome = true ∧ ready.cfg.writableOf 34 = Writable.all ∧
    (ready.pin 34).dir ≠ .output ∧ ({ bench with pullStyle := .absent } : Config).pullStyle = .absent ∧
    ({ bench with edgeSupport := true } : Config).edgeSupport = true := by decide
/-- A role that must be an output and is none; a role that must be an input and is none. -/
theorem witness_SequencerChecksRoles :
    Instr.roles bench .sstart = some ([32, 33, 35], [34]) ∧ State.reset.initialized = false ∧
    (started bench).initialized = true ∧ ((started bench).pin 32).dir ≠ .output ∧
    ((started bench).pin 34).dir ≠ .input := by decide
theorem witness_SysinitRuns : running.initTried = true ∧ running.initialized = true ∧
    ({ State.reset with initTried := true } : State).initialized = false ∧
    ({ State.reset with mapAnswer := some true } : State).mapWindows = true ∧
    ({ State.reset with mapAnswer := some false } : State).mapWindows = false ∧ State.reset.initTried = false := by decide
theorem witness_pin_37 : ready.initialized = true ∧ ready.cfg.find 37 = some (PinDescriptor.ofId 37) ∧
    ready.cfg.writableOf 37 = Writable.all ∧ ready.cfg.pullStyle = .sharedLatch ∧ ready.cfg.edgeSupport = false ∧
    (ready.bank (PinDescriptor.ofId 37).bank).lock = .free := by decide
theorem witness_PindirRuns : ready.initialized = true ∧ ready.cfg.find 37 = some (PinDescriptor.ofId 37) ∧
    (ready.cfg.writableOf 37).dir = true ∧ (ready.bank 2).lock = .free := by decide
theorem witness_PinwrRuns : ready.drivable 37 = true ∧ ready.cfg.find 37 = some (PinDescriptor.ofId 37) ∧
    (readyWith { bench with writeStyle := .singleData }).drivable 37 = true := by decide
/-- A written output, and an input for which the outside supplies a level. -/
theorem witness_PinrdRuns : running.cfg.find 37 = some (PinDescriptor.ofId 37) ∧ running.latch 2 5 = some true ∧
    (running.pin 37).dir = .output ∧ ready.cfg.find 34 = some (PinDescriptor.ofId 34) ∧ (ready.pin 34).dir ≠ .output ∧
    ({ ready with levels := [true] } : State).levels = true :: [] := by decide
theorem witness_WriteReadRoundTrip : ready.initialized = true ∧ ready.cfg.find 37 = some (PinDescriptor.ofId 37) ∧
    ready.cfg.writableOf 37 = Writable.all ∧ (ready.bank 2).lock = .free := by decide
theorem witness_PinpullRuns : ready.initialized = true ∧ ready.cfg.find 4 = some (PinDescriptor.ofId 4) ∧
    (ready.cfg.writableOf 4).pull = true ∧ ready.cfg.pullStyle = .sharedLatch ∧ (ready.bank 1).lock = .free := by decide
/-- The shortest line (L43) with its clock, and one with a stale pulse. -/
theorem witness_PintpulseMeasures : ready.initialized = true ∧ (ready.cfg.find 34).isSome = true ∧ (ready.pin 34).dir ≠ .output ∧
    ({ ready with levels := [false, true, false], clock := [1, 2, 3] } : State).levels =
      List.replicate 0 true ++ (!true) :: (List.replicate 0 (!true) ++ true :: (List.replicate 0 true ++ (!true) :: [])) ∧
    ({ ready with levels := [true, false, false, true, false] } : State).levels =
      List.replicate 1 true ++ (!true) :: (List.replicate 1 (!true) ++ true :: (List.replicate 0 true ++ (!true) :: [])) := by
  decide
theorem witness_PintpulseOnDrivenLine : running.initialized = true ∧ running.cfg.find 37 = some (PinDescriptor.ofId 37) ∧
    (running.pin 37).dir = .output ∧ running.latch (PinDescriptor.ofId 37).bank (PinDescriptor.ofId 37).bit = some true := by
  decide
theorem witness_PincloseRuns : running.initialized = true ∧ (running.cfg.find 37).isSome = true := by decide
theorem witness_PinwatchIsStub : ready.initialized = true ∧ (ready.cfg.find 17).isSome = true ∧ ready.cfg.edgeSupport = false := by
  decide
theorem witness_TransactionsRun : ready.busReady = true ∧
    (readyWith { bench with hasRd := false, writeStyle := .singleData }).busReady = true ∧
    (Instr.wrcmd 0x2C#8).transaction = some (false, [0x2C#8]) ∧
    (Instr.wrdat16 0xF800#16).transaction = some (true, [0xF8#8, 0x00#8]) := by decide
theorem witness_BusAfterTransaction : ready.cfg.wellFormed = true ∧ (Instr.wrdat16 0xF800#16).transaction = some (true, [0xF8#8, 0x00#8]) ∧
    [0xF8#8, 0x00#8].getLast? = some 0x00#8 ∧
    ∃ t, exec (.wrdat16 0xF800#16) ready = .next t ∧ t.outcome = some (.ok .nothing) :=
  ⟨witness_bench_wellFormed, by decide, by decide, _, rfl, rfl⟩
theorem witness_ControllerLatchesBytes : ready.cfg.wellFormed = true ∧ (Instr.wrdat8 0xA5#8).transaction = some (true, [0xA5#8]) ∧
    ∃ t, exec (.wrdat8 0xA5#8) ready = .next t ∧ t.outcome = some (.ok .nothing) :=
  ⟨witness_bench_wellFormed, by decide, _, rfl, rfl⟩
/-- The strobe read-only in a transaction; DIN in the framing and in a read; CLK in a shift-in. -/
theorem witness_FailedWriteAborts :
    (readyWith (readOnlyLevel 9)).cfg.busOuts.all (readyWith (readOnlyLevel 9)).connected = true ∧
    ((transactionTrace (readOnlyLevel 9) false [0x2C#8]).dropWhile (readOnlyLevel 9).allows).head? = some (.w 9 false) ∧
    (readyWith (readOnlyLevel 33)).cfg.serialOuts.all (readyWith (readOnlyLevel 33)).connected = true ∧
    ((readyWith (readOnlyLevel 33)).pin 34).dir = .input ∧
    ((startTrace (readOnlyLevel 33)).dropWhile (readOnlyLevel 33).allows).head? = some (.w 33 true) ∧
    [Instr.rdch 0x90#8, .filt 0x90#8, .resolve].all (fun i => (readOnlyLevel 33).permits i && decide
      ((i.openingTrace (readOnlyLevel 33)).map (fun ev => (ev.dropWhile (readOnlyLevel 33).allows).head?) =
        some (some (.w 33 true)))) = true ∧
    (readOnlyLevel 32).permits (.shin 8) = true ∧
    ((Instr.shin 8).openingTrace (readOnlyLevel 32)).map (fun ev => (ev.dropWhile (readOnlyLevel 32).allows).head?) =
      some (some (.w 32 false)) := by decide
theorem witness_RstpulseRuns : ready.resetReady = true := by decide
/-- The longest time a word holds. -/
theorem witness_DelayRuns : (16777215 : Nat) < 2 ^ 24 := by decide
/-- The longest wait. -/
theorem witness_InitPlaysTable : ready.busReady = true ∧ ready.resetReady = true ∧
    waitsFit [.cmd 0x01#8 [], .wait 16777, .cmd 0x3A#8 [0x55#8]] :=
  ⟨by decide, by decide, by simp [waitsFit]⟩
theorem witness_serialReady : ready.serialReady = true := by decide
theorem witness_SstartRuns : ready.serialReady = true ∧ ready.cfg.wellFormed = true :=
  ⟨witness_serialReady, witness_bench_wellFormed⟩
theorem witness_ShoutRuns : ready.serialReady = true ∧ ready.cfg.wellFormed = true := witness_SstartRuns
theorem witness_ShinRuns : ready.serialReady = true ∧ ((12 : Nat) = 8 ∨ (12 : Nat) = 12) := ⟨witness_serialReady, .inr rfl⟩
theorem witness_RdchRuns : ready.serialReady = true := witness_serialReady
theorem witness_AdcSamplesControlByte : ready.cfg.wellFormed = true ∧ ({ ready with trace := [.w 35 false] } : State).serialReady = true ∧
    levelAfter ready.cfg.ser.tcs [.w 35 false] = some false ∧ (∃ t, exec .sstart ready = .next t) ∧
    (∃ t, exec (.shout 0x90#8) { ready with trace := [.w 35 false] } = .next t) ∧ ∃ t, exec (.rdch 0x98#8) ready = .next t :=
  ⟨witness_bench_wellFormed, by decide, by decide, ⟨_, rfl⟩, ⟨_, rfl⟩, ⟨_, rfl⟩⟩
theorem witness_SerialEventCounts : ready.serialReady = true := witness_serialReady
theorem witness_PrimitivesMakeRdch : ready.serialReady = true ∧ ready.cfg.tAdcSettle = microseconds 6 := by decide
/-- The window at both ends of its range, and a state in which the outside supplies nothing. -/
theorem witness_FiltRuns :
    (showing [[3#12, 255#12, 5#12]]).serialReady = true ∧ (3 ≤ small.window ∧ small.window ≤ 255) ∧
    (readyWith { small with window := 255 }).serialReady = true ∧ (readyWith small).levels = [] := by decide
theorem witness_RankedMeanIsMiddle : 3 ≤ (List.replicate 3 (7#12)).length ∧ (List.replicate 255 (7#12)).length ≤ 255 := by
  simp only [List.length_replicate]; decide
theorem witness_RankedMeanProperties : [1#12, 2#12, 3#12].Perm [3#12, 2#12, 1#12] ∧
    ∀ v ∈ [1#12, 2#12, 3#12], 1 ≤ v.toNat ∧ v.toNat ≤ 3 :=
  ⟨(List.reverse_perm [3#12, 2#12, 1#12]), by simp⟩
theorem witness_RankedMeanDropsOutliers : [3#12] ≠ [] ∧
    (∀ v ∈ [3#12], v.toNat ≤ (4#12).toNat ∧ v.toNat ≤ (5#12).toNat ∧ (1#12).toNat ≤ v.toNat ∧ (3#12).toNat ≤ v.toNat) ∧
    [3#12, 3#12, 1#12, 5#12, 4#12].Perm (4#12 :: 5#12 :: 1#12 :: 3#12 :: [3#12]) :=
  ⟨by simp, by simp, List.reverse_perm [4#12, 5#12, 1#12, 3#12, 3#12]⟩
/-- Windows that resolve, and windows that do not. -/
theorem witness_ResolveRuns :
    (showing [thrice 120#12, thrice 50#12, thrice 130#12, thrice 60#12]).serialReady = true ∧ 3 ≤ small.window ∧
    small.window ≤ 255 ∧
    resolveValues true (rankedMean (thrice 120#12)) (rankedMean (thrice 50#12)) (rankedMean (thrice 130#12))
      (rankedMean (thrice 60#12)) = .ok ⟨125#12, 55#12⟩ :=
  ⟨by decide, by decide, by decide, by decide +kernel⟩
theorem witness_ResolveRejects :
    (showing [thrice 120#12, thrice 50#12, thrice 180#12, thrice 60#12]).serialReady = true ∧ 3 ≤ small.window ∧
    small.window ≤ 255 ∧
    resolveValues true (rankedMean (thrice 120#12)) (rankedMean (thrice 50#12)) (rankedMean (thrice 180#12))
      (rankedMean (thrice 60#12)) = .error .unstableReading :=
  ⟨by decide, by decide, by decide, by decide +kernel⟩
/-- Readings at the boundaries: a distance of exactly 50 and one past it, an X average of 100 and one below, a Y average of 4000 and
one above. -/
theorem witness_ResolveValuesFollowsRule :
    (⟨600, 6⟩ : Reading).possible ∧ (⟨500, 1⟩ : Reading).possible ∧ (⟨550, 1⟩ : Reading).possible ∧ (⟨551, 1⟩ : Reading).possible ∧
    (⟨99, 1⟩ : Reading).possible ∧ (⟨4000, 1⟩ : Reading).possible ∧ (⟨4001, 1⟩ : Reading).possible := by
  simp only [Reading.possible]; decide
/-- An INIT whose first operation is the reset pulse, with RST read-only, and waits on both sides of the range. -/
theorem witness_PseudoStops :
    waitsFit [.cmd 0x01#8 []] ∧ (Pseudo.init [.cmd 0x01#8 []]).expand (readOnlyLevel 12) = [] ++ .rstpulse :: [.wrcmd 0x01#8] ∧
    runAll [] ((readyWith (readOnlyLevel 12)).succeed .nothing) = .next ((readyWith (readOnlyLevel 12)).succeed .nothing) ∧
    ((readyWith (readOnlyLevel 12)).succeed .nothing).lastOk = true ∧
    (∃ t, exec .rstpulse ((readyWith (readOnlyLevel 12)).succeed .nothing) = .next t ∧
      t.outcome = some (.err .registerNotWritable (some 12))) ∧
    16777 ≤ 16777 ∧ 16777 < 16778 ∧ InitEntry.wait 16778 ∈ [InitEntry.wait 16778] :=
  ⟨by simp [waitsFit], rfl, rfl, rfl, ⟨_, rfl, rfl⟩, by simp, by simp, by simp⟩
theorem witness_ResolveValues_clauses :
    50 < |(⟨500#20, 1#8⟩ : Reading).value - (⟨551#20, 1#8⟩ : Reading).value| ∧ |(⟨500#20, 1#8⟩ : Reading).value - (⟨550#20, 1#8⟩ : Reading).value| ≤ 50 ∧
    ⌊((⟨99#20, 1#8⟩ : Reading).value + (⟨100#20, 1#8⟩ : Reading).value) / 2⌋ < 100 ∧
    100 ≤ ⌊((⟨100#20, 1#8⟩ : Reading).value + (⟨600#20, 6#8⟩ : Reading).value) / 2⌋ ∧
    4000 < ⌊((⟨4001#20, 1#8⟩ : Reading).value + (⟨4001#20, 1#8⟩ : Reading).value) / 2⌋ ∧
    ⌊((⟨4000#20, 1#8⟩ : Reading).value + (⟨4001#20, 1#8⟩ : Reading).value) / 2⌋ ≤ 4000 := by
  refine ⟨?_, ?_, ?_, ?_, ?_, ?_⟩ <;> norm_num [Reading.value, abs_of_neg, Int.floor_lt, Int.le_floor, Int.lt_floor_iff, Int.floor_le_iff]

end Sys2Proof.Tests
end

section
/-! What the moves of an operation leave alone, said once (`exec_frame`), and the statements about histories and owners that
follow from it: O14, O15, O17. -/

namespace Sys2Proof.Machine

/-! ### The tables after the updates of the pin layer -/

theorem State.pin_closePin (s : State) (id j : PinId) :
    (s.closePin id).pin j = if j = id then { s.pin id with opened := false } else s.pin j := by
  unfold State.closePin
  split
  · simp
  · next h =>
    split
    · next hj => subst hj; cases hp : s.pin j; simp_all
    · rfl

theorem State.closePin_eq (s : State) (id : PinId) : s.closePin id = { s with pt := (s.closePin id).pt } := by
  unfold State.closePin; split <;> rfl

/-! ### The frame of a sequence of moves -/

/-- What moves of the kinds `K` leave alone: always the configuration, the history before them and the locks; and each group of
registers that no kind in `K` owns (10_state.md R10, R11, R14, R22 to R28). -/
structure Frame (K : List Kind) (s t : State) : Prop where
  cfg : t.cfg = s.cfg
  history : ∃ ev, t.trace = s.trace ++ ev ∧ s.now + (ev.map Event.least).sum ≤ t.now
  initializedStays : s.initialized = true → t.initialized = true
  triedStays : s.initTried = true → t.initTried = true
  locks : ∀ b, (t.bank b).lock = (s.bank b).lock
  flags : Kind.flags ∉ K → t.initialized = s.initialized ∧ t.initTried = s.initTried
  counters : Kind.counters ∉ K → t.pstep = s.pstep ∧ t.pbyte = s.pbyte ∧ t.sstep = s.sstep ∧ t.sbit = s.sbit ∧
    t.scnt = s.scnt ∧ t.rpass = s.rpass
  directions : Kind.directed ∉ K →
    (∀ id, (t.pin id).dir = (s.pin id).dir) ∧ ∀ b, (t.bank b).fsel = (s.bank b).fsel
  pulls : Kind.pulled ∉ K → ∀ b, (t.bank b).pull = (s.bank b).pull ∧ (t.bank b).pudctl = (s.bank b).pudctl ∧
    (t.bank b).pudclk = (s.bank b).pudclk
  staysOpen : Kind.closed ∉ K → ∀ id, (s.pin id).opened = true → (t.pin id).opened = true
  acc : Kind.acc ∉ K → t.acc = s.acc
  filter : Kind.filter ∉ K → t.sb = s.sb ∧ t.fr = s.fr
  resolver : Kind.resolver ∉ K → t.x1 = s.x1 ∧ t.y1 = s.y1 ∧ t.x2 = s.x2 ∧ t.y2 = s.y2 ∧ t.coord = s.coord

theorem Frame.refl (K : List Kind) (s : State) : Frame K s s where
  cfg := rfl
  history := ⟨[], by simp⟩
  initializedStays := id
  triedStays := id
  locks _ := rfl
  flags _ := ⟨rfl, rfl⟩
  counters _ := ⟨rfl, rfl, rfl, rfl, rfl, rfl⟩
  directions _ := ⟨fun _ => rfl, fun _ => rfl⟩
  pulls _ _ := ⟨rfl, rfl, rfl⟩
  staysOpen _ _ := id
  acc _ := rfl
  filter _ := ⟨rfl, rfl⟩
  resolver _ := ⟨rfl, rfl, rfl, rfl, rfl⟩

theorem Frame.trans {K : List Kind} {s t u : State} (h : Frame K s t) (g : Frame K t u) : Frame K s u where
  cfg := g.cfg.trans h.cfg
  history := by
    obtain ⟨e, he, hn⟩ := h.history
    obtain ⟨f, hf, gn⟩ := g.history
    refine ⟨e ++ f, by rw [hf, he, List.append_assoc], ?_⟩
    simp only [List.map_append, List.sum_append]
    omega
  initializedStays := g.initializedStays ∘ h.initializedStays
  triedStays := g.triedStays ∘ h.triedStays
  locks b := (g.locks b).trans (h.locks b)
  flags hk := ⟨(g.flags hk).1.trans (h.flags hk).1, (g.flags hk).2.trans (h.flags hk).2⟩
  counters hk := by
    obtain ⟨h1, h2, h3, h4, h5, h6⟩ := h.counters hk
    obtain ⟨g1, g2, g3, g4, g5, g6⟩ := g.counters hk
    exact ⟨g1.trans h1, g2.trans h2, g3.trans h3, g4.trans h4, g5.trans h5, g6.trans h6⟩
  directions hk :=
    ⟨fun id => ((g.directions hk).1 id).trans ((h.directions hk).1 id),
      fun b => ((g.directions hk).2 b).trans ((h.directions hk).2 b)⟩
  pulls hk b := by
    obtain ⟨h1, h2, h3⟩ := h.pulls hk b
    obtain ⟨g1, g2, g3⟩ := g.pulls hk b
    exact ⟨g1.trans h1, g2.trans h2, g3.trans h3⟩
  staysOpen hk id := g.staysOpen hk id ∘ h.staysOpen hk id
  acc hk := (g.acc hk).trans (h.acc hk)
  filter hk := ⟨(g.filter hk).1.trans (h.filter hk).1, (g.filter hk).2.trans (h.filter hk).2⟩
  resolver hk := by
    obtain ⟨h1, h2, h3, h4, h5⟩ := h.resolver hk
    obtain ⟨g1, g2, g3, g4, g5⟩ := g.resolver hk
    exact ⟨g1.trans h1, g2.trans h2, g3.trans h3, g4.trans h4, g5.trans h5⟩

/-- More kinds own more registers. -/
theorem Frame.mono {K L : List Kind} {s t : State} (hKL : ∀ k ∈ K, k ∈ L) (h : Frame K s t) : Frame L s t :=
  { h with
    flags := fun hk => h.flags (mt (hKL _) hk)
    counters := fun hk => h.counters (mt (hKL _) hk)
    directions := fun hk => h.directions (mt (hKL _) hk)
    pulls := fun hk => h.pulls (mt (hKL _) hk)
    staysOpen := fun hk => h.staysOpen (mt (hKL _) hk)
    acc := fun hk => h.acc (mt (hKL _) hk)
    filter := fun hk => h.filter (mt (hKL _) hk)
    resolver := fun hk => h.resolver (mt (hKL _) hk) }

/-- Changes of the two tables and of the record of accesses alone: what the pins and the banks keep is the frame. -/
theorem Frame.of_tables {K : List Kind} {s t : State} (rest : TablesOnly s t)
    (pin : ∀ id, (Kind.directed ∉ K → (t.pin id).dir = (s.pin id).dir) ∧
      (Kind.closed ∉ K → (s.pin id).opened = true → (t.pin id).opened = true))
    (bank : ∀ b, (t.bank b).lock = (s.bank b).lock ∧ (Kind.directed ∉ K → (t.bank b).fsel = (s.bank b).fsel) ∧
      (Kind.pulled ∉ K → (t.bank b).pull = (s.bank b).pull ∧ (t.bank b).pudctl = (s.bank b).pudctl ∧
        (t.bank b).pudclk = (s.bank b).pudclk)) : Frame K s t where
  cfg := by rw [rest]
  history := ⟨[], by rw [rest]; simp⟩
  initializedStays := by rw [rest]; exact id
  triedStays := by rw [rest]; exact id
  locks b := (bank b).1
  flags _ := by constructor <;> rw [rest]
  counters _ := by rw [rest]; simp
  directions hk := ⟨fun id => (pin id).1 hk, fun b => (bank b).2.1 hk⟩
  pulls hk b := (bank b).2.2 hk
  staysOpen hk id := (pin id).2 hk
  acc _ := by rw [rest]
  filter _ := by constructor <;> rw [rest]
  resolver _ := by rw [rest]; simp

/-- An event takes at least its bound and changes no register. -/
theorem Frame.emit (K : List Kind) (s : State) (e : Event) : Frame K s (s.emit e) :=
  { Frame.refl K s with history := ⟨[e], rfl, by simp⟩ }

/-- The frame of one move: it leaves alone what another kind owns. -/
theorem Move.frame {k : Kind} {s t : State} (h : Move k s t) : Frame [k] s t := by
  cases h with
  | counters => exact { Frame.refl _ s with counters := by simp }
  | acc => exact { Frame.refl _ s with acc := by simp }
  | filter => exact { Frame.refl _ s with filter := by simp }
  | resolver => exact { Frame.refl _ s with resolver := by simp }
  | outcome => exact { Frame.refl _ s with }
  | opened _ id =>
    refine Frame.of_tables (by unfold TablesOnly; rw [State.openPin_eq]) (fun j => ?_) fun b => by simp
    rw [State.pin_openPin]
    split
    · next hj => simp [hj]
    · simp
  | wrote _ u d v _ _ _ _ hl hw =>
    have hw := writeLine_eq_ok hl hw
    refine (Frame.of_tables (.of_banks hw.rest) (fun j => ?_) fun b => ?_).trans (Frame.emit _ u _)
    · rw [State.pin, hw.rest]; exact ⟨fun _ => rfl, fun _ => id⟩
    · obtain ⟨hlock, hfsel, hpull⟩ := hw.banks b
      exact ⟨hlock, fun _ => hfsel, fun _ => hpull⟩
  | waited _ n => exact Frame.emit _ s (.d n)
  | sampled _ id v _ _ _ _ _ _ _ hn =>
    exact { Frame.refl _ s with history := ⟨[.r id v], rfl, by simpa [Event.least] using hn⟩ }
  | drew => exact { Frame.refl _ s with }
  | directed _ _ d dir _ _ hl h =>
    refine Frame.of_tables h.rest (fun j => ⟨by simp, fun _ => ?_⟩) fun b => ?_
    · rw [h.pin]; split
      · next hj => rw [hj]; exact id
      · exact id
    · rw [h.bank]; split
      · next hb => subst hb; simp [Bank.directed, hl]
      · simp
  | pulled _ u _ d m _ _ hl hu h =>
    subst hu
    refine (Frame.emit _ s (.d s.cfg.tPull)).trans (Frame.of_tables h.rest (fun j => ?_) fun b => ?_)
    · rw [h.pin]; exact ⟨fun _ => rfl, fun _ => id⟩
    · rw [h.bank]; split
      · next hb => subst hb; simpa [Bank.pulled] using hl.symm
      · exact ⟨rfl, fun _ => rfl, by simp⟩
  | closed _ id =>
    refine Frame.of_tables (by unfold TablesOnly; rw [State.closePin_eq]) (fun j => ⟨fun _ => ?_, by simp⟩) fun b => ?_
    · rw [State.pin_closePin]; split
      · next hj => rw [hj]
      · rfl
    · rw [State.bank, State.closePin_eq]; exact ⟨rfl, fun _ => rfl, fun _ => ⟨rfl, rfl, rfl⟩⟩
  | flags _ v _ hv =>
    exact { Frame.refl _ s with initializedStays := hv, triedStays := fun _ => rfl, flags := by simp }

theorem Moves.frame {K : List Kind} {s t : State} (h : Moves K s t) : Frame K s t :=
  h.relates (Frame.refl K) (fun _ _ _ => Frame.trans) fun _ hk _ _ m => m.frame.mono (by simpa using hk)

/-- What an operation leaves alone, however it ends. -/
theorem exec_frame {i : Instr} {s t : State} (h : leftState (exec i s) = some t) : Frame (movesOf i) s t :=
  (exec_moves i h).frame

/-! ### Histories -/

/-- Settles O14: every operation's frame has it, and the other steps make no event. -/
theorem stepExtendsHistory : Obligations.StepExtendsHistory := by
  intro s t h
  rcases step_cases h with rfl | ⟨_, _, rfl⟩ | ⟨i, hi⟩
  · exact ⟨rfl, ⟨[], by simp⟩, id, id⟩
  · exact ⟨rfl, ⟨[], by simp⟩, id, id⟩
  · have f := exec_frame hi
    exact ⟨f.cfg, f.history, f.initializedStays, f.triedStays⟩

/-! ### Owners -/

theorem flags_mem_movesOf {i : Instr} (h : Kind.flags ∈ movesOf i) : i = .sysinit := by
  cases i <;> simp [movesOf] at h ⊢

theorem directed_mem_movesOf {i : Instr} (h : Kind.directed ∈ movesOf i) : ∃ pin d, i = .pindir pin d := by
  cases i <;> simp [movesOf] at h ⊢

theorem pulled_mem_movesOf {i : Instr} (h : Kind.pulled ∈ movesOf i) : ∃ pin m, i = .pinpull pin m := by
  cases i <;> simp [movesOf] at h ⊢

theorem closed_mem_movesOf {i : Instr} (h : Kind.closed ∈ movesOf i) : ∃ pin, i = .pinclose pin := by
  cases i <;> simp [movesOf] at h ⊢

theorem acc_mem_movesOf {i : Instr} (h : Kind.acc ∈ movesOf i) :
    (∃ n, i = .shin n) ∨ (∃ c, i = .rdch c) ∨ (∃ c, i = .filt c) ∨ i = .resolve := by
  cases i <;> simp [movesOf] at h ⊢

theorem filter_mem_movesOf {i : Instr} (h : Kind.filter ∈ movesOf i) : (∃ c, i = .filt c) ∨ i = .resolve := by
  cases i <;> simp [movesOf] at h ⊢

theorem resolver_mem_movesOf {i : Instr} (h : Kind.resolver ∈ movesOf i) : i = .resolve := by
  cases i <;> simp [movesOf] at h ⊢

/-- Settles O15: SYSINIT alone owns the flags. -/
theorem onlySysinitWritesFlags : Obligations.OnlySysinitWritesFlags := by
  intro i s t hi h
  obtain ⟨hinit, htried⟩ := (exec_frame h).flags fun hk => hi (flags_mem_movesOf hk)
  exact ⟨hinit, htried⟩

/-- Settles O17: the frame of the operation, read at each owner. -/
theorem onlyOwnersWrite : Obligations.OnlyOwnersWrite := by
  intro i s t h
  have f := exec_frame h
  refine ⟨fun hi => f.directions fun hk => ?_, fun hi => f.pulls fun hk => ?_, fun hi => f.staysOpen fun hk => ?_,
    fun hs hr hf hv => f.acc fun hk => ?_, fun hf hv => f.filter fun hk => ?_,
    fun hv => f.resolver fun hk => hv (resolver_mem_movesOf hk), f.locks⟩
  · obtain ⟨pin, d, rfl⟩ := directed_mem_movesOf hk
    exact hi pin d rfl
  · obtain ⟨pin, m, rfl⟩ := pulled_mem_movesOf hk
    exact hi pin m rfl
  · obtain ⟨pin, rfl⟩ := closed_mem_movesOf hk
    exact hi pin rfl
  · rcases acc_mem_movesOf hk with ⟨n, rfl⟩ | ⟨c, rfl⟩ | ⟨c, rfl⟩ | rfl
    · exact hs n rfl
    · exact hr c rfl
    · exact hf c rfl
    · exact hv rfl
  · rcases filter_mem_movesOf hk with ⟨c, rfl⟩ | rfl
    · exact hf c rfl
    · exact hv rfl

end Sys2Proof.Machine
end

section
/-! Where the pins of a well-formed configuration sit, the latches and the trace (O18), and the invariant (O13, with O9 and O10 for
the state after reset). -/

namespace Sys2Proof.Machine

/-! ### The lines of a well-formed configuration -/

theorem allDistinct_iff_nodup {α : Type} [BEq α] [LawfulBEq α] (l : List α) : allDistinct l = true ↔ l.Nodup := by
  induction l with
  | nil => simp [allDistinct]
  | cons a l ih => simp [allDistinct, ih]

/-- The line of a registered pin carries that pin and no other (20_memory.md R41). -/
theorem Config.pinAt_of_find {c : Config} (hc : c.wellFormed = true) {id : PinId} {d : PinDescriptor}
    (hd : c.find id = some d) : c.pinAt d.bank d.bit = some d := by
  have hlines : c.linesDistinct = true := by simp only [Config.wellFormed, Bool.and_eq_true] at hc; tauto
  have hmem := Config.find_mem hd
  cases hf : c.pinAt d.bank d.bit with
  | none => exact absurd (List.find?_eq_none.mp hf d hmem) (by simp)
  | some e =>
    obtain ⟨hbank, hbit⟩ : e.bank = d.bank ∧ e.bit.val = d.bit.val := by simpa using List.find?_some hf
    have hline : (e.bank, e.bit) = (d.bank, d.bit) := by rw [hbank, Fin.ext hbit]
    rw [List.inj_on_of_nodup_map ((allDistinct_iff_nodup _).mp hlines) (List.mem_of_find?_eq_some hf) hmem hline]

theorem Config.find_inj {c : Config} (hc : c.wellFormed = true) {id id' : PinId} {d d' : PinDescriptor}
    (hd : c.find id = some d) (hd' : c.find id' = some d') (hbank : d.bank = d'.bank) (hbit : d.bit.val = d'.bit.val) :
    id = id' := by
  have h := Config.pinAt_of_find hc hd
  rw [hbank, hbit, Config.pinAt_of_find hc hd', Option.some.injEq] at h
  rw [← Config.find_id hd, ← Config.find_id hd', h]

/-! ### The latches follow the trace -/

theorem levelAfter_append_one (p : PinId) (tr : List Event) (e : Event) :
    levelAfter p (tr ++ [e]) = levelStep p (levelAfter p tr) e := by
  simp [levelAfter]

/-- Nothing is driven: the latches stay, and the trace grows by no write. -/
theorem State.LatchesFollowTrace.of_latch_eq {s t : State} (h : s.LatchesFollowTrace) (hcfg : t.cfg = s.cfg)
    (hlatch : ∀ b k, t.latch b k = s.latch b k) (htrace : ∀ id, levelAfter id t.trace = levelAfter id s.trace) :
    t.LatchesFollowTrace := by
  intro id d hd
  rw [hlatch, htrace]
  exact h id d (by rw [← hcfg]; exact hd)

/-- A bank whose output registers stay keeps its latches. -/
theorem State.latch_congr {s t : State} {b : Nat} (hout : (t.bank b).out = (s.bank b).out)
    (hwritten : (t.bank b).written = (s.bank b).written) (k : Nat) : t.latch b k = s.latch b k := by
  simp [State.latch, hout, hwritten]

/-- A write to a pin sets the one latch bit of that pin, which no other pin has. -/
theorem latchesFollow_wrote {s u : State} {d : PinDescriptor} {v : Level} (hc : s.cfg.wellFormed = true)
    (hs : s.LatchesFollowTrace) (hd : s.cfg.find d.id = some d) (hw : LineWritten d v s u) :
    (u.emit (.w d.id v)).LatchesFollowTrace := by
  have hcfg : u.cfg = s.cfg := by rw [hw.rest]
  have htrace : u.trace = s.trace := by rw [hw.rest]
  intro id e he
  rw [State.emit_cfg, hcfg] at he
  rw [State.emit_trace, levelAfter_append_one, htrace, levelStep]
  have hlatch : (u.emit (.w d.id v)).latch e.bank e.bit = u.latch e.bank e.bit := rfl
  rw [hlatch, hw.latch]
  by_cases hid : d.id = id
  · subst hid
    rw [hd, Option.some.injEq] at he
    subst he
    simp
  · have hline : ¬(e.bank = d.bank ∧ e.bit.val = d.bit.val) := fun ⟨hbank, hbit⟩ =>
      hid (Config.find_inj hc he hd hbank hbit).symm
    rw [if_neg hline, if_neg hid, hs id e he]

theorem Move.latchesFollow {k : Kind} {s t : State} (h : Move k s t) (hc : s.cfg.wellFormed = true)
    (hs : s.LatchesFollowTrace) : t.LatchesFollowTrace := by
  cases h with
  | wrote _ u d v _ hd _ _ hl hw => exact latchesFollow_wrote hc hs hd (writeLine_eq_ok hl hw)
  | opened _ id =>
    exact hs.of_latch_eq (by simp) (State.latch_openPin s id) fun _ => by rw [State.openPin_eq]
  | closed _ id =>
    refine hs.of_latch_eq (by rw [State.closePin_eq]) (fun b k => ?_) fun _ => by rw [State.closePin_eq]
    rw [State.closePin_eq]; rfl
  | waited _ n => exact hs.of_latch_eq rfl (fun _ _ => rfl) fun _ => levelAfter_append_one _ _ _
  | sampled _ id v => exact hs.of_latch_eq rfl (fun _ _ => rfl) fun _ => levelAfter_append_one _ _ _
  | directed _ _ d dir _ _ _ h =>
    refine hs.of_latch_eq (by rw [h.rest]) (fun b k => State.latch_congr ?_ ?_ k) fun _ => by rw [h.rest]
    all_goals
      rw [h.bank]; split
      · next hb => rw [hb]; rfl
      · rfl
  | pulled _ u _ d m _ _ _ hu h =>
    subst hu
    refine hs.of_latch_eq (by rw [h.rest]; rfl) (fun b k => State.latch_congr ?_ ?_ k)
      fun _ => by rw [h.rest]; exact levelAfter_append_one _ _ _
    all_goals
      rw [h.bank]; split
      · next hb => rw [hb]; rfl
      · rfl
  | counters => exact hs
  | acc => exact hs
  | filter => exact hs
  | resolver => exact hs
  | outcome => exact hs
  | drew => exact hs
  | flags => exact hs

theorem Moves.latchesFollow {K : List Kind} {s t : State} (h : Moves K s t) (hc : s.cfg.wellFormed = true)
    (hs : s.LatchesFollowTrace) : t.LatchesFollowTrace :=
  (h.keeps (P := fun a => a.cfg.wellFormed = true ∧ a.LatchesFollowTrace) ⟨hc, hs⟩
    fun _ _ _ _ m ⟨hca, hsa⟩ => ⟨by rw [m.frame.cfg]; exact hca, m.latchesFollow hca hsa⟩).2

/-- Settles O18: every move keeps the agreement, and a step that is no operation changes neither latch nor trace. -/
theorem latchesKeepFollowing : Obligations.LatchesKeepFollowing := by
  intro s t hc hs h
  rcases step_cases h with rfl | ⟨_, _, rfl⟩ | ⟨i, hi⟩
  · exact hs
  · exact hs
  · exact (exec_moves i hi).latchesFollow hc hs

/-! ### The registers stay sound -/

/-- The bits of `OUT` outside the mask of written bits are 0 (log 10). -/
def Bank.Placeheld (k : Bank) : Prop := k.out &&& ~~~k.written = 0#32

theorem Bank.placeheld_reset : Bank.reset.Placeheld := by unfold Bank.Placeheld; decide

theorem Bank.placeheld_iff (k : Bank) :
    k.Placeheld ↔ ∀ j, k.out.getLsbD j = true → k.written.getLsbD j = true := by
  unfold Bank.Placeheld
  constructor
  · intro h j hj
    have hlt := BitVec.lt_of_getLsbD hj
    have := congrArg (·.getLsbD j) h
    simpa [hj, hlt] using this
  · intro h
    apply BitVec.eq_of_getLsbD_eq
    intro j hj
    cases ho : k.out.getLsbD j with
    | false => simp [ho]
    | true => simp [ho, h j ho]

/-- One bit written and marked as written, in either style (40_pin_layer.md R84). -/
theorem Bank.placeheld_afterWrite {k : Bank} (h : k.Placeheld) (w : Word) (v : Level) :
    (k.afterWrite (if v then .set else .clr) w).Placeheld := by
  rw [Bank.placeheld_iff] at h ⊢
  intro j hj
  cases v <;> simp [Bank.afterWrite] at hj ⊢
  · exact .inl (h j hj.1)
  · exact hj.imp_left (h j)

theorem Bank.placeheld_afterData {k : Bank} (h : k.Placeheld) (i : Fin 32) (v : Level) : (k.afterData i v).Placeheld := by
  rw [Bank.placeheld_iff] at h ⊢
  intro j hj
  have hi := i.isLt
  simp only [Bank.afterData, putBit_getLsbD _ _ _ _ hi, BitVec.getLsbD_or, oneHot_getLsbD _ _ hi, Bool.or_eq_true,
    decide_eq_true_eq] at hj ⊢
  split at hj
  · next hji => exact .inr hji
  · exact .inl (h j hj)

/-- The bank of the line after the register write of a level, and every other bank. -/
theorem writeLine_bank {d : PinDescriptor} {v : Level} {s t : State} (h : writeLine d v s = .ok () t) (b : Nat) :
    t.bank b = s.bank b ∨ b = d.bank ∧ (t.bank b = (s.bank b).afterWrite (if v then .set else .clr) (oneHot d.bit) ∨
      t.bank b = (s.bank b).afterData d.bit v) := by
  unfold writeLine at h
  split at h
  · cases h
    by_cases hb : b = d.bank
    · subst hb; simp
    · simp [hb]
  · cases hl : (s.bank d.bank).lock with
    | held => simp [acquire, hl] at h
    | free =>
      simp only [acquire, hl, Res.bind_ok, Res.ok.injEq, true_and] at h
      subst h
      by_cases hb : b = d.bank
      · subst hb; simp [Bank.afterWrite, Bank.afterData]
      · simp [hb]

/-- What `State.Sound` adds to the canonical tables and the configuration, at one state. -/
structure State.Registered (s : State) : Prop where
  tried : s.initialized = true → s.initTried = true
  untouched : s.initialized = false → s.pt = [] ∧ s.banks = []
  unregistered : ∀ id, s.cfg.find id = none → s.pin id = PinState.reset
  positive : ∀ id, (s.pin id).activeLow = false
  placeheld : ∀ b, (s.bank b).Placeheld

theorem State.sound_iff (s : State) : s.Sound ↔ s.cfg.wellFormed = true ∧ s.Registered ∧ s.Canonical :=
  ⟨fun h => ⟨h.config, ⟨h.tried, h.untouched, h.registered, h.positive, h.placeholders⟩,
      ⟨h.pinTable, h.bankTable, h.pullTables⟩⟩,
    fun ⟨hc, hr, ht⟩ => ⟨hc, hr.tried, hr.untouched, hr.unregistered, hr.positive, hr.placeheld, ht.pinTable, ht.bankTable,
      ht.pullTables⟩⟩

/-- On an initialised block the entries of the pins and of the banks may change as long as unregistered pins keep theirs. -/
theorem State.Registered.of_tables {s t : State} (hs : s.Registered) (hi : s.initialized = true) (hcfg : t.cfg = s.cfg)
    (hinit : t.initialized = s.initialized) (htried : t.initTried = s.initTried)
    (hpin : ∀ id, t.pin id = s.pin id ∨ (s.cfg.find id).isSome = true ∧ (t.pin id).activeLow = (s.pin id).activeLow)
    (hbank : ∀ b, (s.bank b).Placeheld → (t.bank b).Placeheld) : t.Registered where
  tried _ := by rw [htried]; exact hs.tried hi
  untouched h := by rw [hinit, hi] at h; cases h
  unregistered id h := by
    rw [hcfg] at h
    rcases hpin id with hp | ⟨hsome, _⟩
    · rw [hp]; exact hs.unregistered id h
    · simp [h] at hsome
  positive id := by
    rcases hpin id with hp | ⟨_, hp⟩
    · rw [hp]; exact hs.positive id
    · rw [hp]; exact hs.positive id
  placeheld b := hbank b (hs.placeheld b)

theorem Move.registered {k : Kind} {s t : State} (h : Move k s t) (hs : s.Registered) : t.Registered := by
  cases h with
  | opened _ id hi hd =>
    refine hs.of_tables hi (by simp) (State.openPin_initialized s id) (by rw [State.openPin_eq]) (fun j => ?_) fun b => by simp
    rw [State.pin_openPin]; split
    · next hj => subst hj; exact .inr ⟨hd, rfl⟩
    · exact .inl rfl
  | closed _ id hi hd =>
    refine hs.of_tables hi (by rw [State.closePin_eq]) (by rw [State.closePin_eq]) (by rw [State.closePin_eq]) (fun j => ?_)
      fun b => ?_
    · rw [State.pin_closePin]; split
      · next hj => subst hj; exact .inr ⟨hd, rfl⟩
      · exact .inl rfl
    · rw [State.closePin_eq]; exact fun hb => hb
  | wrote _ u d v hi hd _ _ hl hw =>
    have hr := (writeLine_eq_ok hl hw).rest
    refine hs.of_tables hi (by rw [State.emit_cfg, hr]) (by rw [State.emit_initialized, hr]) (by rw [State.emit_initTried, hr])
      (fun j => .inl ?_) fun b hb => ?_
    · rw [State.pin, State.emit_pt, hr]; rfl
    · show (u.bank b).Placeheld
      rcases writeLine_bank hw b with he | ⟨_, he | he⟩
      · rw [he]; exact hb
      · rw [he]; exact Bank.placeheld_afterWrite hb _ v
      · rw [he]; exact Bank.placeheld_afterData hb d.bit v
  | directed _ _ d dir hi hd _ h =>
    refine hs.of_tables hi (by rw [h.rest]) (by rw [h.rest]) (by rw [h.rest]) (fun j => ?_) fun b hb => ?_
    · rw [h.pin]; split
      · next hj => subst hj; exact .inr ⟨by simp [hd], rfl⟩
      · exact .inl rfl
    · rw [h.bank]; split
      · next he => subst he; exact hb
      · exact hb
  | pulled _ u _ d m hi hd _ hu h =>
    subst hu
    refine hs.of_tables hi (by rw [h.rest]; rfl) (by rw [h.rest]; rfl) (by rw [h.rest]; rfl) (fun j => .inl (h.pin j))
      fun b hb => ?_
    rw [h.bank]; split
    · next he => subst he; exact hb
    · exact hb
  | flags _ v ht hv =>
    have hi : s.initialized = false := by
      cases hi : s.initialized with
      | false => rfl
      | true => rw [hs.tried hi] at ht; cases ht
    exact ⟨fun _ => rfl, fun _ => hs.untouched hi, hs.unregistered, hs.positive, hs.placeheld⟩
  | _ => exact ⟨hs.tried, hs.untouched, hs.unregistered, hs.positive, hs.placeheld⟩

theorem Move.sound {k : Kind} {s t : State} (h : Move k s t) (hs : s.Sound) : t.Sound := by
  obtain ⟨hc, hr, ht⟩ := s.sound_iff.mp hs
  exact t.sound_iff.mpr ⟨by rw [h.frame.cfg]; exact hc, h.registered hr, h.canonical ht⟩

/-- The pull registers are cleared (10_state.md R14). -/
def State.PullsCleared (s : State) : Prop := ∀ b, (s.bank b).pudctl = 0#32 ∧ (s.bank b).pudclk = 0#32

/-- PINPULL clears them itself, and no other operation writes them. -/
theorem Move.pullsCleared {k : Kind} {s t : State} (h : Move k s t) (hs : s.PullsCleared) : t.PullsCleared := by
  intro b
  by_cases hk : k = .pulled
  · subst hk
    cases h with
    | pulled _ u _ d m _ _ _ _ h =>
      rw [h.bank]; split
      · exact ⟨rfl, rfl⟩
      · exact hs b
  · obtain ⟨_, hctl, hclk⟩ := h.frame.pulls (by simpa using Ne.symm hk) b
    rw [hctl, hclk]; exact hs b

/-! ### After reset -/

theorem State.sound_ofConfig {c : Config} (hc : c.wellFormed = true) : (State.ofConfig c).Sound :=
  (State.sound_iff _).mpr ⟨hc,
    ⟨fun h => h, fun _ => ⟨rfl, rfl⟩, fun _ _ => rfl, fun _ => rfl, fun _ => Bank.placeheld_reset⟩,
    State.canonical_ofConfig c⟩

theorem State.countersIdle_ofConfig (c : Config) : (State.ofConfig c).CountersIdle := ⟨rfl, rfl, rfl, rfl, rfl, rfl⟩

theorem State.inv_ofConfig {c : Config} (hc : c.wellFormed = true) : (State.ofConfig c).Inv :=
  ⟨State.sound_ofConfig hc, State.countersIdle_ofConfig c, fun _ => rfl, fun _ => ⟨rfl, rfl⟩⟩

theorem State.latch_ofConfig (c : Config) (b k : Nat) : (State.ofConfig c).latch b k = none := by
  simp [State.latch, State.bank, State.ofConfig, Bank.reset]

theorem State.latchesFollowTrace_ofConfig (c : Config) : (State.ofConfig c).LatchesFollowTrace :=
  fun _ _ _ => State.latch_ofConfig c _ _

theorem Config.reference_wellFormed : Config.reference.wellFormed = true := by decide +kernel

/-- Settles O9. -/
theorem resetLeavesNothingSet : Obligations.ResetLeavesNothingSet := fun c =>
  ⟨rfl, rfl, fun _ => rfl, fun b k => ⟨State.latch_ofConfig c b k, rfl⟩, fun _ => ⟨rfl, rfl, rfl⟩,
    State.countersIdle_ofConfig c, rfl⟩

/-- Settles O10: the reference configuration is a well-formed one. -/
theorem resetIsSound : Obligations.ResetIsSound :=
  ⟨State.inv_ofConfig Config.reference_wellFormed, State.latchesFollowTrace_ofConfig _,
    fun c hc => ⟨State.inv_ofConfig hc, State.latchesFollowTrace_ofConfig c⟩⟩

end Sys2Proof.Machine
end

section
/-! The counters between operations (10_state.md R20): every operation from idle counters ends with idle counters, also where it is
refused; with that, O13. -/

namespace Sys2Proof.Machine

/-! ### Which counters run -/

/-- The step and loop counters. -/
inductive Counter where
  | pstep
  | pbyte
  | sstep
  | sbit
  | scnt
  | rpass

/-- A counter is as between operations. -/
def Counter.Idle (s : State) : Counter → Prop
  | .pstep => s.pstep = .idle
  | .pbyte => s.pbyte = 0#1
  | .sstep => s.sstep = .idle
  | .sbit => s.sbit = 0#4
  | .scnt => s.scnt = 0#8
  | .rpass => s.rpass = 0#2

theorem State.countersIdle_iff (s : State) : s.CountersIdle ↔ ∀ k : Counter, k.Idle s := by
  constructor
  · rintro ⟨h1, h2, h3, h4, h5, h6⟩ k
    cases k <;> assumption
  · exact fun h => ⟨h .pstep, h .pbyte, h .sstep, h .sbit, h .scnt, h .rpass⟩

/-- Inside a sequencer operation of a block with configuration `c`: its output roles `outs` are outputs, and no counter runs but
those in `C`. -/
structure State.Running (c : Config) (outs : List PinId) (C : List Counter) (s : State) : Prop where
  cfg : s.cfg = c
  outputs : ∀ p ∈ outs, (s.pin p).dir = .output
  idle : ∀ k, k ∉ C → k.Idle s

theorem State.Running.countersIdle {c : Config} {outs : List PinId} {s : State} (h : s.Running c outs []) : s.CountersIdle :=
  s.countersIdle_iff.mpr fun k => h.idle k (by simp)

/-- `t` differs from `s` in no direction and in no counter outside `C`. -/
theorem State.Running.of_same {c : Config} {outs : List PinId} {C D : List Counter} {s t : State} (h : s.Running c outs C)
    (hcfg : t.cfg = s.cfg) (hdir : ∀ id, (t.pin id).dir = (s.pin id).dir)
    (hidle : ∀ k, k ∉ D → (k ∉ C → k.Idle s) → k.Idle t) : t.Running c outs D :=
  ⟨hcfg.trans h.cfg, fun p hp => by rw [hdir]; exact h.outputs p hp, fun k hk => hidle k hk (h.idle k)⟩

/-- A part that owns neither counters nor directions. -/
theorem State.Running.of_frame {c : Config} {outs : List PinId} {C : List Counter} {K : List Kind} {s t : State}
    (h : s.Running c outs C) (f : Frame K s t) (hc : Kind.counters ∉ K) (hd : Kind.directed ∉ K) : t.Running c outs C := by
  obtain ⟨h1, h2, h3, h4, h5, h6⟩ := f.counters hc
  refine h.of_same f.cfg (f.directions hd).1 fun k hk hs => ?_
  have hk := hs hk
  cases k <;> simp only [Counter.Idle, h1, h2, h3, h4, h5, h6] at hk ⊢ <;> exact hk

section
variable {c : Config} {outs : List PinId} {C D : List Counter} {s : State}

/-- One counter takes a value: from now on it runs, or it is idle. -/
theorem State.Running.set (h : s.Running c outs C) (x : Counter) {t : State} (hcfg : t.cfg = s.cfg) (hpt : t.pt = s.pt)
    (hother : ∀ k, k ≠ x → k.Idle s → k.Idle t) (hx : x.Idle t ∨ x ∈ D) (hC : ∀ k ∈ C, k = x ∨ k ∈ D) :
    t.Running c outs D := by
  refine h.of_same hcfg (fun id => by rw [State.pin, State.pin, hpt]) fun k hk hs => ?_
  by_cases hkx : k = x
  · subst hkx; exact hx.resolve_right hk
  · exact hother k hkx (hs fun hkC => (hC k hkC).elim hkx hk)

theorem State.Running.pstep (h : s.Running c outs C) (v : PStep) (hv : v = .idle ∨ .pstep ∈ D)
    (hC : ∀ k ∈ C, k = .pstep ∨ k ∈ D) : ({ s with pstep := v } : State).Running c outs D :=
  h.set .pstep rfl rfl (fun k hk => by cases k <;> simp_all [Counter.Idle]) hv hC

theorem State.Running.pbyte (h : s.Running c outs C) (v : BitVec 1) (hv : v = 0#1 ∨ .pbyte ∈ D)
    (hC : ∀ k ∈ C, k = .pbyte ∨ k ∈ D) : ({ s with pbyte := v } : State).Running c outs D :=
  h.set .pbyte rfl rfl (fun k hk => by cases k <;> simp_all [Counter.Idle]) hv hC

theorem State.Running.sstep (h : s.Running c outs C) (v : SStep) (hv : v = .idle ∨ .sstep ∈ D)
    (hC : ∀ k ∈ C, k = .sstep ∨ k ∈ D) : ({ s with sstep := v } : State).Running c outs D :=
  h.set .sstep rfl rfl (fun k hk => by cases k <;> simp_all [Counter.Idle]) hv hC

theorem State.Running.sbit (h : s.Running c outs C) (v : BitVec 4) (hv : v = 0#4 ∨ .sbit ∈ D)
    (hC : ∀ k ∈ C, k = .sbit ∨ k ∈ D) : ({ s with sbit := v } : State).Running c outs D :=
  h.set .sbit rfl rfl (fun k hk => by cases k <;> simp_all [Counter.Idle]) hv hC

theorem State.Running.scnt (h : s.Running c outs C) (v : BitVec 8) (hv : v = 0#8 ∨ .scnt ∈ D)
    (hC : ∀ k ∈ C, k = .scnt ∨ k ∈ D) : ({ s with scnt := v } : State).Running c outs D :=
  h.set .scnt rfl rfl (fun k hk => by cases k <;> simp_all [Counter.Idle]) hv hC

theorem State.Running.rpass (h : s.Running c outs C) (v : BitVec 2) (hv : v = 0#2 ∨ .rpass ∈ D)
    (hC : ∀ k ∈ C, k = .rpass ∨ k ∈ D) : ({ s with rpass := v } : State).Running c outs D :=
  h.set .rpass rfl rfl (fun k hk => by cases k <;> simp_all [Counter.Idle]) hv hC

end

/-! ### Where an operation goes on, and where it is refused -/

/-- Where the operation goes on `Q` holds; where it is refused the counters are idle. An error sends them to idle by itself. -/
def Res.Settles {α : Type} (Q : State → Prop) : Res α → Prop
  | .ok _ t => Q t
  | .err _ _ _ => True
  | .refused _ t => t.CountersIdle
  | .stuck _ => True

theorem Res.Settles.bind_eq {α β : Type} {P Q : State → Prop} {r : Res α} {f : α → State → Res β} (h : r.Settles P)
    (g : ∀ a t, r = .ok a t → P t → (f a t).Settles Q) : (r.bind f).Settles Q := by
  cases r with
  | ok a t => exact g a t rfl h
  | err => trivial
  | refused => exact h
  | stuck => trivial

theorem Res.Settles.bind {α β : Type} {P Q : State → Prop} {r : Res α} {f : α → State → Res β} (h : r.Settles P)
    (g : ∀ a t, P t → (f a t).Settles Q) : (r.bind f).Settles Q := h.bind_eq fun a t _ => g a t

theorem Res.Settles.imp {α : Type} {P Q : State → Prop} {r : Res α} (h : r.Settles P) (hPQ : ∀ t, P t → Q t) :
    r.Settles Q := by
  cases r with
  | ok a t => exact hPQ t h
  | err => trivial
  | refused => exact h
  | stuck => trivial

/-- Moves of other kinds leave idle counters idle. -/
theorem Moves.countersIdle {K : List Kind} {s t : State} (h : Moves K s t) (hK : Kind.counters ∉ K)
    (hs : s.CountersIdle) : t.CountersIdle := by
  obtain ⟨h1, h2, h3, h4, h5, h6⟩ := h.frame.counters hK
  exact ⟨h1.trans hs.pstep, h2.trans hs.pbyte, h3.trans hs.sstep, h4.trans hs.sbit, h5.trans hs.scnt, h6.trans hs.rpass⟩

theorem Res.Reach.settles {α : Type} {K : List Kind} {s : State} {r : Res α} (h : r.Reach K s)
    (hK : Kind.counters ∉ K) (hs : s.CountersIdle) : r.Settles State.CountersIdle := by
  cases r with
  | ok => exact h.countersIdle hK hs
  | err => trivial
  | refused => exact h.countersIdle hK hs
  | stuck => trivial

theorem finish_countersIdle {r : Res Value} {t : State} (h : r.Settles State.CountersIdle)
    (hl : leftState (finish r) = some t) : t.CountersIdle := by
  cases r with
  | ok v u => cases hl; exact ⟨h.pstep, h.pbyte, h.sstep, h.sbit, h.scnt, h.rpass⟩
  | err e i u => cases hl; exact ⟨rfl, rfl, rfl, rfl, rfl, rfl⟩
  | refused w u => cases hl; exact ⟨h.pstep, h.pbyte, h.sstep, h.sbit, h.scnt, h.rpass⟩
  | stuck => cases hl

theorem finishUnit_countersIdle {r : Res Unit} {t : State} (h : r.Settles State.CountersIdle)
    (hl : leftState (finishUnit r) = some t) : t.CountersIdle :=
  finish_countersIdle (r := r.bind fun _ s => .ok .nothing s) (h.bind fun _ _ ht => ht) hl

/-! ### Inside a sequencer operation -/

section
variable {c : Config} {outs : List PinId} {C : List Counter} {s : State}

/-- A write to an output role is never refused and owns no counter. -/
theorem pinWrite_settles (h : s.Running c outs C) {id : PinId} (hid : id ∈ outs) (v : Level) :
    (pinWrite id v s).Settles (State.Running c outs C) := by
  have hreach := pinWrite_reach id v s
  cases hr : pinWrite id v s with
  | ok a t =>
    rw [hr] at hreach
    exact h.of_frame (Moves.frame hreach) (by simp) (by simp)
  | err => trivial
  | stuck => trivial
  | refused w t =>
    exfalso
    have hdir : ((s.openPin id).pin id).dir = .output := by
      rw [State.pin_openPin, if_pos rfl]; exact h.outputs id hid
    unfold pinWrite pinCheck at hr
    split at hr
    · split at hr
      · cases hr
      · next d _ =>
        simp only [Res.bind_ok, hdir, if_true] at hr
        split at hr
        · rcases writeLine_cases d v (s.openPin id) with ⟨_, u, hu, _⟩ | hu <;> rw [hu] at hr <;> cases hr
        · cases hr
    · cases hr

/-- A sample is never refused and owns no counter. -/
theorem pinRead_settles (h : s.Running c outs C) (id : PinId) : (pinRead id s).Settles (State.Running c outs C) := by
  have hreach := pinRead_reach id s
  cases hr : pinRead id s with
  | ok a t =>
    rw [hr] at hreach
    exact h.of_frame (Moves.frame hreach) (by simp) (by simp)
  | err => trivial
  | stuck => trivial
  | refused w t =>
    exfalso
    unfold pinRead pinCheck at hr
    split at hr
    · split at hr <;> cases hr
    · cases hr

theorem State.Running.delayed (h : s.Running c outs C) (n : Nat) : (s.delayed n).Running c outs C :=
  h.of_frame (Frame.emit [] s (.d n)) (by simp) (by simp)

/-- `SeqCheck` refuses before anything runs, and lets through where the roles have their directions (40_pin_layer.md R92). -/
theorem seqCheck_settles (hs : s.CountersIdle) (outs ins : List PinId) :
    (seqCheck outs ins s).Settles (State.Running s.cfg outs []) := by
  unfold seqCheck
  split
  · split
    · next hall =>
      simp only [Bool.and_eq_true, List.all_eq_true, beq_iff_eq] at hall
      exact ⟨rfl, hall.1, fun k _ => s.countersIdle_iff.mp hs k⟩
    · exact hs
  · trivial

end

/-! ### The parallel write sequencer -/

section
variable {c : Config} {C : List Counter} {s : State}

theorem Config.mem_busOuts (c : Config) :
    c.bus.cs ∈ c.busOuts ∧ c.bus.wr ∈ c.busOuts ∧ c.bus.rs ∈ c.busOuts ∧ (∀ p ∈ c.bus.db, p ∈ c.busOuts) ∧
      (c.hasRd = true → c.bus.rd ∈ c.busOuts) := by
  unfold Config.busOuts
  refine ⟨by simp, by simp, by simp, fun p hp => by simp [hp], fun h => by simp [h]⟩

theorem pinWrites_settles {outs : List PinId} (l : List (PinId × Level)) (h : s.Running c outs C)
    (hl : ∀ e ∈ l, e.1 ∈ outs) : (pinWrites l s).Settles (State.Running c outs C) := by
  induction l generalizing s with
  | nil => exact h
  | cons e l ih =>
    exact (pinWrite_settles h (hl e (by simp)) e.2).bind fun _ t ht => ih ht fun f hf => hl f (by simp [hf])

theorem driveData_settles (h : s.Running c c.busOuts C) (b : Byte) :
    (driveData b s).Settles (State.Running c c.busOuts C) := by
  refine pinWrites_settles _ h fun e he => ?_
  rw [h.cfg] at he
  exact (Config.mem_busOuts c).2.2.2.1 _ (List.of_mem_zip he).1

theorem wrPulse_settles (h : s.Running c c.busOuts C) : (wrPulse s).Settles (State.Running c c.busOuts C) := by
  have hwr : ∀ t : State, t.cfg = c → t.cfg.bus.wr ∈ c.busOuts := fun t ht => by rw [ht]; exact (Config.mem_busOuts c).2.1
  refine (pinWrite_settles h (hwr s h.cfg) false).bind fun _ t ht => ?_
  have ht' := ht.delayed t.cfg.tWrLow
  exact (pinWrite_settles ht' (hwr _ ht'.cfg) true).bind fun _ u hu => hu.delayed u.cfg.tWrHigh

/-- The next step of a transaction. -/
theorem State.Running.busStep {outs : List PinId} (h : s.Running c outs [.pstep, .pbyte]) (v : PStep) :
    ({ s with pstep := v } : State).Running c outs [.pstep, .pbyte] := h.pstep v (.inr (by simp)) (by simp)

theorem xferBytes_settles (l : List Byte) (j : Nat) (h : s.Running c c.busOuts [.pstep, .pbyte]) :
    (xferBytes j l s).Settles (State.Running c c.busOuts [.pstep, .pbyte]) := by
  induction l generalizing j s with
  | nil => exact h
  | cons b l ih =>
    have hbyte := h.pbyte (D := [.pstep, .pbyte]) (BitVec.ofNat 1 j) (.inr (by simp)) (by simp)
    refine (driveData_settles (hbyte.busStep .four) b).bind fun _ t ht => ?_
    exact (wrPulse_settles (ht.busStep .five)).bind fun _ u hu => ih (j + 1) hu

theorem deassertRead_settles (h : s.Running c c.busOuts C) :
    (deassertRead s).Settles (State.Running c c.busOuts C) := by
  unfold deassertRead
  split
  · next hr => exact pinWrite_settles h (by rw [h.cfg] at hr ⊢; exact (Config.mem_busOuts c).2.2.2.2 hr) true
  · exact h

/-- A transaction (41_parallel_bus.md R100): `PSTEP` and `PBYTE` run inside it and are idle after it. -/
theorem busXfer_settles (rs : Level) (l : List Byte) (hs : s.CountersIdle) :
    (busXfer rs l s).Settles State.CountersIdle := by
  obtain ⟨mcs, _, mrs, _⟩ := Config.mem_busOuts s.cfg
  refine (seqCheck_settles hs _ []).bind fun _ t h0 => ?_
  have h1 := h0.pstep (D := [.pstep, .pbyte]) .one (.inr (by simp)) (by simp)
  refine (pinWrite_settles h1 (by rw [h0.cfg]; exact mcs) false).bind fun _ t ht => ?_
  refine (deassertRead_settles (ht.busStep .two)).bind fun _ t ht => ?_
  refine (pinWrite_settles (ht.busStep .three) (by rw [ht.cfg]; exact mrs) rs).bind fun _ t ht => ?_
  refine (xferBytes_settles l 0 ht).bind fun _ t ht => ?_
  refine (pinWrite_settles (ht.busStep .six) (by rw [ht.cfg]; exact mcs) true).bind fun _ t ht => ?_
  exact ((ht.pstep (D := [.pbyte]) .idle (.inl rfl) (by simp)).pbyte (D := []) 0#1 (.inl rfl) (by simp)).countersIdle

end

/-! ### The serial shifter, the filter and the resolver -/

section
variable {c : Config} {C : List Counter} {s : State}

/-- A write to one of the shifter's outputs. -/
theorem serialWrite_settles (h : s.Running c c.serialOuts C) {id : PinId} (v : Level)
    (hid : id = s.cfg.ser.clk ∨ id = s.cfg.ser.din ∨ id = s.cfg.ser.tcs) :
    (pinWrite id v s).Settles (State.Running c c.serialOuts C) := by
  rw [h.cfg] at hid
  refine pinWrite_settles h ?_ v
  rcases hid with rfl | rfl | rfl <;> simp [Config.serialOuts]

theorem startFrame_settles (h : s.Running c c.serialOuts C) :
    (startFrame s).Settles (State.Running c c.serialOuts C) := by
  have h0 := h.sstep (D := .sstep :: C) .start (.inr (by simp)) (by simp +contextual)
  refine (serialWrite_settles h0 false (.inl rfl)).bind fun _ t ht => ?_
  refine (serialWrite_settles ht true (.inr (.inr rfl))).bind fun _ t ht => ?_
  refine (serialWrite_settles ht true (.inr (.inl rfl))).bind fun _ t ht => ?_
  refine (serialWrite_settles ht true (.inl rfl)).bind fun _ t ht => ?_
  refine (serialWrite_settles ht false (.inr (.inr rfl))).bind fun _ t ht => ?_
  exact ht.sstep .idle (.inl rfl) (by simp +contextual)

theorem shiftOutBits_settles (l : List Level) (j : Nat) (h : s.Running c c.serialOuts (.sbit :: C)) :
    (shiftOutBits j l s).Settles (State.Running c c.serialOuts (.sbit :: C)) := by
  induction l generalizing j s with
  | nil => exact h
  | cons v l ih =>
    have h0 := h.sbit (D := .sbit :: C) (BitVec.ofNat 4 j) (.inr (by simp)) (by simp)
    refine (serialWrite_settles h0 false (.inl rfl)).bind fun _ t ht => ?_
    refine (serialWrite_settles ht v (.inr (.inl rfl))).bind fun _ t ht => ?_
    exact (serialWrite_settles ht true (.inl rfl)).bind fun _ t ht => ih (j + 1) ht

theorem shiftOut_settles (h : s.Running c c.serialOuts C) (b : Byte) :
    (shiftOut b s).Settles (State.Running c c.serialOuts C) := by
  have h0 := h.sstep (D := .sbit :: .sstep :: C) .out (.inr (by simp)) (by simp +contextual)
  refine (shiftOutBits_settles _ 0 h0).bind fun _ t ht => ?_
  exact (ht.sstep (D := .sbit :: C) .idle (.inl rfl) (by simp +contextual)).sbit 0#4 (.inl rfl) (by simp +contextual)

/-- The accumulator is no counter. -/
theorem State.Running.acc (h : s.Running c c.serialOuts C) (a : Sample) :
    ({ s with acc := a } : State).Running c c.serialOuts C :=
  h.of_frame (Move.acc s a).frame (by simp) (by simp)

theorem shiftInBits_settles (n j : Nat) (h : s.Running c c.serialOuts (.sbit :: C)) :
    (shiftInBits j n s).Settles (State.Running c c.serialOuts (.sbit :: C)) := by
  induction n generalizing j s with
  | zero => exact h
  | succ n ih =>
    have h0 := h.sbit (D := .sbit :: C) (BitVec.ofNat 4 j) (.inr (by simp)) (by simp)
    refine (serialWrite_settles h0 false (.inl rfl)).bind fun _ t ht => ?_
    refine (serialWrite_settles ht true (.inl rfl)).bind fun _ t ht => ?_
    exact (pinRead_settles ht _).bind fun v t ht => ih (j + 1) (ht.acc _)

theorem shiftInto_settles (h : s.Running c c.serialOuts C) (n : Nat) :
    (shiftInto n s).Settles (State.Running c c.serialOuts C) := by
  have h0 := (h.sstep (D := .sbit :: .sstep :: C) .input (.inr (by simp)) (by simp +contextual)).acc 0#12
  refine (shiftInBits_settles n 0 h0).bind fun _ t ht => ?_
  exact (ht.sstep (D := .sbit :: C) .idle (.inl rfl) (by simp +contextual)).sbit 0#4 (.inl rfl) (by simp +contextual)

theorem readChannel_settles (h : s.Running c c.serialOuts C) (b : Byte) :
    (readChannel b s).Settles (State.Running c c.serialOuts C) := by
  refine (startFrame_settles h).bind fun _ t ht => ?_
  refine (shiftOut_settles ht b).bind fun _ t ht => ?_
  have h1 := (ht.sstep (D := .sstep :: C) .settle (.inr (by simp)) (by simp +contextual)).delayed t.cfg.tAdcSettle
  refine (shiftInto_settles h1 _).bind fun v t ht => ?_
  have h2 := ht.sstep (D := .sstep :: C) .deselect (.inr (by simp)) (by simp +contextual)
  refine (serialWrite_settles h2 true (.inr (.inr rfl))).bind fun _ t ht => ?_
  exact ht.sstep .idle (.inl rfl) (by simp +contextual)

theorem fillSamples_settles (b : Byte) (n i : Nat) (h : s.Running c c.serialOuts (.scnt :: C)) :
    (fillSamples b i n s).Settles (State.Running c c.serialOuts (.scnt :: C)) := by
  induction n generalizing i s with
  | zero => exact h
  | succ n ih =>
    have h0 := h.scnt (D := .scnt :: C) (BitVec.ofNat 8 i) (.inr (by simp)) (by simp)
    refine (readChannel_settles h0 b).bind fun v t ht => ih (i + 1) ?_
    exact ht.of_frame (Move.filter t (t.storeSample i v).sb t.fr).frame (by simp) (by simp)

theorem filterChannel_settles (h : s.Running c c.serialOuts C) (b : Byte) :
    (filterChannel b s).Settles (State.Running c c.serialOuts C) := by
  refine (fillSamples_settles b _ 0 (h.of_same (D := .scnt :: C) rfl (fun _ => rfl) fun k hk hs => hs ?_)).bind
    fun _ t ht => ?_
  · exact fun hkC => hk (by simp [hkC])
  · have h0 := ht.of_frame (Move.filter t ({ t with scnt := BitVec.ofNat 8 s.cfg.window } : State).rank.sb
      ({ t with scnt := BitVec.ofNat 8 s.cfg.window } : State).rank.fr).frame (by simp) (by simp)
    exact h0.scnt 0#8 (.inl rfl) (by simp +contextual)

theorem filterCheck_settles (hs : s.CountersIdle) :
    (filterCheck s).Settles (State.Running s.cfg s.cfg.serialOuts []) := by
  unfold filterCheck
  split
  · exact hs
  · exact seqCheck_settles hs _ _

/-- The registers of the resolver are no counters; `RPASS` runs. -/
theorem State.Running.pass (h : s.Running c c.serialOuts [.rpass]) (x1 y1 x2 y2 : Reading) (n : BitVec 2) :
    ({ s with x1 := x1, y1 := y1, x2 := x2, y2 := y2, rpass := n } : State).Running c c.serialOuts [.rpass] :=
  (h.of_frame (Move.resolver s x1 y1 x2 y2 s.coord).frame (by simp) (by simp)).rpass n (.inr (by simp)) (by simp)

theorem readPasses_settles (h : s.Running c c.serialOuts []) :
    (readPasses s).Settles (State.Running c c.serialOuts []) := by
  have h0 := h.rpass (D := [.rpass]) 0#2 (.inr (by simp)) (by simp)
  refine (filterChannel_settles h0 _).bind fun r t ht => ?_
  refine (filterChannel_settles (ht.pass r t.y1 t.x2 t.y2 1#2) _).bind fun r t ht => ?_
  refine (filterChannel_settles (ht.pass t.x1 r t.x2 t.y2 2#2) _).bind fun r t ht => ?_
  refine (filterChannel_settles (ht.pass t.x1 t.y1 r t.y2 3#2) _).bind fun r t ht => ?_
  exact (ht.pass t.x1 t.y1 t.x2 r 0#2).rpass 0#2 (.inl rfl) (by simp)

theorem resolveReadings_settles (h : s.CountersIdle) : (resolveReadings s).Settles State.CountersIdle :=
  (resolveReadings_reach s).settles (by simp) h

end

/-! ### The pin layer -/

section
variable {s : State}

theorem TablesOnly.countersIdle {s t : State} (h : TablesOnly s t) (hs : s.CountersIdle) : t.CountersIdle := by
  rw [h]; exact ⟨hs.pstep, hs.pbyte, hs.sstep, hs.sbit, hs.scnt, hs.rpass⟩

theorem pinCheck_settles (hs : s.CountersIdle) (pin : PinId) : (pinCheck pin s).Settles State.CountersIdle :=
  (pinCheck_reach pin s).settles (by simp) hs

theorem setDirection_settles (hs : s.CountersIdle) (d : PinDescriptor) (dir : IoDir) :
    (setDirection d dir s).Settles State.CountersIdle := by
  rcases setDirection_cases d dir s with ⟨_, t, ht, hr, _⟩ | ⟨_, ht⟩ <;> rw [ht]
  · exact TablesOnly.countersIdle hr.rest hs
  · trivial

theorem pullSequence_settles (hs : s.CountersIdle) (d : PinDescriptor) (m : PullMode) :
    (pullSequence d m s).Settles State.CountersIdle := by
  rcases pullSequence_cases d m s with ⟨_, t, ht, hr, _⟩ | ⟨_, ht⟩ <;> rw [ht]
  · exact TablesOnly.countersIdle hr.rest ⟨hs.pstep, hs.pbyte, hs.sstep, hs.sbit, hs.scnt, hs.rpass⟩
  · trivial

theorem pollUntil_settles (hs : s.CountersIdle) {d : PinDescriptor} (x : Level) (hd : Pollable d s) :
    (pollUntil d x s).Settles fun t => t.CountersIdle ∧ Pollable d t := by
  obtain ⟨hreach, hpoll⟩ := pollUntil_reach x hd
  cases hr : pollUntil d x s with
  | ok a t => rw [hr] at hreach; exact ⟨Moves.countersIdle hreach (by simp) hs, hpoll t hr⟩
  | err => trivial
  | refused w t => rw [hr] at hreach; exact Moves.countersIdle hreach (by simp) hs
  | stuck => trivial

end

/-! ### Every operation -/

theorem execSysinit_countersIdle {s t : State} (hs : s.CountersIdle) (h : leftState (execSysinit s) = some t) :
    t.CountersIdle := by
  have same : s.CountersIdle → ∀ a b o, ({ s with initTried := a, initialized := b, outcome := o } : State).CountersIdle :=
    fun ⟨h1, h2, h3, h4, h5, h6⟩ _ _ _ => ⟨h1, h2, h3, h4, h5, h6⟩
  simp only [execSysinit, leftState, Option.some.injEq] at h
  subst h
  split
  · split
    · exact same hs _ _ _
    · exact ⟨rfl, rfl, rfl, rfl, rfl, rfl⟩
  · split
    · exact same hs _ _ _
    · exact ⟨rfl, rfl, rfl, rfl, rfl, rfl⟩

/-- Every operation, however it ends, leaves the counters idle (10_state.md R20). -/
theorem exec_countersIdle {i : Instr} {s t : State} (hs : s.CountersIdle) (h : leftState (exec i s) = some t) :
    t.CountersIdle := by
  cases i with
  | sysinit => exact execSysinit_countersIdle hs h
  | pindir pin dir =>
    refine finishUnit_countersIdle ((pinCheck_settles hs pin).bind fun d u hu => ?_) h
    split
    · exact setDirection_settles hu d dir
    · trivial
  | pinwr pin v => exact finishUnit_countersIdle ((pinWrite_reach pin v s).settles (by simp) hs) h
  | pinrd pin =>
    refine finish_countersIdle (((pinRead_reach pin s).settles (by simp) hs).bind fun _ _ hu => ?_) h
    exact hu
  | pinpull pin m =>
    refine finishUnit_countersIdle ((pinCheck_settles hs pin).bind fun d u hu => ?_) h
    split
    · split
      · exact pullSequence_settles hu d m
      · exact hu
    · trivial
  | pintpulse pin x =>
    refine finish_countersIdle ((pinCheck_settles hs pin).bind_eq fun d u hd hu => ?_) h
    obtain ⟨hi, hfind, rfl, hid⟩ := pinCheck_eq_ok hd
    have hpoll : Pollable d (s.openPin pin) := ⟨by rw [State.openPin_initialized]; exact hi, by simp [hid, hfind]⟩
    refine (pollUntil_settles hu _ hpoll).bind fun _ u hu => ?_
    refine (pollUntil_settles hu.1 _ hu.2).bind fun _ u hu => ?_
    exact (pollUntil_settles hu.1 _ hu.2).bind fun _ u hu => hu.1
  | pinclose pin =>
    refine finishUnit_countersIdle ?_ h
    split
    · split
      · trivial
      · exact TablesOnly.countersIdle (by unfold TablesOnly; rw [State.closePin_eq]) hs
    · trivial
  | pinwatch pin =>
    refine finishUnit_countersIdle ((pinCheck_settles hs pin).bind fun _ u hu => ?_) h
    split
    · exact hu
    · trivial
  | wrcmd b => exact finishUnit_countersIdle (busXfer_settles _ _ hs) h
  | wrdat8 b => exact finishUnit_countersIdle (busXfer_settles _ _ hs) h
  | wrdat16 w => exact finishUnit_countersIdle (busXfer_settles _ _ hs) h
  | rstpulse =>
    refine finishUnit_countersIdle ?_ h
    split
    · refine (seqCheck_settles hs [s.cfg.bus.rst] []).bind fun _ t ht => ?_
      refine (pinWrite_settles ht (by simp [ht.cfg]) false).bind fun _ t ht => ?_
      have hd := ht.delayed t.cfg.tRstLow
      refine (pinWrite_settles hd (by simp [ht.cfg]) true).bind fun _ t ht => ?_
      exact (ht.delayed t.cfg.tRstSettle).countersIdle
    · exact hs
  | delay n =>
    exact finishUnit_countersIdle (r := .ok () (s.delayed (microseconds n)))
      ⟨hs.pstep, hs.pbyte, hs.sstep, hs.sbit, hs.scnt, hs.rpass⟩ h
  | sstart =>
    refine finishUnit_countersIdle ((seqCheck_settles hs _ _).bind fun _ u hu => ?_) h
    exact (startFrame_settles hu).imp fun _ ht => ht.countersIdle
  | shout b =>
    refine finishUnit_countersIdle ((seqCheck_settles hs _ _).bind fun _ u hu => ?_) h
    exact (shiftOut_settles hu b).imp fun _ ht => ht.countersIdle
  | shin n =>
    refine finish_countersIdle ?_ h
    split
    · refine (seqCheck_settles hs _ _).bind fun _ u hu => ?_
      exact (shiftInto_settles hu n).bind fun _ _ ht => ht.countersIdle
    · exact hs
  | rdch b =>
    refine finish_countersIdle ((seqCheck_settles hs _ _).bind fun _ u hu => ?_) h
    exact (readChannel_settles hu b).bind fun _ _ ht => ht.countersIdle
  | filt b =>
    refine finish_countersIdle ((filterCheck_settles hs).bind fun _ u hu => ?_) h
    exact (filterChannel_settles hu b).bind fun _ _ ht => ht.countersIdle
  | resolve =>
    refine finish_countersIdle ((filterCheck_settles hs).bind fun _ u hu => ?_) h
    exact (readPasses_settles hu).bind fun _ _ ht => resolveReadings_settles ht.countersIdle

/-! ### The invariant -/

theorem exec_keeps_inv {i : Instr} {s t : State} (hs : s.Inv) (h : leftState (exec i s) = some t) : t.Inv where
  sound := (exec_moves i h).keeps hs.sound fun _ _ _ _ m => m.sound
  idle := exec_countersIdle hs.idle h
  locks b := by rw [(exec_frame h).locks b]; exact hs.locks b
  pulls := (exec_moves i h).keeps (P := State.PullsCleared) hs.pulls fun _ _ _ _ m => m.pullsCleared

/-- The command port and the outcome are no part of the invariant. -/
theorem State.Inv.of_port {s : State} (hs : s.Inv) (p : List Word) (o : Option OpOutcome) :
    ({ s with port := p, outcome := o } : State).Inv := by
  obtain ⟨hsound, ⟨h1, h2, h3, h4, h5, h6⟩, hlocks, hpulls⟩ := hs
  obtain ⟨k1, k2, k3, k4, k5, k6, k7, k8, k9⟩ := hsound
  exact ⟨⟨k1, k2, k3, k4, k5, k6, k7, k8, k9⟩, ⟨h1, h2, h3, h4, h5, h6⟩, hlocks, hpulls⟩

/-- Settles O13: the registers stay sound by `Move.sound`, the counters by `exec_countersIdle`, the locks by the frame. -/
theorem stepKeepsInvariant : Obligations.StepKeepsInvariant := by
  intro s t hs h
  have hl : leftState (step s) = some t := by
    rcases h with h | ⟨_, h⟩ <;> rw [h] <;> rfl
  rcases step_cases hl with rfl | ⟨_, _, rfl⟩ | ⟨i, hi⟩
  · exact hs
  · exact hs.of_port _ _
  · exact exec_keeps_inv (hs.of_port s.port.tail s.outcome) hi

end Sys2Proof.Machine
end

section
/-! PINRD (40_pin_layer.md R85): what it reads and leaves (O32), and the round trip through PINDIR and PINWR (O33). -/

namespace Sys2Proof.Machine

/-! ### What a line shows -/

/-- Opening a pin changes no line (10_state.md R13). -/
theorem State.driven_openPin (s : State) (id : PinId) (d : PinDescriptor) : (s.openPin id).driven d = s.driven d := by
  have hdir : ((s.openPin id).pin d.id).dir = (s.pin d.id).dir := by
    rw [State.pin_openPin]; split
    · next h => rw [h]
    · rfl
  simp [State.driven, hdir]

theorem State.inLevel_openPin (s : State) (id : PinId) (d : PinDescriptor) : (s.openPin id).inLevel d = s.inLevel d := by
  rw [State.inLevel_eq, State.inLevel_eq, State.driven_openPin, State.openPin_eq]; rfl

/-- A line is driven where its pin is an output that has been written. -/
theorem State.driven_eq_some {s : State} {d : PinDescriptor} {x : Level} (ho : (s.pin d.id).dir = .output)
    (hx : s.latch d.bank d.bit = some x) : s.driven d = some x := by
  rw [State.driven, if_pos ho, hx]

theorem State.driven_eq_none {s : State} {d : PinDescriptor}
    (h : (s.pin d.id).dir ≠ .output ∨ s.latch d.bank d.bit = none) : s.driven d = none := by
  unfold State.driven
  split
  · next ho => exact h.resolve_left (not_not.mpr ho)
  · rfl

/-- A sample uses up a level of the outside where the block does not drive the line itself. -/
theorem State.sampled_levels (s : State) (d : PinDescriptor) :
    (s.sampled d).levels = if (s.driven d).isSome then s.levels else s.levels.tail := by
  unfold State.sampled; split <;> rfl

theorem State.sampled_banks (s : State) (d : PinDescriptor) : (s.sampled d).banks = s.banks := by
  unfold State.sampled; split <;> rfl

theorem State.sampled_accesses (s : State) (d : PinDescriptor) :
    (s.sampled d).accesses = s.accesses ++ [.read d.bank .level] := by
  unfold State.sampled; split <;> rfl

/-- In the word that LEVEL returns, every written output of the bank shows its latch, whatever line is sampled (20_memory.md R42).
The line at a bit of the bank is that of one pin only. -/
theorem State.levelWord_of_driven {s : State} (hc : s.cfg.wellFormed = true) {id id' : PinId} {d e : PinDescriptor}
    (hd : s.cfg.find id = some d) (he : s.cfg.find id' = some e) (hbank : e.bank = d.bank) {x : Level}
    (hx : s.driven e = some x) : (s.levelWord d).getLsbD e.bit = x := by
  rw [State.levelWord_getLsbD _ _ _ e.bit.isLt, State.inBit]
  split
  · next hbit =>
    have hid := Config.find_inj hc he hd hbank hbit
    rw [hid, hd, Option.some.injEq] at he
    rw [he, hx]; rfl
  · rw [← hbank, Config.pinAt_of_find hc he, Option.bind_some, hx]; rfl

/-- The register of an input role is what a sample of its pin would give now (10_state.md R21). -/
theorem State.roleLine_of_input {s : State} {r : Role} {id : PinId} {d : PinDescriptor} (hr : rolePin s.cfg r = some id)
    (hi : r.isInput = true) (hd : s.cfg.find id = some d) : s.roleLine r = some (s.inLevel d) := by
  simp [State.roleLine, hr, hi, hd]

/-! ### PINRD -/

theorem pinRead_eq {s : State} {pin : PinId} {d : PinDescriptor} (hi : s.initialized = true)
    (hd : s.cfg.find pin = some d) : pinRead pin s = .ok (s.inLevel d) ((s.openPin pin).sampled d) := by
  rw [pinRead, pinCheck_ok hi hd, ← State.inLevel_openPin s pin d]; rfl

/-- The state that PINRD leaves. -/
theorem execPinrd_eq {s : State} {pin : PinId} {d : PinDescriptor} (hi : s.initialized = true)
    (hd : s.cfg.find pin = some d) :
    exec (.pinrd pin) s = .next (((s.openPin pin).sampled d).succeed (.level (s.inLevel d))) := by
  show execPinrd pin s = _
  rw [execPinrd, pinRead_eq hi hd]; rfl

/-- Its one event, and the registers it leaves alone: `pinRead_ok` about that state. -/
theorem openPin_sampled_spec {s : State} {pin : PinId} {d : PinDescriptor} (hi : s.initialized = true)
    (hd : s.cfg.find pin = some d) : RanEvents [.r pin (s.inLevel d)] [pin] s ((s.openPin pin).sampled d) ∧
      QuietButLevels s ((s.openPin pin).sampled d) := by
  obtain ⟨v, t, ht, hran, hquiet⟩ := pinRead_ok hi (by rw [hd]; rfl)
  rw [pinRead_eq hi hd] at ht
  cases ht
  exact ⟨hran, hquiet⟩

/-- Handing out the outcome is no part of a run. -/
theorem RanEvents.succeed {e : List Event} {p : List PinId} {s t : State} (h : RanEvents e p s t) (v : Value) :
    RanEvents e p s (t.succeed v) :=
  h.quietly (RanEvents.of_same rfl rfl rfl rfl rfl rfl rfl rfl rfl)

/-- Settles O32: the state PINRD leaves is known (`execPinrd_eq`); its level is the bit of LEVEL it masks. -/
theorem pinrdRuns : Obligations.PinrdRuns := by
  intro s pin d hi hd
  have hid := Config.find_id hd
  obtain ⟨hran, _, hwork, hcounters⟩ := openPin_sampled_spec hi hd
  have hlevels : ((s.openPin pin).sampled d).levels = if (s.driven d).isSome then s.levels else s.levels.tail := by
    rw [State.sampled_levels, State.driven_openPin, State.openPin_eq]
  refine ⟨s.inLevel d, _, execPinrd_eq hi hd, rfl, hran.succeed _, ?_, ?_, ?_, ?_, fun x ho hx => ?_, fun x l hu hl => ?_,
    (State.levelWord_mask s d).symm, fun r hr hin => State.roleLine_of_input hr hin hd,
    fun hc id e x he hbank ho hx => State.levelWord_of_driven hc hd he hbank (State.driven_eq_some ?_ hx)⟩
  · rw [State.succeed_banks, State.sampled_banks, State.openPin_eq]
  · exact ⟨hwork.acc, hwork.sb, hwork.fr, hwork.x1, hwork.y1, hwork.x2, hwork.y2, hwork.coord⟩
  · exact ⟨hcounters.pstep, hcounters.pbyte, hcounters.sstep, hcounters.sbit, hcounters.scnt, hcounters.rpass⟩
  · rw [State.succeed_accesses, State.sampled_accesses, State.openPin_eq]
  · have hdriven := State.driven_eq_some (by rw [hid]; exact ho) hx
    exact ⟨by rw [State.inLevel_eq, hdriven]; rfl, by rw [State.succeed_levels, hlevels, hdriven]; rfl⟩
  · have hdriven := State.driven_eq_none (d := d) (by rw [hid]; exact hu)
    exact ⟨by rw [State.inLevel_eq, hdriven]; exact State.nextLevel_supplied s x l hl,
      by rw [State.succeed_levels, hlevels, hdriven, hl]; rfl⟩
  · rw [Config.find_id he]; exact ho

/-! ### The round trip -/

/-- PINDIR with `Out` on a registered pin whose registers are writable leaves a pin that can be driven. -/
theorem execPindir_drivable {s : State} {pin : PinId} {d : PinDescriptor} (hi : s.initialized = true)
    (hd : s.cfg.find pin = some d) (hdir : (s.cfg.writableOf pin).dir = true) (hlevel : (s.cfg.writableOf pin).level = true)
    (hlock : (s.bank d.bank).lock = .free) :
    ∃ t, exec (.pindir pin .output) s = .next t ∧ t.cfg = s.cfg ∧ t.drivable pin = true := by
  rcases setDirection_cases d .output (s.openPin pin) with ⟨_, t, ht, hr, _⟩ | ⟨hheld, _⟩
  · have hcfg : t.cfg = s.cfg := by rw [hr.rest, State.openPin_cfg]
    have hinit : t.initialized = true := by rw [hr.rest, State.openPin_initialized]; exact hi
    have hout : (t.pin pin).dir = .output := by rw [hr.pin, if_pos (Config.find_id hd).symm]; rfl
    have hfree : (t.bank d.bank).lock = .free := by rw [hr.bank, if_pos rfl]; rfl
    refine ⟨t.succeed .nothing, ?_, hcfg, ?_⟩
    · show execPindir pin .output s = _
      simp [execPindir, pinCheck_ok hi hd, hdir, ht]
    · show t.drivable pin = true
      simp [State.drivable, State.lockFree, hinit, hcfg, hd, hout, hlevel, hfree]
  · rw [State.bank_openPin, hlock] at hheld; cases hheld

/-- PINWR to a pin that can be driven leaves the level in its latch. -/
theorem execPinwr_latch {s : State} {pin : PinId} {d : PinDescriptor} (v : Level) (h : s.drivable pin = true)
    (hd : s.cfg.find pin = some d) :
    ∃ t, exec (.pinwr pin v) s = .next t ∧ RanEvents [.w pin v] [pin] s t ∧ t.latch d.bank d.bit = some v := by
  obtain ⟨t, ht, hran, _⟩ := pinWrite_ok v h
  refine ⟨t.succeed .nothing, ?_, hran.succeed _, ?_⟩
  · show finishUnit (pinWrite pin v s) = _
    rw [ht, finishUnit_ok]
  · rw [(hran.succeed .nothing).latches]
    simp [latchAfter, hd]

/-- Settles O33: PINDIR makes the pin drivable, PINWR sets its latch, and PINRD reads the latch of a written output (O32). -/
theorem writeReadRoundTrip : Obligations.WriteReadRoundTrip := by
  intro s pin d v hi hd hdir hlevel hlock
  obtain ⟨t, ht, hcfg, hdrivable⟩ := execPindir_drivable hi hd hdir hlevel hlock
  obtain ⟨hti, _, hout, _⟩ := State.drivable_spec hdrivable
  obtain ⟨u, hu, hran, hlatch⟩ := execPinwr_latch v hdrivable (by rw [hcfg]; exact hd)
  obtain ⟨x, r, hr, houtcome, _, _, _, _, _, hwritten, _⟩ := pinrdRuns u pin d (by rw [hran.initialized]; exact hti)
    (by rw [hran.inputs.cfg, hcfg]; exact hd)
  obtain ⟨rfl, _⟩ := hwritten v (by rw [hran.dir]; exact hout) hlatch
  exact ⟨t, u, r, ht, hu, hr, houtcome⟩

end Sys2Proof.Machine
end

section
/-! The accumulator and the registers of the filter and the resolver are written before they are read (10_state.md R22 to R25,
43_filter_resolve.md R149). Two runs that start with different values in them go on alike; `Res.Alike P` says so, with what the two
sets of values have in common (`P`). With that, O19. -/

namespace Sys2Proof.Machine

/-! ### The work registers apart from the rest -/

/-- `ACC`, `SB`, `FR`, `X1` to `Y2` and `COORD`. -/
structure Work where
  acc : Sample
  sb : List Sample
  fr : Reading
  x1 : Reading
  y1 : Reading
  x2 : Reading
  y2 : Reading
  coord : Coord

def State.work (s : State) : Work := ⟨s.acc, s.sb, s.fr, s.x1, s.y1, s.x2, s.y2, s.coord⟩

def State.withWork (s : State) (w : Work) : State :=
  { s with acc := w.acc, sb := w.sb, fr := w.fr, x1 := w.x1, y1 := w.y1, x2 := w.x2, y2 := w.y2, coord := w.coord }

section
variable (s : State) (w : Work)

theorem State.withWork_work : s.withWork s.work = s := rfl
theorem State.work_withWork : (s.withWork w).work = w := rfl
@[simp] theorem State.withWork_cfg : (s.withWork w).cfg = s.cfg := rfl
@[simp] theorem State.withWork_initialized : (s.withWork w).initialized = s.initialized := rfl
@[simp] theorem State.withWork_levels : (s.withWork w).levels = s.levels := rfl
@[simp] theorem State.withWork_draws : (s.withWork w).draws = s.draws := rfl
@[simp] theorem State.withWork_pin (id : PinId) : (s.withWork w).pin id = s.pin id := rfl
@[simp] theorem State.withWork_bank (b : Nat) : (s.withWork w).bank b = s.bank b := rfl
@[simp] theorem State.withWork_driven (d : PinDescriptor) : (s.withWork w).driven d = s.driven d := rfl
@[simp] theorem State.withWork_inLevel (d : PinDescriptor) : (s.withWork w).inLevel d = s.inLevel d := rfl

@[simp] theorem State.withWork_locked (b : Nat) : (s.withWork w).locked b = (s.locked b).withWork w := rfl
@[simp] theorem State.withWork_setPin (id : PinId) (p : PinState) :
    (s.withWork w).setPin id p = (s.setPin id p).withWork w := rfl
@[simp] theorem State.withWork_memRead (b : Nat) (r : BankReg) :
    (s.withWork w).memRead b r = (s.memRead b r).withWork w := rfl
@[simp] theorem State.withWork_memWrite (b : Nat) (r : BankReg) (v : Word) :
    (s.withWork w).memWrite b r v = (s.memWrite b r v).withWork w := rfl
@[simp] theorem State.withWork_release (b : Nat) : (s.withWork w).release b = (s.release b).withWork w := rfl
@[simp] theorem State.withWork_delayed (n : Nat) : (s.withWork w).delayed n = (s.delayed n).withWork w := rfl
@[simp] theorem State.withWork_setPull (b k : Nat) (m : Pull) :
    (s.withWork w).setPull b k m = (s.setPull b k m).withWork w := rfl

@[simp] theorem State.withWork_openPin (id : PinId) : (s.withWork w).openPin id = (s.openPin id).withWork w := by
  unfold State.openPin
  rw [State.withWork_pin]; split <;> rfl

@[simp] theorem State.withWork_closePin (id : PinId) : (s.withWork w).closePin id = (s.closePin id).withWork w := by
  unfold State.closePin
  rw [State.withWork_pin]; split <;> rfl

@[simp] theorem State.withWork_sampled (d : PinDescriptor) : (s.withWork w).sampled d = (s.sampled d).withWork w := by
  unfold State.sampled
  rw [State.withWork_driven]; split <;> rfl

end

theorem sameButWork_iff (s t : State) : SameButWork s t ↔ t = s.withWork t.work := Iff.rfl

/-! ### Operations that do not look at them -/

/-- The state an operation stands in, changed. -/
def Res.mapState {α : Type} (φ : State → State) : Res α → Res α
  | .ok a t => .ok a (φ t)
  | .err e i t => .err e i (φ t)
  | .refused r t => .refused r (φ t)
  | .stuck f => .stuck f

theorem Res.mapState_ite {α : Type} (φ : State → State) (p : Prop) [Decidable p] (a b : Res α) :
    (if p then a else b).mapState φ = if p then a.mapState φ else b.mapState φ := apply_ite _ _ _ _

/-- The operation neither reads nor writes a work register. -/
def WorkBlind {α : Type} (f : State → Res α) : Prop := ∀ s w, f (s.withWork w) = (f s).mapState (·.withWork w)

theorem WorkBlind.bind {α β : Type} {f : State → Res α} {g : α → State → Res β} (hf : WorkBlind f)
    (hg : ∀ a, WorkBlind (g a)) : WorkBlind fun s => (f s).bind (g · ·) := by
  intro s w
  show (f (s.withWork w)).bind _ = ((f s).bind _).mapState _
  rw [hf]
  cases f s with
  | ok a t => exact hg a t w
  | err => rfl
  | refused => rfl
  | stuck => rfl

theorem pinCheck_workBlind (id : PinId) : WorkBlind (pinCheck id) := by
  intro s w
  unfold pinCheck
  rw [State.withWork_initialized, State.withWork_cfg, State.withWork_openPin]
  split
  · cases s.cfg.find id <;> rfl
  · rfl

theorem acquire_workBlind (b : Nat) : WorkBlind (acquire b) := by
  intro s w
  unfold acquire
  rw [State.withWork_bank]
  cases (s.bank b).lock <;> rfl

theorem writeLine_workBlind (d : PinDescriptor) (v : Level) : WorkBlind (writeLine d v) := by
  intro s w
  unfold writeLine
  rw [State.withWork_cfg]
  cases s.cfg.writeStyle with
  | setClear => rfl
  | singleData => exact (acquire_workBlind d.bank).bind (fun _ _ _ => rfl) s w

theorem pinWrite_workBlind (id : PinId) (v : Level) : WorkBlind (pinWrite id v) := by
  refine (pinCheck_workBlind id).bind fun d s w => ?_
  by_cases hw : (s.cfg.writableOf id).level = true
  · by_cases ho : (s.pin id).dir = .output
    · simp only [State.withWork_cfg, State.withWork_pin, hw, ho, if_true]
      exact (writeLine_workBlind d v).bind (fun _ _ _ => rfl) s w
    · simp [hw, ho, Res.mapState]
  · simp [hw, Res.mapState]

theorem pinRead_workBlind (id : PinId) : WorkBlind (pinRead id) := by
  refine (pinCheck_workBlind id).bind fun d s w => ?_
  rw [State.withWork_sampled]; rfl

theorem seqCheck_workBlind (outs ins : List PinId) : WorkBlind (seqCheck outs ins) := by
  intro s w
  unfold seqCheck
  rw [Res.mapState_ite, Res.mapState_ite]; rfl

theorem setDirection_workBlind (d : PinDescriptor) (dir : IoDir) : WorkBlind (setDirection d dir) := by
  intro s w
  cases hl : (s.bank d.bank).lock with
  | held => simp [setDirection, acquire, hl, Res.mapState]
  | free =>
    rw [setDirection_free dir hl, setDirection_free dir (s := s.withWork w) hl]
    simp [State.directionSet, Res.mapState]

theorem pullSequence_workBlind (d : PinDescriptor) (m : PullMode) : WorkBlind (pullSequence d m) := by
  intro s w
  cases hl : (s.bank d.bank).lock with
  | held => simp [pullSequence, acquire, hl, Res.mapState]
  | free =>
    rw [pullSequence_free m hl, pullSequence_free m (s := s.withWork w) hl]
    simp [State.pullSet, Res.mapState]

theorem pollSupplied_withWork (d : PinDescriptor) (x : Level) (n : Nat) (s : State) (w : Work) :
    pollSupplied d x n (s.withWork w) = ((pollSupplied d x n s).1, (pollSupplied d x n s).2.withWork w) := by
  induction n generalizing s with
  | zero => rfl
  | succ n ih =>
    simp only [pollSupplied, State.withWork_inLevel, State.withWork_sampled, ih]
    split <;> rfl

theorem pollRepeat_withWork (d : PinDescriptor) (v : Level) (n : Nat) (s : State) (w : Work) :
    pollRepeat d v n (s.withWork w) = (pollRepeat d v n s).withWork w := by
  induction n generalizing s with
  | zero => rfl
  | succ n ih => exact ih (s.sampledAs d v)

theorem pollUntil_workBlind (d : PinDescriptor) (x : Level) : WorkBlind (pollUntil d x) := by
  intro s w
  unfold pollUntil
  rw [State.withWork_driven, State.withWork_levels, pollSupplied_withWork]
  cases s.driven d with
  | some v =>
    by_cases hv : v = x <;> simp [hv, Res.mapState]
  | none =>
    obtain ⟨found, t⟩ := pollSupplied d x s.levels.length s
    cases found with
    | true => rfl
    | false =>
      simp only [State.withWork_draws]
      cases Config.freePolls t.draws with
      | none => rfl
      | some n =>
        have h := pollRepeat_withWork d (!x) n { t with draws := t.draws + 1 } w
        show Res.ok () ((pollRepeat d (!x) n (({ t with draws := t.draws + 1 } : State).withWork w)).sampledAs d x) = _
        rw [h]; rfl

/-! ### Two runs side by side -/

/-- The same end in the same state but for the work registers; where the operations go on, `P` relates these. -/
inductive Res.Alike {α : Type} (P : Work → Work → Prop) : Res α → Res α → Prop
  | ok (a : α) (t : State) (w : Work) (h : P t.work w) : Res.Alike P (.ok a t) (.ok a (t.withWork w))
  | err (e : ErrorKind) (i : Option PinId) (t : State) (w : Work) : Res.Alike P (.err e i t) (.err e i (t.withWork w))
  | refused (r : RefusalReason) (t : State) (w : Work) : Res.Alike P (.refused r t) (.refused r (t.withWork w))
  | stuck (f : Fault) : Res.Alike P (.stuck f) (.stuck f)

theorem Res.Alike.bind_eq {α β : Type} {P Q : Work → Work → Prop} {r r' : Res α} {f f' : α → State → Res β}
    (h : Res.Alike P r r') (g : ∀ a t w, r = .ok a t → P t.work w → Res.Alike Q (f a t) (f' a (t.withWork w))) :
    Res.Alike Q (r.bind f) (r'.bind f') := by
  cases h with
  | ok a t w h => exact g a t w rfl h
  | err e i t w => exact .err e i t w
  | refused r t w => exact .refused r t w
  | stuck f => exact .stuck f

theorem Res.Alike.bind {α β : Type} {P Q : Work → Work → Prop} {r r' : Res α} {f f' : α → State → Res β}
    (h : Res.Alike P r r') (g : ∀ a t w, P t.work w → Res.Alike Q (f a t) (f' a (t.withWork w))) :
    Res.Alike Q (r.bind f) (r'.bind f') := h.bind_eq fun a t w _ => g a t w

/-- An operation blind to the work registers runs alike, and keeps what they have in common. -/
theorem WorkBlind.alike {α : Type} {f : State → Res α} (hf : WorkBlind f) {P : Work → Work → Prop} {s : State} {w : Work}
    (h : P s.work w) : Res.Alike P (f s) (f (s.withWork w)) := by
  have hs : f s = (f s).mapState (·.withWork s.work) := by rw [← hf, State.withWork_work]
  rw [hf]
  cases hr : f s with
  | ok a t =>
    have ht : t = t.withWork s.work := by rw [hr] at hs; exact (Res.ok.inj hs).2
    refine .ok a t w ?_
    rw [ht, State.work_withWork]; exact h
  | err e i t => exact .err e i t w
  | refused r t => exact .refused r t w
  | stuck f => exact .stuck f

/-- What the host sees of two runs alike. -/
theorem finish_alike {P : Work → Work → Prop} {r r' : Res Value} (h : Res.Alike P r r') {t : State}
    (ht : leftState (finish r) = some t) : ∃ t', leftState (finish r') = some t' ∧ SameButWork t t' := by
  cases h with
  | ok a u w _ => cases ht; exact ⟨_, rfl, rfl⟩
  | err e i u w => cases ht; exact ⟨_, rfl, rfl⟩
  | refused r u w => cases ht; exact ⟨_, rfl, rfl⟩
  | stuck f => cases ht

theorem finishUnit_alike {P : Work → Work → Prop} {r r' : Res Unit} (h : Res.Alike P r r') {t : State}
    (ht : leftState (finishUnit r) = some t) : ∃ t', leftState (finishUnit r') = some t' ∧ SameButWork t t' :=
  finish_alike (P := P) (h.bind fun _ u w hw => .ok Value.nothing u w hw) ht

/-! ### The parallel write sequencer -/

section
variable {P : Work → Work → Prop} {s : State} {w : Work}

theorem pinWrite_alike (h : P s.work w) (id : PinId) (v : Level) :
    Res.Alike P (pinWrite id v s) (pinWrite id v (s.withWork w)) := (pinWrite_workBlind id v).alike h

theorem pinWrites_alike (l : List (PinId × Level)) (h : P s.work w) :
    Res.Alike P (pinWrites l s) (pinWrites l (s.withWork w)) := by
  induction l generalizing s w with
  | nil => exact .ok () s w h
  | cons e l ih => exact (pinWrite_alike h e.1 e.2).bind fun _ _ _ h => ih h

theorem wrPulse_alike (h : P s.work w) : Res.Alike P (wrPulse s) (wrPulse (s.withWork w)) := by
  refine (pinWrite_alike h _ false).bind fun _ t w h => ?_
  refine (pinWrite_alike (s := t.delayed t.cfg.tWrLow) h _ true).bind fun _ t w h => ?_
  exact .ok () (t.delayed t.cfg.tWrHigh) w h

theorem xferBytes_alike (l : List Byte) (j : Nat) (h : P s.work w) :
    Res.Alike P (xferBytes j l s) (xferBytes j l (s.withWork w)) := by
  induction l generalizing j s w with
  | nil => exact .ok () s w h
  | cons b l ih =>
    refine (pinWrites_alike (s := { s with pbyte := BitVec.ofNat 1 j, pstep := .four }) _ h).bind fun _ t w h => ?_
    exact (wrPulse_alike (s := { t with pstep := .five }) h).bind fun _ _ _ h => ih (j + 1) h

theorem deassertRead_alike (h : P s.work w) : Res.Alike P (deassertRead s) (deassertRead (s.withWork w)) := by
  unfold deassertRead
  rw [State.withWork_cfg]
  split
  · exact pinWrite_alike h _ true
  · exact .ok () s w h

theorem busXfer_alike (rs : Level) (l : List Byte) (h : P s.work w) :
    Res.Alike P (busXfer rs l s) (busXfer rs l (s.withWork w)) := by
  refine ((seqCheck_workBlind _ []).alike h).bind fun _ t w h => ?_
  refine (pinWrite_alike (s := { t with pstep := .one }) h _ false).bind fun _ t w h => ?_
  refine (deassertRead_alike (s := { t with pstep := .two }) h).bind fun _ t w h => ?_
  refine (pinWrite_alike (s := { t with pstep := .three }) h _ rs).bind fun _ t w h => ?_
  refine (xferBytes_alike l 0 h).bind fun _ t w h => ?_
  refine (pinWrite_alike (s := { t with pstep := .six }) h _ true).bind fun _ t w h => ?_
  exact .ok () { t with pstep := .idle, pbyte := 0#1 } w h

/-! ### The serial shifter -/

theorem startFrame_alike (h : P s.work w) : Res.Alike P (startFrame s) (startFrame (s.withWork w)) := by
  refine (pinWrite_alike (s := { s with sstep := .start }) h _ false).bind fun _ t w h => ?_
  refine (pinWrite_alike h _ true).bind fun _ t w h => ?_
  refine (pinWrite_alike h _ true).bind fun _ t w h => ?_
  refine (pinWrite_alike h _ true).bind fun _ t w h => ?_
  refine (pinWrite_alike h _ false).bind fun _ t w h => ?_
  exact .ok () { t with sstep := .idle } w h

theorem shiftOutBits_alike (l : List Level) (j : Nat) (h : P s.work w) :
    Res.Alike P (shiftOutBits j l s) (shiftOutBits j l (s.withWork w)) := by
  induction l generalizing j s w with
  | nil => exact .ok () s w h
  | cons v l ih =>
    refine (pinWrite_alike (s := { s with sbit := BitVec.ofNat 4 j }) h _ false).bind fun _ t w h => ?_
    refine (pinWrite_alike h _ v).bind fun _ t w h => ?_
    exact (pinWrite_alike h _ true).bind fun _ _ _ h => ih (j + 1) h

theorem shiftOut_alike (b : Byte) (h : P s.work w) : Res.Alike P (shiftOut b s) (shiftOut b (s.withWork w)) := by
  refine (shiftOutBits_alike (s := { s with sstep := .out }) _ 0 h).bind fun _ t w h => ?_
  exact .ok () { t with sstep := .idle, sbit := 0#4 } w h

/-- `P` says nothing about the accumulator. -/
def AccFree (P : Work → Work → Prop) : Prop := ∀ v w a b, P v w → P { v with acc := a } { w with acc := b }

/-- The two accumulators agree too. -/
def WithAcc (P : Work → Work → Prop) (v w : Work) : Prop := P v w ∧ v.acc = w.acc

theorem shiftInBits_alike (hP : AccFree P) (n j : Nat) (h : WithAcc P s.work w) :
    Res.Alike (WithAcc P) (shiftInBits j n s) (shiftInBits j n (s.withWork w)) := by
  induction n generalizing j s w with
  | zero => exact .ok () s w h
  | succ n ih =>
    refine (pinWrite_alike (s := { s with sbit := BitVec.ofNat 4 j }) h _ false).bind fun _ t w h => ?_
    refine (pinWrite_alike h _ true).bind fun _ t w h => ?_
    refine ((pinRead_workBlind _).alike h).bind fun v t w h => ?_
    obtain ⟨hPw, hacc⟩ := h
    exact ih (s := { t with acc := shiftIn t.acc v }) (w := { w with acc := shiftIn w.acc v }) (j + 1)
      ⟨hP _ _ _ _ hPw, congrArg (shiftIn · v) hacc⟩

/-- `ACC` is cleared before the first bit, so the value it is read for is the same (42_serial_adc.md R123). -/
theorem shiftInto_alike (hP : AccFree P) (n : Nat) (h : P s.work w) :
    Res.Alike P (shiftInto n s) (shiftInto n (s.withWork w)) := by
  refine (shiftInBits_alike (s := { s with sstep := .input, acc := 0#12 }) (w := { w with acc := 0#12 }) hP n 0
    ⟨hP _ _ _ _ h, rfl⟩).bind fun _ t w h => ?_
  obtain ⟨hPw, hacc⟩ := h
  have hacc : t.acc = w.acc := hacc
  have hdone := Res.Alike.ok (P := P) t.acc { t with sstep := .idle, sbit := 0#4 } w hPw
  show Res.Alike P _ (.ok w.acc _)
  rw [← hacc]; exact hdone

theorem readChannel_alike (hP : AccFree P) (c : Byte) (h : P s.work w) :
    Res.Alike P (readChannel c s) (readChannel c (s.withWork w)) := by
  refine (startFrame_alike h).bind fun _ t w h => ?_
  refine (shiftOut_alike c h).bind fun _ t w h => ?_
  refine (shiftInto_alike (s := ({ t with sstep := .settle } : State).delayed t.cfg.tAdcSettle) hP _ h).bind
    fun v t w h => ?_
  refine (pinWrite_alike (s := { t with sstep := .deselect }) h _ true).bind fun _ t w h => ?_
  exact .ok v { t with sstep := .idle } w h

/-! ### The filter and the resolver -/

/-- `P` says nothing about the accumulator and the registers of the filter. -/
def FilterFree (P : Work → Work → Prop) : Prop :=
  ∀ v w a b k l q r, P v w → P { v with acc := a, sb := k, fr := q } { w with acc := b, sb := l, fr := r }

/-- The first `i` samples stand in both `SB` and agree. -/
structure Filled (P : Work → Work → Prop) (i : Nat) (v w : Work) : Prop where
  rest : P v w
  left : i ≤ v.sb.length
  right : i ≤ w.sb.length
  samples : v.sb.take i = w.sb.take i

theorem Filled.accFree (hP : FilterFree P) (i : Nat) : AccFree (Filled P i) := fun _ _ _ _ h =>
  ⟨hP _ _ _ _ _ _ _ _ h.rest, h.left, h.right, h.samples⟩

/-- Each sample takes its place before the sort reads it (43_filter_resolve.md R143). -/
theorem fillSamples_alike (hP : FilterFree P) (c : Byte) (n i : Nat) (h : Filled P i s.work w) :
    Res.Alike (Filled P (i + n)) (fillSamples c i n s) (fillSamples c i n (s.withWork w)) := by
  induction n generalizing i s w with
  | zero => exact .ok () s w h
  | succ n ih =>
    refine (readChannel_alike (s := { s with scnt := BitVec.ofNat 8 i }) (Filled.accFree hP i) c h).bind fun v t w h => ?_
    obtain ⟨hPw, hl, hr, hs⟩ := h
    obtain ⟨htake, hlen⟩ := storeSample_take t i v hl
    obtain ⟨htake', hlen'⟩ := storeSample_take (t.withWork w) i v hr
    have hstored : Filled P (i + 1) (t.storeSample i v).work ((t.withWork w).storeSample i v).work := by
      refine ⟨hP _ _ _ _ _ _ _ _ hPw, hlen, hlen', ?_⟩
      show (t.storeSample i v).sb.take (i + 1) = ((t.withWork w).storeSample i v).sb.take (i + 1)
      rw [htake, htake']
      exact congrArg (· ++ [v]) hs
    rw [show i + (n + 1) = i + 1 + n by omega]
    exact ih (i + 1) hstored

theorem rank_alike (hP : FilterFree P) (h : P s.work w)
    (hs : s.sb.take s.cfg.window = w.sb.take s.cfg.window) :
    Res.Alike P (.ok s.rank.fr s.rank) (.ok (s.withWork w).rank.fr (s.withWork w).rank) := by
  have hfr : (s.withWork w).rank.fr = s.rank.fr := (congrArg rankedMean hs).symm
  rw [hfr]
  exact .ok _ s.rank (s.withWork w).rank.work (hP _ _ _ _ _ _ _ _ h)

/-- The reading and what stands in `SB` after it come from the window just filled. -/
theorem filterChannel_alike (hP : FilterFree P) (c : Byte) (h : P s.work w) :
    Res.Alike P (filterChannel c s) (filterChannel c (s.withWork w)) := by
  have hstart : Filled P 0 s.work w := ⟨h, Nat.zero_le _, Nat.zero_le _, by simp⟩
  refine (fillSamples_alike hP c s.cfg.window 0 hstart).bind_eq fun _ t w ht h => ?_
  have hreach := fillSamples_reach c s.cfg.window 0 s
  rw [ht] at hreach
  have hcfg : t.cfg = s.cfg := (Moves.frame hreach).cfg
  have hs : t.sb.take t.cfg.window = w.sb.take t.cfg.window := by rw [hcfg]; simpa [State.work] using h.samples
  exact rank_alike (s := { t with scnt := BitVec.ofNat 8 s.cfg.window }) hP h.rest hs

theorem serialCheck_workBlind : WorkBlind serialCheck := fun s w => seqCheck_workBlind s.cfg.serialOuts s.cfg.serialIns s w

theorem filterCheck_workBlind : WorkBlind filterCheck := by
  intro s w
  unfold filterCheck
  rw [Res.mapState_ite, ← serialCheck_workBlind]; rfl

/-- The readings that `n` passes have taken agree. -/
structure Passed (n : Nat) (v w : Work) : Prop where
  x1 : 0 < n → v.x1 = w.x1
  y1 : 1 < n → v.y1 = w.y1
  x2 : 2 < n → v.x2 = w.x2
  y2 : 3 < n → v.y2 = w.y2

theorem Passed.filterFree (n : Nat) : FilterFree (Passed n) := fun _ _ _ _ _ _ _ _ h => ⟨h.x1, h.y1, h.x2, h.y2⟩

/-- Each pass writes its reading, so after four of them all four agree, whatever stood there (43_filter_resolve.md R145). -/
theorem readPasses_alike : Res.Alike (Passed 4) (readPasses s) (readPasses (s.withWork w)) := by
  refine (filterChannel_alike (s := { s with rpass := 0#2 }) (Passed.filterFree 0) _
    ⟨by simp, by simp, by simp, by simp⟩).bind fun r t w _ => ?_
  refine (filterChannel_alike (s := { t with x1 := r, rpass := 1#2 }) (w := { w with x1 := r }) (Passed.filterFree 1) _
    ⟨fun _ => rfl, by simp, by simp, by simp⟩).bind fun r t w h => ?_
  refine (filterChannel_alike (s := { t with y1 := r, rpass := 2#2 }) (w := { w with y1 := r }) (Passed.filterFree 2) _
    ⟨fun _ => h.x1 (by simp), fun _ => rfl, by simp, by simp⟩).bind fun r t w h => ?_
  refine (filterChannel_alike (s := { t with x2 := r, rpass := 3#2 }) (w := { w with x2 := r }) (Passed.filterFree 3) _
    ⟨fun _ => h.x1 (by simp), fun _ => h.y1 (by simp), fun _ => rfl, by simp⟩).bind fun r t w h => ?_
  exact .ok () { t with y2 := r, rpass := 0#2 } { w with y2 := r }
    ⟨fun _ => h.x1 (by simp), fun _ => h.y1 (by simp), fun _ => h.x2 (by simp), fun _ => rfl⟩

theorem resolveReadings_alike (h : Passed 4 s.work w) :
    Res.Alike (Passed 4) (resolveReadings s) (resolveReadings (s.withWork w)) := by
  have hsame : resolveValues (s.withWork w).cfg.yCheck (s.withWork w).x1 (s.withWork w).y1 (s.withWork w).x2
      (s.withWork w).y2 = resolveValues s.cfg.yCheck s.x1 s.y1 s.x2 s.y2 := by
    show resolveValues s.cfg.yCheck w.x1 w.y1 w.x2 w.y2 = _
    rw [← h.x1 (by simp), ← h.y1 (by simp), ← h.x2 (by simp), ← h.y2 (by simp)]; rfl
  unfold resolveReadings
  rw [hsame]
  cases resolveValues s.cfg.yCheck s.x1 s.y1 s.x2 s.y2 with
  | ok k => exact .ok (Value.coord k) { s with coord := k } { w with coord := k } ⟨h.x1, h.y1, h.x2, h.y2⟩
  | error e => exact .err e none s w

end

/-! ### Every operation -/

/-- Nothing is said about the work registers. -/
def AnyWork (_ _ : Work) : Prop := True

theorem AnyWork.accFree : AccFree AnyWork := fun _ _ _ _ _ => trivial

theorem AnyWork.filterFree : FilterFree AnyWork := fun _ _ _ _ _ _ _ _ _ => trivial

theorem execSysinit_alike {s t : State} (w : Work) (ht : leftState (execSysinit s) = some t) :
    ∃ t', leftState (execSysinit (s.withWork w)) = some t' ∧ SameButWork t t' := by
  refine ⟨t.withWork w, ?_, rfl⟩
  have hcomm : execSysinit (s.withWork w) = .next (t.withWork w) := by
    simp only [execSysinit, leftState, Option.some.injEq] at ht ⊢
    subst ht
    congr 1
    show (if s.initTried then _ else if s.mapWindows then _ else _) = _
    split
    · show (if s.initialized then _ else _) = _
      split <;> rfl
    · split <;> rfl
  rw [hcomm]; rfl

/-- What an operation does, hands back and leaves does not depend on the work registers before it. -/
theorem exec_alike (i : Instr) {s t : State} (w : Work) (ht : leftState (exec i s) = some t) :
    ∃ t', leftState (exec i (s.withWork w)) = some t' ∧ SameButWork t t' := by
  have any : ∀ {u : State} {x : Work}, AnyWork u.work x := trivial
  cases i with
  | sysinit => exact execSysinit_alike w ht
  | pindir pin dir =>
    refine finishUnit_alike (P := AnyWork) (((pinCheck_workBlind pin).alike any).bind fun d u x _ => ?_) ht
    rw [State.withWork_cfg]
    split
    · exact (setDirection_workBlind d dir).alike any
    · exact .err _ _ u x
  | pinwr pin v => exact finishUnit_alike (pinWrite_alike any pin v) ht
  | pinrd pin =>
    exact finish_alike (((pinRead_workBlind pin).alike any).bind fun v u x h => .ok (Value.level v) u x h) ht
  | pinpull pin m =>
    refine finishUnit_alike (P := AnyWork) (((pinCheck_workBlind pin).alike any).bind fun d u x _ => ?_) ht
    rw [State.withWork_cfg]
    split
    · cases u.cfg.pullStyle with
      | sharedLatch => exact (pullSequence_workBlind d m).alike any
      | absent => exact .refused _ u x
    · exact .err _ _ u x
  | pintpulse pin x =>
    refine finish_alike (P := AnyWork) (((pinCheck_workBlind pin).alike any).bind fun d u x _ => ?_) ht
    refine ((pollUntil_workBlind d _).alike any).bind fun _ u x _ => ?_
    refine ((pollUntil_workBlind d _).alike any).bind fun _ began x _ => ?_
    refine ((pollUntil_workBlind d _).alike any).bind fun _ ended x h => ?_
    exact .ok (Value.duration (ended.now - began.now)) ended x h
  | pinclose pin =>
    refine finishUnit_alike (P := AnyWork) ?_ ht
    rw [State.withWork_initialized, State.withWork_cfg, State.withWork_closePin]
    split
    · cases s.cfg.find pin with
      | none => exact .err _ _ s w
      | some d => exact .ok () (s.closePin pin) w trivial
    · exact .err _ _ s w
  | pinwatch pin =>
    refine finishUnit_alike (P := AnyWork) (((pinCheck_workBlind pin).alike any).bind fun _ u x _ => ?_) ht
    rw [State.withWork_cfg]
    split
    · exact .refused _ u x
    · exact .err _ _ u x
  | wrcmd b => exact finishUnit_alike (busXfer_alike _ _ any) ht
  | wrdat8 b => exact finishUnit_alike (busXfer_alike _ _ any) ht
  | wrdat16 v => exact finishUnit_alike (busXfer_alike _ _ any) ht
  | rstpulse =>
    refine finishUnit_alike (P := AnyWork) ?_ ht
    rw [State.withWork_cfg]
    split
    · refine ((seqCheck_workBlind _ []).alike any).bind fun _ u x h => ?_
      refine (pinWrite_alike h _ false).bind fun _ u x h => ?_
      refine (pinWrite_alike (s := u.delayed u.cfg.tRstLow) h _ true).bind fun _ u x h => ?_
      exact .ok () (u.delayed u.cfg.tRstSettle) x h
    · exact .refused _ s w
  | delay n => exact finishUnit_alike (P := AnyWork) (.ok () (s.delayed (microseconds n)) w trivial) ht
  | sstart =>
    refine finishUnit_alike (P := AnyWork) ((serialCheck_workBlind.alike any).bind fun _ u x h => ?_) ht
    exact startFrame_alike h
  | shout b =>
    refine finishUnit_alike (P := AnyWork) ((serialCheck_workBlind.alike any).bind fun _ u x h => ?_) ht
    exact shiftOut_alike b h
  | shin n =>
    refine finish_alike (P := AnyWork) ?_ ht
    split
    · refine (serialCheck_workBlind.alike any).bind fun _ u x h => ?_
      exact (shiftInto_alike AnyWork.accFree n h).bind fun v u x h => .ok (Value.sample v) u x h
    · exact .refused _ s w
  | rdch c =>
    refine finish_alike (P := AnyWork) ((serialCheck_workBlind.alike any).bind fun _ u x h => ?_) ht
    exact (readChannel_alike AnyWork.accFree c h).bind fun v u x h => .ok (Value.sample v) u x h
  | filt c =>
    refine finish_alike (P := AnyWork) ((filterCheck_workBlind.alike any).bind fun _ u x h => ?_) ht
    exact (filterChannel_alike AnyWork.filterFree c h).bind fun r u x h => .ok (Value.reading r) u x h
  | resolve =>
    refine finish_alike (P := Passed 4) ((filterCheck_workBlind.alike any).bind fun _ u x h => ?_) ht
    exact readPasses_alike.bind fun _ u x h => resolveReadings_alike h

/-- Settles O19: the second state is the first with other work registers. -/
theorem workRegistersNeverRead : Obligations.WorkRegistersNeverRead := by
  intro i s s' t hs ht
  rw [(sameButWork_iff s s').mp hs]
  exact exec_alike i s'.work ht

end Sys2Proof.Machine
end

section
/-! The map of pins to banks (20_memory.md R41: O12), and the two operations that write one bit of a bank: PINDIR (40_pin_layer.md
R83: O30) and PINWR (R84: O31). -/

namespace Sys2Proof.Machine

/-! ### The map of pins -/

/-- The default formula can be read backwards: bank and bit give the id (20_memory.md R41). -/
theorem PinDescriptor.ofId_inverse (id : PinId) :
    ((PinDescriptor.ofId id).bank - 1) * 32 + (PinDescriptor.ofId id).bit.val = id := by
  show (id / 32 + 1 - 1) * 32 + id % 32 = id
  rw [Nat.add_sub_cancel]
  exact Nat.div_add_mod' id 32

/-- Settles O12: the formula has an inverse, and `linesDistinct` of a well-formed map carries over to ids (`Config.find_inj`). -/
theorem pinMapInjective : Obligations.PinMapInjective :=
  ⟨PinDescriptor.ofId_inverse, fun _ _ _ _ _ hc hd₁ hd₂ hbank hbit =>
    Config.find_inj hc hd₁ hd₂ hbank (congrArg Fin.val hbit)⟩

/-! ### What the end of an operation leaves alone -/

theorem SameWork.succeed {s t : State} (h : SameWork s t) (v : Value) : SameWork s (t.succeed v) :=
  ⟨h.acc, h.sb, h.fr, h.x1, h.y1, h.x2, h.y2, h.coord⟩

theorem SameCounters.succeed {s t : State} (h : SameCounters s t) (v : Value) : SameCounters s (t.succeed v) :=
  ⟨h.pstep, h.pbyte, h.sstep, h.sbit, h.scnt, h.rpass⟩

/-- A run of pin writes and delays that ends `Ok`. -/
theorem RanEvents.wroteOnly {e : List Event} {p : List PinId} {s t : State} (h : RanEvents e p s t) (q : Quiet s t) :
    WroteOnly e p s (t.succeed .nothing) :=
  ⟨h.succeed _, rfl, q.levels, q.work.succeed _⟩

theorem TablesOnly.openPin (s : State) (id : PinId) : TablesOnly s (s.openPin id) := by
  unfold TablesOnly; rw [State.openPin_eq]

/-- Where only the tables and the record of accesses change, an operation that ends `Ok` was no event and left every register
beside the tables. -/
theorem TablesOnly.succeed_frame {s t : State} (h : TablesOnly s t) (v : Value) :
    NoEvent s (t.succeed v) ∧ SameFlags s (t.succeed v) ∧ SameInputs s (t.succeed v) ∧ SameWork s (t.succeed v) ∧
      SameCounters s (t.succeed v) := by
  rw [h]
  exact ⟨⟨rfl, rfl, rfl, rfl, rfl⟩, ⟨rfl, rfl⟩, ⟨rfl, rfl, rfl⟩, ⟨rfl, rfl, rfl, rfl, rfl, rfl, rfl, rfl⟩,
    ⟨rfl, rfl, rfl, rfl, rfl, rfl⟩⟩

/-! ### PINDIR -/

/-- PINDIR on a registered pin with a writable direction and a free lock opens the pin and goes through the locked
read-modify-write. -/
theorem execPindir_next {s : State} {pin : PinId} {d : PinDescriptor} (dir : IoDir) (hi : s.initialized = true)
    (hd : s.cfg.find pin = some d) (hw : (s.cfg.writableOf pin).dir = true) (hl : (s.bank d.bank).lock = .free) :
    ∃ t, exec (.pindir pin dir) s = .next (t.succeed .nothing) ∧ TablesOnly s t ∧
      (∀ id, t.pin id = if id = pin then { s.pin id with opened := true, dir := pinDirOf dir } else s.pin id) ∧
      (∀ b, t.bank b = if b = d.bank then (s.bank b).directed d.bit (fieldSet dir) else s.bank b) ∧
      t.accesses = s.accesses ++ [.acquire d.bank, .read d.bank .fsel,
        .write d.bank .fsel (putBit (s.bank d.bank).fsel d.bit (fieldSet dir)), .release d.bank] := by
  have hid := Config.find_id hd
  rcases setDirection_cases d dir (s.openPin pin) with ⟨_, t, ht, hr, ha⟩ | ⟨hheld, _⟩
  · refine ⟨t, ?_, (TablesOnly.openPin s pin).trans hr.rest, fun id => ?_, fun b => ?_, ?_⟩
    · show execPindir pin dir s = _
      simp [execPindir, pinCheck_ok hi hd, hw, ht]
    · rw [hr.pin, hid, State.pin_openPin, State.pin_openPin, if_pos rfl]
      split
      · next hp => rw [hp]
      · rfl
    · rw [hr.bank, State.bank_openPin, State.bank_openPin]
      split
      · next hb => rw [hb]
      · rfl
    · rw [ha, State.bank_openPin, State.openPin_eq]
  · rw [State.bank_openPin, hl] at hheld; cases hheld

/-- On a bank with a free lock, setting a function-select field changes `FSEL` alone: the lock is taken and given back. -/
theorem Bank.directed_of_free {k : Bank} (h : k.lock = .free) (i : Nat) (v : Bool) :
    k.directed i v = { k with fsel := putBit k.fsel i v } := by
  rw [Bank.directed, ← h]

/-- Settles O30: the state of `execPindir_next`, read at each field; `putBit` says which bit of `FSEL` it is. -/
theorem pindirRuns : Obligations.PindirRuns := by
  intro s pin d dir hi hd hw hl
  obtain ⟨t, ht, hrest, hpin, hbank, haccesses⟩ := execPindir_next dir hi hd hw hl
  obtain ⟨hevent, hflags, hinputs, hwork, hcounters⟩ := hrest.succeed_frame .nothing
  have hfsel : (t.bank d.bank).fsel = putBit (s.bank d.bank).fsel d.bit (fieldSet dir) := by
    rw [hbank, if_pos rfl]; rfl
  refine ⟨t.succeed .nothing, ht, rfl, hpin, fun b => ?_, fun k => ?_, hevent, hflags, hinputs, hwork, hcounters, ?_⟩
  · show t.bank b = if b = d.bank then { s.bank b with fsel := (t.bank b).fsel } else s.bank b
    by_cases hb : b = d.bank
    · subst hb
      rw [if_pos rfl, hfsel, hbank, if_pos rfl, Bank.directed_of_free hl]
    · rw [if_neg hb, hbank, if_neg hb]
  · rw [State.bank_succeed, hfsel, putBit_getLsbD _ _ _ _ d.bit.isLt]
  · rw [State.bank_succeed, hfsel]
    exact haccesses

/-! ### PINWR -/

/-- The accesses by which a level is written to a line, in either write style (40_pin_layer.md R84, 20_memory.md R50, R52). -/
def State.lineAccesses (s : State) (d : PinDescriptor) (v : Level) : List Access :=
  match s.cfg.writeStyle with
  | .setClear => [.write d.bank (if v then .set else .clr) (oneHot d.bit)]
  | .singleData =>
    [.acquire d.bank, .read d.bank .data, .write d.bank .data (putBit (s.bank d.bank).out d.bit v), .release d.bank]

theorem State.lineAccesses_setClear {s : State} (h : s.cfg.writeStyle = .setClear) (d : PinDescriptor) (v : Level) :
    s.lineAccesses d v = [.write d.bank (if v then .set else .clr) (oneHot d.bit)] := by
  rw [State.lineAccesses, h]

theorem State.lineAccesses_singleData {s : State} (h : s.cfg.writeStyle = .singleData) (d : PinDescriptor) (v : Level) :
    s.lineAccesses d v = [.acquire d.bank, .read d.bank .data,
      .write d.bank .data (putBit (s.bank d.bank).out d.bit v), .release d.bank] := by
  rw [State.lineAccesses, h]

theorem State.lineAccesses_openPin (s : State) (id : PinId) (d : PinDescriptor) (v : Level) :
    (s.openPin id).lineAccesses d v = s.lineAccesses d v := by
  rw [State.lineAccesses, State.openPin_cfg, State.bank_openPin]; rfl

/-- A register write of a level that goes on made these accesses. -/
theorem writeLine_accesses {d : PinDescriptor} {v : Level} {s t : State} (h : writeLine d v s = .ok () t) :
    t.accesses = s.accesses ++ s.lineAccesses d v := by
  cases hs : s.cfg.writeStyle with
  | setClear =>
    simp only [writeLine, hs, Res.ok.injEq, true_and] at h
    rw [← h, State.lineAccesses_setClear hs, State.memWrite_accesses]
  | singleData =>
    cases hl : (s.bank d.bank).lock with
    | held => simp [writeLine, hs, acquire, hl] at h
    | free =>
      simp only [writeLine, hs, acquire_free hl, Res.bind_ok, Res.ok.injEq, true_and] at h
      rw [← h, State.lineAccesses_singleData hs]
      simp [State.locked]

/-- `PinWrite` that goes on made the accesses of the register write and no other: opening the pin and the event are none. -/
theorem pinWrite_accesses {id : PinId} {d : PinDescriptor} {v : Level} {s t : State} (hd : s.cfg.find id = some d)
    (h : pinWrite id v s = .ok () t) : t.accesses = s.accesses ++ s.lineAccesses d v := by
  obtain ⟨e, o, hcheck, h⟩ := Res.bind_eq_ok h
  obtain ⟨_, he, rfl, _⟩ := pinCheck_eq_ok hcheck
  rw [hd, Option.some.injEq] at he
  subst he
  split at h
  · split at h
    · obtain ⟨_, u, hu, h⟩ := Res.bind_eq_ok h
      cases h
      rw [State.emit_accesses, writeLine_accesses hu, State.lineAccesses_openPin, State.openPin_eq]
    · cases h
  · cases h

/-- One write sets the latch at the bank and bit of its pin, and no other. -/
theorem latchAfter_write {c : Config} {id : PinId} {d : PinDescriptor} (hd : c.find id = some d) (v : Level) (b k : Nat)
    (l : Option Level) : latchAfter c b k l [.w id v] = if b = d.bank ∧ k = d.bit.val then some v else l := by
  simp [latchAfter, hd, eq_comm (a := b), eq_comm (a := k)]

/-- Settles O31: `pinWrite_ok` gives the frame and the one event, whose latch is the pin's; the accesses are those of the line. -/
theorem pinwrRuns : Obligations.PinwrRuns := by
  intro s pin d v h hd
  obtain ⟨t, ht, hran, hquiet⟩ := pinWrite_ok v h
  have haccesses := pinWrite_accesses hd ht
  refine ⟨t.succeed .nothing, ?_, hran.wroteOnly hquiet, hquiet.counters.succeed _, fun b k => ?_, fun hs => ?_, fun hs => ?_⟩
  · show finishUnit (pinWrite pin v s) = _
    rw [ht, finishUnit_ok]
  · exact (hran.latches b k).trans (latchAfter_write hd v b k _)
  · rw [State.succeed_accesses, haccesses, State.lineAccesses_setClear hs]
  · rw [State.succeed_accesses, haccesses, State.lineAccesses_singleData hs]

end Sys2Proof.Machine
end

section
/-! The command word (30_encoding.md R60 to R63): a word is rebuilt from its fields, so the decoder and the encoder are inverse
(O1, O2, O5); the rows of the opcode table told by fields (O4), and with them the words R66 (a) to (d) refuse (O3). -/

namespace Sys2Proof

/-! ### The fields of a word as parts of its number -/

theorem opField_eq (w : Word) : opField w = w.toNat / 2 ^ 24 := by
  have := w.isLt
  simp only [opField, BitVec.extractLsb'_toNat, Nat.shiftRight_eq_div_pow]
  omega

theorem argField_eq (w : Word) : argField w = w.toNat / 2 ^ 16 % 2 ^ 8 := by
  simp only [argField, BitVec.extractLsb'_toNat, Nat.shiftRight_eq_div_pow]

theorem middleField_eq (w : Word) : middleField w = w.toNat / 2 ^ 8 % 2 ^ 16 := by
  simp only [middleField, BitVec.extractLsb'_toNat, Nat.shiftRight_eq_div_pow]

theorem imm24Field_eq (w : Word) : imm24Field w = w.toNat % 2 ^ 24 := by
  simp [imm24Field, BitVec.extractLsb'_toNat]

theorem imm8Field_toNat (w : Word) : (imm8Field w).toNat = w.toNat % 2 ^ 8 := by
  simp [imm8Field, BitVec.extractLsb'_toNat]

theorem lowField_toNat (w : Word) : (lowField w).toNat = w.toNat % 2 ^ 16 := by
  simp [lowField, BitVec.extractLsb'_toNat]

theorem argField_eq_imm24Field_div (w : Word) : argField w = imm24Field w / 2 ^ 16 := by
  rw [argField_eq, imm24Field_eq]; omega

theorem middleField_eq_imm24Field_div (w : Word) : middleField w = imm24Field w / 2 ^ 8 := by
  rw [middleField_eq, imm24Field_eq]; omega

/-! Where the lowest bits alone are free, a field of the format is clear, or small. -/

theorem imm24Field_lt_byte_iff (w : Word) : imm24Field w < 0x100 ↔ middleField w = 0 := by
  rw [middleField_eq_imm24Field_div]; omega

theorem imm24Field_lt_low_iff (w : Word) : imm24Field w < 0x10000 ↔ argField w = 0 := by
  rw [argField_eq_imm24Field_div]; omega

theorem imm24Field_lt_flag_iff (w : Word) : imm24Field w < 0x20000 ↔ argField w ≤ 1 := by
  rw [argField_eq_imm24Field_div]; omega

theorem imm24Field_lt_mode_iff (w : Word) : imm24Field w < 0x40000 ↔ argField w ≤ 3 := by
  rw [argField_eq_imm24Field_div]; omega

/-! ### A word is rebuilt from its fields -/

theorem word24_toNat (op : Byte) (low : BitVec 24) : (word24 op low).toNat = op.toNat * 2 ^ 24 + low.toNat := by
  rw [word24, BitVec.toNat_append, ← Nat.shiftLeft_add_eq_or_of_lt low.isLt, Nat.shiftLeft_eq]

theorem word24_of_fields {w : Word} {op : Byte} {low : BitVec 24} (hop : opField w = op.toNat)
    (hlow : imm24Field w = low.toNat) : word24 op low = w := by
  rw [opField_eq] at hop
  rw [imm24Field_eq] at hlow
  apply BitVec.eq_of_toNat_eq
  rw [word24_toNat]
  omega

theorem word16_of_fields {w : Word} {op arg : Byte} (hop : opField w = op.toNat) (harg : argField w = arg.toNat) :
    word16 op arg (lowField w) = w := by
  rw [opField_eq] at hop
  rw [argField_eq] at harg
  apply BitVec.eq_of_toNat_eq
  rw [word16_toNat, lowField_toNat]
  omega

/-- Format B: with bits 23..8 clear, `imm24` is the byte. -/
theorem imm24Field_of_middleField {w : Word} (h : middleField w = 0) : imm24Field w = (imm8Field w).toNat := by
  rw [middleField_eq] at h
  rw [imm24Field_eq, imm8Field_toNat]
  omega

theorem imm24Field_lt (w : Word) : imm24Field w < 0x1000000 := by
  rw [imm24Field_eq]; omega

theorem wellFormedPin_lowField (w : Word) : wellFormedPin (lowField w).toNat = true := by
  simpa [wellFormedPin] using (lowField w).isLt

theorem pinBits_lowField (w : Word) : pinBits (lowField w).toNat = lowField w := by
  simp [pinBits]

/-! ### The operands in `arg` (R61) -/

theorem dirOfArg_eq_some {n : Nat} {d : IoDir} (h : dirOfArg n = some d) : n = (argOfDir d).toNat := by
  unfold dirOfArg at h
  split at h <;> cases h <;> rfl

theorem levelOfArg_eq_some {n : Nat} {v : Level} (h : levelOfArg n = some v) : n = (argOfLevel v).toNat := by
  unfold levelOfArg at h
  split at h <;> cases h <;> rfl

theorem pullOfArg_eq_some {n : Nat} {m : PullMode} (h : pullOfArg n = some m) : n = (argOfPull m).toNat := by
  unfold pullOfArg at h
  split at h <;> cases h <;> rfl

@[simp] theorem dirOfArg_eq_none_iff : ∀ n, dirOfArg n = none ↔ 1 < n
  | 0 | 1 => by decide
  | n + 2 => by simp [dirOfArg]

@[simp] theorem levelOfArg_eq_none_iff : ∀ n, levelOfArg n = none ↔ 1 < n
  | 0 | 1 => by decide
  | n + 2 => by simp [levelOfArg]

@[simp] theorem pullOfArg_eq_none_iff : ∀ n, pullOfArg n = none ↔ 2 < n
  | 0 | 1 | 2 => by decide
  | n + 3 => by simp [pullOfArg]

/-! ### What a format gives is encoded by the word it was read from -/

section
variable {w : Word} {op : Byte} {j : Instr}

theorem decodeN_sound {i : Instr} (hop : opField w = op.toNat) (henc : encode i = word24 op 0#24)
    (hwf : i.wellFormed = true) (h : decodeN w i = some j) : encode j = w ∧ j.wellFormed = true := by
  unfold decodeN at h
  split at h
  · next hz =>
    cases h
    exact ⟨henc.trans (word24_of_fields hop hz), hwf⟩
  · cases h

theorem decodeB_sound {f : Byte → Instr} (hop : opField w = op.toNat)
    (henc : ∀ b, encode (f b) = word24 op (b.setWidth 24)) (hwf : ∀ b, (f b).wellFormed = true)
    (h : decodeB w f = some j) : encode j = w ∧ j.wellFormed = true := by
  unfold decodeB at h
  split at h
  · next hz =>
    cases h
    refine ⟨(henc _).trans (word24_of_fields hop ?_), hwf _⟩
    rw [imm24Field_of_middleField hz, byte_setWidth_toNat]
  · cases h

theorem decodeShin_sound (hop : opField w = 0x22) (h : decodeShin w = some j) :
    encode j = w ∧ j.wellFormed = true := by
  unfold decodeShin at h
  split at h
  · next hz =>
    obtain ⟨hmiddle, hlegal⟩ := hz
    cases h
    refine ⟨word24_of_fields hop ?_, hlegal⟩
    rw [imm24Field_of_middleField hmiddle, BitVec.toNat_ofNat, Nat.mod_eq_of_lt]
    have := (imm8Field w).isLt
    omega
  · cases h

theorem decodeH_sound {f : BitVec 16 → Instr} (hop : opField w = op.toNat)
    (henc : ∀ v, encode (f v) = word16 op 0#8 v) (hwf : ∀ v, (f v).wellFormed = true)
    (h : decodeH w f = some j) : encode j = w ∧ j.wellFormed = true := by
  unfold decodeH at h
  split at h
  · next hz =>
    cases h
    exact ⟨(henc _).trans (word16_of_fields (arg := 0#8) hop hz), hwf _⟩
  · cases h

theorem decodeP0_sound {f : PinId → Instr} (hop : opField w = op.toNat)
    (henc : ∀ pin, encode (f pin) = word16 op 0#8 (pinBits pin)) (hwf : ∀ pin, (f pin).wellFormed = wellFormedPin pin)
    (h : decodeP0 w f = some j) : encode j = w ∧ j.wellFormed = true := by
  unfold decodeP0 at h
  split at h
  · next hz =>
    cases h
    refine ⟨?_, (hwf _).trans (wellFormedPin_lowField w)⟩
    rw [henc, pinBits_lowField, word16_of_fields (arg := 0#8) hop hz]
  · cases h

/-- The small operand in `arg` is read back by `argOf`. -/
theorem decodeP_sound {α : Type} {operand : Nat → Option α} {argOf : α → Byte} {f : PinId → α → Instr}
    (hop : opField w = op.toNat) (hinv : ∀ {n a}, operand n = some a → n = (argOf a).toNat)
    (henc : ∀ pin a, encode (f pin a) = word16 op (argOf a) (pinBits pin))
    (hwf : ∀ pin a, (f pin a).wellFormed = wellFormedPin pin)
    (h : decodeP w operand f = some j) : encode j = w ∧ j.wellFormed = true := by
  obtain ⟨a, ha, rfl⟩ := Option.map_eq_some_iff.mp h
  refine ⟨?_, (hwf _ a).trans (wellFormedPin_lowField w)⟩
  rw [henc, pinBits_lowField, word16_of_fields hop (hinv ha)]

end

theorem delay_sound {w : Word} (hop : opField w = 0x14) :
    encode (.delay (imm24Field w)) = w ∧ (Instr.delay (imm24Field w)).wellFormed = true := by
  refine ⟨word24_of_fields hop ?_, decide_eq_true (imm24Field_lt w)⟩
  rw [BitVec.toNat_ofNat, Nat.mod_eq_of_lt (imm24Field_lt w)]

/-- Settles O1, operation by operation. -/
theorem decodeReadsEncode : Obligations.DecodeReadsEncode := by
  intro i
  cases i with
  | sysinit => exact Laws.RoundTrip.sysinit
  | pindir pin d => exact Laws.RoundTrip.pindir pin d
  | pinwr pin v => exact Laws.RoundTrip.pinwr pin v
  | pinrd pin => exact Laws.RoundTrip.pinrd pin
  | pinpull pin m => exact Laws.RoundTrip.pinpull pin m
  | pintpulse pin t => exact Laws.RoundTrip.pintpulse pin t
  | pinclose pin => exact Laws.RoundTrip.pinclose pin
  | pinwatch pin => exact Laws.RoundTrip.pinwatch pin
  | wrcmd b => exact Laws.RoundTrip.wrcmd b
  | wrdat8 b => exact Laws.RoundTrip.wrdat8 b
  | wrdat16 v => exact Laws.RoundTrip.wrdat16 v
  | rstpulse => exact Laws.RoundTrip.rstpulse
  | delay t => exact Laws.RoundTrip.delay t
  | sstart => exact Laws.RoundTrip.sstart
  | shout b => exact Laws.RoundTrip.shout b
  | shin n => exact Laws.RoundTrip.shin n
  | rdch c => exact Laws.RoundTrip.rdch c
  | filt c => exact Laws.RoundTrip.filt c
  | resolve => exact Laws.RoundTrip.resolve

/-- Settles O2: each opcode's format gives back what the word was built from. -/
theorem encodeReadsDecode : Obligations.EncodeReadsDecode := by
  intro w i h
  unfold decode at h
  split at h
  next hop => exact decodeN_sound (op := 0x01#8) hop rfl rfl h
  next hop => exact decodeP_sound (op := 0x02#8) hop dirOfArg_eq_some (fun _ _ => rfl) (fun _ _ => rfl) h
  next hop => exact decodeP_sound (op := 0x03#8) hop levelOfArg_eq_some (fun _ _ => rfl) (fun _ _ => rfl) h
  next hop => exact decodeP0_sound (op := 0x04#8) hop (fun _ => rfl) (fun _ => rfl) h
  next hop => exact decodeP_sound (op := 0x05#8) hop pullOfArg_eq_some (fun _ _ => rfl) (fun _ _ => rfl) h
  next hop => exact decodeP_sound (op := 0x06#8) hop levelOfArg_eq_some (fun _ _ => rfl) (fun _ _ => rfl) h
  next hop => exact decodeP0_sound (op := 0x07#8) hop (fun _ => rfl) (fun _ => rfl) h
  next hop => exact decodeP0_sound (op := 0x08#8) hop (fun _ => rfl) (fun _ => rfl) h
  next hop => exact decodeB_sound (op := 0x10#8) hop (fun _ => rfl) (fun _ => rfl) h
  next hop => exact decodeB_sound (op := 0x11#8) hop (fun _ => rfl) (fun _ => rfl) h
  next hop => exact decodeH_sound (op := 0x12#8) hop (fun _ => rfl) (fun _ => rfl) h
  next hop => exact decodeN_sound (op := 0x13#8) hop rfl rfl h
  next hop => cases h; exact delay_sound hop
  next hop => exact decodeN_sound (op := 0x20#8) hop rfl rfl h
  next hop => exact decodeB_sound (op := 0x21#8) hop (fun _ => rfl) (fun _ => rfl) h
  next hop => exact decodeShin_sound hop h
  next hop => exact decodeB_sound (op := 0x23#8) hop (fun _ => rfl) (fun _ => rfl) h
  next hop => exact decodeB_sound (op := 0x30#8) hop (fun _ => rfl) (fun _ => rfl) h
  next hop => exact decodeN_sound (op := 0x31#8) hop rfl rfl h
  next => cases h

/-! ### No two rows have a word in common (R62) -/

theorem opField_and (v w : Word) : opField (v &&& w) = opField v &&& opField w := by
  rw [opField, BitVec.extractLsb'_and, BitVec.toNat_and]; rfl

/-- A word of a row has the opcode of its pattern: every mask of the table has the whole opcode. -/
theorem opField_of_covers {r : OpcodeRow} {w : Word} (hr : r ∈ opcodeTable) (h : r.covers w = true) :
    opField w = opField r.pattern := by
  have hmask : ∀ r ∈ opcodeTable, opField r.mask = 2 ^ 8 - 1 := by decide
  have hlt : opField w < 2 ^ 8 := (w.extractLsb' 24 8).isLt
  rw [← beq_iff_eq.mp h, opField_and, hmask r hr, Nat.and_two_pow_sub_one_of_lt_two_pow hlt]

/-- Each opcode has one row. -/
theorem opcodeTable_opField_inj :
    ∀ r₁ ∈ opcodeTable, ∀ r₂ ∈ opcodeTable, opField r₁.pattern = opField r₂.pattern → r₁ = r₂ := by
  decide

/-- Settles O4: a word of two rows has the opcode of both. -/
theorem opcodeRowsDisjoint : Obligations.OpcodeRowsDisjoint := by
  intro w r₁ hr₁ r₂ hr₂ h₁ h₂
  exact opcodeTable_opField_inj r₁ hr₁ r₂ hr₂ ((opField_of_covers hr₁ h₁).symm.trans (opField_of_covers hr₂ h₂))

/-! ### The opcode table: a row fixes the opcode and clears all but the lowest bits of `imm24` (R62) -/

/-- Agreement under a mask of the bits from `k` upwards is agreement of the opcode and of `imm24` from bit `k` upwards. -/
theorem and_highMask_eq_iff {w p : Word} {k : Nat} (hk : k ≤ 24) (hp : 2 ^ k ∣ p.toNat) :
    w &&& BitVec.allOnes 32 <<< k = p ↔ opField w = opField p ∧ imm24Field w / 2 ^ k = imm24Field p / 2 ^ k := by
  have hclear : (w &&& BitVec.allOnes 32 <<< k).toNat = 2 ^ k * (w.toNat / 2 ^ k) := by
    have := Nat.mul_div_le w.toNat (2 ^ k)
    have := w.isLt
    rw [← BitVec.shiftLeft_ushiftRight, BitVec.toNat_shiftLeft, BitVec.toNat_ushiftRight, Nat.shiftRight_eq_div_pow,
      Nat.shiftLeft_eq, Nat.mul_comm, Nat.mod_eq_of_lt (by omega)]
  have h24 : 2 ^ 24 = 2 ^ k * 2 ^ (24 - k) := by rw [← pow_add, Nat.add_sub_cancel' hk]
  have hop : ∀ v : Word, opField v = v.toNat / 2 ^ k / 2 ^ (24 - k) := fun v => by
    rw [opField_eq, h24, Nat.div_div_eq_div_mul]
  have himm : ∀ v : Word, imm24Field v / 2 ^ k = v.toNat / 2 ^ k % 2 ^ (24 - k) := fun v => by
    rw [imm24Field_eq, h24, Nat.mod_mul_right_div_self]
  calc w &&& BitVec.allOnes 32 <<< k = p
      ↔ w.toNat / 2 ^ k = p.toNat / 2 ^ k := by
        rw [← BitVec.toNat_inj, hclear, eq_comm, ← Nat.div_eq_iff_eq_mul_right (by positivity) hp, eq_comm]
    _ ↔ opField w = opField p ∧ imm24Field w / 2 ^ k = imm24Field p / 2 ^ k := by
        rw [hop, hop, himm, himm, ← Nat.ext_div_mod_iff]

/-- The row that fixes the opcode `op` and leaves the lowest `k` bits of the word free. -/
def OpcodeRow.free (mnemonic : String) (op : Byte) (k : Nat) : OpcodeRow :=
  ⟨mnemonic, word24 op 0#24, BitVec.allOnes 32 <<< k⟩

theorem OpcodeRow.free_covers_iff (m : String) (op : Byte) {k : Nat} (hk : k ≤ 24) (w : Word) :
    (OpcodeRow.free m op k).covers w = true ↔ opField w = op.toNat ∧ imm24Field w < 2 ^ k := by
  have hp : 2 ^ k ∣ (word24 op 0#24).toNat := by
    rw [word24_toNat, BitVec.toNat_ofNat, Nat.zero_mod, Nat.add_zero]
    exact (pow_dvd_pow 2 hk).mul_left _
  rw [OpcodeRow.covers, OpcodeRow.free, beq_iff_eq, and_highMask_eq_iff hk hp, opField_word24, imm24Field_word24]
  simp [Nat.div_eq_zero_iff]

/-- The opcode table by the free bits of its rows: format N has none, format B 8, formats H and P 16 and those of `arg`,
format T all 24. -/
theorem opcodeTable_eq_free : opcodeTable =
    [.free "SYSINIT" 0x01#8 0, .free "PINDIR" 0x02#8 17, .free "PINWR" 0x03#8 17, .free "PINRD" 0x04#8 16,
      .free "PINPULL" 0x05#8 18, .free "PINTPULSE" 0x06#8 17, .free "PINCLOSE" 0x07#8 16, .free "PINWATCH" 0x08#8 16,
      .free "WRCMD" 0x10#8 8, .free "WRDAT8" 0x11#8 8, .free "WRDAT16" 0x12#8 16, .free "RSTPULSE" 0x13#8 0,
      .free "DELAY" 0x14#8 24, .free "SSTART" 0x20#8 0, .free "SHOUT" 0x21#8 8, .free "SHIN" 0x22#8 8,
      .free "RDCH" 0x23#8 8, .free "FILT" 0x30#8 8, .free "RESOLVE" 0x31#8 0] := by
  decide

/-! ### What R66 refuses, and the table (R62) -/

/-- The row's `exclude`: PINPULL with `arg` 3 (R62). -/
theorem pinpull_excluded_iff (w : Word) : w &&& 0xFFFF0000#32 = 0x05030000#32 ↔ opField w = 0x05 ∧ argField w = 3 := by
  rw [argField_eq_imm24Field_div]
  exact and_highMask_eq_iff (k := 16) (p := 0x05030000#32) (by decide) (by decide)

theorem shin_covers_iff (w : Word) :
    w &&& 0xFFFFFF00#32 = 0x22000000#32 ↔ opField w = 0x22 ∧ middleField w = 0 := by
  rw [middleField_eq_imm24Field_div]
  exact and_highMask_eq_iff (k := 8) (p := 0x22000000#32) (by decide) (by decide)

/-- A word of SHIN's row is the one of its bit count. -/
theorem eq_shin_word_iff {w : Word} (hop : opField w = 0x22) (hmiddle : middleField w = 0) (b : Byte) :
    w = word24 0x22#8 (b.setWidth 24) ↔ imm8Field w = b := by
  constructor
  · rintro rfl
    exact imm8Field_byte _ b
  · rintro rfl
    refine (word24_of_fields hop ?_).symm
    rw [imm24Field_of_middleField hmiddle, byte_setWidth_toNat]

/-- The row's `only`: SHIN with another bit count than 8 or 12 (R62). -/
theorem shin_excluded_iff (w : Word) :
    (w &&& 0xFFFFFF00#32 = 0x22000000#32 ∧ w ≠ 0x22000008#32 ∧ w ≠ 0x2200000C#32) ↔
      opField w = 0x22 ∧ middleField w = 0 ∧ imm8Field w ≠ 8#8 ∧ imm8Field w ≠ 12#8 := by
  rw [shin_covers_iff, and_assoc]
  refine and_congr_right fun hop => and_congr_right fun hmiddle => ?_
  exact and_congr (eq_shin_word_iff hop hmiddle 8#8).not (eq_shin_word_iff hop hmiddle 12#8).not

theorem inOpcodeTable_iff (w : Word) : inOpcodeTable w = true ↔ (∃ r ∈ opcodeTable, r.covers w = true) ∧
    ¬(opField w = 0x05 ∧ argField w = 3) ∧
    ¬(opField w = 0x22 ∧ middleField w = 0 ∧ imm8Field w ≠ 8#8 ∧ imm8Field w ≠ 12#8) := by
  rw [← pinpull_excluded_iff, ← shin_excluded_iff]
  simp only [inOpcodeTable, Bool.and_eq_true, Bool.not_eq_true', Bool.and_eq_false_iff, Bool.not_eq_false',
    List.any_eq_true, beq_iff_eq, beq_eq_false_iff_ne, ne_eq, and_assoc, not_and_or, not_not, or_assoc]

/-- The opcode of a covered word is one of the table's. -/
theorem opField_mem_of_covers {r : OpcodeRow} {w : Word} (hr : r ∈ opcodeTable) (h : r.covers w = true) :
    opField w ∈ Machine.definedOpcodes := by
  have hops : ∀ r ∈ opcodeTable, opField r.pattern ∈ Machine.definedOpcodes := by decide
  rw [opField_of_covers hr h]
  exact hops r hr

/-- The words the rows cover, format by format: what a format shows as 0 is 0, and `arg` is small (R60 to R62). -/
theorem exists_covers_iff (w : Word) : (∃ r ∈ opcodeTable, r.covers w = true) ↔
    (opField w ∈ [0x01, 0x13, 0x20, 0x31] ∧ imm24Field w = 0) ∨
    (opField w ∈ [0x10, 0x11, 0x21, 0x22, 0x23, 0x30] ∧ middleField w = 0) ∨
    (opField w ∈ [0x04, 0x07, 0x08, 0x12] ∧ argField w = 0) ∨
    (opField w ∈ [0x02, 0x03, 0x06] ∧ argField w ≤ 1) ∨
    (opField w = 0x05 ∧ argField w ≤ 3) ∨ opField w = 0x14 := by
  simp only [opcodeTable_eq_free, List.mem_cons, List.not_mem_nil, exists_eq_or_imp, false_and, exists_false,
    OpcodeRow.free_covers_iff, zero_le, le_refl, Nat.reduceLeDiff, BitVec.toNat_ofNat, Nat.reduceMod, Nat.one_mod, pow_zero,
    Nat.reducePow, Nat.lt_one_iff, imm24Field_lt_byte_iff, imm24Field_lt_low_iff, imm24Field_lt_flag_iff,
    imm24Field_lt_mode_iff, imm24Field_lt]
  grind

/-- The words R66 (a) to (d) leave are those of the table: for each opcode one row and one clause are left to compare. -/
theorem inOpcodeTable_iff_not_refused (w : Word) : inOpcodeTable w = true ↔ Machine.refusedByEncoding w = false := by
  rw [inOpcodeTable_iff]
  by_cases hop : opField w ∈ Machine.definedOpcodes
  · rw [exists_covers_iff]
    simp only [Machine.definedOpcodes, List.mem_cons, List.not_mem_nil, or_false] at hop
    rcases hop with h | h | h | h | h | h | h | h | h | h | h | h | h | h | h | h | h | h | h
    all_goals simp +ground [Machine.refusedByEncoding, h]
    -- the two rows with excluded words: PINPULL and SHIN
    · omega
    · exact Or.inl
  · have hnone : ¬∃ r ∈ opcodeTable, r.covers w = true := fun ⟨r, hr, h⟩ => hop (opField_mem_of_covers hr h)
    simp [hnone, Machine.refusedByEncoding, hop]

theorem decode_of_opField_undefined {w : Word} (h : opField w ∉ Machine.definedOpcodes) : decode w = none := by
  unfold decode
  split
  case h_20 => rfl
  all_goals
    next hop =>
      rw [hop] at h
      exact absurd (by decide) h

theorem legalBitCount_eq_false_iff (b : Byte) : legalBitCount b.toNat = false ↔ b ≠ 8#8 ∧ b ≠ 12#8 := by
  simp [legalBitCount, ← BitVec.toNat_inj]

/-- The decoder answers `none` on the words R66 (a) to (d) name: for each opcode one format and one clause are left
to compare. -/
theorem decode_eq_none_iff (w : Word) : decode w = none ↔ Machine.refusedByEncoding w = true := by
  by_cases hop : opField w ∈ Machine.definedOpcodes
  · simp only [Machine.definedOpcodes, List.mem_cons, List.not_mem_nil, or_false] at hop
    rcases hop with h | h | h | h | h | h | h | h | h | h | h | h | h | h | h | h | h | h | h
    all_goals
      simp +ground [decode, decodeN, decodeB, decodeShin, decodeH, decodeP0, decodeP, legalBitCount_eq_false_iff,
        Machine.refusedByEncoding, h]
    exact imp_iff_not_or
  · simp [decode_of_opField_undefined hop, Machine.refusedByEncoding, hop]

/-- The row of an operation has its mnemonic and its opcode. -/
theorem exists_opcodeRow (i : Instr) :
    ∃ r ∈ opcodeTable, r.mnemonic = i.mnemonic ∧ opField r.pattern = opField (encode i) := by
  cases i <;> simp only [Instr.mnemonic, encode, opField_word24, opField_word16] <;> decide

/-- Settles O3: refusal and the table have the same words, and the row that covers a word is the one row of its opcode. -/
theorem decodeRefusesExactly : Obligations.DecodeRefusesExactly := by
  intro w
  have htable : (decode w).isSome = inOpcodeTable w := by
    rw [Bool.eq_iff_iff, inOpcodeTable_iff_not_refused, Option.isSome_iff_ne_none, ne_eq, decode_eq_none_iff,
      Bool.not_eq_true]
  refine ⟨decode_eq_none_iff w, htable, fun i hi => ?_⟩
  obtain ⟨r, hr, hmnemonic, hop⟩ := exists_opcodeRow i
  obtain ⟨hw, -⟩ := encodeReadsDecode w i hi
  obtain ⟨⟨r', hr', hcovers⟩, -⟩ := (inOpcodeTable_iff w).mp (by rw [← htable, hi]; rfl)
  have hsame : r' = r := opcodeTable_opField_inj r' hr' r hr (by rw [← opField_of_covers hr' hcovers, hop, hw])
  exact ⟨r, hr, hmnemonic, hsame ▸ hcovers⟩

/-- Settles O5: each word is evaluated. -/
theorem sampleWordsDecode : Obligations.SampleWordsDecode := by
  unfold Obligations.SampleWordsDecode
  decide

end Sys2Proof
end

section
/-! Words that are refused (30_encoding.md R66: O6), and the status codes (R68: O28). -/

namespace Sys2Proof.Machine

/-! ### One step by what its word decodes to -/

theorem State.take_of_port {s : State} {w : Word} {rest : List Word} (h : s.port = w :: rest) :
    s.take = { s with port := rest } := by
  rw [State.take, h, List.tail_cons]

theorem step_of_decode_none {s : State} {w : Word} {rest : List Word} (h : s.port = w :: rest) (hd : decode w = none) :
    step s = refuseWord { s with port := rest } := by
  simp only [step, h, hd, State.take_of_port h]

theorem step_of_decode_some {s : State} {w : Word} {rest : List Word} {i : Instr} (h : s.port = w :: rest)
    (hd : decode w = some i) : step s = exec i { s with port := rest } := by
  simp only [step, h, hd, State.take_of_port h]

/-! ### Operations the configuration rules out -/

/-- An operation that its operand or the configuration rules out is refused before anything else (R66 (d), (e), (f)). -/
theorem exec_of_not_permitted {s : State} {i : Instr} (h : s.cfg.permits i = false) :
    ∃ why, exec i s = .refused (.operation why s.refuse) := by
  cases i with
  | shin n =>
    have hn : legalBitCount n = false := h
    exact ⟨.malformedCommand, by simp [exec, execShin, hn]⟩
  | rstpulse =>
    have hrst : s.cfg.hasRst = false := h
    exact ⟨.noResetLine, by simp [exec, execRstpulse, hrst]⟩
  | filt c =>
    have hw : s.cfg.window < 3 := by simpa [Config.permits] using h
    exact ⟨.windowTooSmall, by simp [exec, execFilt, filterCheck, hw]⟩
  | resolve =>
    have hw : s.cfg.window < 3 := by simpa [Config.permits] using h
    exact ⟨.windowTooSmall, by simp [exec, execResolve, filterCheck, hw]⟩
  | _ => cases h

/-- The words R66 (e) and (f) name decode to operations the configuration does not permit, where they decode at all. -/
theorem permits_of_refusedByConfig {c : Config} {w : Word} {i : Instr} (h : refusedByConfig c w = true)
    (hd : decode w = some i) : c.permits i = false := by
  have hcases : (opField w = 0x13 ∧ c.hasRst = false) ∨ ((opField w = 0x30 ∨ opField w = 0x31) ∧ c.window < 3) := by
    simpa [refusedByConfig] using h
  rcases hcases with ⟨hop, hrst⟩ | ⟨hop | hop, hw⟩
  · obtain ⟨-, rfl⟩ : imm24Field w = 0 ∧ .rstpulse = i := by simpa [decode, decodeN, hop] using hd
    exact hrst
  · obtain ⟨-, rfl⟩ : middleField w = 0 ∧ .filt (imm8Field w) = i := by simpa [decode, decodeB, hop] using hd
    simp [Config.permits, hw]
  · obtain ⟨-, rfl⟩ : imm24Field w = 0 ∧ .resolve = i := by simpa [decode, decodeN, hop] using hd
    simp [Config.permits, hw]

/-- Settles O6: a word that decodes to nothing is refused by the step, one that decodes by its operation. -/
theorem refusedWordsDoNothing : Obligations.RefusedWordsDoNothing := by
  intro s w rest hport h
  cases hd : decode w with
  | none => exact ⟨.malformedCommand, step_of_decode_none hport hd⟩
  | some i =>
    have hconfig : refusedByConfig s.cfg w = true := by
      refine h.resolve_left fun henc => ?_
      rw [(decode_eq_none_iff w).mpr henc] at hd
      cases hd
    rw [step_of_decode_some hport hd]
    exact exec_of_not_permitted (s := { s with port := rest }) (permits_of_refusedByConfig hconfig hd)

/-- Settles O28: the codes are read off the table of error kinds. -/
theorem statusCodes : Obligations.StatusCodes :=
  ⟨fun _ => rfl, rfl, fun _ => ⟨rfl, rfl, rfl, rfl, rfl, rfl, rfl⟩⟩

end Sys2Proof.Machine
end

section
/-! The pin layer and the build of the block: SYSINIT (40_pin_layer.md R81: O29), PINCLOSE (R89: O37), PINWATCH (R90: O38), what is
refused after `PinCheck` (R84, R87, R90: O26), and the configurations that are rejected (R93: O11). -/

namespace Sys2Proof.Machine

/-! ### SYSINIT -/

/-- Settles O29: the four cases are the branches of SYSINIT, by its two flags and the answer of `MapWindows()`. -/
theorem sysinitRuns : Obligations.SysinitRuns := by
  intro s
  refine ⟨fun ht hi => ?_, fun ht hi => ?_, fun ht hm => ?_, fun ht hm => ?_⟩
  · simp [exec, execSysinit, ht, hi, State.succeed]
  · simp [exec, execSysinit, ht, hi]
  · simp [exec, execSysinit, ht, hm, State.succeed, State.markTried, State.markInitialized]
  · simp [exec, execSysinit, ht, hm, State.markTried]

/-! ### PINCLOSE -/

theorem execPinclose_eq {s : State} {pin : PinId} (hi : s.initialized = true) (hd : (s.cfg.find pin).isSome = true) :
    exec (.pinclose pin) s = .next ((s.closePin pin).succeed .nothing) := by
  obtain ⟨d, hd⟩ := Option.isSome_iff_exists.mp hd
  simp [exec, execPinclose, hi, hd]

theorem State.closePin_of_closed {s : State} {pin : PinId} (h : (s.pin pin).opened = false) : s.closePin pin = s := by
  simp [State.closePin, h]

/-- Settles O37: after the first close the pin is closed, so the second is `closePin_of_closed`. -/
theorem pincloseRuns : Obligations.PincloseRuns := by
  intro s pin hi hd
  have ht : (s.closePin pin).succeed .nothing =
      { s with pt := (s.closePin pin).pt, outcome := some (.ok .nothing) } := by
    rw [State.closePin_eq]; rfl
  have hclosed : (((s.closePin pin).succeed .nothing).pin pin).opened = false := by
    rw [State.pin_succeed, State.pin_closePin, if_pos rfl]
  refine ⟨_, execPinclose_eq hi hd, ht, fun id => ?_, ?_⟩
  · rw [State.pin_succeed, State.pin_closePin]
    split
    · next h => rw [h]
    · rfl
  · rw [execPinclose_eq (by rw [ht]; exact hi) (by rw [ht]; exact hd), State.closePin_of_closed hclosed]; rfl

/-! ### PINWATCH -/

/-- `PinCheck` comes first: on a registered pin of an initialised block PINWATCH goes on with the pin open. -/
theorem execPinwatch_eq {s : State} {pin : PinId} (hi : s.initialized = true) (hd : (s.cfg.find pin).isSome = true) :
    exec (.pinwatch pin) s =
      if s.cfg.edgeSupport then .refused (.operation (.edgeWatchUnspecified pin) (s.openPin pin).refuse)
      else .next ((s.openPin pin).raise .unimplemented (some pin)) := by
  obtain ⟨d, hd⟩ := Option.isSome_iff_exists.mp hd
  show execPinwatch pin s = _
  rw [execPinwatch, pinCheck_ok hi hd, Res.bind_ok, State.openPin_cfg]
  split <;> rfl

/-- Settles O38: what an error leaves is a raise at the opened pin, and opening it touches the pin table alone. -/
theorem pinwatchIsStub : Obligations.PinwatchIsStub := by
  intro s pin hi hd he
  refine ⟨(s.openPin pin).raise .unimplemented (some pin), ?_, rfl, fun id => ?_, ⟨rfl, rfl, rfl, rfl, rfl, rfl⟩, ?_⟩
  · rw [execPinwatch_eq hi hd, he]; rfl
  · rw [State.pin_raise, State.pin_openPin]
    by_cases hid : id = pin <;> simp [hid]
  · rw [State.openPin_eq]
    exact ⟨rfl, ⟨rfl, rfl, rfl, rfl, rfl⟩, ⟨rfl, rfl⟩, ⟨rfl, rfl, rfl⟩, ⟨rfl, rfl, rfl, rfl, rfl, rfl, rfl, rfl⟩, rfl⟩

/-! ### Refused after `PinCheck` -/

/-- Opening a pin changes no direction. -/
theorem State.dir_openPin (s : State) (id j : PinId) : ((s.openPin id).pin j).dir = (s.pin j).dir :=
  (State.openPin_ran s id).1.dir j

theorem pinWrite_notAnOutput {s : State} {pin : PinId} (v : Level) (hi : s.initialized = true)
    (hd : (s.cfg.find pin).isSome = true) (hw : (s.cfg.writableOf pin).level = true) (ho : (s.pin pin).dir ≠ .output) :
    pinWrite pin v s = .refused (.notAnOutput pin) (s.openPin pin) := by
  obtain ⟨d, hd⟩ := Option.isSome_iff_exists.mp hd
  simp [pinWrite, pinCheck_ok hi hd, hw, State.dir_openPin, ho]

theorem execPinpull_absent {s : State} {pin : PinId} (m : PullMode) (hi : s.initialized = true)
    (hd : (s.cfg.find pin).isSome = true) (hw : (s.cfg.writableOf pin).pull = true) (hp : s.cfg.pullStyle = .absent) :
    exec (.pinpull pin m) s = .refused (.operation (.noPullMechanism pin) (s.openPin pin).refuse) := by
  obtain ⟨d, hd⟩ := Option.isSome_iff_exists.mp hd
  simp [exec, execPinpull, pinCheck_ok hi hd, hw, hp]

/-- Settles O26: each of the three goes on from `PinCheck` with the pin open and is refused there. -/
theorem refusedAfterOpening : Obligations.RefusedAfterOpening := by
  intro s pin hi hd
  refine ⟨fun hw ho v => ?_, fun hw hp m => execPinpull_absent m hi hd hw hp, fun he => ?_⟩
  · show finishUnit (pinWrite pin v s) = _
    rw [pinWrite_notAnOutput v hi hd hw ho, finishUnit_refused]
  · rw [execPinwatch_eq hi hd, he, if_pos rfl]

/-! ### The configurations that are rejected -/

/-- The roles in the order in which `Config.rolePins` lists their pins. -/
def roleOrder : List Role :=
  [.cs, .wr, .rs, .db0, .db1, .db2, .db3, .db4, .db5, .db6, .db7, .rd, .rst, .clk, .din, .tcs, .dout, .busy, .penirq]

theorem mem_roleOrder (r : Role) : r ∈ roleOrder := by cases r <;> decide

/-- The role pins of a configuration are the pins its roles stand for. -/
theorem Config.rolePins_eq (c : Config) : c.rolePins = roleOrder.filterMap (rolePin c) := by
  cases hrd : c.hasRd <;> cases hrst : c.hasRst <;> cases hbusy : c.ser.busy <;> cases hpen : c.ser.penirq <;>
    simp [Config.rolePins, Config.busOuts, Config.serialOuts, Config.serialIns, BusConnection.db, roleOrder, rolePin, hrd,
      hrst, hbusy, hpen]

/-- Where every role pin is registered, a role stands for a registered pin (40_pin_layer.md R93). -/
theorem Config.find_rolePin {c : Config} (h : c.rolesRegistered = true) {r : Role} {id : PinId}
    (hr : rolePin c r = some id) : (c.find id).isSome = true := by
  refine List.all_eq_true.mp h id ?_
  rw [Config.rolePins_eq]
  exact List.mem_filterMap.mpr ⟨r, mem_roleOrder r, hr⟩

/-- Where the role pins are distinct, no two roles stand for one pin (10_state.md R32). -/
theorem Config.rolePin_inj {c : Config} (h : c.rolesDistinct = true) {r r' : Role} {id : PinId}
    (hr : rolePin c r = some id) (hr' : rolePin c r' = some id) : r = r' := by
  have hnodup : (roleOrder.filterMap (rolePin c)).Nodup := by
    rw [← Config.rolePins_eq]; exact (allDistinct_iff_nodup _).mp h
  by_contra hne
  have hsymm : Std.Symm fun a b : Role => ∀ x, rolePin c a = some x → ∀ y, rolePin c b = some y → x ≠ y :=
    ⟨fun _ _ hab x hx y hy => (hab y hy x hx).symm⟩
  exact (List.pairwise_filterMap.mp hnodup).forall (mem_roleOrder r) (mem_roleOrder r') hne id hr id hr' rfl

theorem State.configure_of_wellFormed {c : Config} (h : c.wellFormed = true) :
    State.configure c = .next (State.ofConfig c) := by
  rw [State.configure, if_pos h]

theorem State.configure_of_malformed {c : Config} (h : ¬ c.wellFormed = true) :
    State.configure c = .refused .malformedConfiguration := by
  rw [State.configure, if_neg h]

/-- Settles O11: each defect contradicts the part of `Config.wellFormed` that asks for its absence. -/
theorem malformedConfigRejected : Obligations.MalformedConfigRejected := by
  refine fun c => ⟨fun hdefect => State.configure_of_malformed fun hwf => ?_, State.configure_of_wellFormed⟩
  simp only [Config.wellFormed, Config.controlBytesLegal, Config.fixedLegal, Bool.and_eq_true, Bool.not_eq_true'] at hwf
  obtain ⟨⟨⟨⟨⟨⟨⟨-, hregistered⟩, hdistinct⟩, hctrlX, hctrlY⟩, -⟩, -⟩, hedge, hyCheck⟩, -⟩ := hwf
  rcases hdefect with ⟨r, id, hr, hnone⟩ | ⟨r, r', id, hne, hr, hr'⟩ | hx | hy | he | hc
  · simpa [hnone] using Config.find_rolePin hregistered hr
  · exact hne (Config.rolePin_inj hdistinct hr hr')
  · rw [hctrlX] at hx; cases hx
  · rw [hctrlY] at hy; cases hy
  · rw [hedge] at he; cases he
  · rw [hyCheck] at hc; cases hc

end Sys2Proof.Machine
end

section
/-! The precondition of the sequencer operations (40_pin_layer.md R92: O27), and where an operation can fail to end (R88, R125, R206:
O21). -/

namespace Sys2Proof.Machine

/-! ### SeqCheck comes first -/

/-- A role pin without its direction is refused, with nothing changed (40_pin_layer.md R92). -/
theorem seqCheck_wrongRole {outs ins : List PinId} {s : State} (hi : s.initialized = true)
    (h : (∃ p ∈ outs, (s.pin p).dir ≠ .output) ∨ ∃ p ∈ ins, (s.pin p).dir ≠ .input) :
    seqCheck outs ins s = .refused .roleDirection s := by
  simp only [seqCheck, hi, if_true]
  rw [if_neg]
  simp only [Bool.and_eq_true, List.all_eq_true, beq_iff_eq, not_and_or, not_forall]
  simpa only [exists_prop] using h

/-- A sequencer operation that its operand and the configuration allow begins with `SeqCheck` on its roles. -/
theorem exec_begins_with_seqCheck {i : Instr} {s : State} {outs ins : List PinId} (hp : s.cfg.permits i = true)
    (hr : i.roles s.cfg = some (outs, ins)) :
    ∃ rest : Unit → State → Res Value, exec i s = finish ((seqCheck outs ins s).bind rest) := by
  have hunit : ∀ rest : Unit → State → Res Unit, ∃ rest' : Unit → State → Res Value,
      finishUnit ((seqCheck outs ins s).bind rest) = finish ((seqCheck outs ins s).bind rest') :=
    fun rest => ⟨_, by rw [finishUnit, Res.bind_assoc]⟩
  cases i with
  | wrcmd | wrdat8 | wrdat16 | sstart | shout => cases hr; exact hunit _
  | rstpulse =>
    have hrst : s.cfg.hasRst = true := hp
    cases hr
    simp only [exec, execRstpulse, hrst, if_true]
    exact hunit _
  | shin n =>
    have hn : legalBitCount n = true := hp
    cases hr
    simp only [exec, execShin, hn, if_true]
    exact ⟨_, rfl⟩
  | rdch => cases hr; exact ⟨_, rfl⟩
  | filt | resolve =>
    have hw : ¬ s.cfg.window < 3 := by simpa [Config.permits] using hp
    cases hr
    simp only [exec, execFilt, execResolve, filterCheck, hw, if_false]
    exact ⟨_, rfl⟩
  | _ => cases hr

/-- Settles O27: the operation begins with `SeqCheck`, which stops it in both cases. -/
theorem sequencerChecksRoles : Obligations.SequencerChecksRoles := by
  intro i s outs ins hp hr
  obtain ⟨rest, hexec⟩ := exec_begins_with_seqCheck hp hr
  refine ⟨fun hi => ?_, fun hi hwrong => ?_⟩
  · rw [hexec, seqCheck_uninitialized hi, Res.bind_err, finish_err]
  · rw [hexec, seqCheck_wrongRole hi hwrong, Res.bind_refused, finish_refused]

/-! ### Operations that end -/

/-- No other agent holds a bank lock. -/
def State.Unlocked (s : State) : Prop := ∀ b, (s.bank b).lock = .free

/-- The operation does not wait for ever; where it goes on, every lock is free. -/
def Res.Ends {α : Type} : Res α → Prop
  | .ok _ t => t.Unlocked
  | .err _ _ _ => True
  | .refused _ _ => True
  | .stuck _ => False

theorem Res.Ends.bind {α β : Type} {r : Res α} {f : α → State → Res β} (h : r.Ends)
    (g : ∀ a t, t.Unlocked → (f a t).Ends) : (r.bind f).Ends := by
  cases r with
  | ok a t => exact g a t h
  | err => trivial
  | refused => trivial
  | stuck => exact h

/-- Handing on a value ends where the operation does. -/
theorem Res.Ends.map {α β : Type} {r : Res α} (h : r.Ends) (g : α → β) : (r.bind fun a t => .ok (g a) t).Ends := by
  cases r with
  | ok a t => exact h
  | err => trivial
  | refused => trivial
  | stuck => exact h

theorem finish_eq_fault {r : Res Value} {f : Fault} (h : finish r = .fault f) : r = .stuck f := by
  cases r with
  | stuck => cases h; rfl
  | _ => cases h

theorem finish_ne_fault {r : Res Value} (h : r.Ends) (f : Fault) : finish r ≠ .fault f := by
  intro hf
  rw [finish_eq_fault hf] at h
  exact h

theorem finishUnit_ne_fault {r : Res Unit} (h : r.Ends) (f : Fault) : finishUnit r ≠ .fault f :=
  finish_ne_fault (h.map _) f

section
variable {s : State}

/-! ### The shared operations -/

/-- `PinCheck` raises an error, or goes on with the pin's descriptor and the pin open (40_pin_layer.md R80). -/
theorem pinCheck_cases (id : PinId) (s : State) :
    (∃ e, pinCheck id s = .err e (some id) s) ∨ ∃ d, d.id = id ∧ pinCheck id s = .ok d (s.openPin id) := by
  cases hi : s.initialized with
  | false => exact .inl ⟨.notInitialized, by simp [pinCheck, hi]⟩
  | true =>
    cases hd : s.cfg.find id with
    | none => exact .inl ⟨.pinNotRegistered, by simp [pinCheck, hi, hd]⟩
    | some d => exact .inr ⟨d, Config.find_id hd, pinCheck_ok hi hd⟩

theorem pinCheck_ends (h : s.Unlocked) (id : PinId) : (pinCheck id s).Ends := by
  obtain ⟨e, he⟩ | ⟨d, -, hd⟩ := pinCheck_cases id s
  · rw [he]; trivial
  · rw [hd]; exact fun b => by rw [State.bank_openPin]; exact h b

/-- A register write of a level waits for a held lock only. -/
theorem writeLine_ends (h : s.Unlocked) (d : PinDescriptor) (v : Level) : (writeLine d v s).Ends := by
  obtain ⟨t, ht, hw⟩ := writeLine_ok d v s (.inr (h d.bank))
  rw [ht]
  exact fun b => (hw.banks b).1.trans (h b)

theorem pinWrite_ends (h : s.Unlocked) (id : PinId) (v : Level) : (pinWrite id v s).Ends := by
  refine (pinCheck_ends h id).bind fun d t ht => ?_
  split
  · split
    · exact (writeLine_ends ht d v).bind fun _ u hu => hu
    · trivial
  · trivial

theorem pinRead_ends (h : s.Unlocked) (id : PinId) : (pinRead id s).Ends :=
  (pinCheck_ends h id).bind fun d t ht b => (((State.sampled_spec t d).1.banks b).1).trans (ht b)

theorem seqCheck_ends (h : s.Unlocked) (outs ins : List PinId) : (seqCheck outs ins s).Ends := by
  unfold seqCheck
  split
  · split
    · exact h
    · trivial
  · trivial

/-! ### The pin layer -/

theorem setDirection_ends (h : s.Unlocked) (d : PinDescriptor) (dir : IoDir) : (setDirection d dir s).Ends := by
  rw [setDirection_free dir (h d.bank)]
  intro b
  by_cases hb : b = d.bank <;> simp [State.directionSet, State.locked, hb, h b]

theorem pullSequence_ends (h : s.Unlocked) (d : PinDescriptor) (m : PullMode) : (pullSequence d m s).Ends := by
  rw [pullSequence_free m (h d.bank)]
  intro b
  by_cases hb : b = d.bank <;> simp [State.pullSet, State.locked, State.setPull, hb, h b]

/-! ### The parallel write sequencer -/

theorem pinWrites_ends (l : List (PinId × Level)) (h : s.Unlocked) : (pinWrites l s).Ends := by
  induction l generalizing s with
  | nil => exact h
  | cons e l ih => exact (pinWrite_ends h e.1 e.2).bind fun _ _ ht => ih ht

theorem wrPulse_ends (h : s.Unlocked) : (wrPulse s).Ends := by
  refine (pinWrite_ends h _ _).bind fun _ t ht => ?_
  exact (pinWrite_ends (s := t.delayed t.cfg.tWrLow) ht _ _).bind fun _ _ hu => hu

theorem xferBytes_ends (l : List Byte) (j : Nat) (h : s.Unlocked) : (xferBytes j l s).Ends := by
  induction l generalizing j s with
  | nil => exact h
  | cons b l ih =>
    refine Res.Ends.bind (pinWrites_ends (s := { s with pbyte := BitVec.ofNat 1 j, pstep := .four }) _ h) fun _ t ht => ?_
    exact (wrPulse_ends (s := { t with pstep := .five }) ht).bind fun _ _ hu => ih (j + 1) hu

theorem deassertRead_ends (h : s.Unlocked) : (deassertRead s).Ends := by
  unfold deassertRead
  split
  · exact pinWrite_ends h _ _
  · exact h

theorem busXfer_ends (rs : Level) (l : List Byte) (h : s.Unlocked) : (busXfer rs l s).Ends := by
  refine (seqCheck_ends h _ _).bind fun _ t ht => ?_
  refine (pinWrite_ends (s := { t with pstep := .one }) ht _ _).bind fun _ t ht => ?_
  refine (deassertRead_ends (s := { t with pstep := .two }) ht).bind fun _ t ht => ?_
  refine (pinWrite_ends (s := { t with pstep := .three }) ht _ _).bind fun _ t ht => ?_
  refine (xferBytes_ends l 0 ht).bind fun _ t ht => ?_
  exact (pinWrite_ends (s := { t with pstep := .six }) ht _ _).bind fun _ _ hu => hu

/-! ### The serial shifter, the filter and the resolver -/

theorem startFrame_ends (h : s.Unlocked) : (startFrame s).Ends := by
  refine (pinWrite_ends (s := { s with sstep := .start }) h _ _).bind fun _ t ht => ?_
  refine (pinWrite_ends ht _ _).bind fun _ t ht => ?_
  refine (pinWrite_ends ht _ _).bind fun _ t ht => ?_
  refine (pinWrite_ends ht _ _).bind fun _ t ht => ?_
  exact (pinWrite_ends ht _ _).bind fun _ _ hu => hu

theorem shiftOutBits_ends (l : List Level) (j : Nat) (h : s.Unlocked) : (shiftOutBits j l s).Ends := by
  induction l generalizing j s with
  | nil => exact h
  | cons v l ih =>
    refine (pinWrite_ends (s := { s with sbit := BitVec.ofNat 4 j }) h _ _).bind fun _ t ht => ?_
    refine (pinWrite_ends ht _ _).bind fun _ t ht => ?_
    exact (pinWrite_ends ht _ _).bind fun _ _ hu => ih (j + 1) hu

theorem shiftOut_ends (h : s.Unlocked) (b : Byte) : (shiftOut b s).Ends :=
  (shiftOutBits_ends (s := { s with sstep := .out }) _ 0 h).bind fun _ _ ht => ht

theorem shiftInBits_ends (n j : Nat) (h : s.Unlocked) : (shiftInBits j n s).Ends := by
  induction n generalizing j s with
  | zero => exact h
  | succ n ih =>
    refine (pinWrite_ends (s := { s with sbit := BitVec.ofNat 4 j }) h _ _).bind fun _ t ht => ?_
    refine (pinWrite_ends ht _ _).bind fun _ t ht => ?_
    exact (pinRead_ends ht _).bind fun v u hu => ih (s := { u with acc := shiftIn u.acc v }) (j + 1) hu

theorem shiftInto_ends (h : s.Unlocked) (n : Nat) : (shiftInto n s).Ends :=
  (shiftInBits_ends (s := { s with sstep := .input, acc := 0#12 }) n 0 h).bind fun _ _ ht => ht

theorem readChannel_ends (h : s.Unlocked) (c : Byte) : (readChannel c s).Ends := by
  refine (startFrame_ends h).bind fun _ t ht => ?_
  refine (shiftOut_ends ht c).bind fun _ t ht => ?_
  refine (shiftInto_ends (s := ({ t with sstep := .settle } : State).delayed t.cfg.tAdcSettle) ht _).bind fun _ t ht => ?_
  exact (pinWrite_ends (s := { t with sstep := .deselect }) ht _ _).bind fun _ _ hu => hu

theorem fillSamples_ends (c : Byte) (n i : Nat) (h : s.Unlocked) : (fillSamples c i n s).Ends := by
  induction n generalizing i s with
  | zero => exact h
  | succ n ih =>
    exact (readChannel_ends (s := { s with scnt := BitVec.ofNat 8 i }) h c).bind fun v t ht =>
      ih (s := t.storeSample i v) (i + 1) ht

theorem filterChannel_ends (h : s.Unlocked) (c : Byte) : (filterChannel c s).Ends :=
  (fillSamples_ends c _ 0 h).bind fun _ _ ht => ht

theorem filterCheck_ends (h : s.Unlocked) : (filterCheck s).Ends := by
  unfold filterCheck
  split
  · trivial
  · exact seqCheck_ends h _ _

theorem readPasses_ends (h : s.Unlocked) : (readPasses s).Ends := by
  refine (filterChannel_ends (s := { s with rpass := 0#2 }) h _).bind fun r t ht => ?_
  refine (filterChannel_ends (s := { t with x1 := r, rpass := 1#2 }) ht _).bind fun r t ht => ?_
  refine (filterChannel_ends (s := { t with y1 := r, rpass := 2#2 }) ht _).bind fun r t ht => ?_
  exact (filterChannel_ends (s := { t with x2 := r, rpass := 3#2 }) ht _).bind fun _ _ hu => hu

theorem resolveReadings_ends (h : s.Unlocked) : (resolveReadings s).Ends := by
  unfold resolveReadings
  split
  · exact h
  · trivial

end

/-! ### PINTPULSE -/

/-- An operation that does not end stopped at its first statement, or at a later one after going on. -/
theorem Res.bind_eq_stuck {α β : Type} {r : Res α} {f : α → State → Res β} {g : Fault} (h : r.bind f = .stuck g) :
    r = .stuck g ∨ ∃ a t, r = .ok a t ∧ f a t = .stuck g := by
  cases r with
  | ok a t => exact .inr ⟨a, t, rfl, h⟩
  | err => cases h
  | refused => cases h
  | stuck => cases h; exact .inl rfl

theorem pollUntil_eq_stuck {d : PinDescriptor} {x : Level} {s : State} {f : Fault} (h : pollUntil d x s = .stuck f) :
    f = .pollNeverEnds d.id := by
  unfold pollUntil at h
  split at h
  · split at h <;> cases h
    rfl
  · split at h
    · cases h
    · split at h <;> cases h
      rfl

/-- PINTPULSE takes no lock: it fails to end in one of its three polling phases. -/
theorem execPintpulse_fault {pin : PinId} {target : Level} {s : State} {f : Fault}
    (h : exec (.pintpulse pin target) s = .fault f) : f = .pollNeverEnds pin := by
  have hstuck := finish_eq_fault h
  obtain ⟨e, he⟩ | ⟨d, rfl, hd⟩ := pinCheck_cases pin s
  · rw [he] at hstuck; cases hstuck
  · rw [hd, Res.bind_ok] at hstuck
    obtain hrest | ⟨_, _, _, hstuck⟩ := Res.bind_eq_stuck hstuck
    · exact pollUntil_eq_stuck hrest
    obtain hpulse | ⟨_, _, _, hstuck⟩ := Res.bind_eq_stuck hstuck
    · exact pollUntil_eq_stuck hpulse
    obtain hend | ⟨_, _, _, hstuck⟩ := Res.bind_eq_stuck hstuck
    · exact pollUntil_eq_stuck hend
    · cases hstuck

/-! ### Every operation -/

/-- Where every lock is free, every operation but PINTPULSE ends. -/
theorem exec_ne_fault {i : Instr} {s : State} (hi : ∀ pin target, i ≠ .pintpulse pin target) (h : s.Unlocked) (f : Fault) :
    exec i s ≠ .fault f := by
  cases i with
  | sysinit => exact nofun
  | pindir pin dir =>
    refine finishUnit_ne_fault ((pinCheck_ends h pin).bind fun d t ht => ?_) f
    split
    · exact setDirection_ends ht d dir
    · trivial
  | pinwr pin v => exact finishUnit_ne_fault (pinWrite_ends h pin v) f
  | pinrd pin => exact finish_ne_fault ((pinRead_ends h pin).map _) f
  | pinpull pin m =>
    refine finishUnit_ne_fault ((pinCheck_ends h pin).bind fun d t ht => ?_) f
    split
    · split
      · exact pullSequence_ends ht d m
      · trivial
    · trivial
  | pintpulse pin x => exact absurd rfl (hi pin x)
  | pinclose pin =>
    refine finishUnit_ne_fault ?_ f
    split
    · split
      · trivial
      · intro b
        rw [State.closePin_eq]
        exact h b
    · trivial
  | pinwatch pin =>
    refine finishUnit_ne_fault ((pinCheck_ends h pin).bind fun _ _ _ => ?_) f
    split <;> trivial
  | wrcmd b => exact finishUnit_ne_fault (busXfer_ends _ _ h) f
  | wrdat8 b => exact finishUnit_ne_fault (busXfer_ends _ _ h) f
  | wrdat16 w => exact finishUnit_ne_fault (busXfer_ends _ _ h) f
  | rstpulse =>
    refine finishUnit_ne_fault ?_ f
    split
    · refine (seqCheck_ends h _ _).bind fun _ t ht => ?_
      refine (pinWrite_ends ht _ _).bind fun _ t ht => ?_
      exact (pinWrite_ends (s := t.delayed t.cfg.tRstLow) ht _ _).bind fun _ _ hu => hu
    · trivial
  | delay n => exact nofun
  | sstart => exact finishUnit_ne_fault ((seqCheck_ends h _ _).bind fun _ _ ht => startFrame_ends ht) f
  | shout b => exact finishUnit_ne_fault ((seqCheck_ends h _ _).bind fun _ _ ht => shiftOut_ends ht b) f
  | shin n =>
    refine finish_ne_fault ?_ f
    split
    · exact (seqCheck_ends h _ _).bind fun _ _ ht => (shiftInto_ends ht n).map _
    · trivial
  | rdch c =>
    exact finish_ne_fault ((seqCheck_ends h _ _).bind fun _ _ ht => (readChannel_ends ht c).map _) f
  | filt c =>
    exact finish_ne_fault ((filterCheck_ends h).bind fun _ _ ht => (filterChannel_ends ht c).map _) f
  | resolve =>
    exact finish_ne_fault ((filterCheck_ends h).bind fun _ _ ht => (readPasses_ends ht).bind fun _ _ hu =>
      resolveReadings_ends hu) f

/-- Settles O21: every operation but PINTPULSE ends (`exec_ne_fault`), and that one stops polling only. -/
theorem onlyPulsePollsForever : Obligations.OnlyPulsePollsForever := by
  intro i s f hlocks hf
  by_cases hi : ∃ pin target, i = .pintpulse pin target
  · obtain ⟨pin, target, rfl⟩ := hi
    exact ⟨pin, target, rfl, execPintpulse_fault hf⟩
  · exact absurd hf (exec_ne_fault (fun pin target h => hi ⟨pin, target, h⟩) hlocks f)

end Sys2Proof.Machine
end

section
/-! PINTPULSE (40_pin_layer.md R88): polling a line the block drives (O36), and the pulse on a line it does not drive (O35). -/

namespace Sys2Proof.Machine

/-! ### A line the block drives -/

/-- A sample drives no line. -/
theorem State.driven_sampled (s : State) (d e : PinDescriptor) : (s.sampled d).driven e = s.driven e := by
  unfold State.sampled; split <;> rfl

theorem pollUntil_driven_same {d : PinDescriptor} {x : Level} {s : State} (h : s.driven d = some x) :
    pollUntil d x s = .ok () (s.sampled d) := by
  simp [pollUntil, h]

theorem pollUntil_driven_other {d : PinDescriptor} {v x : Level} {s : State} (h : s.driven d = some v) (hv : v ≠ x) :
    pollUntil d x s = .stuck (.pollNeverEnds d.id) := by
  simp [pollUntil, h, hv]

/-- Settles O36: the line shows one level, so the rest before the pulse never comes, or the pulse never does. -/
theorem pintpulseOnDrivenLine : Obligations.PintpulseOnDrivenLine := by
  intro s pin d v target hi hd ho hv
  obtain rfl := Config.find_id hd
  have hdriven : (s.openPin d.id).driven d = some v := by
    rw [State.driven_openPin]; exact State.driven_eq_some ho hv
  show execPintpulse d.id target s = _
  rw [execPintpulse, pinCheck_ok hi hd, Res.bind_ok]
  by_cases hvt : v = target
  · have hne : v ≠ !target := by simp [hvt]
    rw [pollUntil_driven_other hdriven hne]; rfl
  · obtain rfl : v = !target := Bool.eq_not_of_ne hvt
    rw [pollUntil_driven_same hdriven, Res.bind_ok,
      pollUntil_driven_other (by rw [State.driven_sampled]; exact hdriven) hvt]
    rfl

/-! ### Polls of a line the block does not drive -/

/-- Polls of an undriven line at which the outside shows these levels. -/
def State.polled (d : PinDescriptor) : List Level → State → State
  | [], s => s
  | v :: l, s => State.polled d l (s.sampledAs d v)

theorem State.polled_append (d : PinDescriptor) (l m : List Level) (s : State) :
    s.polled d (l ++ m) = (s.polled d l).polled d m := by
  induction l generalizing s with
  | nil => rfl
  | cons v l ih => exact ih (s.sampledAs d v)

/-- On an undriven line a sample is a poll at which the outside shows its next level. -/
theorem State.sampled_of_undriven {s : State} {d : PinDescriptor} (h : s.driven d = none) :
    s.sampled d = s.sampledAs d s.nextLevel := by
  simp [State.sampled, State.sampledAs, State.inLevel_eq, h]

/-- One poll: its event, and the banks and registers it leaves alone. -/
theorem State.sampledAs_spec (s : State) (d : PinDescriptor) (v : Level) :
    RanEvents [.r d.id v] [] s (s.sampledAs d v) ∧ QuietButLevels s (s.sampledAs d v) :=
  ⟨{ trace := rfl
     latches := fun _ _ => rfl
     pins := fun _ => rfl
     flags := ⟨rfl, rfl⟩
     inputs := ⟨rfl, rfl, rfl⟩
     banks := fun _ => ⟨rfl, rfl, rfl, rfl, rfl⟩
     later := by simp [State.sampledAs, Event.least] },
   ⟨rfl, ⟨rfl, rfl, rfl, rfl, rfl, rfl, rfl, rfl⟩, ⟨rfl, rfl, rfl, rfl, rfl, rfl⟩⟩⟩

theorem QuietButLevels.trans {s t u : State} (h : QuietButLevels s t) (g : QuietButLevels t u) : QuietButLevels s u := by
  obtain ⟨h1, ⟨a1, a2, a3, a4, a5, a6, a7, a8⟩, ⟨b1, b2, b3, b4, b5, b6⟩⟩ := h
  obtain ⟨g1, ⟨c1, c2, c3, c4, c5, c6, c7, c8⟩, ⟨d1, d2, d3, d4, d5, d6⟩⟩ := g
  exact ⟨g1.trans h1,
    ⟨c1.trans a1, c2.trans a2, c3.trans a3, c4.trans a4, c5.trans a5, c6.trans a6, c7.trans a7, c8.trans a8⟩,
    ⟨d1.trans b1, d2.trans b2, d3.trans b3, d4.trans b4, d5.trans b5, d6.trans b6⟩⟩

theorem State.polled_ran (s : State) (d : PinDescriptor) (l : List Level) :
    RanEvents (l.map (.r d.id)) [] s (s.polled d l) ∧ QuietButLevels s (s.polled d l) := by
  induction l generalizing s with
  | nil =>
    exact ⟨RanEvents.of_same rfl rfl rfl rfl rfl rfl rfl rfl rfl, (Quiet.refl s).toQuietButLevels⟩
  | cons v l ih =>
    obtain ⟨hran, hquiet⟩ := s.sampledAs_spec d v
    obtain ⟨iran, iquiet⟩ := ih (s.sampledAs d v)
    exact ⟨hran.trans iran, hquiet.trans iquiet⟩

/-- Polls write no bank and drive no line, and use up one level and one gap of the clock each. -/
theorem State.polled_inputs (s : State) (d : PinDescriptor) (l : List Level) :
    (s.polled d l).banks = s.banks ∧ (s.polled d l).driven d = s.driven d ∧
      (s.polled d l).levels = s.levels.drop l.length ∧ (s.polled d l).clock = s.clock.drop l.length := by
  induction l generalizing s with
  | nil => exact ⟨rfl, rfl, rfl, rfl⟩
  | cons v l ih =>
    obtain ⟨hbanks, hdriven, hlevels, hclock⟩ := ih (s.sampledAs d v)
    refine ⟨hbanks, hdriven, hlevels.trans ?_, hclock.trans ?_⟩
    · show s.levels.tail.drop l.length = _
      rw [List.drop_tail, List.length_cons]
    · show s.clock.tail.drop l.length = _
      rw [List.drop_tail, List.length_cons]

/-- Where the clock is given, polls take the time it runs (10_state.md R27). -/
theorem State.polled_now {s : State} (d : PinDescriptor) {l : List Level} (h : l.length ≤ s.clock.length) :
    (s.polled d l).now = s.now + (s.clock.take l.length).sum := by
  induction l generalizing s with
  | nil => simp [State.polled]
  | cons v l ih =>
    obtain ⟨n, c, hc⟩ : ∃ n c, s.clock = n :: c := List.exists_cons_of_length_pos (Nat.lt_of_lt_of_le (Nat.succ_pos _) h)
    have hclock : (s.sampledAs d v).clock = c := by
      show s.clock.tail = c
      rw [hc, List.tail_cons]
    have hgap : ((s.memRead d.bank .level).takeLevel).gap = n := by
      show s.clock.head?.getD _ = n
      rw [hc]; rfl
    have hnow : (s.sampledAs d v).now = s.now + n := by
      show s.now + 0 + ((s.memRead d.bank .level).takeLevel).gap = _
      rw [hgap, Nat.add_zero]
    have hlen : l.length ≤ (s.sampledAs d v).clock.length := by
      rw [hc] at h; rw [hclock]; simpa using h
    show ((s.sampledAs d v).polled d l).now = _
    rw [ih hlen, hnow, hclock, hc, List.length_cons, List.take_succ_cons, List.sum_cons, Nat.add_assoc]

/-! ### One phase of the pulse -/

/-- The levels one phase reads: the other level `k` times, then the awaited one. -/
def phaseLevels (x : Level) (k : Nat) : List Level := List.replicate k (!x) ++ [x]

theorem phaseLevels_length (x : Level) (k : Nat) : (phaseLevels x k).length = k + 1 := by simp [phaseLevels]

theorem pollSupplied_phase {d : PinDescriptor} {x : Level} {k : Nat} {rest : List Level} (m : Nat) {s : State}
    (hd : s.driven d = none) (hl : s.levels = phaseLevels x k ++ rest) :
    pollSupplied d x (k + 1 + m) s = (true, s.polled d (phaseLevels x k)) := by
  induction k generalizing s with
  | zero =>
    have hnext : s.nextLevel = x := s.nextLevel_supplied x rest hl
    simp [Nat.add_comm 1 m, pollSupplied, State.inLevel_eq, State.sampled_of_undriven hd, hd, hnext, phaseLevels, State.polled]
  | succ k ih =>
    have hcons : phaseLevels x (k + 1) = (!x) :: phaseLevels x k := rfl
    rw [hcons] at hl ⊢
    have hnext : s.nextLevel = !x := s.nextLevel_supplied _ _ hl
    have htail : (s.sampledAs d (!x)).levels = phaseLevels x k ++ rest := by
      show s.levels.tail = _
      rw [hl]; rfl
    have hne : s.inLevel d ≠ x := by simp [State.inLevel_eq, hd, hnext]
    rw [show k + 1 + 1 + m = (k + 1 + m) + 1 by omega, pollSupplied, if_neg hne, State.sampled_of_undriven hd, hnext]
    exact ih hd htail

/-- A phase ends at the first awaited level that the outside supplies, having read exactly the levels up to it. -/
theorem pollUntil_phase {d : PinDescriptor} {x : Level} {k : Nat} {rest : List Level} {s : State}
    (hd : s.driven d = none) (hl : s.levels = phaseLevels x k ++ rest) :
    pollUntil d x s = .ok () (s.polled d (phaseLevels x k)) ∧ (s.polled d (phaseLevels x k)).driven d = none ∧
      (s.polled d (phaseLevels x k)).levels = rest := by
  obtain ⟨-, hdriven, hlevels, -⟩ := s.polled_inputs d (phaseLevels x k)
  have hlen : s.levels.length = k + 1 + rest.length := by rw [hl, List.length_append, phaseLevels_length]
  refine ⟨?_, hdriven.trans hd, by rw [hlevels, hl, List.drop_left]⟩
  simp only [pollUntil, hd, hlen, pollSupplied_phase rest.length hd hl]

/-! ### The pulse -/

/-- PINTPULSE on an undriven line whose supplied levels show a rest, a pulse and a rest: three phases, and the time from the end of
the second to the end of the third. -/
theorem execPintpulse_phases {s : State} {d : PinDescriptor} {target : Level} {a b c : Nat} {rest : List Level}
    (hi : s.initialized = true) (hd : s.cfg.find d.id = some d) (hdriven : s.driven d = none)
    (hl : s.levels = phaseLevels (!target) a ++ (phaseLevels target b ++ (phaseLevels (!target) c ++ rest))) :
    let began := (s.openPin d.id).polled d (phaseLevels (!target) a ++ phaseLevels target b)
    let ended := began.polled d (phaseLevels (!target) c)
    exec (.pintpulse d.id target) s = .next (ended.succeed (.duration (ended.now - began.now))) ∧ ended.levels = rest := by
  obtain ⟨h1, hd1, hl1⟩ := pollUntil_phase (s := s.openPin d.id) (by rw [State.driven_openPin]; exact hdriven)
    (by rw [State.openPin_eq]; exact hl)
  obtain ⟨h2, hd2, hl2⟩ := pollUntil_phase hd1 hl1
  obtain ⟨h3, -, hl3⟩ := pollUntil_phase hd2 hl2
  refine ⟨?_, by rw [State.polled_append]; exact hl3⟩
  show execPintpulse d.id target s = _
  rw [execPintpulse, pinCheck_ok hi hd, Res.bind_ok, h1, Res.bind_ok, h2, Res.bind_ok, h3, Res.bind_ok, finish_ok,
    State.polled_append]

/-- Settles O35: the levels are those of three phases (`execPintpulse_phases`); the polls of the third take the time it returns. -/
theorem pintpulseMeasures : Obligations.PintpulseMeasures := by
  intro s pin target a b c rest hi hfind ho hl
  obtain ⟨d, hd⟩ := Option.isSome_iff_exists.mp hfind
  obtain rfl := Config.find_id hd
  obtain ⟨hexec, hrest⟩ := execPintpulse_phases (a := a) (b := b) (c := c) (rest := rest) hi hd
    (State.driven_eq_none (.inl ho)) (by simpa [phaseLevels] using hl)
  set before := phaseLevels (!target) a ++ phaseLevels target b with hbefore
  set began := (s.openPin d.id).polled d before
  have hlist : List.replicate a target ++ (!target) :: (List.replicate b (!target) ++ target ::
      (List.replicate c target ++ [!target])) = before ++ phaseLevels (!target) c := by
    simp [hbefore, phaseLevels]
  obtain ⟨hopen, hquiet⟩ := s.openPin_ran d.id
  obtain ⟨hran, hpolled⟩ := (s.openPin d.id).polled_ran d (before ++ phaseLevels (!target) c)
  obtain ⟨hbanks, -⟩ := (s.openPin d.id).polled_inputs d (before ++ phaseLevels (!target) c)
  rw [State.polled_append] at hran hpolled hbanks
  obtain ⟨-, hwork, hcounters⟩ := hquiet.toQuietButLevels.trans hpolled
  refine ⟨_, _, hexec, rfl, ?_, hrest, ?_, hwork.succeed _, hcounters.succeed _, fun hclock => ?_⟩
  · rw [hlist]
    exact ((hopen.trans hran).congr (by simp) (by simp)).succeed _
  · rw [State.succeed_banks, hbanks, State.openPin_eq]
  · obtain ⟨-, -, -, hbegan⟩ := (s.openPin d.id).polled_inputs d before
    have hlength : before.length = a + b + 2 := by
      rw [hbefore, List.length_append, phaseLevels_length, phaseLevels_length]; omega
    have hgaps : began.clock = s.clock.drop (a + b + 2) := by rw [hbegan, hlength, State.openPin_eq]
    rw [State.polled_now d (by rw [phaseLevels_length, hgaps, List.length_drop]; omega), Nat.add_sub_cancel_left,
      phaseLevels_length, hgaps]

end Sys2Proof.Machine
end

section
/-! The operations of the parallel bus from a bus that is ready: the transactions (41_parallel_bus.md R100 to R103: O39), RSTPULSE
(R104: O43) and DELAY (R105: O44). -/

namespace Sys2Proof.Machine

/-! ### Transactions -/

/-- WRCMD, WRDAT8 and WRDAT16 are transactions of at least one byte. -/
theorem exec_of_transaction {i : Instr} {rs : Level} {bytes : List Byte} (h : i.transaction = some (rs, bytes)) (s : State) :
    exec i s = finishUnit (busXfer rs bytes s) ∧ bytes ≠ [] := by
  cases i with
  | wrcmd | wrdat8 | wrdat16 => cases h; exact ⟨rfl, by simp⟩
  | _ => cases h

/-- Settles O39: the transaction is `busXfer_ok`, and handing out the outcome changes no other register. -/
theorem transactionsRun : Obligations.TransactionsRun := by
  intro i s rs bytes hready hi
  obtain ⟨hexec, hbytes⟩ := exec_of_transaction hi s
  obtain ⟨t, ht, hbus, hpstep, hpbyte⟩ := busXfer_ok rs bytes s hbytes hready
  refine ⟨t.succeed .nothing, by rw [hexec, ht, finishUnit_ok], ?_, hpstep, hpbyte, hbus.quiet.sstep, hbus.quiet.sbit,
    hbus.quiet.scnt, hbus.quiet.rpass⟩
  exact ⟨hbus.ran.succeed _, rfl, hbus.quiet.levels, hbus.quiet.work.succeed _⟩

/-! ### RSTPULSE -/

/-- The register of an output role is the `OUT` bit of its pin (10_state.md R16, R21). -/
theorem State.roleLine_eq_line {s : State} {r : Role} {id : PinId} (hr : rolePin s.cfg r = some id)
    (hi : r.isInput = false) : s.roleLine r = s.line id := by
  simp [State.roleLine, hr, hi]

theorem State.line_eq_latch {s : State} {id : PinId} {d : PinDescriptor} (hd : s.cfg.find id = some d) :
    s.line id = s.latch d.bank d.bit := by
  simp [State.line, hd]

theorem State.resetReady_spec {s : State} (h : s.resetReady = true) :
    s.cfg.hasRst = true ∧ s.drivable s.cfg.bus.rst = true := by
  simpa [State.resetReady] using h

/-- The writes and the waits of RSTPULSE on a line that can be driven (41_parallel_bus.md R104). -/
theorem execRstpulse_ran {s : State} (h : s.resetReady = true) :
    ∃ t, exec .rstpulse s = .next (t.succeed .nothing) ∧ RanEvents (resetTrace s.cfg) [s.cfg.bus.rst] s t ∧ Quiet s t := by
  obtain ⟨hrst, hdrive⟩ := State.resetReady_spec h
  obtain ⟨hinit, -, hdir, -⟩ := State.drivable_spec hdrive
  obtain ⟨t, ht, rt, qt⟩ := pinWrite_ok false hdrive
  have r1 := rt.trans (delayed_ran t t.cfg.tRstLow)
  have hcfg : t.cfg = s.cfg := rt.inputs.cfg
  obtain ⟨u, hu, ru, qu⟩ := pinWrite_ok true ((r1.drivable s.cfg.bus.rst).trans hdrive)
  have r2 := (r1.trans ru).trans (delayed_ran u u.cfg.tRstSettle)
  have hcfg' : u.cfg = s.cfg := (r1.trans ru).inputs.cfg
  refine ⟨u.delayed u.cfg.tRstSettle, ?_, r2.congr ?_ (by simp),
    ((qt.trans (delayed_quiet _ _)).trans qu).trans (delayed_quiet _ _)⟩
  · have hseq : seqCheck [s.cfg.bus.rst] [] s = .ok () s := seqCheck_ok hinit (by simpa using hdir) (by simp)
    simp only [exec, execRstpulse, hrst, if_true, hseq, ht, Res.bind_ok, State.delayed_cfg]
    rw [← hcfg] at hu
    rw [hu]; rfl
  · simp [resetTrace, hcfg, hcfg']

/-- Settles O43: `execRstpulse_ran`; the last write to RST drove it high. -/
theorem rstpulseRuns : Obligations.RstpulseRuns := by
  intro s h
  obtain ⟨t, ht, hran, hquiet⟩ := execRstpulse_ran h
  obtain ⟨hrst, hdrive⟩ := State.resetReady_spec h
  obtain ⟨-, ⟨d, hd, -⟩, -⟩ := State.drivable_spec hdrive
  refine ⟨_, ht, hran.wroteOnly hquiet, hquiet.counters.succeed _, ?_⟩
  have hcfg : (t.succeed .nothing).cfg = s.cfg := hran.inputs.cfg
  rw [State.roleLine_eq_line (id := s.cfg.bus.rst) (by rw [hcfg]; simp [rolePin, hrst]) rfl,
    State.line_eq_latch (by rw [hcfg]; exact hd), (hran.succeed .nothing).latches]
  simp [resetTrace, latchAfter, hd]

/-! ### DELAY -/

/-- What DELAY leaves, in every state (41_parallel_bus.md R105). -/
theorem exec_delay (n : Nat) (s : State) :
    exec (.delay n) s = .next ((s.delayed (microseconds n)).succeed .nothing) := rfl

/-- Settles O44: the word is the one the encoder writes, and the next state is that of `exec_delay`. -/
theorem delayRuns : Obligations.DelayRuns := by
  intro s n
  refine ⟨fun hn => ?_, _, exec_delay n s, rfl, Nat.le_add_right _ _⟩
  have hword : BitVec.ofNat 32 (0x14000000 + n) = encode (.delay n) := by
    apply BitVec.eq_of_toNat_eq
    rw [encode, word24_toNat]
    simp only [BitVec.toNat_ofNat]
    omega
  rw [hword]
  exact decodeReadsEncode (.delay n) (by simpa [Instr.wellFormed] using hn)

end Sys2Proof.Machine
end

section
/-! What a transaction that returned `Ok` leaves on the bus lines (41_parallel_bus.md R110: O40) and in the LCD controller (R109:
O41). -/

namespace Sys2Proof.Machine

/-! ### An operation that went on could drive its pins -/

/-- What a run that keeps every pin as drivable as it was tells of the state before it: these pins could be driven. -/
structure Drove (pins : List PinId) (s t : State) : Prop where
  cfg : t.cfg = s.cfg
  keeps : ∀ p, t.drivable p = s.drivable p
  drivable : ∀ p ∈ pins, s.drivable p = true

/-- If the operation went on, it could drive these pins. -/
def Res.Drove {α : Type} (pins : List PinId) (s : State) (r : Res α) : Prop := ∀ a t, r = .ok a t → Machine.Drove pins s t

section
variable {α β : Type} {s : State} {p q : List PinId}

theorem Res.Drove.bind {r : Res α} {f : α → State → Res β} (h : r.Drove p s)
    (g : ∀ a t, t.cfg = s.cfg → (f a t).Drove q t) : (r.bind f).Drove (p ++ q) s := by
  intro b u hb
  obtain ⟨a, t, ha, hu⟩ := Res.bind_eq_ok hb
  have ht := h a t ha
  have hu := g a t ht.cfg b u hu
  refine ⟨hu.cfg.trans ht.cfg, fun x => (hu.keeps x).trans (ht.keeps x), fun x hx => ?_⟩
  rcases List.mem_append.mp hx with hx | hx
  · exact ht.drivable x hx
  · rw [← ht.keeps]; exact hu.drivable x hx

theorem Res.Drove.mono {r : Res α} (h : r.Drove p s) (hq : ∀ x ∈ q, x ∈ p) : r.Drove q s := fun a t ha =>
  { h a t ha with drivable := fun x hx => (h a t ha).drivable x (hq x hx) }

end

/-- A step that touches neither the pins nor the flags. -/
theorem Drove.same {s t : State} (hcfg : t.cfg = s.cfg) (hkeeps : ∀ p, t.drivable p = s.drivable p) : Drove [] s t :=
  ⟨hcfg, hkeeps, by simp⟩

theorem Res.drove_ok {s t : State} (hcfg : t.cfg = s.cfg) (hkeeps : ∀ p, t.drivable p = s.drivable p) :
    (Res.ok () t).Drove [] s := by
  intro _ _ h; cases h; exact .same hcfg hkeeps

/-- `PinWrite` goes on only where the pin can be driven (40_pin_layer.md R84). -/
theorem drivable_of_pinWrite {id : PinId} {v : Level} {s t : State} (h : pinWrite id v s = .ok () t) :
    s.drivable id = true := by
  obtain ⟨d, u, hu, hrest⟩ := Res.bind_eq_ok h
  obtain ⟨hi, hd, rfl, -⟩ := pinCheck_eq_ok hu
  split at hrest
  · next hw =>
    split at hrest
    · next ho =>
      rcases writeLine_cases d v (s.openPin id) with ⟨hl, -⟩ | hl
      · have hdir : (s.pin id).dir = .output := by rw [← State.dir_openPin s id]; exact ho
        have hlev : (s.cfg.writableOf id).level = true := by rw [← State.openPin_cfg s id]; exact hw
        have hlock : s.cfg.writeStyle = .setClear ∨ (s.bank d.bank).lock = .free := by simpa using hl
        simpa [State.drivable, State.lockFree, hi, hd, hdir, hlev] using hlock
      · rw [hl] at hrest; cases hrest
    · cases hrest
  · cases hrest

theorem pinWrite_drove (id : PinId) (v : Level) (s : State) : (pinWrite id v s).Drove [id] s := by
  intro a t h
  have hid := drivable_of_pinWrite h
  obtain ⟨u, hu, hran, -⟩ := pinWrite_ok v hid
  rw [hu] at h; cases h
  exact ⟨hran.inputs.cfg, hran.drivable, by simpa using hid⟩

theorem pinWrites_drove (l : List (PinId × Level)) (s : State) : (pinWrites l s).Drove (l.map (·.1)) s := by
  induction l generalizing s with
  | nil => exact Res.drove_ok rfl fun _ => rfl
  | cons e l ih => exact (pinWrite_drove e.1 e.2 s).bind fun _ t _ => ih t

/-- A step of the counters, or a wait, before what follows. -/
theorem Res.Drove.from {α : Type} {p : List PinId} {s u : State} {r : Res α} (h : r.Drove p u) (hcfg : u.cfg = s.cfg)
    (hkeeps : ∀ x, u.drivable x = s.drivable x) : r.Drove p s := fun a t ha =>
  have ht := h a t ha
  ⟨ht.cfg.trans hcfg, fun x => (ht.keeps x).trans (hkeeps x), fun x hx => (hkeeps x).symm.trans (ht.drivable x hx)⟩

theorem wrPulse_drove {c : Config} {s : State} (hc : s.cfg = c) : (wrPulse s).Drove [c.bus.wr] s := by
  subst hc
  refine Res.Drove.mono (p := [s.cfg.bus.wr] ++ ([s.cfg.bus.wr] ++ [])) ?_ (by simp)
  refine (pinWrite_drove _ false s).bind fun _ t ht => ?_
  rw [← ht]
  exact Res.Drove.bind (.from (pinWrite_drove t.cfg.bus.wr true (t.delayed t.cfg.tWrLow)) rfl fun _ => rfl) fun _ u _ =>
    Res.drove_ok rfl fun _ => rfl

theorem driveData_drove {c : Config} {s : State} (b : Byte) (hc : s.cfg = c) : (driveData b s).Drove c.bus.db s := by
  subst hc; exact pinWrites_drove (s.cfg.bus.db.zip (bitsLowFirst b)) s

theorem xferBytes_drove {c : Config} (l : List Byte) (j : Nat) {s : State} (hc : s.cfg = c) :
    (xferBytes j l s).Drove (l.flatMap fun _ => c.bus.db ++ [c.bus.wr]) s := by
  induction l generalizing j s with
  | nil => exact Res.drove_ok rfl fun _ => rfl
  | cons b l ih =>
    rw [List.flatMap_cons, List.append_assoc]
    refine Res.Drove.bind (.from (driveData_drove b hc) rfl fun _ => rfl) fun _ t ht => ?_
    exact Res.Drove.bind (.from (wrPulse_drove (ht.trans hc)) rfl fun _ => rfl) fun _ u hu => ih (j + 1) (hu.trans (ht.trans hc))

theorem deassertRead_drove {c : Config} {s : State} (hc : s.cfg = c) :
    (deassertRead s).Drove (if c.hasRd then [c.bus.rd] else []) s := by
  subst hc
  unfold deassertRead
  split
  · exact pinWrite_drove _ _ s
  · exact Res.drove_ok rfl fun _ => rfl

theorem seqCheck_drove (outs ins : List PinId) (s : State) : (seqCheck outs ins s).Drove [] s := by
  intro _ t h
  unfold seqCheck at h
  split at h
  · split at h
    · cases h; exact .same rfl fun _ => rfl
    · cases h
  · cases h

/-- A transaction that goes on to its end drives CS, RD where it is wired, RS, and the data lines and WR for every byte. -/
theorem busXfer_drove {c : Config} (rs : Level) (bytes : List Byte) {s : State} (hc : s.cfg = c) :
    (busXfer rs bytes s).Drove ([c.bus.cs] ++ ((if c.hasRd then [c.bus.rd] else []) ++ ([c.bus.rs] ++
      ((bytes.flatMap fun _ => c.bus.db ++ [c.bus.wr]) ++ [])))) s := by
  refine (seqCheck_drove _ [] s).bind (q := [c.bus.cs] ++ _) fun _ t ht => ?_
  rw [← hc, ← ht]
  refine Res.Drove.bind (.from (pinWrite_drove t.cfg.bus.cs false _) rfl fun _ => rfl) fun _ u hu => ?_
  refine Res.Drove.bind (.from (deassertRead_drove hu) rfl fun _ => rfl) fun _ v hv => ?_
  rw [← hu, ← hv]
  refine Res.Drove.bind (.from (pinWrite_drove v.cfg.bus.rs rs _) rfl fun _ => rfl) fun _ w hw => ?_
  refine (xferBytes_drove bytes 0 hw).bind fun _ x _ => ?_
  refine Res.Drove.mono (p := [x.cfg.bus.cs] ++ []) ?_ (by simp)
  exact Res.Drove.bind (.from (pinWrite_drove x.cfg.bus.cs true _) rfl fun _ => rfl) fun _ y _ =>
    Res.drove_ok rfl fun _ => rfl

/-- A transaction of at least one byte that goes on to its end finds its bus ready. -/
theorem busReady_of_busXfer {rs : Level} {bytes : List Byte} {s t : State} (hb : bytes ≠ [])
    (h : busXfer rs bytes s = .ok () t) : s.busReady = true := by
  have hdrive := (busXfer_drove rs bytes rfl () t h).drivable
  refine List.all_eq_true.mpr fun p hp => hdrive p ?_
  simp only [Config.busOuts, List.mem_append, List.mem_cons, List.not_mem_nil, or_false] at hp
  simp only [List.mem_append, List.mem_flatMap, List.mem_singleton, List.not_mem_nil, or_false, exists_and_right,
    List.exists_mem_of_ne_nil bytes hb, true_and]
  tauto

/-- A transaction that returned `Ok` is the one of `TransactionsRun`: its whole trace, and idle counters. -/
theorem wroteOnly_of_transaction {i : Instr} {s t : State} {rs : Level} {bytes : List Byte}
    (hi : i.transaction = some (rs, bytes)) (hexec : exec i s = .next t) (hok : t.outcome = some (.ok .nothing)) :
    WroteOnly (transactionTrace s.cfg rs bytes) s.cfg.busOuts s t ∧ t.pstep = .idle := by
  obtain ⟨hxfer, hbytes⟩ := exec_of_transaction hi s
  have hready : s.busReady = true := by
    rw [hxfer] at hexec
    cases hr : busXfer rs bytes s with
    | ok a u => exact busReady_of_busXfer hbytes hr
    | err e info u => rw [hr] at hexec; cases hexec; cases hok
    | refused why u => rw [hr] at hexec; cases hexec
    | stuck f => rw [hr] at hexec; cases hexec
  obtain ⟨u, hu, hwrote, hpstep, -⟩ := transactionsRun i s rs bytes hready hi
  rw [hu] at hexec; cases hexec
  exact ⟨hwrote, hpstep⟩

/-! ### The level of one pin in a trace -/

/-- The level a pin holds after events, from the level it held before them. -/
def levelFrom (p : PinId) (before : Option Level) (tr : List Event) : Option Level := tr.foldl (levelStep p) before

theorem levelAfter_append (p : PinId) (tr ev : List Event) : levelAfter p (tr ++ ev) = levelFrom p (levelAfter p tr) ev :=
  List.foldl_append

theorem levelFrom_append (p : PinId) (before : Option Level) (e f : List Event) :
    levelFrom p before (e ++ f) = levelFrom p (levelFrom p before e) f := List.foldl_append

@[simp] theorem drivenPins_nil : drivenPins [] = [] := rfl
@[simp] theorem drivenPins_w (p : PinId) (v : Level) (l : List Event) : drivenPins (.w p v :: l) = p :: drivenPins l := rfl
@[simp] theorem drivenPins_r (p : PinId) (v : Level) (l : List Event) : drivenPins (.r p v :: l) = drivenPins l := rfl
@[simp] theorem drivenPins_d (t : Nat) (l : List Event) : drivenPins (.d t :: l) = drivenPins l := rfl

@[simp] theorem drivenPins_append (e f : List Event) : drivenPins (e ++ f) = drivenPins e ++ drivenPins f :=
  List.flatMap_append

theorem drivenPins_flatMap {α : Type} (g : α → List Event) (l : List α) :
    drivenPins (l.flatMap g) = l.flatMap fun a => drivenPins (g a) := List.flatMap_assoc

/-- Events that do not drive a pin leave its level. -/
theorem levelFrom_of_not_driven {p : PinId} (before : Option Level) {ev : List Event} (h : p ∉ drivenPins ev) :
    levelFrom p before ev = before := by
  induction ev with
  | nil => rfl
  | cons e ev ih =>
    cases e with
    | w q v =>
      obtain ⟨hq, hp⟩ : p ≠ q ∧ p ∉ drivenPins ev := by simpa using h
      exact (congrArg (levelFrom p · ev) (if_neg hq.symm)).trans (ih hp)
    | r => exact ih h
    | d => exact ih h

/-- A pin holds the level last driven onto it. -/
theorem levelFrom_last_write {p : PinId} (v : Level) (before : Option Level) (e : List Event) {f : List Event}
    (h : p ∉ drivenPins f) : levelFrom p before (e ++ .w p v :: f) = some v := by
  rw [levelFrom_append]
  exact (levelFrom_of_not_driven _ h).trans (if_pos rfl)

/-- On a well-formed map the latch of a pin holds the level last driven onto that pin: no other pin has its bit. -/
theorem latchAfter_eq_levelFrom {c : Config} (hc : c.wellFormed = true) {id : PinId} {d : PinDescriptor}
    (hd : c.find id = some d) (before : Option Level) (ev : List Event) :
    latchAfter c d.bank d.bit before ev = levelFrom id before ev := by
  have hpin : ∀ p, (c.find p).any (fun e => e.bank == d.bank && e.bit.val == d.bit.val) = true ↔ p = id := by
    intro p
    constructor
    · intro h
      obtain ⟨e, he, hbank, hbit⟩ : ∃ e, c.find p = some e ∧ e.bank = d.bank ∧ e.bit.val = d.bit.val := by
        simpa [Option.any_eq_true] using h
      exact Config.find_inj hc he hd hbank hbit
    · rintro rfl; simp [hd]
  induction ev generalizing before with
  | nil => rfl
  | cons e ev ih =>
    cases e with
    | w p v =>
      refine (ih _).trans (congrArg (levelFrom id · ev) ?_)
      simp only [hpin, levelStep]
    | r => exact ih _
    | d => exact ih _

/-- After a run the `OUT` bit of a registered pin is the level last driven onto that pin (10_state.md R12). -/
theorem RanEvents.line {ev : List Event} {used : List PinId} {s t : State} (h : RanEvents ev used s t)
    (hc : s.cfg.wellFormed = true) {id : PinId} (hid : (s.cfg.find id).isSome = true) :
    t.line id = levelFrom id (s.line id) ev := by
  obtain ⟨d, hd⟩ := Option.isSome_iff_exists.mp hid
  rw [State.line_eq_latch (s := t) (by rw [h.inputs.cfg]; exact hd), State.line_eq_latch hd, h.latches,
    latchAfter_eq_levelFrom hc hd]

/-- The same for the register of an output role (10_state.md R16, R21). -/
theorem RanEvents.roleLine {ev : List Event} {used : List PinId} {s t : State} (h : RanEvents ev used s t)
    (hc : s.cfg.wellFormed = true) {r : Role} {id : PinId} (hr : rolePin s.cfg r = some id) (hi : r.isInput = false) :
    t.roleLine r = levelFrom id (s.line id) ev := by
  have hreg : s.cfg.rolesRegistered = true := by simp only [Config.wellFormed, Bool.and_eq_true] at hc; tauto
  rw [State.roleLine_eq_line (s := t) (by rw [h.inputs.cfg]; exact hr) hi, h.line hc (Config.find_rolePin hreg hr)]

/-! ### The pins of a transaction -/

@[simp] theorem drivenPins_driveTrace (c : Config) (b : Byte) : drivenPins (driveTrace c b) = c.bus.db := rfl
@[simp] theorem drivenPins_strobeTrace (c : Config) : drivenPins (strobeTrace c) = [c.bus.wr, c.bus.wr] := rfl

/-- The lines of the bus are different pins (10_state.md R32). -/
theorem Config.busOuts_nodup {c : Config} (hc : c.wellFormed = true) :
    c.busOuts.Nodup ∧ (c.hasRst = true → c.bus.rst ∉ c.busOuts) := by
  have hdistinct : c.rolesDistinct = true := by simp only [Config.wellFormed, Bool.and_eq_true] at hc; tauto
  have hnodup := (allDistinct_iff_nodup _).mp hdistinct
  simp only [Config.rolePins, List.append_assoc] at hnodup
  obtain ⟨hbus, -, hdisjoint⟩ := List.nodup_append.mp hnodup
  exact ⟨hbus, fun hrst hmem => hdisjoint _ hmem _ (by simp [hrst]) rfl⟩

/-- The lines of the bus, told apart: what follows needs of the wiring. -/
structure BusLines (c : Config) : Prop where
  db : c.bus.db.Nodup
  wr : c.bus.wr ∉ c.bus.db
  rs : c.bus.rs ∉ c.bus.db
  cs : c.bus.cs ∉ c.bus.db
  rs_wr : c.bus.rs ≠ c.bus.wr
  cs_wr : c.bus.cs ≠ c.bus.wr
  cs_rs : c.bus.cs ≠ c.bus.rs
  rd : c.hasRd = true → c.bus.rd ∉ c.bus.db ∧ c.bus.rd ≠ c.bus.cs ∧ c.bus.rd ≠ c.bus.wr ∧ c.bus.rd ≠ c.bus.rs

theorem Config.busLines {c : Config} (hc : c.wellFormed = true) : BusLines c := by
  obtain ⟨h, -⟩ := Config.busOuts_nodup hc
  obtain ⟨hlines, -, hrd⟩ := List.nodup_append.mp h
  obtain ⟨hcontrol, hdb, hapart⟩ := List.nodup_append.mp hlines
  have hne : (c.bus.cs ≠ c.bus.wr ∧ c.bus.cs ≠ c.bus.rs) ∧ c.bus.wr ≠ c.bus.rs := by simpa using hcontrol
  refine ⟨hdb, fun hm => ?_, fun hm => ?_, fun hm => ?_, hne.2.symm, hne.1.1, hne.1.2, fun hwired => ?_⟩
  · exact hapart _ (by simp) _ hm rfl
  · exact hapart _ (by simp) _ hm rfl
  · exact hapart _ (by simp) _ hm rfl
  · have hne : ∀ p ∈ [c.bus.cs, c.bus.wr, c.bus.rs] ++ c.bus.db, p ≠ c.bus.rd := fun p hp => hrd p hp _ (by simp [hwired])
    exact ⟨fun hm => hne _ (by simp [hm]) rfl, (hne _ (by simp)).symm, (hne _ (by simp)).symm, (hne _ (by simp)).symm⟩

/-! ### The parts of a transaction -/

/-- Steps 1 to 3 of a transaction (41_parallel_bus.md R100). -/
def selectTrace (c : Config) (rs : Level) : List Event :=
  [Event.w c.bus.cs false] ++ (if c.hasRd then [Event.w c.bus.rd true] else []) ++ [Event.w c.bus.rs rs]

/-- Steps 4 and 5 of a transaction for one byte (41_parallel_bus.md R107, R108). -/
def byteTrace (c : Config) (b : Byte) : List Event := driveTrace c b ++ strobeTrace c

theorem transactionTrace_eq (c : Config) (rs : Level) (bytes : List Byte) :
    transactionTrace c rs bytes = selectTrace c rs ++ (bytes.flatMap (byteTrace c) ++ [Event.w c.bus.cs true]) :=
  List.append_assoc _ _ _

theorem mem_drivenPins_bytes {c : Config} {bytes : List Byte} {p : PinId} (h : p ∈ drivenPins (bytes.flatMap (byteTrace c))) :
    p ∈ c.bus.db ∨ p = c.bus.wr := by
  rw [drivenPins_flatMap, List.mem_flatMap] at h
  obtain ⟨b, -, hp⟩ := h
  simpa [byteTrace] using hp

/-- A transaction drives outputs of the bus only. -/
theorem drivenPins_transactionTrace (c : Config) (rs : Level) (bytes : List Byte) :
    ∀ p ∈ drivenPins (transactionTrace c rs bytes), p ∈ c.busOuts := by
  intro p hp
  rw [transactionTrace_eq, drivenPins_append, drivenPins_append, List.mem_append, List.mem_append] at hp
  obtain ⟨hcs, hwr, hrs, hdb, hrd⟩ := Config.mem_busOuts c
  rcases hp with hp | hp | hp
  · cases h : c.hasRd <;> simp [selectTrace, h] at hp
    · rcases hp with rfl | rfl
      exacts [hcs, hrs]
    · rcases hp with rfl | rfl | rfl
      exacts [hcs, hrd h, hrs]
  · rcases mem_drivenPins_bytes hp with hp | rfl
    exacts [hdb p hp, hwr]
  · rw [List.mem_singleton.mp hp]; exact hcs

/-! ### The lines after a transaction -/

/-- After step 4 the data lines hold the byte, line by line (41_parallel_bus.md R107). -/
theorem levelFrom_driveTrace {c : Config} (lines : BusLines c) (b : Byte) (before : PinId → Option Level) :
    (c.bus.db.map fun p => levelFrom p (before p) (driveTrace c b)) = (bitsLowFirst b).map some := by
  have h := lines.db
  simp only [BusConnection.db, List.nodup_cons, List.mem_cons, not_or, List.not_mem_nil, not_false_eq_true] at h
  simp [BusConnection.db, driveTrace, levelFrom, levelStep, bitsLowFirst, List.range_succ, h, eq_comm]

theorem levelFrom_transaction_cs (c : Config) (rs : Level) (bytes : List Byte) (before : Option Level) :
    levelFrom c.bus.cs before (transactionTrace c rs bytes) = some true := by
  rw [transactionTrace_eq, ← List.append_assoc]
  exact levelFrom_last_write true before _ (by simp)

theorem levelFrom_transaction_rd {c : Config} (lines : BusLines c) (hrd : c.hasRd = true) (rs : Level) (bytes : List Byte)
    (before : Option Level) : levelFrom c.bus.rd before (transactionTrace c rs bytes) = some true := by
  obtain ⟨hdb, hcs, hwr, hrs⟩ := lines.rd hrd
  rw [show transactionTrace c rs bytes = [Event.w c.bus.cs false] ++ .w c.bus.rd true :: (.w c.bus.rs rs ::
    (bytes.flatMap (byteTrace c) ++ [Event.w c.bus.cs true])) by simp [transactionTrace_eq, selectTrace, hrd]]
  refine levelFrom_last_write true before _ ?_
  simp only [drivenPins_w, drivenPins_append, drivenPins_nil, List.mem_cons, List.mem_append, List.not_mem_nil, or_false,
    not_or]
  exact ⟨hrs, fun hm => (mem_drivenPins_bytes hm).elim hdb hwr, hcs⟩

theorem levelFrom_transaction_rs {c : Config} (lines : BusLines c) (rs : Level) (bytes : List Byte) (before : Option Level) :
    levelFrom c.bus.rs before (transactionTrace c rs bytes) = some rs := by
  rw [transactionTrace_eq, selectTrace, List.append_assoc]
  refine levelFrom_last_write rs before _ (f := bytes.flatMap (byteTrace c) ++ [Event.w c.bus.cs true]) ?_
  rw [drivenPins_append, List.mem_append, not_or]
  exact ⟨fun hm => (mem_drivenPins_bytes hm).elim lines.rs lines.rs_wr, by simpa using lines.cs_rs.symm⟩

/-- A transaction up to its last byte, and what the last byte and the end of the transaction add. -/
theorem transactionTrace_append (c : Config) (rs : Level) (bytes : List Byte) (last : Byte) :
    transactionTrace c rs (bytes ++ [last]) =
      selectTrace c rs ++ bytes.flatMap (byteTrace c) ++
        (driveTrace c last ++ (strobeTrace c ++ [Event.w c.bus.cs true])) := by
  simp [transactionTrace_eq, byteTrace]

theorem levelFrom_transaction_wr {c : Config} (lines : BusLines c) (rs : Level) (bytes : List Byte) (last : Byte)
    (before : Option Level) : levelFrom c.bus.wr before (transactionTrace c rs (bytes ++ [last])) = some true := by
  rw [transactionTrace_append, levelFrom_append, levelFrom_append]
  exact levelFrom_last_write true _ [.w c.bus.wr false, .d c.tWrLow] (f := [.d c.tWrHigh, .w c.bus.cs true])
    (by simpa using lines.cs_wr.symm)

theorem levelFrom_transaction_db {c : Config} (lines : BusLines c) (rs : Level) (bytes : List Byte) (last : Byte)
    (before : PinId → Option Level) :
    (c.bus.db.map fun p => levelFrom p (before p) (transactionTrace c rs (bytes ++ [last]))) =
      (bitsLowFirst last).map some := by
  rw [← levelFrom_driveTrace lines last fun p => levelFrom p (before p) (selectTrace c rs ++ bytes.flatMap (byteTrace c))]
  refine List.map_congr_left fun p hp => ?_
  rw [transactionTrace_append, levelFrom_append, levelFrom_append]
  refine levelFrom_of_not_driven _ ?_
  have hwr : p ≠ c.bus.wr := fun h => lines.wr (h ▸ hp)
  have hcs : p ≠ c.bus.cs := fun h => lines.cs (h ▸ hp)
  simp [hwr, hcs]

/-- Settles O40: a transaction that returned `Ok` made its whole trace (`wroteOnly_of_transaction`), and each line holds what that
trace last drove onto it. -/
theorem busAfterTransaction : Obligations.BusAfterTransaction := by
  intro i s t rs bytes last hc hi hlast hexec hok
  obtain ⟨hwrote, hpstep⟩ := wroteOnly_of_transaction hi hexec hok
  obtain ⟨bytes, rfl⟩ := List.getLast?_eq_some_iff.mp hlast
  have lines := Config.busLines hc
  have hline : ∀ {r id}, rolePin s.cfg r = some id → r.isInput = false → t.roleLine r = levelFrom id (s.line id)
    (transactionTrace s.cfg rs (bytes ++ [last])) := fun hr hin => hwrote.ran.roleLine hc hr hin
  refine ⟨?_, ?_, fun hrd => ?_, ?_, ?_, hpstep, ?_⟩
  · exact (hline rfl rfl).trans (levelFrom_transaction_cs ..)
  · exact (hline rfl rfl).trans (levelFrom_transaction_wr lines ..)
  · exact (hline (r := .rd) (if_pos hrd) rfl).trans (levelFrom_transaction_rd lines hrd ..)
  · exact (hline rfl rfl).trans (levelFrom_transaction_rs lines ..)
  · rw [← levelFrom_transaction_db lines rs bytes last s.line]
    simp only [BusConnection.db, List.map_cons, List.map_nil, hline (r := .db0) rfl rfl, hline (r := .db1) rfl rfl,
      hline (r := .db2) rfl rfl, hline (r := .db3) rfl rfl, hline (r := .db4) rfl rfl, hline (r := .db5) rfl rfl,
      hline (r := .db6) rfl rfl, hline (r := .db7) rfl rfl]
  · cases hrst : s.cfg.hasRst with
    | false => simp [State.roleLine, rolePin, hwrote.ran.inputs.cfg, hrst]
    | true =>
      have hpin : rolePin s.cfg .rst = some s.cfg.bus.rst := if_pos hrst
      rw [hline hpin rfl, State.roleLine_eq_line hpin rfl]
      exact levelFrom_of_not_driven _ fun hm =>
        (Config.busOuts_nodup hc).2 hrst (drivenPins_transactionTrace _ _ _ _ hm)

/-! ### What the controller latches -/

theorem latchedFrom_append (b : BusConnection) (before e f : List Event) :
    latchedFrom b before (e ++ f) = latchedFrom b before e ++ latchedFrom b (before ++ e) f := by
  induction e generalizing before with
  | nil => simp [latchedFrom]
  | cons a e ih => simp only [List.cons_append, latchedFrom, ih, List.append_assoc]; rfl

theorem not_mem_of_not_driven {p : PinId} {ev : List Event} (h : p ∉ drivenPins ev) (v : Level) : Event.w p v ∉ ev :=
  fun hm => h (List.mem_flatMap.mpr ⟨_, hm, by simp⟩)

/-- Where WR is not driven high the controller latches nothing. -/
theorem latchedFrom_of_not_raised {b : BusConnection} (before : List Event) {ev : List Event} (h : Event.w b.wr true ∉ ev) :
    latchedFrom b before ev = [] := by
  induction ev generalizing before with
  | nil => rfl
  | cons e ev ih =>
    obtain ⟨hne, hev⟩ := not_or.mp (mt List.mem_cons.mpr h)
    simp [latchedFrom, risesSelected, beq_eq_false_iff_ne.mpr (Ne.symm hne), ih _ hev]

/-- Data lines that show the bits of a byte, the first the lowest, show that byte. -/
theorem dataLines_bitsLowFirst (b : Byte) : dataLines ((bitsLowFirst b).map some) = some b := by
  simp only [bitsLowFirst, List.range_succ, List.range_zero, List.nil_append, List.cons_append, List.map_cons, List.map_nil,
    dataLines, Option.map_some, Option.some.injEq]
  ext j hj
  interval_cases j <;> simp

/-- The bus selects the controller, with a level on RS. -/
structure BusSelected (b : BusConnection) (rs : Level) (tr : List Event) : Prop where
  cs : levelAfter b.cs tr = some false
  rs : levelAfter b.rs tr = some rs

/-- Events that drive neither CS nor RS leave the selection. -/
theorem BusSelected.append {b : BusConnection} {rs : Level} {tr ev : List Event} (h : BusSelected b rs tr)
    (hcs : b.cs ∉ drivenPins ev) (hrs : b.rs ∉ drivenPins ev) : BusSelected b rs (tr ++ ev) :=
  ⟨by rw [levelAfter_append, levelFrom_of_not_driven _ hcs, h.cs],
    by rw [levelAfter_append, levelFrom_of_not_driven _ hrs, h.rs]⟩

theorem busSelected_selectTrace {c : Config} (lines : BusLines c) (rs : Level) (tr : List Event) :
    BusSelected c.bus rs (tr ++ selectTrace c rs) := by
  constructor
  · rw [levelAfter_append, selectTrace, List.append_assoc]
    refine levelFrom_last_write false _ [] (f := (if c.hasRd then [Event.w c.bus.rd true] else []) ++ [Event.w c.bus.rs rs]) ?_
    cases hrd : c.hasRd with
    | false => simpa using lines.cs_rs
    | true => simpa [lines.cs_rs] using (lines.rd hrd).2.1.symm
  · rw [levelAfter_append, selectTrace]
    exact levelFrom_last_write rs _ _ (by simp)

theorem BusSelected.byte {c : Config} (lines : BusLines c) {rs : Level} {tr : List Event} (h : BusSelected c.bus rs tr)
    (b : Byte) : BusSelected c.bus rs (tr ++ byteTrace c b) :=
  h.append (by simpa [byteTrace] using ⟨lines.cs, lines.cs_wr⟩) (by simpa [byteTrace] using ⟨lines.rs, lines.rs_wr⟩)

/-- A rising edge of WR on a selected bus latches what the lines show. -/
theorem latchedFrom_rise {b : BusConnection} {rs : Level} {tr : List Event} {d : Byte} (h : BusSelected b rs tr)
    (hwr : levelAfter b.wr tr = some false) (hdata : (b.db.map fun p => levelAfter p tr) = (bitsLowFirst d).map some)
    (ev : List Event) :
    latchedFrom b tr (.w b.wr true :: ev) = some (rs, d) :: latchedFrom b (tr ++ [Event.w b.wr true]) ev := by
  simp [latchedFrom, risesSelected, hwr, h.cs, busPair, h.rs, hdata, dataLines_bitsLowFirst]

/-- One byte on a selected bus is latched once, with the level on RS, at the rising edge of WR (41_parallel_bus.md R109). -/
theorem latchedFrom_byteTrace {c : Config} (lines : BusLines c) {rs : Level} {tr : List Event}
    (h : BusSelected c.bus rs tr) (b : Byte) : latchedFrom c.bus tr (byteTrace c b) = [some (rs, b)] := by
  have hbyte : byteTrace c b =
      driveTrace c b ++ ([Event.w c.bus.wr false, .d c.tWrLow] ++ Event.w c.bus.wr true :: [.d c.tWrHigh]) := rfl
  have hsel := (h.append (ev := driveTrace c b) (by simpa using lines.cs) (by simpa using lines.rs)).append
    (ev := [.w c.bus.wr false, .d c.tWrLow]) (by simpa using lines.cs_wr) (by simpa using lines.rs_wr)
  have hlow : levelAfter c.bus.wr (tr ++ driveTrace c b ++ [Event.w c.bus.wr false, .d c.tWrLow]) = some false := by
    rw [levelAfter_append]; exact levelFrom_last_write false _ [] (by simp)
  have hdata : (c.bus.db.map fun p => levelAfter p (tr ++ driveTrace c b ++ [Event.w c.bus.wr false, .d c.tWrLow])) =
      (bitsLowFirst b).map some := by
    rw [← levelFrom_driveTrace lines b fun p => levelAfter p tr]
    refine List.map_congr_left fun p hp => ?_
    have hwr : p ≠ c.bus.wr := fun h => lines.wr (h ▸ hp)
    rw [levelAfter_append, levelAfter_append]
    exact levelFrom_of_not_driven _ (by simpa using hwr)
  rw [hbyte, latchedFrom_append, latchedFrom_of_not_raised tr (not_mem_of_not_driven (by simpa using lines.wr) true),
    latchedFrom_append, latchedFrom_of_not_raised _ (by simp), latchedFrom_rise hsel hlow hdata]
  simp [latchedFrom_of_not_raised]

theorem latchedFrom_bytes {c : Config} (lines : BusLines c) {rs : Level} (bytes : List Byte) {tr : List Event}
    (h : BusSelected c.bus rs tr) :
    latchedFrom c.bus tr (bytes.flatMap (byteTrace c)) = bytes.map fun b => some (rs, b) := by
  induction bytes generalizing tr with
  | nil => rfl
  | cons b bytes ih =>
    rw [List.flatMap_cons, latchedFrom_append, latchedFrom_byteTrace lines h, ih (h.byte lines b)]
    rfl

/-- A transaction is latched byte by byte, whatever the lines were before. -/
theorem latchedFrom_transactionTrace {c : Config} (lines : BusLines c) (rs : Level) (bytes : List Byte) (tr : List Event) :
    latchedFrom c.bus tr (transactionTrace c rs bytes) = bytes.map fun b => some (rs, b) := by
  have hselect : c.bus.wr ∉ drivenPins (selectTrace c rs) := by
    cases hrd : c.hasRd with
    | false => simpa [selectTrace, hrd] using ⟨lines.cs_wr.symm, lines.rs_wr.symm⟩
    | true => simpa [selectTrace, hrd] using ⟨lines.cs_wr.symm, (lines.rd hrd).2.2.1.symm, lines.rs_wr.symm⟩
  rw [transactionTrace_eq, latchedFrom_append, latchedFrom_append,
    latchedFrom_of_not_raised tr (not_mem_of_not_driven hselect true),
    latchedFrom_bytes lines bytes (busSelected_selectTrace lines rs tr),
    latchedFrom_of_not_raised _ (by simpa using lines.cs_wr.symm), List.append_nil, List.nil_append]

/-- Settles O41: what is latched goes on from the trace before with that of the transaction (`latchedFrom_transactionTrace`). -/
theorem controllerLatchesBytes : Obligations.ControllerLatchesBytes := by
  intro i s t rs bytes hc hi hexec hok
  obtain ⟨hwrote, -⟩ := wroteOnly_of_transaction hi hexec hok
  rw [latched, hwrote.ran.trace, latchedFrom_append, List.nil_append,
    latchedFrom_transactionTrace (Config.busLines hc)]
  rfl

end Sys2Proof.Machine
end

section
/-! The pseudo-operations INIT and DELAYMS (41_parallel_bus.md R106, 30_encoding.md R70): INIT plays its whole table (O45), and
stops at the first operation that is not `Ok` (O60). -/

namespace Sys2Proof.Machine

/-! ### Operations one after another -/

/-- A playback that stands at `Ok` after its first operations goes on with the rest. -/
theorem runAll_append {l m : List Instr} {s u : State} (h : runAll l s = .next u) (hu : u.lastOk = true) :
    runAll (l ++ m) s = runAll m u := by
  induction l generalizing s with
  | nil => cases h; rfl
  | cons i l ih =>
    rw [List.cons_append, runAll]
    rw [runAll] at h
    cases hi : exec i s with
    | next t =>
      rw [hi] at h
      cases ht : t.lastOk with
      | true =>
        simp only [ht, if_true] at h ⊢
        exact ih h
      | false =>
        simp only [ht, Bool.false_eq_true, if_false, Host.Outcome.next.injEq] at h
        rw [h, hu] at ht; cases ht
    | fault f => rw [hi] at h; cases h
    | refused r => rw [hi] at h; cases h

theorem runAll_singleton (i : Instr) (s : State) : runAll [i] s = exec i s := by
  rw [runAll]
  cases exec i s with
  | next t => simp [runAll]
  | fault => rfl
  | refused => rfl

/-! ### Which expansions have command words -/

theorem wellFormed_delay (m : Nat) : (Instr.delay (1000 * m)).wellFormed = true ↔ m ≤ 16777 := by
  simp only [Instr.wellFormed, decide_eq_true_eq]; omega

theorem InitEntry.expand_wellFormed (e : InitEntry) :
    e.expand.all Instr.wellFormed = true ↔ ∀ m, e = .wait m → m ≤ 16777 := by
  cases e with
  | cmd c ps => simp [InitEntry.expand, Instr.wellFormed]
  | wait m => simp [InitEntry.expand, wellFormed_delay]

/-- INIT has command words exactly when its waits have (30_encoding.md R70 (d)). -/
theorem legal_init_iff (c : Config) (seq : List InitEntry) : (Pseudo.init seq).legal c = true ↔ waitsFit seq := by
  have hreset : (if c.hasRst then [Instr.rstpulse] else []).all Instr.wellFormed = true := by
    split <;> rfl
  rw [Pseudo.legal, Pseudo.expand, List.all_append, hreset, Bool.true_and, List.all_flatMap, List.all_eq_true]
  simp only [InitEntry.expand_wellFormed]
  exact ⟨fun h m hm => h _ hm m rfl, fun h e he m hem => h m (hem ▸ he)⟩

theorem execPseudo_of_legal {p : Pseudo} {s : State} (h : p.legal s.cfg = true) :
    execPseudo p s = runAll (p.expand s.cfg) (s.succeed .nothing) := by
  rw [execPseudo, if_pos h]

theorem execPseudo_of_not_legal {p : Pseudo} {s : State} (h : ¬ p.legal s.cfg = true) :
    execPseudo p s = .refused (.operation .malformedCommand s.refuse) := by
  rw [execPseudo, if_neg h, refuseWord]

/-- Settles O60: the operations before the one that fails are played (`runAll_append`), and it ends the playback; DELAYMS is one
DELAY, which has a word up to 16777 ms. -/
theorem pseudoStops : Obligations.PseudoStops := by
  refine ⟨fun s u seq pre post i hfit hexpand hpre hok => ?_,
    fun s m => ⟨fun hm => ?_, fun hm => ⟨?_, fun seq hmem => ?_⟩⟩⟩
  · have hplay : execPseudo (.init seq) s = runAll (i :: post) u := by
      rw [execPseudo_of_legal ((legal_init_iff _ _).mpr hfit), hexpand, runAll_append hpre hok]
    refine ⟨fun t e info ht herr => ?_, fun r hr => ?_, fun f hf => ?_⟩
    · have hstop : t.lastOk = false := by rw [State.lastOk, herr]; rfl
      simp [hplay, runAll, ht, hstop]
    · simp [hplay, runAll, hr]
    · simp [hplay, runAll, hf]
  · rw [execPseudo_of_legal (by simpa [Pseudo.legal, Pseudo.expand] using (wellFormed_delay m).mpr hm)]
    exact runAll_singleton (.delay (1000 * m)) (s.succeed .nothing)
  · refine execPseudo_of_not_legal fun h => ?_
    have := (wellFormed_delay m).mp (by simpa [Pseudo.legal, Pseudo.expand] using h)
    omega
  · refine execPseudo_of_not_legal fun h => ?_
    have := (legal_init_iff _ _).mp h m hmem
    omega

/-! ### What a part of INIT does -/

/-- What a played part of INIT did: its events with its pins, and nothing else but `PSTEP` and `PBYTE`, which its transactions
leave idle; its last operation returned `Ok`. -/
structure Played (commands : Bool) (ev : List Event) (used : List PinId) (s t : State) : Prop where
  wrote : WroteOnly ev used s t
  steps : if commands then t.pstep = .idle ∧ t.pbyte = 0#1 else t.pstep = s.pstep ∧ t.pbyte = s.pbyte
  sstep : t.sstep = s.sstep
  sbit : t.sbit = s.sbit
  scnt : t.scnt = s.scnt
  rpass : t.rpass = s.rpass

theorem Played.trans {a b : Bool} {e f : List Event} {p q : List PinId} {s t u : State} (h : Played a e p s t)
    (g : Played b f q t u) : Played (a || b) (e ++ f) (p ++ q) s u where
  wrote := ⟨h.wrote.ran.trans g.wrote.ran, g.wrote.outcome, g.wrote.levels.trans h.wrote.levels,
    h.wrote.work.trans g.wrote.work⟩
  steps := by
    have hs := h.steps
    have gs := g.steps
    cases b with
    | true => rw [Bool.or_true]; exact gs
    | false =>
      obtain ⟨hstep, hbyte⟩ := gs
      rw [Bool.or_false, hstep, hbyte]; exact hs
  sstep := g.sstep.trans h.sstep
  sbit := g.sbit.trans h.sbit
  scnt := g.scnt.trans h.scnt
  rpass := g.rpass.trans h.rpass

/-- A run keeps the bus ready. -/
theorem RanEvents.busReady {e : List Event} {p : List PinId} {s t : State} (h : RanEvents e p s t) :
    t.busReady = s.busReady := by
  rw [State.busReady, h.inputs.cfg, funext h.drivable, State.busReady]

/-- These operations are played to their end. -/
def Plays (l : List Instr) (commands : Bool) (ev : List Event) (used : List PinId) (s : State) : Prop :=
  ∃ t, runAll l s = .next t ∧ Played commands ev used s t

theorem Plays.congr {l : List Instr} {a : Bool} {e f : List Event} {p q : List PinId} {s : State} (h : Plays l a e p s)
    (he : e = f) (hp : ∀ id, id ∈ p ↔ id ∈ q) : Plays l a f q s := by
  obtain ⟨t, ht, hplayed⟩ := h
  exact ⟨t, ht, { hplayed with wrote := { hplayed.wrote with ran := hplayed.wrote.ran.congr he hp } }⟩

/-- Parts are played one after another. -/
theorem Plays.append {l m : List Instr} {a b : Bool} {e f : List Event} {p q : List PinId} {s : State} (h : Plays l a e p s)
    (g : ∀ t, RanEvents e p s t → t.outcome = some (.ok .nothing) → Plays m b f q t) :
    Plays (l ++ m) (a || b) (e ++ f) (p ++ q) s := by
  obtain ⟨t, ht, hplayed⟩ := h
  obtain ⟨u, hu, hrest⟩ := g t hplayed.wrote.ran hplayed.wrote.outcome
  exact ⟨u, by rw [runAll_append ht (by rw [State.lastOk, hplayed.wrote.outcome]; rfl), hu], hplayed.trans hrest⟩

/-- Nothing to play, after an operation that returned `Ok`. -/
theorem plays_nil {s : State} (h : s.outcome = some (.ok .nothing)) : Plays [] false [] [] s :=
  ⟨s, rfl, ⟨.of_same rfl rfl rfl rfl rfl rfl rfl rfl rfl, h, rfl, ⟨rfl, rfl, rfl, rfl, rfl, rfl, rfl, rfl⟩⟩, ⟨rfl, rfl⟩,
    rfl, rfl, rfl, rfl⟩

/-! ### The parts -/

theorem plays_transaction {i : Instr} {s : State} {rs : Level} {bytes : List Byte} (hready : s.busReady = true)
    (hi : i.transaction = some (rs, bytes)) : Plays [i] true (transactionTrace s.cfg rs bytes) s.cfg.busOuts s := by
  obtain ⟨t, ht, hwrote, hpstep, hpbyte, hsstep, hsbit, hscnt, hrpass⟩ := transactionsRun i s rs bytes hready hi
  exact ⟨t, by rw [runAll_singleton, ht], hwrote, ⟨hpstep, hpbyte⟩, hsstep, hsbit, hscnt, hrpass⟩

theorem plays_rstpulse {s : State} (h : s.resetReady = true) :
    Plays [.rstpulse] false (resetTrace s.cfg) [s.cfg.bus.rst] s := by
  obtain ⟨t, ht, hwrote, hcounters, -⟩ := rstpulseRuns s h
  exact ⟨t, by rw [runAll_singleton, ht], hwrote, ⟨hcounters.pstep, hcounters.pbyte⟩, hcounters.sstep, hcounters.sbit,
    hcounters.scnt, hcounters.rpass⟩

theorem plays_delay (n : Nat) (s : State) : Plays [.delay n] false [.d (microseconds n)] [] s :=
  ⟨_, by rw [runAll_singleton, exec_delay], (delayed_ran s _).wroteOnly (delayed_quiet s _), ⟨rfl, rfl⟩,
    rfl, rfl, rfl, rfl⟩

/-- The parameters of a command, each a transaction of its own (41_parallel_bus.md R106). -/
theorem plays_params (ps : List Byte) {s : State} (hready : s.busReady = true) (hok : s.outcome = some (.ok .nothing)) :
    Plays (ps.map .wrdat8) (!ps.isEmpty) (ps.flatMap fun p => transactionTrace s.cfg true [p])
      (ps.flatMap fun _ => s.cfg.busOuts) s := by
  induction ps generalizing s with
  | nil => exact plays_nil hok
  | cons p ps ih =>
    refine (plays_transaction hready (i := .wrdat8 p) rfl).append (b := !ps.isEmpty) fun t hran ht => ?_
    rw [← hran.inputs.cfg]
    exact ih (hran.busReady.trans hready) ht

/-- One entry of the table (41_parallel_bus.md R106). -/
theorem plays_entry (e : InitEntry) {s : State} (hready : s.busReady = true) :
    Plays e.expand e.isCommand (entryTrace s.cfg e) (entryPins s.cfg e) s := by
  cases e with
  | cmd c ps =>
    have h : Plays ([Instr.wrcmd c] ++ ps.map .wrdat8) (true || !ps.isEmpty) (entryTrace s.cfg (.cmd c ps))
        (s.cfg.busOuts ++ ps.flatMap fun _ => s.cfg.busOuts) s := by
      refine (plays_transaction hready (i := .wrcmd c) rfl).append fun t hran ht => ?_
      rw [← hran.inputs.cfg]
      exact plays_params ps (hran.busReady.trans hready) ht
    exact h.congr rfl fun id => by simp [entryPins]
  | wait m => exact plays_delay (1000 * m) s

/-- The entries of the table in order. -/
theorem plays_entries (seq : List InitEntry) {s : State} (hready : s.busReady = true)
    (hok : s.outcome = some (.ok .nothing)) :
    Plays (seq.flatMap InitEntry.expand) (seq.any InitEntry.isCommand) (seq.flatMap (entryTrace s.cfg))
      (seq.flatMap (entryPins s.cfg)) s := by
  induction seq generalizing s with
  | nil => exact plays_nil hok
  | cons e seq ih =>
    refine (plays_entry e hready).append fun t hran ht => ?_
    rw [← hran.inputs.cfg]
    exact ih (hran.busReady.trans hready) ht

/-- Settles O45: the reset pulse and the entries are played in order, from the `Ok` that INIT starts with. -/
theorem initPlaysTable : Obligations.InitPlaysTable := by
  intro s seq hready hreset hfit
  have hstart : Plays (if s.cfg.hasRst then [.rstpulse] else []) false (if s.cfg.hasRst then resetTrace s.cfg else [])
      (if s.cfg.hasRst then [s.cfg.bus.rst] else []) (s.succeed .nothing) := by
    cases hrst : s.cfg.hasRst with
    | false => exact plays_nil rfl
    | true => exact plays_rstpulse (s := s.succeed .nothing) (hreset hrst)
  obtain ⟨t, ht, hplayed⟩ := hstart.append fun u hran hu => by
    have hrest := plays_entries seq (hran.busReady.trans hready) hu
    rw [hran.inputs.cfg] at hrest
    exact hrest
  refine ⟨t, (execPseudo_of_legal ((legal_init_iff _ _).mpr hfit)).trans ht, ?_, ?_, hplayed.sstep, hplayed.sbit,
    hplayed.scnt, hplayed.rpass⟩
  · obtain ⟨hran, houtcome, hlevels, hwork⟩ := hplayed.wrote
    have hbegin : RanEvents [] [] s (s.succeed .nothing) := .of_same rfl rfl rfl rfl rfl rfl rfl rfl rfl
    exact ⟨hbegin.trans hran, houtcome, hlevels,
      ⟨hwork.acc, hwork.sb, hwork.fr, hwork.x1, hwork.y1, hwork.x2, hwork.y2, hwork.coord⟩⟩
  · exact hplayed.steps

end Sys2Proof.Machine
end

section
/-! Sequencer operations cut short by a pin whose level registers are read-only (60_exceptions.md R163, decision D28: O42). -/

namespace Sys2Proof.Machine

/-! ### Pins that lack at most their writability -/

/-- The configuration is `c`, and these pins have all a write needs but, it may be, writable level registers. -/
structure State.Wired (c : Config) (pins : List PinId) (s : State) : Prop where
  cfg : s.cfg = c
  connected : ∀ p ∈ pins, s.connected p = true

theorem State.drivable_eq_connected (s : State) (id : PinId) :
    s.drivable id = (s.connected id && (s.cfg.writableOf id).level) := by
  simp only [State.drivable, State.connected]
  ac_rfl

/-- What a pin that is connected gives `PinCheck` and `SeqCheck`. -/
theorem State.connected_spec {s : State} {id : PinId} (h : s.connected id = true) :
    s.initialized = true ∧ (∃ d, s.cfg.find id = some d) ∧ (s.pin id).dir = .output := by
  simp only [State.connected, Bool.and_eq_true, beq_iff_eq, Option.isSome_iff_exists] at h
  obtain ⟨⟨⟨hi, hd⟩, hdir⟩, -⟩ := h
  exact ⟨hi, hd, hdir⟩

theorem RanEvents.connected {e : List Event} {p : List PinId} {s t : State} (h : RanEvents e p s t) (id : PinId) :
    t.connected id = s.connected id := by
  have hl : t.lockFree id = s.lockFree id := by
    unfold State.lockFree
    rw [h.inputs.cfg]
    cases s.cfg.find id with
    | none => rfl
    | some d => simp [(h.banks d.bank).1]
  simp [State.connected, h.flags.initialized, h.inputs.cfg, h.dir, hl]

/-! ### Runs of writes and waits -/

/-- These events happened, on these pins; beside the pins only the counters may have moved. -/
structure WritesRan (ev : List Event) (used : List PinId) (s t : State) : Prop where
  ran : RanEvents ev used s t
  levels : t.levels = s.levels
  work : SameWork s t

theorem WritesRan.trans {e f : List Event} {p q : List PinId} {s t u : State} (h : WritesRan e p s t)
    (g : WritesRan f q t u) : WritesRan (e ++ f) (p ++ q) s u :=
  ⟨h.ran.trans g.ran, g.levels.trans h.levels, h.work.trans g.work⟩

/-- The counters move. -/
theorem WritesRan.counters (s : State) (a : PStep) (b : BitVec 1) (c : SStep) (d : BitVec 4) (e : BitVec 8) (f : BitVec 2)
    (o : Option OpOutcome) :
    WritesRan [] [] s { s with pstep := a, pbyte := b, sstep := c, sbit := d, scnt := e, rpass := f, outcome := o } :=
  ⟨.of_same rfl rfl rfl rfl rfl rfl rfl rfl rfl, rfl, ⟨rfl, rfl, rfl, rfl, rfl, rfl, rfl, rfl⟩⟩

theorem RanEvents.writesRan {e : List Event} {p : List PinId} {s t : State} (h : RanEvents e p s t) (q : Quiet s t) :
    WritesRan e p s t := ⟨h, q.levels, q.work⟩

theorem State.Wired.after {c : Config} {pins : List PinId} {e : List Event} {p : List PinId} {s t : State}
    (h : s.Wired c pins) (g : WritesRan e p s t) : t.Wired c pins :=
  ⟨g.ran.inputs.cfg.trans h.cfg, fun q hq => (g.ran.connected q).trans (h.connected q hq)⟩

/-! ### Operations that follow a list of events -/

/-- The operation stops at the first of these events that writes to a read-only pin, the events before it having happened and the
pin being open. -/
def Res.StopsIn {α : Type} (c : Config) (ev : List Event) (s : State) (r : Res α) : Prop :=
  ∀ p v rest, ev.dropWhile c.allows = .w p v :: rest → ∃ t, r = .err .registerNotWritable (some p) t ∧
    WritesRan (ev.takeWhile c.allows) (drivenPins (ev.takeWhile c.allows) ++ [p]) s t

/-- The operation makes these events, or stops in them. -/
structure Res.Follows {α : Type} (c : Config) (ev : List Event) (s : State) (r : Res α) : Prop where
  stops : r.StopsIn c ev s
  completes : (∀ e ∈ ev, c.allows e = true) → ∃ a t, r = .ok a t ∧ WritesRan ev (drivenPins ev) s t

/-- Only a write is not allowed. -/
theorem Config.exists_write_of_not_allowed {c : Config} {ev : List Event} (h : ¬ ∀ e ∈ ev, c.allows e = true) :
    ∃ p v rest, ev.dropWhile c.allows = .w p v :: rest := by
  cases hd : ev.dropWhile c.allows with
  | nil => exact absurd (List.dropWhile_eq_nil_iff.mp hd) h
  | cons e rest =>
    have he : c.allows e ≠ true := by simpa [hd] using List.head_dropWhile_not c.allows (l := ev) (by simp [hd])
    cases e with
    | w p v => exact ⟨p, v, rest, rfl⟩
    | r => exact absurd rfl he
    | d => exact absurd rfl he

section
variable {α β : Type} {c : Config} {pins : List PinId} {e f : List Event} {s : State}

theorem Res.StopsIn.bind {r : Res α} (h : r.StopsIn c e s) (g : α → State → Res β) : (r.bind g).StopsIn c e s := by
  intro p v rest hp
  obtain ⟨t, rfl, ht⟩ := h p v rest hp
  exact ⟨t, rfl, ht⟩

/-- Where every event is allowed there is nowhere to stop. -/
theorem Res.stopsIn_of_allowed (r : Res α) (h : ∀ x ∈ e, c.allows x = true) : r.StopsIn c e s := by
  intro p v rest hp
  rw [List.dropWhile_eq_nil_iff.mpr h] at hp
  cases hp

/-- Reads and waits are allowed. -/
theorem Config.allows_of_no_write (c : Config) (h : drivenPins e = []) : ∀ x ∈ e, c.allows x = true := by
  intro x hx
  cases x with
  | w p v => exact absurd (List.mem_flatMap.mpr ⟨_, hx, List.mem_singleton_self p⟩) (h ▸ List.not_mem_nil)
  | r => rfl
  | d => rfl

/-- Waits and steps of the counters before what follows. -/
theorem Res.StopsIn.from {r : Res α} {u : State} (h : r.StopsIn c f u) (g : WritesRan e [] s u) (he : drivenPins e = []) :
    r.StopsIn c (e ++ f) s := by
  intro p v rest hp
  have hallowed := Config.allows_of_no_write c he
  rw [List.dropWhile_append_of_pos hallowed] at hp
  obtain ⟨t, hr, ht⟩ := h p v rest hp
  refine ⟨t, hr, ?_⟩
  rw [List.takeWhile_append_of_pos hallowed, drivenPins_append, he]
  exact g.trans ht

theorem Res.Follows.from {r : Res α} {u : State} (h : r.Follows c f u) (g : WritesRan e [] s u) (he : drivenPins e = []) :
    r.Follows c (e ++ f) s where
  stops := h.stops.from g he
  completes hall := by
    obtain ⟨a, t, hr, ht⟩ := h.completes fun x hx => hall x (by simp [hx])
    exact ⟨a, t, hr, by rw [drivenPins_append, he]; exact g.trans ht⟩

/-- A stop lies in the events of the first part, or after them in those of the rest. -/
theorem Res.Follows.bind_stopsIn {r : Res α} {g : α → State → Res β} (h : r.Follows c e s) (hs : s.Wired c pins)
    (hg : ∀ a t, t.Wired c pins → (g a t).StopsIn c f t) : (r.bind g).StopsIn c (e ++ f) s := by
  intro p v rest hp
  by_cases he : ∀ x ∈ e, c.allows x = true
  · obtain ⟨a, t, rfl, ht⟩ := h.completes he
    rw [List.dropWhile_append_of_pos he] at hp
    obtain ⟨u, hu, hran⟩ := hg a t (hs.after ht) p v rest hp
    refine ⟨u, hu, ?_⟩
    rw [List.takeWhile_append_of_pos he, drivenPins_append, List.append_assoc]
    exact ht.trans hran
  · obtain ⟨q, w, tail, hq⟩ := Config.exists_write_of_not_allowed he
    have hlength := congrArg List.length (List.takeWhile_append_dropWhile (p := c.allows) (l := e))
    rw [hq, List.length_append, List.length_cons] at hlength
    rw [List.takeWhile_append, if_neg (by omega)]
    rw [List.dropWhile_append, hq] at hp
    cases hp
    exact h.stops.bind g p v tail hq

theorem Res.Follows.bind {r : Res α} {g : α → State → Res β} (h : r.Follows c e s) (hs : s.Wired c pins)
    (hg : ∀ a t, t.Wired c pins → (g a t).Follows c f t) : (r.bind g).Follows c (e ++ f) s where
  stops := h.bind_stopsIn hs fun a t ht => (hg a t ht).stops
  completes hall := by
    obtain ⟨a, t, rfl, ht⟩ := h.completes fun x hx => hall x (by simp [hx])
    obtain ⟨b, u, hu, hran⟩ := (hg a t (hs.after ht)).completes fun x hx => hall x (by simp [hx])
    exact ⟨b, u, hu, by rw [drivenPins_append]; exact ht.trans hran⟩

/-- The counters move, and a part of the operation follows them. -/
theorem Res.Follows.step {r : Res α} {g : α → State → Res β} {u : State} (hs : s.Wired c pins) (hu : WritesRan [] [] s u)
    (h : u.Wired c pins → r.Follows c e u) (hg : ∀ a t, t.Wired c pins → (g a t).Follows c f t) :
    (r.bind g).Follows c (e ++ f) s :=
  Res.Follows.bind (.from (e := []) (h (hs.after hu)) hu rfl) hs hg

end

/-! ### The shared operations -/

section
variable {c : Config} {pins : List PinId} {s : State}

/-- A part that only waits, or moves the counters. -/
theorem follows_ok {ev : List Event} {t : State} (h : WritesRan ev [] s t) (hev : drivenPins ev = []) :
    (Res.ok () t).Follows c ev s where
  stops := Res.stopsIn_of_allowed _ (Config.allows_of_no_write c hev)
  completes _ := ⟨(), t, rfl, by rw [hev]; exact h⟩

/-- `PinWrite` to a connected pin writes it, or raises `RegisterNotWritable` with the pin open (40_pin_layer.md R84). -/
theorem pinWrite_follows (hs : s.Wired c pins) {id p : PinId} (hid : id ∈ pins) (v : Level) (hp : p = id := by rfl) :
    (pinWrite p v s).Follows c [.w id v] s := by
  obtain rfl := hp
  obtain rfl := hs.cfg
  have hconnected := hs.connected p hid
  obtain ⟨hi, ⟨d, hd⟩, -⟩ := State.connected_spec hconnected
  cases hw : (s.cfg.writableOf p).level with
  | true =>
    refine ⟨Res.stopsIn_of_allowed _ (by simpa [Config.allows] using hw), fun _ => ?_⟩
    have hdrive : s.drivable p = true := by rw [State.drivable_eq_connected, hconnected, hw]; rfl
    obtain ⟨t, ht, hran, hquiet⟩ := pinWrite_ok v hdrive
    exact ⟨(), t, ht, hran.writesRan hquiet⟩
  | false =>
    have hallows : s.cfg.allows (.w p v) = false := hw
    refine ⟨fun q x rest hq => ?_, fun h => ?_⟩
    · rw [List.dropWhile_cons_of_neg (by simp [hallows])] at hq
      cases hq
      obtain ⟨hran, hquiet⟩ := State.openPin_ran s p
      refine ⟨s.openPin p, by simp [pinWrite, pinCheck_ok hi hd, hw], ?_⟩
      rw [List.takeWhile_cons_of_neg (by simp [hallows])]
      exact hran.writesRan hquiet
    · simp [hallows] at h

theorem writesRan_delayed (s : State) (n : Nat) : WritesRan [.d n] [] s (s.delayed n) :=
  (delayed_ran s n).writesRan (delayed_quiet s n)

/-! ### The parallel write sequencer -/

theorem pinWrites_follows (l : List (PinId × Level)) (hs : s.Wired c pins) (hl : ∀ e ∈ l, e.1 ∈ pins) :
    (pinWrites l s).Follows c (l.map fun e => .w e.1 e.2) s := by
  induction l generalizing s with
  | nil => exact follows_ok (.counters s ..) rfl
  | cons e l ih =>
    exact (pinWrite_follows hs (hl e (by simp)) e.2).bind (e := [_]) hs fun _ t ht => ih ht fun x hx => hl x (by simp [hx])

theorem driveData_follows (hs : s.Wired c c.busOuts) (b : Byte) : (driveData b s).Follows c (driveTrace c b) s := by
  obtain rfl := hs.cfg
  exact pinWrites_follows (s.cfg.bus.db.zip (bitsLowFirst b)) hs fun e he =>
    (Config.mem_busOuts s.cfg).2.2.2.1 _ (List.of_mem_zip he).1

theorem wrPulse_follows (hs : s.Wired c c.busOuts) : (wrPulse s).Follows c (strobeTrace c) s := by
  have hwr := (Config.mem_busOuts c).2.1
  rw [wrPulse, hs.cfg]
  refine (pinWrite_follows hs hwr false).bind hs (e := [_]) (f := [.d c.tWrLow, .w c.bus.wr true, .d c.tWrHigh]) fun _ t ht => ?_
  have hlow := writesRan_delayed t c.tWrLow
  have ht' := ht.after hlow
  simp only [State.delayed_cfg, ht.cfg]
  refine Res.Follows.from (e := [.d c.tWrLow]) ?_ hlow rfl
  refine (pinWrite_follows ht' hwr true).bind ht' (e := [_]) (f := [.d c.tWrHigh]) fun _ u hu => ?_
  rw [hu.cfg]
  exact follows_ok (writesRan_delayed u c.tWrHigh) rfl

theorem xferBytes_follows (l : List Byte) (j : Nat) (hs : s.Wired c c.busOuts) :
    (xferBytes j l s).Follows c (l.flatMap (byteTrace c)) s := by
  induction l generalizing j s with
  | nil => exact follows_ok (.counters s ..) rfl
  | cons b l ih =>
    rw [xferBytes, List.flatMap_cons, byteTrace, List.append_assoc]
    refine Res.Follows.step hs (.counters s ..) (fun hu => driveData_follows hu b) fun _ t ht => ?_
    exact Res.Follows.step ht (.counters t ..) wrPulse_follows fun _ u hu => ih (j + 1) hu

theorem deassertRead_follows (hs : s.Wired c c.busOuts) :
    (deassertRead s).Follows c (if c.hasRd then [.w c.bus.rd true] else []) s := by
  rw [deassertRead, hs.cfg]
  cases hrd : c.hasRd with
  | false => exact follows_ok (.counters s ..) rfl
  | true => exact pinWrite_follows hs ((Config.mem_busOuts c).2.2.2.2 hrd) true

/-- `SeqCheck` passes on connected outputs and on inputs (40_pin_layer.md R92). -/
theorem seqCheck_wired {outs ins : List PinId} (hs : s.Wired c outs) (houts : outs ≠ [])
    (hins : ∀ p ∈ ins, (s.pin p).dir = .input) : seqCheck outs ins s = .ok () s := by
  obtain ⟨p, hp⟩ := List.exists_mem_of_ne_nil outs houts
  exact seqCheck_ok (State.connected_spec (hs.connected p hp)).1
    (fun q hq => (State.connected_spec (hs.connected q hq)).2.2) hins

/-- A transaction on a connected bus (41_parallel_bus.md R100, R111). -/
theorem busXfer_follows (rs : Level) (bytes : List Byte) (hs : s.Wired c c.busOuts) :
    (busXfer rs bytes s).Follows c (transactionTrace c rs bytes) s := by
  obtain ⟨hcs, -, hrs, -⟩ := Config.mem_busOuts c
  have htrace : transactionTrace c rs bytes = [Event.w c.bus.cs false] ++
      ((if c.hasRd then [Event.w c.bus.rd true] else []) ++ ([Event.w c.bus.rs rs] ++
        (bytes.flatMap (byteTrace c) ++ ([Event.w c.bus.cs true] ++ [])))) := by
    simp [transactionTrace_eq, selectTrace]
  have hseq : seqCheck s.cfg.busOuts [] s = .ok () s := by
    rw [hs.cfg]; exact seqCheck_wired hs (List.ne_nil_of_mem hcs) (by simp)
  rw [busXfer, hseq, Res.bind_ok, htrace]
  refine Res.Follows.step hs (.counters s ..) (fun h => pinWrite_follows h hcs false (by rw [hs.cfg])) fun _ t ht => ?_
  refine Res.Follows.step ht (.counters t ..) deassertRead_follows fun _ u hu => ?_
  refine Res.Follows.step hu (.counters u ..) (fun h => pinWrite_follows h hrs rs (by rw [hu.cfg])) fun _ v hv => ?_
  refine Res.Follows.bind (xferBytes_follows bytes 0 hv) hv fun _ w hw => ?_
  exact Res.Follows.step hw (.counters w ..) (fun h => pinWrite_follows h hcs true (by rw [hw.cfg])) fun _ x hx =>
    follows_ok (.counters x ..) rfl

/-- RSTPULSE on a connected line (41_parallel_bus.md R104). -/
theorem execRstpulse_follows (hs : s.Wired c [c.bus.rst]) (hrst : c.hasRst = true) :
    ∃ r : Res Unit, execRstpulse s = finishUnit r ∧ r.Follows c (resetTrace c) s := by
  refine ⟨_, rfl, ?_⟩
  rw [hs.cfg, if_pos hrst, seqCheck_wired hs (by simp) (by simp), Res.bind_ok, hs.cfg]
  refine (pinWrite_follows hs (by simp) false).bind hs (e := [_])
    (f := [.d c.tRstLow, .w c.bus.rst true, .d c.tRstSettle]) fun _ t ht => ?_
  have hlow := writesRan_delayed t c.tRstLow
  have ht' := ht.after hlow
  simp only [State.delayed_cfg, ht.cfg]
  refine Res.Follows.from (e := [.d c.tRstLow]) ?_ hlow rfl
  refine (pinWrite_follows ht' (by simp) true).bind ht' (e := [_]) (f := [.d c.tRstSettle]) fun _ u hu => ?_
  rw [hu.cfg]
  exact follows_ok (writesRan_delayed u c.tRstSettle) rfl

/-! ### The serial shifter, the filter and the resolver -/

theorem Config.mem_serialOuts (c : Config) :
    c.ser.clk ∈ c.serialOuts ∧ c.ser.din ∈ c.serialOuts ∧ c.ser.tcs ∈ c.serialOuts := by
  simp [Config.serialOuts]

theorem startFrame_follows (hs : s.Wired c c.serialOuts) : (startFrame s).Follows c (startTrace c) s := by
  obtain ⟨hclk, hdin, htcs⟩ := Config.mem_serialOuts c
  refine Res.Follows.step hs (e := [_]) (.counters s ..) (fun h => pinWrite_follows h hclk false (by rw [hs.cfg]))
    fun _ t ht => ?_
  refine (pinWrite_follows ht htcs true (by rw [ht.cfg])).bind ht (e := [_]) fun _ u hu => ?_
  refine (pinWrite_follows hu hdin true (by rw [hu.cfg])).bind hu (e := [_]) fun _ v hv => ?_
  refine (pinWrite_follows hv hclk true (by rw [hv.cfg])).bind hv (e := [_]) fun _ w hw => ?_
  exact (pinWrite_follows hw htcs false (by rw [hw.cfg])).bind hw (e := [_]) fun _ x _ => follows_ok (.counters x ..) rfl

theorem shiftOutBits_follows (l : List Level) (j : Nat) (hs : s.Wired c c.serialOuts) :
    (shiftOutBits j l s).Follows c (l.flatMap (clockOutTrace c)) s := by
  obtain ⟨hclk, hdin, -⟩ := Config.mem_serialOuts c
  induction l generalizing j s with
  | nil => exact follows_ok (.counters s ..) rfl
  | cons v l ih =>
    refine Res.Follows.step hs (e := [_]) (.counters s ..) (fun h => pinWrite_follows h hclk false (by rw [hs.cfg]))
      fun _ t ht => ?_
    refine (pinWrite_follows ht hdin v (by rw [ht.cfg])).bind ht (e := [_]) fun _ u hu => ?_
    exact (pinWrite_follows hu hclk true (by rw [hu.cfg])).bind hu (e := [_]) fun _ w hw => ih (j + 1) hw

theorem shiftOutTrace_eq (c : Config) (b : Byte) : shiftOutTrace c b = (bitsHighFirst b).flatMap (clockOutTrace c) := by
  simp [shiftOutTrace, bitsHighFirst, BitVec.getMsbD, List.range_succ]

theorem shiftOut_follows (b : Byte) (hs : s.Wired c c.serialOuts) : (shiftOut b s).Follows c (shiftOutTrace c b) s := by
  rw [shiftOutTrace_eq, ← List.append_nil ((bitsHighFirst b).flatMap _)]
  exact Res.Follows.step hs (.counters s ..) (shiftOutBits_follows (bitsHighFirst b) 0) fun _ t _ =>
    follows_ok (.counters t ..) rfl

/-- The first clock of `shift_in` comes before the first sample; `ACC` is cleared by then (42_serial_adc.md R123). -/
theorem shiftInto_stops (n : Nat) (hs : s.Wired c c.serialOuts) :
    (shiftInto (n + 1) s).StopsIn c [.w c.ser.clk false, .w c.ser.clk true] { s with acc := 0#12 } := by
  obtain ⟨hclk, -⟩ := Config.mem_serialOuts c
  have hclear : ({ s with acc := 0#12 } : State).Wired c c.serialOuts := ⟨hs.cfg, hs.connected⟩
  refine Res.StopsIn.bind (r := shiftInBits 0 (n + 1) _) ?_ _
  refine Res.Follows.bind_stopsIn (.from (e := []) (f := [_]) (pinWrite_follows (hclear.after (.counters _ ..)) hclk false
    (by rw [hs.cfg])) (.counters { s with acc := 0#12 } ..) rfl) hclear fun _ t ht => ?_
  exact (pinWrite_follows ht hclk true (by rw [ht.cfg])).stops.bind _

/-- RDCH drives all its outputs before it samples DOUT (42_serial_adc.md R124). -/
theorem readChannel_stops (b : Byte) (hs : s.Wired c c.serialOuts) :
    (readChannel b s).StopsIn c (startTrace c ++ shiftOutTrace c b ++ [.d c.tAdcSettle]) s := by
  rw [List.append_assoc]
  refine (startFrame_follows hs).bind_stopsIn hs fun _ t ht => ?_
  exact (shiftOut_follows b ht).bind_stopsIn ht fun _ u _ => Res.stopsIn_of_allowed _ (Config.allows_of_no_write c rfl)

/-- FILT begins with a read (43_filter_resolve.md R143). -/
theorem filterChannel_stops (b : Byte) (hs : s.Wired c c.serialOuts) (hw : c.window ≠ 0) :
    (filterChannel b s).StopsIn c (startTrace c ++ shiftOutTrace c b ++ [.d c.tAdcSettle]) s := by
  obtain ⟨n, hn⟩ := Nat.exists_eq_succ_of_ne_zero hw
  rw [filterChannel, hs.cfg, hn, fillSamples, Res.bind_assoc]
  have hcount := WritesRan.counters s s.pstep s.pbyte s.sstep s.sbit (BitVec.ofNat 8 0) s.rpass s.outcome
  exact ((readChannel_stops b (hs.after hcount)).from (e := []) hcount rfl).bind _

/-- RESOLVE begins with a filtered reading of X (43_filter_resolve.md R145). -/
theorem readPasses_stops (hs : s.Wired c c.serialOuts) (hw : c.window ≠ 0) :
    (readPasses s).StopsIn c (startTrace c ++ shiftOutTrace c c.ctrlX ++ [.d c.tAdcSettle]) s := by
  obtain rfl := hs.cfg
  have hpass := WritesRan.counters s s.pstep s.pbyte s.sstep s.sbit s.scnt 0#2 s.outcome
  exact ((filterChannel_stops s.cfg.ctrlX (hs.after hpass) hw).from (e := []) hpass rfl).bind _

end

/-! ### Every sequencer operation -/

/-- The registers an operation has cleared before its first event: SHIN clears `ACC` (42_serial_adc.md R123). -/
def State.entering (s : State) : Instr → State
  | .shin _ => { s with acc := 0#12 }
  | _ => s

theorem finishUnit_stopsIn {c : Config} {ev : List Event} {s : State} {r : Res Unit} (h : r.StopsIn c ev s) :
    ∃ r' : Res Value, finishUnit r = finish r' ∧ r'.StopsIn c ev s := ⟨_, rfl, h.bind _⟩

/-- A sequencer operation with connected pins makes the events up to its first sample, or stops in them. -/
theorem exec_stopsIn {i : Instr} {s : State} {outs ins : List PinId} {ev : List Event} (hp : s.cfg.permits i = true)
    (hr : i.roles s.cfg = some (outs, ins)) (hs : s.Wired s.cfg outs) (hins : ∀ p ∈ ins, (s.pin p).dir = .input)
    (hev : i.openingTrace s.cfg = some ev) : ∃ r, exec i s = finish r ∧ r.StopsIn s.cfg ev (s.entering i) := by
  have hserial : outs = s.cfg.serialOuts → ins = s.cfg.serialIns → serialCheck s = .ok () s := by
    rintro rfl rfl; exact seqCheck_wired hs (by simp [Config.serialOuts]) hins
  cases i with
  | wrcmd | wrdat8 | wrdat16 => cases hr; cases hev; exact finishUnit_stopsIn (busXfer_follows _ _ hs).stops
  | rstpulse =>
    have hrst : s.cfg.hasRst = true := hp
    cases hr
    simp only [Instr.openingTrace, hrst, if_true, Option.some.injEq] at hev
    subst hev
    obtain ⟨r, hexec, hfollows⟩ := execRstpulse_follows hs hrst
    rw [exec, hexec]
    exact finishUnit_stopsIn hfollows.stops
  | sstart =>
    cases hr; cases hev
    rw [exec, execSstart, hserial rfl rfl, Res.bind_ok]
    exact finishUnit_stopsIn (startFrame_follows hs).stops
  | shout b =>
    cases hr; cases hev
    rw [exec, execShout, hserial rfl rfl, Res.bind_ok]
    exact finishUnit_stopsIn (shiftOut_follows b hs).stops
  | shin n =>
    have hn : legalBitCount n = true := hp
    cases hr; cases hev
    obtain ⟨m, rfl⟩ : ∃ m, n = m + 1 := Nat.exists_eq_succ_of_ne_zero (by rintro rfl; cases hn)
    rw [exec, execShin, if_pos hn, hserial rfl rfl, Res.bind_ok]
    exact ⟨_, rfl, (shiftInto_stops m hs).bind _⟩
  | rdch b =>
    cases hr; cases hev
    rw [exec, execRdch, hserial rfl rfl, Res.bind_ok]
    exact ⟨_, rfl, (readChannel_stops b hs).bind _⟩
  | filt b =>
    have hw : ¬ s.cfg.window < 3 := by simpa [Config.permits] using hp
    cases hr; cases hev
    rw [exec, execFilt, filterCheck, if_neg hw, hserial rfl rfl, Res.bind_ok]
    exact ⟨_, rfl, (filterChannel_stops b hs (by omega)).bind _⟩
  | resolve =>
    have hw : ¬ s.cfg.window < 3 := by simpa [Config.permits] using hp
    cases hr; cases hev
    rw [exec, execResolve, filterCheck, if_neg hw, hserial rfl rfl, Res.bind_ok]
    exact ⟨_, rfl, (readPasses_stops hs (by omega)).bind _⟩
  | _ => cases hr

theorem State.entering_eq (s : State) (i : Instr) : s.entering i = { s with acc := (s.entering i).acc } := by
  cases i <;> rfl

theorem State.entering_of_ne {i : Instr} (h : ∀ n, i ≠ .shin n) (s : State) : s.entering i = s := by
  cases i with
  | shin n => exact absurd rfl (h n)
  | _ => rfl

/-- Settles O42: the operation stops in its opening events (`exec_stopsIn`), and the raise returns the counters to idle. -/
theorem failedWriteAborts : Obligations.FailedWriteAborts := by
  intro i s outs ins ev rest p v hp hr houts hins hev hdrop
  obtain ⟨r, hexec, hstops⟩ := exec_stopsIn hp hr ⟨rfl, by simpa using houts⟩ (by simpa using hins) hev
  obtain ⟨t, rfl, hran, hlevels, hwork⟩ := hstops p v rest hdrop
  have henter : RanEvents [] [] s (s.entering i) := by
    rw [State.entering_eq]; exact .of_same rfl rfl rfl rfl rfl rfl rfl rfl rfl
  have hraise : RanEvents [] [] t (t.raise .registerNotWritable (some p)) := .of_same rfl rfl rfl rfl rfl rfl rfl rfl rfl
  refine ⟨_, hexec, rfl, (henter.trans hran).quietly hraise, ⟨rfl, rfl, rfl, rfl, rfl, rfl⟩, ?_, ?_, fun hi => ?_, ?_⟩
  · rw [State.entering_eq] at hlevels; exact hlevels
  · rw [State.entering_eq] at hwork
    exact ⟨rfl, hwork.sb, hwork.fr, hwork.x1, hwork.y1, hwork.x2, hwork.y2, hwork.coord⟩
  · rw [State.entering_of_ne hi] at hwork; exact hwork.acc
  · rintro ⟨n, rfl⟩
    exact hwork.acc

end Sys2Proof.Machine
end

section
/-! The four serial operations on a connection that is ready (42_serial_adc.md R121 to R124: O46 to O49), and how many events they
take (R125: O51). -/

namespace Sys2Proof.Machine

/-! ### The operations without their precondition -/

section
variable {s : State}

theorem exec_sstart_of_ready (h : s.serialReady = true) : exec .sstart s = finishUnit (startFrame s) := by
  rw [exec, execSstart, serialCheck_ok h, Res.bind_ok]

theorem exec_shout_of_ready (h : s.serialReady = true) (b : Byte) : exec (.shout b) s = finishUnit (shiftOut b s) := by
  rw [exec, execShout, serialCheck_ok h, Res.bind_ok]

theorem exec_shin_of_ready (h : s.serialReady = true) {n : Nat} (hn : n = 8 ∨ n = 12) :
    exec (.shin n) s = finish ((shiftInto n s).bind fun v t => .ok (.sample v) t) := by
  have hlegal : legalBitCount n = true := by simpa [legalBitCount] using hn
  rw [exec, execShin, if_pos hlegal, serialCheck_ok h, Res.bind_ok]

theorem exec_rdch_of_ready (h : s.serialReady = true) (c : Byte) :
    exec (.rdch c) s = finish ((readChannel c s).bind fun v t => .ok (.sample v) t) := by
  rw [exec, execRdch, serialCheck_ok h, Res.bind_ok]

end

/-- A serial operation that read nothing ends `Ok`. -/
theorem SerialRan.wroteOnly {e : List Event} {p : List PinId} {s t : State} (h : SerialRan e p s t) (hacc : t.acc = s.acc)
    (hlevels : t.levels = s.levels) : WroteOnly e p s (t.succeed .nothing) :=
  ⟨h.ran.succeed _, rfl, hlevels,
    ⟨hacc, h.quiet.sb, h.quiet.fr, h.quiet.x1, h.quiet.y1, h.quiet.x2, h.quiet.y2, h.quiet.coord⟩⟩

/-! ### The lines of the shifter -/

/-- The outputs of the shifter, told apart. -/
structure SerialLines (c : Config) : Prop where
  clk_din : c.ser.clk ≠ c.ser.din
  clk_tcs : c.ser.clk ≠ c.ser.tcs
  din_tcs : c.ser.din ≠ c.ser.tcs

/-- No pin carries two roles (10_state.md R32). -/
theorem Config.serialLines {c : Config} (hc : c.wellFormed = true) : SerialLines c := by
  have hdistinct : c.rolesDistinct = true := by simp only [Config.wellFormed, Bool.and_eq_true] at hc; tauto
  have hnodup : c.rolePins.Nodup := (allDistinct_iff_nodup _).mp hdistinct
  simp only [Config.rolePins, List.append_assoc] at hnodup
  obtain ⟨-, hserial, -⟩ := List.nodup_append.mp (List.nodup_append.mp hnodup).2.1
  have hne : (c.ser.clk ≠ c.ser.din ∧ c.ser.clk ≠ c.ser.tcs) ∧ c.ser.din ≠ c.ser.tcs := by
    simpa [Config.serialOuts] using (List.nodup_append.mp hserial).1
  exact ⟨hne.1.1, hne.1.2, hne.2⟩

/-- The clocks of SHOUT up to the last, and the last, which presents bit 0 (42_serial_adc.md R122). -/
theorem shiftOutTrace_last (c : Config) (b : Byte) : ∃ l : List Level,
    shiftOutTrace c b = l.flatMap (clockOutTrace c) ++ clockOutTrace c (b.getLsbD 0) :=
  ⟨[b.getLsbD 7, b.getLsbD 6, b.getLsbD 5, b.getLsbD 4, b.getLsbD 3, b.getLsbD 2, b.getLsbD 1], rfl⟩

theorem not_mem_drivenPins_clocks {c : Config} {p : PinId} (hclk : p ≠ c.ser.clk) (hdin : p ≠ c.ser.din) (l : List Level) :
    p ∉ drivenPins (l.flatMap (clockOutTrace c)) := by
  simp [drivenPins_flatMap, clockOutTrace, hclk, hdin]

theorem levelFrom_shiftOut_clk (c : Config) (b : Byte) (before : Option Level) :
    levelFrom c.ser.clk before (shiftOutTrace c b) = some true := by
  obtain ⟨l, hl⟩ := shiftOutTrace_last c b
  rw [hl, levelFrom_append]
  exact levelFrom_last_write true _ [.w c.ser.clk false, .w c.ser.din (b.getLsbD 0)] (by simp)

theorem levelFrom_shiftOut_din {c : Config} (lines : SerialLines c) (b : Byte) (before : Option Level) :
    levelFrom c.ser.din before (shiftOutTrace c b) = some (b.getLsbD 0) := by
  obtain ⟨l, hl⟩ := shiftOutTrace_last c b
  rw [hl, levelFrom_append]
  exact levelFrom_last_write _ _ [.w c.ser.clk false] (by simpa using lines.clk_din.symm)

theorem levelFrom_shiftOut_tcs {c : Config} (lines : SerialLines c) (b : Byte) (before : Option Level) :
    levelFrom c.ser.tcs before (shiftOutTrace c b) = before :=
  levelFrom_of_not_driven _ (not_mem_drivenPins_clocks lines.clk_tcs.symm lines.din_tcs.symm _)

/-- After SSTART each line holds what its last write drove onto it (42_serial_adc.md R121). -/
theorem levelFrom_startTrace {c : Config} (lines : SerialLines c) (before : Option Level) :
    levelFrom c.ser.clk before (startTrace c) = some true ∧ levelFrom c.ser.din before (startTrace c) = some true ∧
      levelFrom c.ser.tcs before (startTrace c) = some false :=
  ⟨levelFrom_last_write true before [.w c.ser.clk false, .w c.ser.tcs true, .w c.ser.din true] (by simpa using lines.clk_tcs),
    levelFrom_last_write true before [.w c.ser.clk false, .w c.ser.tcs true]
      (by simpa using ⟨lines.clk_din.symm, lines.din_tcs⟩),
    levelFrom_last_write false before [.w c.ser.clk false, .w c.ser.tcs true, .w c.ser.din true, .w c.ser.clk true] (by simp)⟩

/-! ### The runs -/

/-- Settles O46: the framing goes through (`startFrame_ok`), and each line holds what it last drove. -/
theorem sstartRuns : Obligations.SstartRuns := by
  intro s h
  obtain ⟨t, ht, hran, hsstep, hsbit, hacc, hlevels⟩ := startFrame_ok h
  have hquiet := hran.quiet
  refine ⟨t.succeed .nothing, by rw [exec_sstart_of_ready h, ht, finishUnit_ok], hran.wroteOnly hacc hlevels, hsstep, hsbit,
    hquiet.pstep, hquiet.pbyte, hquiet.scnt, hquiet.rpass, fun hc => ?_⟩
  have hline : ∀ {r id}, rolePin s.cfg r = some id → r.isInput = false →
    (t.succeed .nothing).roleLine r = levelFrom id (s.line id) (startTrace s.cfg) := fun hr hin =>
      (hran.ran.succeed .nothing).roleLine hc hr hin
  have hlast := levelFrom_startTrace (Config.serialLines hc)
  exact ⟨(hline rfl rfl).trans (hlast _).1, (hline rfl rfl).trans (hlast _).2.1, (hline rfl rfl).trans (hlast _).2.2⟩

/-- Settles O47: the clocks go through (`shiftOut_ok`); the last one presents bit 0, and none drives TCS. -/
theorem shoutRuns : Obligations.ShoutRuns := by
  intro s b h
  obtain ⟨t, ht, hran, hsstep, hsbit, hacc, hlevels⟩ := shiftOut_ok b h
  have hquiet := hran.quiet
  refine ⟨t.succeed .nothing, by rw [exec_shout_of_ready h, ht, finishUnit_ok], hran.wroteOnly hacc hlevels, hsstep, hsbit,
    hquiet.pstep, hquiet.pbyte, hquiet.scnt, hquiet.rpass, fun hc => ?_⟩
  have lines := Config.serialLines hc
  have hline : ∀ {r id}, rolePin s.cfg r = some id → r.isInput = false →
    (t.succeed .nothing).roleLine r = levelFrom id (s.line id) (shiftOutTrace s.cfg b) := fun hr hin =>
      (hran.ran.succeed .nothing).roleLine hc hr hin
  refine ⟨(hline rfl rfl).trans (levelFrom_shiftOut_clk ..), (hline rfl rfl).trans (levelFrom_shiftOut_din lines ..), ?_⟩
  rw [hline (r := .tcs) rfl rfl, levelFrom_shiftOut_tcs lines, State.roleLine_eq_line rfl rfl]

/-- Settles O48: `shiftInto_ok`; the accumulator holds the value of the bits (`shiftIn_value`). -/
theorem shinRuns : Obligations.ShinRuns := by
  intro s n h hn
  obtain ⟨t, vs, ht, hlen, hran, hsstep, hsbit, hacc, hlevels, hsupplied⟩ := shiftInto_ok (n := n) (by omega) h
  have hquiet := hran.quiet
  refine ⟨t.succeed (.sample (vs.foldl shiftIn 0#12)), vs, vs.foldl shiftIn 0#12, ?_, hlen, rfl, shiftIn_value vs (by omega),
    hacc, hran.ran.succeed _, ?_, hlevels, hquiet.sb, hquiet.fr, hquiet.x1, hquiet.y1, hquiet.x2, hquiet.y2, hquiet.coord,
    hsstep, hsbit, hquiet.pstep, hquiet.pbyte, hquiet.scnt, hquiet.rpass⟩
  · rw [exec_shin_of_ready h hn, ht, Res.bind_ok, finish_ok]
  · rw [← hlen]; exact hsupplied

/-- Settles O49: `readChannel_ok`; bit 3 of the control byte chooses the bit count (`conversionBits`). -/
theorem rdchRuns : Obligations.RdchRuns := by
  intro s c h
  obtain ⟨t, vs, ht, hlen, hran, hsstep, hsbit, hacc, hlevels, hsupplied⟩ := readChannel_ok c h
  have hquiet := hran.quiet
  have hfits : vs.length ≤ 12 := by rcases conversionBits_cases c with hbits | hbits <;> omega
  refine ⟨t.succeed (.sample (vs.foldl shiftIn 0#12)), vs, vs.foldl shiftIn 0#12, ?_, hlen, rfl, shiftIn_value vs hfits,
    hacc, hran.ran.succeed _, hsupplied, ?_, hquiet.sb, hquiet.fr, hquiet.x1, hquiet.y1, hquiet.x2, hquiet.y2, hquiet.coord,
    hsstep, hsbit, hquiet.pstep, hquiet.pbyte, hquiet.scnt, hquiet.rpass⟩
  · rw [exec_rdch_of_ready h, ht, Res.bind_ok, finish_ok]
  · rw [hlen]; exact hlevels

/-! ### How many events -/

theorem shiftInTrace_length (c : Config) (vs : List Level) : (shiftInTrace c vs).length = 3 * vs.length := by
  simp [shiftInTrace, mul_comm]

/-- The framing, the eight clocks out, the settle delay, the clocks in, the deselection (42_serial_adc.md R124). -/
theorem readTrace_length (c : Config) (ctrl : Byte) (vs : List Level) :
    (readTrace c ctrl vs).length = 5 + 24 + 1 + 3 * vs.length + 1 := by
  simp only [readTrace, List.length_append, shiftInTrace_length]
  rfl

theorem RanEvents.trace_length {ev : List Event} {used : List PinId} {s t : State} (h : RanEvents ev used s t) :
    t.trace.length = s.trace.length + ev.length := by
  rw [h.trace, List.length_append]

/-- Settles O51: the traces of O46 to O49 have lengths that no sampled level enters. -/
theorem serialEventCounts : Obligations.SerialEventCounts := by
  intro s h
  refine ⟨?_, fun b => ?_, fun n hn => ?_, fun c => ?_⟩
  · obtain ⟨t, ht, hwrote, -⟩ := sstartRuns s h
    exact ⟨t, ht, hwrote.ran.trace_length⟩
  · obtain ⟨t, ht, hwrote, -⟩ := shoutRuns s b h
    exact ⟨t, ht, hwrote.ran.trace_length⟩
  · obtain ⟨t, vs, -, ht, hlen, -, -, -, hran, -⟩ := shinRuns s n h hn
    exact ⟨t, ht, by rw [hran.trace_length, shiftInTrace_length, hlen]⟩
  · obtain ⟨t, vs, -, ht, hlen, -, -, -, hran, -⟩ := rdchRuns s c h
    refine ⟨t, ht, ?_⟩
    rw [hran.trace_length, readTrace_length, hlen]
    split <;> rfl

end Sys2Proof.Machine
end

section
/-! What the ADC samples on DIN during the serial operations (42_serial_adc.md R121, R122, R124: O50). -/

namespace Sys2Proof.Machine

/-! ### Sampling, event by event -/

theorem dinSampledFrom_append (c : SerialConnection) (before e f : List Event) :
    dinSampledFrom c before (e ++ f) = dinSampledFrom c before e ++ dinSampledFrom c (before ++ e) f := by
  induction e generalizing before with
  | nil => simp [dinSampledFrom]
  | cons a e ih => simp only [List.cons_append, dinSampledFrom, ih, List.append_assoc]; rfl

/-- Where CLK is not driven high the ADC samples nothing. -/
theorem dinSampledFrom_of_not_raised {c : SerialConnection} (before : List Event) {ev : List Event}
    (h : Event.w c.clk true ∉ ev) : dinSampledFrom c before ev = [] := by
  induction ev generalizing before with
  | nil => rfl
  | cons e ev ih =>
    obtain ⟨hne, hev⟩ := not_or.mp (mt List.mem_cons.mpr h)
    simp [dinSampledFrom, risesSelected, beq_eq_false_iff_ne.mpr (Ne.symm hne), ih _ hev]

/-- A clock of the shifter: CLK low, events that drive neither CLK nor TCS, CLK high, events that do not drive CLK. -/
def clockTrace (c : SerialConnection) (mid tail : List Event) : List Event :=
  Event.w c.clk false :: mid ++ .w c.clk true :: tail

theorem clockOutTrace_eq (c : Config) (v : Level) : clockOutTrace c v = clockTrace c.ser [.w c.ser.din v] [] := rfl

theorem shiftInTrace_cons (c : Config) (v : Level) (vs : List Level) :
    shiftInTrace c (v :: vs) = clockTrace c.ser [] [.r c.ser.dout v] ++ shiftInTrace c vs := rfl

/-- A clock on a selected ADC samples DIN once, at the rising edge of CLK. -/
theorem dinSampledFrom_clockTrace {c : SerialConnection} (hne : c.clk ≠ c.tcs) {tr mid tail : List Event}
    (htcs : levelAfter c.tcs tr = some false) (hclk : c.clk ∉ drivenPins mid) (hsel : c.tcs ∉ drivenPins mid)
    (htail : c.clk ∉ drivenPins tail) (hdin : c.din ≠ c.clk) :
    dinSampledFrom c tr (clockTrace c mid tail) = [levelFrom c.din (levelAfter c.din tr) mid] := by
  have hlow : levelAfter c.clk (tr ++ .w c.clk false :: mid) = some false := by
    rw [levelAfter_append]; exact levelFrom_last_write false _ [] hclk
  have hselected : levelAfter c.tcs (tr ++ .w c.clk false :: mid) = some false := by
    rw [levelAfter_append, levelFrom_of_not_driven _ (by simpa using ⟨hne.symm, hsel⟩), htcs]
  have hpresented : levelAfter c.din (tr ++ .w c.clk false :: mid) = levelFrom c.din (levelAfter c.din tr) mid := by
    rw [levelAfter_append]
    exact congrArg (levelFrom c.din · mid) (if_neg hdin.symm)
  have hquiet : Event.w c.clk true ∉ Event.w c.clk false :: mid := by simpa using not_mem_of_not_driven hclk true
  rw [clockTrace, dinSampledFrom_append, dinSampledFrom_of_not_raised tr hquiet, dinSampledFrom,
    dinSampledFrom_of_not_raised _ (not_mem_of_not_driven htail true)]
  simp [risesSelected, hlow, hselected, hpresented]

/-! ### The parts of the serial operations -/

section
variable {c : Config} {tr : List Event}

/-- The one rising edge of CLK in the framing comes while TCS is high (42_serial_adc.md R121). -/
theorem dinSampledFrom_startTrace (lines : SerialLines c) (tr : List Event) :
    dinSampledFrom c.ser tr (startTrace c) = [] := by
  have htcs : levelAfter c.ser.tcs (tr ++ [.w c.ser.clk false, .w c.ser.tcs true, .w c.ser.din true]) = some true := by
    rw [levelAfter_append]
    exact levelFrom_last_write true _ [.w c.ser.clk false] (by simpa using lines.din_tcs.symm)
  rw [show startTrace c = [Event.w c.ser.clk false, .w c.ser.tcs true, .w c.ser.din true] ++
    .w c.ser.clk true :: [.w c.ser.tcs false] from rfl, dinSampledFrom_append,
    dinSampledFrom_of_not_raised tr (by simpa using ⟨lines.clk_tcs, lines.clk_din⟩), dinSampledFrom,
    dinSampledFrom_of_not_raised _ (by simp)]
  simp [risesSelected, htcs]

/-- Each clock of SHOUT samples the bit it presents (42_serial_adc.md R122). -/
theorem dinSampledFrom_clocksOut (lines : SerialLines c) (l : List Level) (htcs : levelAfter c.ser.tcs tr = some false) :
    dinSampledFrom c.ser tr (l.flatMap (clockOutTrace c)) = l.map some := by
  induction l generalizing tr with
  | nil => rfl
  | cons v l ih =>
    have hclock : dinSampledFrom c.ser tr (clockOutTrace c v) =
        [levelFrom c.ser.din (levelAfter c.ser.din tr) [.w c.ser.din v]] := by
      rw [clockOutTrace_eq]
      exact dinSampledFrom_clockTrace lines.clk_tcs htcs (by simpa using lines.clk_din)
        (by simpa using lines.din_tcs.symm) (by simp) lines.clk_din.symm
    have hselected : levelAfter c.ser.tcs (tr ++ clockOutTrace c v) = some false := by
      rw [levelAfter_append, levelFrom_of_not_driven _ (by simpa [clockOutTrace] using
        ⟨lines.clk_tcs.symm, lines.din_tcs.symm, lines.clk_tcs.symm⟩), htcs]
    rw [List.flatMap_cons, dinSampledFrom_append, hclock, ih hselected]
    simp [levelFrom, levelStep]

/-- Each clock of SHIN samples the level DIN was left at (42_serial_adc.md R123). -/
theorem dinSampledFrom_shiftInTrace (lines : SerialLines c) (vs : List Level) (htcs : levelAfter c.ser.tcs tr = some false) :
    dinSampledFrom c.ser tr (shiftInTrace c vs) = List.replicate vs.length (levelAfter c.ser.din tr) := by
  induction vs generalizing tr with
  | nil => rfl
  | cons v vs ih =>
    have hclock : dinSampledFrom c.ser tr (clockTrace c.ser [] [.r c.ser.dout v]) = _ :=
      dinSampledFrom_clockTrace lines.clk_tcs htcs (by simp) (by simp) (by simp) lines.clk_din.symm
    have hkept : ∀ p, p ≠ c.ser.clk →
        levelAfter p (tr ++ clockTrace c.ser [] [.r c.ser.dout v]) = levelAfter p tr := fun p hp => by
      rw [levelAfter_append, levelFrom_of_not_driven _ (by simpa [clockTrace] using hp)]
    have hrest := ih ((hkept _ lines.clk_tcs.symm).trans htcs)
    rw [hkept _ lines.clk_din.symm] at hrest
    rw [shiftInTrace_cons, dinSampledFrom_append, hclock, hrest]
    rfl

/-- A whole read samples the control byte, and then bit 0 of it once for each bit read (42_serial_adc.md R124). -/
theorem dinSampledFrom_readTrace (lines : SerialLines c) (ctrl : Byte) (vs : List Level) (tr : List Event) :
    dinSampledFrom c.ser tr (readTrace c ctrl vs) =
      (bitsHighFirst ctrl).map some ++ List.replicate vs.length (some (ctrl.getLsbD 0)) := by
  have hstart : levelAfter c.ser.tcs (tr ++ startTrace c) = some false := by
    rw [levelAfter_append]; exact (levelFrom_startTrace lines _).2.2
  have hsettled : ∀ p, levelAfter p (tr ++ (startTrace c ++ shiftOutTrace c ctrl ++ [.d c.tAdcSettle])) =
      levelFrom p (levelAfter p (tr ++ startTrace c)) (shiftOutTrace c ctrl) := fun p => by
    simp only [levelAfter_append, levelFrom_append]; rfl
  have hread := dinSampledFrom_shiftInTrace lines vs
    ((hsettled c.ser.tcs).trans ((levelFrom_shiftOut_tcs lines ctrl _).trans hstart))
  rw [hsettled, levelFrom_shiftOut_din lines] at hread
  rw [readTrace, dinSampledFrom_append, dinSampledFrom_append, hread, dinSampledFrom_append, dinSampledFrom_append,
    dinSampledFrom_startTrace lines, shiftOutTrace_eq, dinSampledFrom_clocksOut lines _ hstart,
    dinSampledFrom_of_not_raised _ (by simp), dinSampledFrom_of_not_raised _ (by simpa using lines.clk_tcs)]
  simp

end

/-- What a run adds to the samples of the trace before it. -/
theorem RanEvents.dinSampled {ev : List Event} {used : List PinId} {s t : State} (h : RanEvents ev used s t)
    (c : SerialConnection) : dinSampled c t.trace = dinSampled c s.trace ++ dinSampledFrom c s.trace ev := by
  rw [Machine.dinSampled, h.trace, dinSampledFrom_append, List.nil_append]
  rfl

/-- Settles O50: the traces of O46, O47 and O49, part by part. -/
theorem adcSamplesControlByte : Obligations.AdcSamplesControlByte := by
  intro s t hc h
  have lines := Config.serialLines hc
  refine ⟨fun hexec => ?_, fun b hexec htcs => ?_, fun c hexec => ?_⟩
  · obtain ⟨u, hu, hwrote, -⟩ := sstartRuns s h
    cases hu.symm.trans hexec
    rw [hwrote.ran.dinSampled, dinSampledFrom_startTrace lines, List.append_nil]
  · obtain ⟨u, hu, hwrote, -⟩ := shoutRuns s b h
    cases hu.symm.trans hexec
    rw [hwrote.ran.dinSampled, shiftOutTrace_eq, dinSampledFrom_clocksOut lines _ htcs]
  · obtain ⟨u, vs, -, hu, hlen, -, -, -, hran, -⟩ := rdchRuns s c h
    cases hu.symm.trans hexec
    rw [hran.dinSampled, dinSampledFrom_readTrace lines, hlen, List.append_assoc]

end Sys2Proof.Machine
end

section
/-! The primitives in sequence leave what RDCH leaves (42_serial_adc.md R128: O52): on the way the two runs differ only in the outcome
record, which the host is handed after each primitive, and in `SSTEP`, and no pin access looks at either. -/

namespace Sys2Proof.Machine

/-! ### The outcome record and `SSTEP` apart from the rest -/

/-- The state with these two replaced, everything else kept. -/
def State.withAside (s : State) (o : Option OpOutcome) (p : SStep) : State := { s with outcome := o, sstep := p }

section
variable (s : State) (o : Option OpOutcome) (p : SStep)

@[simp] theorem State.withAside_cfg : (s.withAside o p).cfg = s.cfg := rfl
@[simp] theorem State.withAside_initialized : (s.withAside o p).initialized = s.initialized := rfl
@[simp] theorem State.withAside_pin (id : PinId) : (s.withAside o p).pin id = s.pin id := rfl
@[simp] theorem State.withAside_bank (b : Nat) : (s.withAside o p).bank b = s.bank b := rfl
@[simp] theorem State.withAside_driven (d : PinDescriptor) : (s.withAside o p).driven d = s.driven d := rfl

@[simp] theorem State.withAside_openPin (id : PinId) : (s.withAside o p).openPin id = (s.openPin id).withAside o p := by
  unfold State.openPin
  rw [State.withAside_pin]
  cases (s.pin id).opened <;> rfl

@[simp] theorem State.withAside_sampled (d : PinDescriptor) : (s.withAside o p).sampled d = (s.sampled d).withAside o p := by
  unfold State.sampled
  rw [State.withAside_driven]
  split <;> rfl

end

/-! ### Operations that do not look at them -/

/-- The operation neither reads nor writes the outcome record and `SSTEP`. -/
def AsideBlind {α : Type} (f : State → Res α) : Prop := ∀ s o p, f (s.withAside o p) = (f s).mapState (·.withAside o p)

theorem AsideBlind.bind {α β : Type} {f : State → Res α} {g : α → State → Res β} (hf : AsideBlind f)
    (hg : ∀ a, AsideBlind (g a)) : AsideBlind fun s => (f s).bind (g · ·) := by
  intro s o p
  show (f (s.withAside o p)).bind _ = ((f s).bind _).mapState _
  rw [hf]
  cases f s with
  | ok a t => exact hg a t o p
  | err => rfl
  | refused => rfl
  | stuck => rfl

/-- Where such an operation goes on, it does so whatever the two hold. -/
theorem AsideBlind.ok {α : Type} {f : State → Res α} (hf : AsideBlind f) {s t : State} {a : α} (h : f s = .ok a t)
    (o : Option OpOutcome) (p : SStep) : f (s.withAside o p) = .ok a (t.withAside o p) := by
  rw [hf, h]; rfl

theorem pinCheck_asideBlind (id : PinId) : AsideBlind (pinCheck id) := by
  intro s o p
  unfold pinCheck
  rw [State.withAside_initialized, State.withAside_cfg, State.withAside_openPin]
  split
  · cases s.cfg.find id <;> rfl
  · rfl

theorem acquire_asideBlind (b : Nat) : AsideBlind (acquire b) := by
  intro s o p
  unfold acquire
  rw [State.withAside_bank]
  cases (s.bank b).lock <;> rfl

theorem writeLine_asideBlind (d : PinDescriptor) (v : Level) : AsideBlind (writeLine d v) := by
  intro s o p
  unfold writeLine
  rw [State.withAside_cfg]
  cases s.cfg.writeStyle with
  | setClear => rfl
  | singleData => exact (acquire_asideBlind d.bank).bind (fun _ _ _ _ => rfl) s o p

theorem pinWrite_asideBlind (id : PinId) (v : Level) : AsideBlind (pinWrite id v) := by
  refine (pinCheck_asideBlind id).bind fun d s o p => ?_
  rw [State.withAside_cfg, State.withAside_pin]
  split
  · split
    · exact (writeLine_asideBlind d v).bind (fun _ _ _ _ => rfl) s o p
    · rfl
  · rfl

theorem pinRead_asideBlind (id : PinId) : AsideBlind (pinRead id) := by
  refine (pinCheck_asideBlind id).bind fun d s o p => ?_
  rw [State.withAside_sampled]; rfl

/-! ### The clocks -/

theorem shiftOutBits_asideBlind (j : Nat) (l : List Level) : AsideBlind (shiftOutBits j l) := by
  induction l generalizing j with
  | nil => exact fun _ _ _ => rfl
  | cons v l ih =>
    refine AsideBlind.bind (f := fun s => pinWrite s.cfg.ser.clk false { s with sbit := BitVec.ofNat 4 j })
      (fun s => pinWrite_asideBlind s.cfg.ser.clk false { s with sbit := BitVec.ofNat 4 j }) fun _ => ?_
    refine AsideBlind.bind (fun s => pinWrite_asideBlind s.cfg.ser.din v s) fun _ => ?_
    exact AsideBlind.bind (fun s => pinWrite_asideBlind s.cfg.ser.clk true s) fun _ => ih (j + 1)

theorem shiftInBits_asideBlind (j n : Nat) : AsideBlind (shiftInBits j n) := by
  induction n generalizing j with
  | zero => exact fun _ _ _ => rfl
  | succ n ih =>
    refine AsideBlind.bind (f := fun s => pinWrite s.cfg.ser.clk false { s with sbit := BitVec.ofNat 4 j })
      (fun s => pinWrite_asideBlind s.cfg.ser.clk false { s with sbit := BitVec.ofNat 4 j }) fun _ => ?_
    refine AsideBlind.bind (fun s => pinWrite_asideBlind s.cfg.ser.clk true s) fun _ => ?_
    exact AsideBlind.bind (fun s => pinRead_asideBlind s.cfg.ser.dout s) fun v s => ih (j + 1) { s with acc := shiftIn s.acc v }

/-- `shift_out` sets `SSTEP` first and ends with it idle, whatever it held. -/
theorem shiftOut_withAside {b : Byte} {s t : State} (h : shiftOut b s = .ok () t) (o : Option OpOutcome) (p : SStep) :
    shiftOut b (s.withAside o p) = .ok () (t.withAside o .idle) := by
  obtain ⟨_, u, hu, ht⟩ := Res.bind_eq_ok h
  have hclocks : shiftOutBits 0 (bitsHighFirst b) { s.withAside o p with sstep := .out } = .ok () (u.withAside o .out) :=
    (shiftOutBits_asideBlind 0 _).ok hu o .out
  cases ht
  rw [shiftOut, hclocks]; rfl

/-- `shift_in` does too. -/
theorem shiftInto_withAside {n : Nat} {v : Sample} {s t : State} (h : shiftInto n s = .ok v t) (o : Option OpOutcome)
    (p : SStep) : shiftInto n (s.withAside o p) = .ok v (t.withAside o .idle) := by
  obtain ⟨_, u, hu, ht⟩ := Res.bind_eq_ok h
  have hclocks : shiftInBits 0 n { s.withAside o p with sstep := .input, acc := 0#12 } = .ok () (u.withAside o .input) :=
    (shiftInBits_asideBlind 0 n).ok hu o .input
  cases ht
  rw [shiftInto, hclocks]; rfl

/-! ### The two runs -/

/-- RDCH after the settle delay (42_serial_adc.md R124). -/
def State.settled (s : State) : State := { s with sstep := .settle }.delayed s.cfg.tAdcSettle

/-- A whole read, taken apart at its statements (42_serial_adc.md R124); the connection stays ready. -/
structure ReadParts (c : Byte) (v : Sample) (s s₁ s₂ s₃ t : State) : Prop where
  framed : startFrame s = .ok () s₁
  sent : shiftOut c s₁ = .ok () s₂
  read : shiftInto (conversionBits c) s₂.settled = .ok v s₃
  deselected : pinWrite s₃.cfg.ser.tcs true { s₃ with sstep := .deselect } = .ok () t
  framedReady : s₁.serialReady = true
  sentReady : s₂.serialReady = true
  sentCfg : s₂.cfg = s.cfg
  readCfg : s₃.cfg = s.cfg

theorem readParts_of_ready {s : State} (h : s.serialReady = true) (c : Byte) :
    ∃ v s₁ s₂ s₃ t, ReadParts c v s s₁ s₂ s₃ t := by
  obtain ⟨s₁, h₁, r₁, -⟩ := startFrame_ok h
  have hr₁ := r₁.ran.serialReady.trans h
  obtain ⟨s₂, h₂, r₂, -⟩ := shiftOut_ok c hr₁
  have hr₂ := r₂.ran.serialReady.trans hr₁
  have hc₂ := r₂.ran.inputs.cfg.trans r₁.ran.inputs.cfg
  have hr : s₂.settled.serialReady = true := hr₂
  have hbits : conversionBits c ≠ 0 := by rcases conversionBits_cases c with hb | hb <;> rw [hb] <;> decide
  obtain ⟨s₃, vs, h₃, -, r₃, -⟩ := shiftInto_ok hbits hr
  have hr₃ : ({ s₃ with sstep := .deselect } : State).serialReady = true := r₃.ran.serialReady.trans hr
  obtain ⟨t, h₄, -⟩ := serialWrite true (State.serialReady_spec hr₃).2.2.1
  exact ⟨_, s₁, s₂, s₃, t, h₁, h₂, h₃, h₄, hr₁, hr₂, hc₂, r₃.ran.inputs.cfg.trans hc₂⟩

section
variable {c : Byte} {v : Sample} {s s₁ s₂ s₃ t : State}

theorem ReadParts.exec_rdch (parts : ReadParts c v s s₁ s₂ s₃ t) (h : s.serialReady = true) :
    exec (.rdch c) s = .next (t.withAside (some (.ok (.sample v))) .idle) := by
  rw [exec_rdch_of_ready h, readChannel, parts.framed, Res.bind_ok, parts.sent, Res.bind_ok, ← State.settled,
    parts.read, Res.bind_ok, parts.deselected]
  rfl

theorem runAll_cons_of_ok {i : Instr} {l : List Instr} (h : exec i s = .next t) (ht : t.lastOk = true) :
    runAll (i :: l) s = runAll l t :=
  runAll_append (l := [i]) ((runAll_singleton i s).trans h) ht

/-- The primitives go through the parts of the read, with another outcome record and with `SSTEP` idle between them. -/
theorem ReadParts.runAll_primitives (parts : ReadParts c v s s₁ s₂ s₃ t) (h : s.serialReady = true)
    (hset : s.cfg.tAdcSettle = microseconds 6) :
    runAll [.sstart, .shout c, .delay 6, .shin (conversionBits c), .pinwr s.cfg.ser.tcs true] s =
      .next (t.withAside (some (.ok .nothing)) .idle) := by
  have hstart : exec .sstart s = .next (s₁.succeed .nothing) := by
    rw [exec_sstart_of_ready h, parts.framed, finishUnit_ok]
  have hout : exec (.shout c) (s₁.succeed .nothing) = .next (s₂.withAside (some (.ok .nothing)) .idle) := by
    rw [exec_shout_of_ready (s := s₁.succeed .nothing) parts.framedReady]
    exact congrArg finishUnit (shiftOut_withAside parts.sent (some (.ok .nothing)) s₁.sstep)
  have hdelay : exec (.delay 6) (s₂.withAside (some (.ok .nothing)) .idle) =
      .next (s₂.settled.withAside (some (.ok .nothing)) .idle) := by
    rw [exec_delay, ← hset, ← parts.sentCfg]
    rfl
  have hin : exec (.shin (conversionBits c)) (s₂.settled.withAside (some (.ok .nothing)) .idle) =
      .next (s₃.withAside (some (.ok (.sample v))) .idle) := by
    have hready : (s₂.settled.withAside (some (.ok .nothing)) .idle).serialReady = true := parts.sentReady
    rw [exec_shin_of_ready hready (conversionBits_cases c), shiftInto_withAside parts.read]
    rfl
  have hlast : exec (.pinwr s.cfg.ser.tcs true) (s₃.withAside (some (.ok (.sample v))) .idle) =
      .next (t.withAside (some (.ok .nothing)) .idle) := by
    rw [← parts.readCfg]
    exact congrArg finishUnit ((pinWrite_asideBlind _ _).ok parts.deselected (some (.ok (.sample v))) .idle)
  rw [runAll_cons_of_ok hstart rfl, runAll_cons_of_ok hout rfl, runAll_cons_of_ok hdelay rfl, runAll_cons_of_ok hin rfl,
    runAll_singleton, hlast]

end

/-- Settles O52: both runs go through the parts of one read, and end with `SSTEP` idle. -/
theorem primitivesMakeRdch : Obligations.PrimitivesMakeRdch := by
  intro s c h hset
  obtain ⟨v, s₁, s₂, s₃, t, parts⟩ := readParts_of_ready h c
  exact ⟨_, _, parts.exec_rdch h, parts.runAll_primitives h hset, rfl, rfl⟩

end Sys2Proof.Machine
end

section
/-! The ranked mean of a window (43_filter_resolve.md R141, R142: O54 to O56): a descending order is unique, and all that a window
contributes is the part of that order which is kept. -/

namespace Sys2Proof.Machine

/-! ### The descending order of a window -/

theorem sortedFrom_sortDescending (l : List Sample) : SortedFrom (sortDescending l) l :=
  ⟨sortDescending_perm l, sortDescending_sorted l⟩

/-- Equal samples are the same sample, so the order has one result (log 24). -/
theorem SortedFrom.eq_sortDescending {t l : List Sample} (h : SortedFrom t l) : t = sortDescending l :=
  (h.1.trans (sortDescending_perm l).symm).eq_of_pairwise
    (fun _ _ _ _ hle hge => BitVec.eq_of_toNat_eq (le_antisymm hge hle)) h.2 (sortDescending_sorted l)

theorem SortedFrom.of_perm {t l l' : List Sample} (h : SortedFrom t l) (hperm : l.Perm l') : SortedFrom t l' :=
  ⟨h.1.trans hperm, h.2⟩

theorem SortedFrom.append {t u l m : List Sample} (h : SortedFrom t l) (g : SortedFrom u m)
    (hle : ∀ a ∈ l, ∀ b ∈ m, b.toNat ≤ a.toNat) : SortedFrom (t ++ u) (l ++ m) :=
  ⟨h.1.append g.1, List.pairwise_append.mpr ⟨h.2, g.2, fun a ha b hb => hle a (h.1.mem_iff.mp ha) b (g.1.mem_iff.mp hb)⟩⟩

/-! ### The samples kept -/

/-- The numbers of R141 written out. -/
theorem keptSamples_eq (t : List Sample) :
    keptSamples t = if 5 ≤ t.length then (t.drop 2).take (t.length - 4) else t := rfl

theorem keptSamples_subset (t : List Sample) : keptSamples t ⊆ t := by
  rw [keptSamples_eq]
  split
  · exact fun v hv => List.drop_subset 2 t (List.take_subset _ _ hv)
  · exact List.Subset.refl t

/-- Two samples at each end of a longer list are the ones dropped. -/
theorem keptSamples_append {pre mid post : List Sample} (hpre : pre.length = 2) (hpost : post.length = 2)
    (hmid : 0 < mid.length) :
    keptSamples (pre ++ (mid ++ post)) = mid := by
  have hlength : (pre ++ (mid ++ post)).length = mid.length + 4 := by
    simp only [List.length_append, hpre, hpost]; omega
  rw [keptSamples_eq, hlength, if_pos (by omega), List.drop_left' hpre, Nat.add_sub_cancel, List.take_left' rfl]

theorem sampleSum_perm {l m : List Sample} (h : l.Perm m) : sampleSum l = sampleSum m := (h.map _).sum_eq

/-- A sum lies between the bounds of its samples, taken as often as there are samples. -/
theorem sampleSum_bounds {k : List Sample} {lo hi : Nat} (h : ∀ v ∈ k, lo ≤ v.toNat ∧ v.toNat ≤ hi) :
    lo * k.length ≤ sampleSum k ∧ sampleSum k ≤ hi * k.length := by
  constructor
  · simpa [sampleSum, mul_comm] using
      List.card_nsmul_le_sum (k.map (·.toNat)) lo (List.forall_mem_map.mpr fun v hv => (h v hv).1)
  · simpa [sampleSum, mul_comm] using
      List.sum_le_card_nsmul (k.map (·.toNat)) hi (List.forall_mem_map.mpr fun v hv => (h v hv).2)

/-! ### The ranked mean -/

theorem rankedMean_of_sorted {t l : List Sample} (h : SortedFrom t l) : rankedMean l = readingOf (keptSamples t) := by
  rw [rankedMean, ← h.eq_sortDescending]

theorem keptSamples_sort_length (l : List Sample) :
    (keptSamples (sortDescending l)).length = if 5 ≤ l.length then l.length - 4 else l.length := by
  rw [keptSamples_length, sortDescending_length]

/-- The registers hold the reading of a window without truncation (10_state.md R24). -/
theorem rankedMean_exact {l : List Sample} (h : l.length ≤ 255) :
    (rankedMean l).sum.toNat = sampleSum (keptSamples (sortDescending l)) ∧
      (rankedMean l).cnt.toNat = (keptSamples (sortDescending l)).length :=
  readingOf_exact _ (by rw [keptSamples_sort_length]; split <;> omega)

theorem rankedMean_perm {l l' : List Sample} (h : l.Perm l') : rankedMean l = rankedMean l' :=
  rankedMean_of_sorted ((sortedFrom_sortDescending l').of_perm h.symm)

/-- Every kept sample is one of the window, and at least one is kept. -/
theorem rankedMean_value_bounds {l : List Sample} {lo hi : Nat} (h3 : 3 ≤ l.length) (h255 : l.length ≤ 255)
    (h : ∀ v ∈ l, lo ≤ v.toNat ∧ v.toNat ≤ hi) :
    (lo : ℚ) ≤ (rankedMean l).value ∧ (rankedMean l).value ≤ (hi : ℚ) := by
  obtain ⟨hsum, hcnt⟩ := rankedMean_exact h255
  obtain ⟨hlo, hhi⟩ := sampleSum_bounds (k := keptSamples (sortDescending l)) (lo := lo) (hi := hi)
    fun v hv => h v ((sortDescending_perm l).subset (keptSamples_subset _ hv))
  have hpos : 0 < (keptSamples (sortDescending l)).length := by rw [keptSamples_sort_length]; split <;> omega
  have hpos' : (0 : ℚ) < (keptSamples (sortDescending l)).length := by exact_mod_cast hpos
  rw [Reading.value, hsum, hcnt, le_div_iff₀ hpos', div_le_iff₀ hpos']
  exact ⟨by exact_mod_cast hlo, by exact_mod_cast hhi⟩

/-- Settles O54: the order is the model's own sort, and the registers are wide enough (`rankedMean_exact`). -/
theorem rankedMeanIsMiddle : Obligations.RankedMeanIsMiddle := by
  intro l _ h255
  obtain ⟨hsum, hcnt⟩ := rankedMean_exact h255
  refine ⟨sortDescending l, sortDescending_perm l, sortDescending_sorted l, ?_, ?_⟩
  · rw [hsum, keptSamples_eq, sortDescending_length]
  · rw [hcnt, keptSamples_sort_length]

/-- Settles O55: one descending order for all lists of the same samples; identical samples are bounds of themselves. -/
theorem rankedMeanProperties : Obligations.RankedMeanProperties := by
  refine ⟨fun l l' => rankedMean_perm, fun v n h3 h255 => ?_, fun l lo hi => rankedMean_value_bounds⟩
  obtain ⟨hlo, hhi⟩ := rankedMean_value_bounds (l := List.replicate n v) (lo := v.toNat) (hi := v.toNat) (by simpa using h3)
    (by simpa using h255) fun w hw => by simp [List.eq_of_mem_replicate hw]
  exact le_antisymm hhi hlo

/-- Settles O56: the descending order of the window is the two greatest, the others, the two least, each sorted. -/
theorem rankedMeanDropsOutliers : Obligations.RankedMeanDropsOutliers := by
  intro l mid a b c d hmid h251 hbounds hperm
  have hhigh : ∀ v ∈ [a, b], ∀ w ∈ mid, w.toNat ≤ v.toNat := fun v hv w hw => by
    obtain ⟨hwa, hwb, -, -⟩ := hbounds w hw
    rcases List.mem_pair.mp hv with rfl | rfl <;> assumption
  have hlow : ∀ v ∈ mid, ∀ w ∈ [c, d], w.toNat ≤ v.toNat := fun v hv w hw => by
    obtain ⟨-, -, hcv, hdv⟩ := hbounds v hv
    rcases List.mem_pair.mp hw with rfl | rfl <;> assumption
  obtain ⟨m, hm⟩ := List.exists_mem_of_ne_nil mid hmid
  have hhigh' : ∀ v ∈ [a, b], ∀ w ∈ mid ++ [c, d], w.toNat ≤ v.toNat := fun v hv w hw =>
    (List.mem_append.mp hw).elim (hhigh v hv w) fun hw => (hlow m hm w hw).trans (hhigh v hv m hm)
  have horder := (sortedFrom_sortDescending [a, b]).append
    ((sortedFrom_sortDescending mid).append (sortedFrom_sortDescending [c, d]) hlow) hhigh'
  have hwindow : ([a, b] ++ (mid ++ [c, d])).Perm l :=
    .trans (.append_left [a, b] List.perm_append_comm) hperm.symm
  have hkept : rankedMean l = readingOf (sortDescending mid) := by
    rw [rankedMean_of_sorted (horder.of_perm hwindow), keptSamples_append (by simp) (by simp)]
    simpa [List.length_pos_iff] using hmid
  obtain ⟨hsum, hcnt⟩ := readingOf_exact (sortDescending mid) (by rw [sortDescending_length]; omega)
  rw [hkept, hsum, hcnt, sortDescending_length]
  exact ⟨sampleSum_perm (sortDescending_perm mid), rfl⟩

end Sys2Proof.Machine
end

section
/-! The resolver's integer tests are the rational rule of R148 (43_filter_resolve.md R144, R146, R148: O59). -/

namespace Sys2Proof.Machine

/-! ### The tests over the rationals -/

theorem natCast_distance (m n : Nat) : ((distance m n : Nat) : ℚ) = |(m : ℚ) - n| := by
  rcases le_total m n with h | h
  · have hle : (m : ℚ) ≤ n := by exact_mod_cast h
    rw [abs_of_nonpos (by linarith), distance, Nat.sub_eq_zero_of_le h, Nat.zero_add, Nat.cast_sub h, neg_sub]
  · have hle : (n : ℚ) ≤ m := by exact_mod_cast h
    rw [abs_of_nonneg (by linarith), distance, Nat.sub_eq_zero_of_le h, Nat.add_zero, Nat.cast_sub h]

section
variable {a b : Reading}

theorem Reading.possible.cnt_pos (h : a.possible) : 0 < a.cnt.toNat := h.1

theorem Reading.possible.sum_le (h : a.possible) : a.sum.toNat ≤ 4095 * a.cnt.toNat := h.2

/-- The jitter test multiplied out (43_filter_resolve.md R144). -/
theorem jitterExceeded_iff (ha : a.possible) (hb : b.possible) :
    jitterExceeded a b = true ↔ 50 < |a.value - b.value| := by
  have hca : (0 : ℚ) < a.cnt.toNat := by exact_mod_cast ha.cnt_pos
  have hcb : (0 : ℚ) < b.cnt.toNat := by exact_mod_cast hb.cnt_pos
  have hdelta : |a.value - b.value| =
      (distance (a.sum.toNat * b.cnt.toNat) (b.sum.toNat * a.cnt.toNat) : Nat) / ((a.cnt.toNat : ℚ) * b.cnt.toNat) := by
    rw [Reading.value, Reading.value, div_sub_div _ _ hca.ne' hcb.ne', abs_div, abs_of_pos (mul_pos hca hcb), natCast_distance]
    push_cast
    rw [mul_comm (a.cnt.toNat : ℚ) (b.sum.toNat : ℚ)]
  rw [hdelta, lt_div_iff₀ (mul_pos hca hcb), jitterExceeded, decide_eq_true_iff, pJitter, mul_assoc]
  exact_mod_cast Iff.rfl

/-- The average of two fractions rounded down is one integer division (43_filter_resolve.md R146, decision D8). -/
theorem averageFloor_eq_floor (ha : a.possible) (hb : b.possible) :
    (averageFloor a b : ℤ) = ⌊(a.value + b.value) / 2⌋ := by
  have hca : (a.cnt.toNat : ℚ) ≠ 0 := by exact_mod_cast ha.cnt_pos.ne'
  have hcb : (b.cnt.toNat : ℚ) ≠ 0 := by exact_mod_cast hb.cnt_pos.ne'
  have hfraction : (a.value + b.value) / 2 =
      ((a.sum.toNat * b.cnt.toNat + b.sum.toNat * a.cnt.toNat : Nat) : ℚ) / (2 * a.cnt.toNat * b.cnt.toNat : Nat) := by
    rw [Reading.value, Reading.value]
    push_cast
    field_simp
  rw [hfraction, Rat.floor_natCast_div_natCast, averageFloor]
  push_cast
  rfl

/-- An average of possible readings fits 12 bits (10_state.md R25). -/
theorem averageFloor_lt (ha : a.possible) (hb : b.possible) : averageFloor a b < 4096 := by
  have hpos : 0 < 2 * a.cnt.toNat * b.cnt.toNat := by have := ha.cnt_pos; have := hb.cnt_pos; positivity
  rw [averageFloor, Nat.div_lt_iff_lt_mul hpos]
  have hab := Nat.mul_le_mul_right b.cnt.toNat ha.sum_le
  have hba := Nat.mul_le_mul_right a.cnt.toNat hb.sum_le
  nlinarith

theorem averageFloor_ofNat (ha : a.possible) (hb : b.possible) :
    ((BitVec.ofNat 12 (averageFloor a b)).toNat : ℤ) = ⌊(a.value + b.value) / 2⌋ := by
  rw [BitVec.toNat_ofNat, Nat.mod_eq_of_lt (averageFloor_lt ha hb), averageFloor_eq_floor ha hb]

end

/-! ### The rule -/

section
variable {yCheck : Bool} {x1 y1 x2 y2 : Reading}

theorem resolveValues_of_unstable (h : jitterExceeded x1 x2 = true ∨ jitterExceeded y1 y2 = true) :
    resolveValues yCheck x1 y1 x2 y2 = .error .unstableReading := by
  rw [resolveValues, if_pos (by simpa using h)]

theorem resolveValues_of_outOfRange (hx : jitterExceeded x1 x2 = false) (hy : jitterExceeded y1 y2 = false)
    (h : averageFloor x1 x2 < 100 ∨ yCheck = true ∧ 4000 < averageFloor y1 y2) :
    resolveValues yCheck x1 y1 x2 y2 = .error .outOfRange := by
  rw [resolveValues, if_neg (by simp [hx, hy]), if_pos]
  simp only [Bool.or_eq_true, Bool.and_eq_true, decide_eq_true_eq]
  exact h

theorem resolveValues_of_inRange (hx : jitterExceeded x1 x2 = false) (hy : jitterExceeded y1 y2 = false)
    (hmin : 100 ≤ averageFloor x1 x2) (hmax : yCheck = true → averageFloor y1 y2 ≤ 4000) :
    resolveValues yCheck x1 y1 x2 y2 =
      .ok ⟨BitVec.ofNat 12 (averageFloor x1 x2), BitVec.ofNat 12 (averageFloor y1 y2)⟩ := by
  rw [resolveValues, if_neg (by simp [hx, hy]), if_neg]
  simp only [Bool.or_eq_true, Bool.and_eq_true, decide_eq_true_eq]
  rintro (hlow | ⟨hcheck, hhigh⟩)
  exacts [hlow.not_ge hmin, hhigh.not_ge (hmax hcheck)]

end

/-- Settles O59: each branch of `resolveValues`, its integer test read as the rational one. -/
theorem resolveValuesFollowsRule : Obligations.ResolveValuesFollowsRule := by
  intro yCheck x1 y1 x2 y2 hx1 hy1 hx2 hy2
  have hstable : ∀ {a b : Reading}, a.possible → b.possible → |a.value - b.value| ≤ 50 → jitterExceeded a b = false :=
    fun ha hb h => Bool.eq_false_iff.mpr fun hj => absurd ((jitterExceeded_iff ha hb).mp hj) h.not_gt
  rw [← jitterExceeded_iff hx1 hx2, ← jitterExceeded_iff hy1 hy2]
  refine ⟨resolveValues_of_unstable, fun hx hy => ?_⟩
  have hx := hstable hx1 hx2 hx
  have hy := hstable hy1 hy2 hy
  rw [← averageFloor_eq_floor hx1 hx2, ← averageFloor_eq_floor hy1 hy2]
  refine ⟨fun hrange => resolveValues_of_outOfRange hx hy (by exact_mod_cast hrange), fun hmin hmax => ?_⟩
  refine ⟨_, resolveValues_of_inRange hx hy (by exact_mod_cast hmin) (by exact_mod_cast hmax), ?_, ?_⟩
  · rw [averageFloor_ofNat hx1 hx2, averageFloor_eq_floor hx1 hx2]
  · rw [averageFloor_ofNat hy1 hy2, averageFloor_eq_floor hy1 hy2]

end Sys2Proof.Machine
end

section
/-! FILT and RESOLVE on a connection that is ready (43_filter_resolve.md R143, R145: O53, O57). -/

namespace Sys2Proof.Machine

/-! ### The operations without their preconditions -/

section
variable {s : State}

theorem exec_filt_of_ready (h : s.serialReady = true) (h3 : 3 ≤ s.cfg.window) (c : Byte) :
    exec (.filt c) s = finish ((filterChannel c s).bind fun r t => .ok (.reading r) t) := by
  rw [exec, execFilt, filterCheck_ok h h3, Res.bind_ok]

theorem exec_resolve_of_ready (h : s.serialReady = true) (h3 : 3 ≤ s.cfg.window) :
    exec .resolve s = finish ((readPasses s).bind fun _ t => resolveReadings t) := by
  rw [exec, execResolve, filterCheck_ok h h3, Res.bind_ok]

theorem resolveReadings_of_ok {c : Coord} (h : resolveValues s.cfg.yCheck s.x1 s.y1 s.x2 s.y2 = .ok c) :
    resolveReadings s = .ok (.coord c) { s with coord := c } := by
  rw [resolveReadings, h]

theorem resolveReadings_of_error {e : ErrorKind} (h : resolveValues s.cfg.yCheck s.x1 s.y1 s.x2 s.y2 = .error e) :
    resolveReadings s = .err e none s := by
  rw [resolveReadings, h]

end

/-- Settles O53: `filterChannel_ok`, and the end of the operation writes the outcome alone. -/
theorem filtRuns : Obligations.FiltRuns := by
  intro s c h h3 _
  obtain ⟨t, l, ht, hlength, hfits, ⟨hran, hquiet⟩, hsb, hfr, hlevels, hsupplied, hsstep, hsbit, hscnt, hacc⟩ :=
    filterChannel_ok c s h (by omega)
  refine ⟨t.succeed (.reading (rankedMean l)), l, ?_, hlength, hfits, ⟨hsupplied, ?_⟩, rfl, hfr, ?_, hacc, hran.succeed _,
    hquiet.x1, hquiet.y1, hquiet.x2, hquiet.y2, hquiet.coord, hsstep, hsbit, hscnt, hquiet.rpass, hquiet.pstep, hquiet.pbyte⟩
  · rw [exec_filt_of_ready h h3, ht, Res.bind_ok, finish_ok]
  · rw [filterBits_length, hlength]; exact hlevels
  · rw [State.succeed_sb, hsb]; exact sortedFrom_sortDescending l

/-! ### The end of RESOLVE -/

section
variable {s t : State} {lx ly mx my : List Sample}

/-- What the windows left stands through a change of the coordinate, the outcome and the counters. -/
theorem ResolveRead.finished (h : ResolveRead lx ly mx my s t) (k : Coord) (o : Option OpOutcome) (p : PStep) (b : BitVec 1)
    (q : SStep) (j : BitVec 4) (n : BitVec 8) (r : BitVec 2) :
    ResolveRead lx ly mx my s { t with coord := k, outcome := o, pstep := p, pbyte := b, sstep := q, sbit := j, scnt := n,
                                       rpass := r } :=
  { h with
    levels := ⟨h.levels.supplied, h.levels.rest⟩
    ran := h.ran.quietly (.of_same rfl rfl rfl rfl rfl rfl rfl rfl rfl) }

/-- The resolver sees the readings of the four windows. -/
theorem ResolveRead.resolveValues_eq (h : ResolveRead lx ly mx my s t) :
    resolveValues t.cfg.yCheck t.x1 t.y1 t.x2 t.y2 =
      resolveValues s.cfg.yCheck (rankedMean lx) (rankedMean ly) (rankedMean mx) (rankedMean my) := by
  rw [h.ran.inputs.cfg, h.x1, h.y1, h.x2, h.y2]

end

/-- Settles O57: the four windows are read (`readPasses_ok`), then the resolver's answer, coordinate or error, ends it. -/
theorem resolveRuns : Obligations.ResolveRuns := by
  intro s h h3 _
  obtain ⟨t, lx, ly, mx, my, ht, hread, -, hsstep, hsbit, hscnt, hrpass, hpstep, hpbyte, -⟩ := readPasses_ok s h (by omega)
  have hexec : exec .resolve s = finish (resolveReadings t) := by rw [exec_resolve_of_ready h h3, ht, Res.bind_ok]
  cases hvalue : resolveValues s.cfg.yCheck (rankedMean lx) (rankedMean ly) (rankedMean mx) (rankedMean my) with
  | ok c =>
    refine ⟨({ t with coord := c } : State).succeed (.coord c), lx, ly, mx, my, ?_, hread.finished .., ?_, ?_, hsstep, hsbit,
      hscnt, hrpass, fun _ => ⟨hpstep, hpbyte⟩⟩
    · rw [hexec, resolveReadings_of_ok (hread.resolveValues_eq.trans hvalue), finish_ok]
    · intro c' hc
      obtain rfl : c = c' := Except.ok.inj (hvalue.symm.trans hc)
      exact ⟨rfl, rfl⟩
    · intro e he
      cases hvalue.symm.trans he
  | error e =>
    refine ⟨t.raise e none, lx, ly, mx, my, ?_, hread.finished .., ?_, ?_, rfl, rfl, rfl, rfl, fun hok => by cases hok⟩
    · rw [hexec, resolveReadings_of_error (hread.resolveValues_eq.trans hvalue), finish_err]
    · intro c hc
      cases hvalue.symm.trans hc
    · intro e' he
      obtain rfl : e = e' := Except.error.inj (hvalue.symm.trans he)
      rfl

end Sys2Proof.Machine
end

section
/-! How a step runs the operation of its word (30_encoding.md R60, 60_exceptions.md R182: O7, O8), and what a block whose
initialisation failed still does (10_state.md R18, 60_exceptions.md R165, R209: O16). -/

namespace Sys2Proof.Machine

/-! ### The step and its word -/

/-- Settles O7. -/
theorem stepRunsDecoded : Obligations.StepRunsDecoded := fun _ _ _ _ hport hdecode =>
  step_of_decode_some hport hdecode

theorem State.withFetchWord_word (s : State) (w : Word) : s.withFetchWord 32 w.toNat = s.offer w := by
  rw [State.withFetchWord, Nat.mod_eq_of_lt w.isLt, BitVec.ofNat_toNat, BitVec.setWidth_eq]

/-- Settles O8: the word issued is decoded to its operation (`decodeReadsEncode`), and taking it restores the port. -/
theorem issuedWordRuns : Obligations.IssuedWordRuns := by
  intro s i hwf
  rw [State.withFetchWord_word]
  exact step_of_decode_some (s := s.offer (encode i)) rfl (decodeReadsEncode i hwf)

/-! ### After a failed initialisation -/

/-- `t` is reached from `s` by a block whose one initialisation attempt has failed: no pin and no bank is touched, and only delays
are added to the trace. -/
structure AfterFailedInit (s t : State) : Prop where
  tried : t.initTried = true
  uninitialized : t.initialized = false
  pt : t.pt = s.pt
  banks : t.banks = s.banks
  waits : ∃ ev, t.trace = s.trace ++ ev ∧ ∀ e ∈ ev, ∃ n, e = .d n

theorem AfterFailedInit.refl {s : State} (ht : s.initTried = true) (hi : s.initialized = false) : AfterFailedInit s s :=
  ⟨ht, hi, rfl, rfl, [], by simp⟩

/-- Every move on a pin needs an initialised block, and a second attempt needs a block that has not tried. -/
theorem Move.afterFailedInit {k : Kind} {s t u : State} (h : Move k t u) (ht : AfterFailedInit s t) :
    AfterFailedInit s u := by
  obtain ⟨htried, huninit, hpt, hbanks, ev, htrace, hwaits⟩ := ht
  cases h with
  | waited _ n =>
    refine ⟨htried, huninit, hpt, hbanks, ev ++ [.d n], ?_, ?_⟩
    · rw [State.delayed_trace, htrace, List.append_assoc]
    · simpa [or_imp, forall_and] using hwaits
  | opened _ _ hi | wrote _ _ _ _ hi | sampled _ _ _ _ _ _ _ _ hi | directed _ _ _ _ hi | pulled _ _ _ _ _ hi
  | closed _ _ hi => rw [huninit] at hi; cases hi
  | flags _ _ hfresh => rw [htried] at hfresh; cases hfresh
  | counters | acc | filter | resolver | outcome | drew => exact ⟨htried, huninit, hpt, hbanks, ev, htrace, hwaits⟩

/-- Settles O16: whatever moves the operation makes, none leaves the failed initialisation. -/
theorem failedInitIsFinal : Obligations.FailedInitIsFinal := by
  intro s t htried huninit hstep
  have hs : AfterFailedInit s s := .refl htried huninit
  have ht : AfterFailedInit s t := by
    rcases step_cases hstep with rfl | ⟨_, _, rfl⟩ | ⟨i, hi⟩
    · exact hs
    · exact ⟨htried, huninit, rfl, rfl, hs.waits⟩
    · exact (exec_moves i hi).keeps ⟨htried, huninit, rfl, rfl, hs.waits⟩ fun _ _ _ _ m => m.afterFailedInit
  exact ⟨ht.tried, ht.uninitialized, ht.pt, ht.banks, ht.waits⟩

end Sys2Proof.Machine
end

section
/-! The tests before an operation touches anything (60_exceptions.md R161 to R164, R171: O22, O23, O25), and the first half of R162
(O24). -/

namespace Sys2Proof.Machine

/-! ### Raising an error -/

/-- Settles O22: a raise writes the counters and the outcome. -/
theorem raiseLeavesTheRest : Obligations.RaiseLeavesTheRest := fun _ _ _ =>
  ⟨fun _ _ => rfl, rfl, ⟨rfl, rfl, rfl, rfl, rfl, rfl⟩, rfl, rfl, ⟨rfl, rfl, rfl, rfl, rfl⟩, ⟨rfl, rfl⟩, ⟨rfl, rfl, rfl⟩,
    ⟨rfl, rfl, rfl, rfl, rfl, rfl, rfl, rfl⟩, rfl⟩

/-! ### PinCheck comes first -/

theorem pinCheck_uninitialized {s : State} (pin : PinId) (hi : s.initialized = false) :
    pinCheck pin s = .err .notInitialized (some pin) s := by
  simp [pinCheck, hi]

theorem pinCheck_unregistered {s : State} {pin : PinId} (hi : s.initialized = true) (hd : s.cfg.find pin = none) :
    pinCheck pin s = .err .pinNotRegistered (some pin) s := by
  simp [pinCheck, hi, hd]

/-- PINCLOSE makes the tests of `PinCheck`, and does not open the pin (40_pin_layer.md R89). -/
theorem execPinclose_begins (pin : PinId) (s : State) :
    execPinclose pin s = finishUnit ((pinCheck pin s).bind fun _ _ => .ok () (s.closePin pin)) := by
  unfold execPinclose pinCheck
  split
  · cases s.cfg.find pin <;> rfl
  · rfl

/-- Every pin operation begins with the tests of `PinCheck` on its pin. -/
theorem exec_begins_with_pinCheck {i : Instr} {pin : PinId} (s : State) (hp : i.pinOperand = some pin) :
    ∃ rest : PinDescriptor → State → Res Value, exec i s = finish ((pinCheck pin s).bind rest) := by
  have hunit : ∀ rest : PinDescriptor → State → Res Unit, ∃ rest' : PinDescriptor → State → Res Value,
      finishUnit ((pinCheck pin s).bind rest) = finish ((pinCheck pin s).bind rest') :=
    fun rest => ⟨_, by rw [finishUnit, Res.bind_assoc]⟩
  cases i with
  | pindir | pinwr | pinpull | pinwatch => cases hp; exact hunit _
  | pinrd => cases hp; exact ⟨_, by rw [exec, execPinrd, pinRead, Res.bind_assoc]⟩
  | pintpulse => cases hp; exact ⟨_, rfl⟩
  | pinclose => cases hp; rw [exec, execPinclose_begins]; exact hunit _
  | _ => cases hp

/-- What fails in `PinCheck` ends the operation. -/
theorem exec_of_pinCheck_err {i : Instr} {pin : PinId} {s t : State} {e : ErrorKind} {info : Option PinId}
    (hp : i.pinOperand = some pin) (h : pinCheck pin s = .err e info t) : exec i s = .next (t.raise e info) := by
  obtain ⟨rest, hexec⟩ := exec_begins_with_pinCheck s hp
  rw [hexec, h, Res.bind_err, finish_err]

/-- An operation that names no pin is SYSINIT, DELAY, or a sequencer operation. -/
theorem roles_of_pinOperand_none {i : Instr} (c : Config) (hp : i.pinOperand = none) (hsys : i ≠ .sysinit)
    (hdelay : ∀ n, i ≠ .delay n) : ∃ outs ins, i.roles c = some (outs, ins) := by
  cases i with
  | sysinit => exact absurd rfl hsys
  | delay n => exact absurd rfl (hdelay n)
  | pindir | pinwr | pinrd | pinpull | pintpulse | pinclose | pinwatch => cases hp
  | _ => exact ⟨_, _, rfl⟩

/-- Settles O23: a pin operation fails in `PinCheck`, a sequencer operation in `SeqCheck` (`sequencerChecksRoles`). -/
theorem uninitializedTouchesNothing : Obligations.UninitializedTouchesNothing := by
  intro i s hi hsys hdelay hpermits
  cases hp : i.pinOperand with
  | some pin => exact exec_of_pinCheck_err hp (pinCheck_uninitialized pin hi)
  | none =>
    obtain ⟨outs, ins, hroles⟩ := roles_of_pinOperand_none s.cfg hp hsys hdelay
    exact (sequencerChecksRoles i s outs ins hpermits hroles).1 hi

/-! ### Read-only registers -/

/-- Settles O25: after `PinCheck` each of the three tests its own bit of `P_WRITABLE` first. -/
theorem readOnlyRegisterRaises : Obligations.ReadOnlyRegisterRaises := by
  intro s pin hi hd
  obtain ⟨d, hd⟩ := Option.isSome_iff_exists.mp hd
  have hcheck := pinCheck_ok hi hd
  refine ⟨fun hw dir => ?_, fun hw v => ?_, fun hw m => ?_⟩
  · simp [exec, execPindir, hcheck, hw]
  · simp [exec, execPinwr, pinWrite, hcheck, hw]
  · simp [exec, execPinpull, hcheck, hw]

end Sys2Proof.Machine
end

section
/-! How an operation stops short of `Ok`: with which errors, and where it is refused (60_exceptions.md R162, R172).
`Res.Halts E R Q` says so; a part that halts so for every `R` is not refused. A pin operation is refused where it has opened its
pin. A sequencer operation is refused before its first event, or not at all, and its role pins are registered where the configuration is
well-formed. With that, O20 and O24. -/

namespace Sys2Proof.Machine

/-! ### Where an operation stops -/

/-- An error is one of `E`; where the operation is refused `R` holds, where it goes on `Q`. -/
def Res.Halts {α : Type} (E : ErrorKind → Prop) (R Q : State → Prop) : Res α → Prop
  | .ok _ t => Q t
  | .err e _ _ => E e
  | .refused _ t => R t
  | .stuck _ => True

/-- The same of an operation as a whole. -/
def ExecHalts (E : ErrorKind → Prop) (R : State → Prop) (o : Host.Outcome State Fault Refusal) : Prop :=
  ∃ r : Res Value, o = finish r ∧ r.Halts E R fun _ => True

section
variable {α β : Type} {E F : ErrorKind → Prop} {R S P Q : State → Prop}

theorem Res.Halts.bind {r : Res α} {f : α → State → Res β} (h : r.Halts E R P)
    (g : ∀ a t, P t → (f a t).Halts E R Q) : (r.bind f).Halts E R Q := by
  cases r with
  | ok a t => exact g a t h
  | err => exact h
  | refused => exact h
  | stuck => trivial

theorem Res.Halts.mono {r : Res α} (h : r.Halts E R P) (hE : ∀ e, E e → F e) (hR : ∀ t, R t → S t) (hQ : ∀ t, P t → Q t) :
    r.Halts F S Q := by
  cases r with
  | ok a t => exact hQ t h
  | err e => exact hE e h
  | refused w t => exact hR t h
  | stuck => trivial

theorem Res.Halts.finish {r : Res α} (h : r.Halts E R Q) (g : α → Value) :
    ExecHalts E R (finish (r.bind fun a t => .ok (g a) t)) := ⟨_, rfl, h.bind fun _ _ _ => trivial⟩

theorem Res.Halts.finishUnit {r : Res Unit} (h : r.Halts E R Q) : ExecHalts E R (finishUnit r) := h.finish _

theorem ExecHalts.refused {o : Host.Outcome State Fault Refusal} {why : RefusalReason} {t : State} (h : ExecHalts E R o)
    (ho : o = .refused (.operation why t)) : ∃ u, R u ∧ t = u.refuse := by
  obtain ⟨r, rfl, hr⟩ := h
  cases r with
  | refused w u => cases ho; exact ⟨u, hr, rfl⟩
  | _ => cases ho

theorem ExecHalts.raised {o : Host.Outcome State Fault Refusal} {t : State} {e : ErrorKind} {info : Option PinId}
    (h : ExecHalts E R o) (ho : o = .next t) (ht : t.outcome = some (.err e info)) : E e := by
  obtain ⟨r, rfl, hr⟩ := h
  cases r with
  | ok => cases ho; cases ht
  | err => cases ho; cases ht; exact hr
  | _ => cases ho

end

/-! ### The shared operations of the pin layer -/

/-- What an operation on one pin can raise: `PinNotRegistered` only where the pin is not in the map. -/
def PinError (c : Config) (pin : PinId) (e : ErrorKind) : Prop := e = .pinNotRegistered → c.find pin = none

/-- The configuration and the directions are those of `s`. -/
def SameRoles (s t : State) : Prop := t.cfg = s.cfg ∧ ∀ id, (t.pin id).dir = (s.pin id).dir

theorem Moves.sameRoles {K : List Kind} {s t : State} (h : Moves K s t) (hK : Kind.directed ∉ K) : SameRoles s t :=
  ⟨h.frame.cfg, (h.frame.directions hK).1⟩

/-- An operation that reaches its states without changing a direction. -/
theorem Res.Halts.sameRoles {α : Type} {E : ErrorKind → Prop} {R Q : State → Prop} {K : List Kind} {s : State} {r : Res α}
    (h : r.Halts E R Q) (hr : r.Reach K s) (hK : Kind.directed ∉ K) : r.Halts E R (SameRoles s) := by
  cases r with
  | ok a t => exact Moves.sameRoles hr hK
  | err => exact h
  | refused => exact h
  | stuck => trivial

section
variable {E : ErrorKind → Prop} {R : State → Prop}

theorem pinCheck_halts (pin : PinId) (s : State) :
    (pinCheck pin s).Halts (PinError s.cfg pin) R (· = s.openPin pin) := by
  cases hi : s.initialized with
  | false => rw [pinCheck_uninitialized pin hi]; exact nofun
  | true =>
    cases hd : s.cfg.find pin with
    | none => rw [pinCheck_unregistered hi hd]; exact fun _ => hd
    | some d => rw [pinCheck_ok hi hd]; rfl

theorem writeLine_halts (d : PinDescriptor) (v : Level) (s : State) : (writeLine d v s).Halts E R fun _ => True := by
  rcases writeLine_cases d v s with ⟨-, t, ht, -⟩ | ht <;> rw [ht] <;> trivial

/-- `PinWrite` is refused on a pin that is no output, with the pin open (40_pin_layer.md R84). -/
theorem pinWrite_halts (pin : PinId) (v : Level) (s : State) :
    (pinWrite pin v s).Halts (PinError s.cfg pin) (fun u => (s.pin pin).dir ≠ .output ∧ u = s.openPin pin) (SameRoles s) := by
  refine Res.Halts.sameRoles (Q := fun _ => True) ?_ (pinWrite_reach pin v s) (by simp)
  refine (pinCheck_halts pin s).bind fun d t ht => ?_
  subst ht
  split
  · split
    · exact (writeLine_halts d v _).bind fun _ _ _ => trivial
    · next hdir => exact ⟨by rwa [State.dir_openPin] at hdir, rfl⟩
  · exact nofun

/-- `PinRead` is not refused (40_pin_layer.md R85). -/
theorem pinRead_halts (pin : PinId) (s : State) : (pinRead pin s).Halts (PinError s.cfg pin) R (SameRoles s) := by
  refine Res.Halts.sameRoles (Q := fun _ => True) ?_ (pinRead_reach pin s) (by simp)
  exact (pinCheck_halts pin s).bind fun _ _ _ => trivial

theorem setDirection_halts (d : PinDescriptor) (dir : IoDir) (s : State) :
    (setDirection d dir s).Halts E R fun _ => True := by
  rcases setDirection_cases d dir s with ⟨-, t, ht, -⟩ | ⟨-, ht⟩ <;> rw [ht] <;> trivial

theorem pullSequence_halts (d : PinDescriptor) (m : PullMode) (s : State) :
    (pullSequence d m s).Halts E R fun _ => True := by
  rcases pullSequence_cases d m s with ⟨-, t, ht, -⟩ | ⟨-, ht⟩ <;> rw [ht] <;> trivial

theorem pollUntil_halts (d : PinDescriptor) (x : Level) (s : State) : (pollUntil d x s).Halts E R fun _ => True := by
  unfold pollUntil
  split
  · split <;> trivial
  · split
    · trivial
    · split <;> trivial

end

/-! ### The pin operations -/

/-- The operations that can be refused after they have opened their pin (40_pin_layer.md R84, R87, R90). -/
def RefusableOpen (i : Instr) (pin : PinId) : Prop :=
  (∃ v, i = .pinwr pin v) ∨ (∃ m, i = .pinpull pin m) ∨ i = .pinwatch pin

theorem exec_pin_halts {i : Instr} {pin : PinId} (s : State) (hp : i.pinOperand = some pin) :
    ExecHalts (PinError s.cfg pin) (fun u => RefusableOpen i pin ∧ u = s.openPin pin) (exec i s) := by
  cases i with
  | pindir p dir =>
    cases hp
    refine Res.Halts.finishUnit (Q := fun _ => True) ((pinCheck_halts pin s).bind fun d t _ => ?_)
    split
    · exact setDirection_halts d dir t
    · exact nofun
  | pinwr p v =>
    cases hp
    exact ((pinWrite_halts pin v s).mono (fun _ he => he) (fun _ hu => ⟨.inl ⟨v, rfl⟩, hu.2⟩) fun _ ht => ht).finishUnit
  | pinrd p => cases hp; exact (pinRead_halts pin s).finish _
  | pinpull p m =>
    cases hp
    refine Res.Halts.finishUnit (Q := fun _ => True) ((pinCheck_halts pin s).bind fun d t ht => ?_)
    split
    · split
      · exact pullSequence_halts d m t
      · exact ⟨.inr (.inl ⟨m, rfl⟩), ht⟩
    · exact nofun
  | pintpulse p x =>
    cases hp
    refine ⟨_, rfl, (pinCheck_halts pin s).bind fun d t _ => ?_⟩
    refine (pollUntil_halts d (!x) t).bind fun _ t _ => ?_
    refine (pollUntil_halts d x t).bind fun _ t _ => ?_
    exact (pollUntil_halts d (!x) t).bind fun _ _ _ => trivial
  | pinclose p =>
    cases hp
    rw [exec, execPinclose_begins]
    exact Res.Halts.finishUnit (Q := fun _ => True) ((pinCheck_halts pin s).bind fun _ _ _ => trivial)
  | pinwatch p =>
    cases hp
    refine Res.Halts.finishUnit (Q := fun _ => True) ((pinCheck_halts pin s).bind fun _ t ht => ?_)
    split
    · exact ⟨.inr (.inr rfl), ht⟩
    · exact nofun
  | _ => cases hp

/-! ### Inside a sequencer operation -/

/-- What a sequencer operation can raise: no `PinNotRegistered` in a well-formed configuration. -/
def RoleError (c : Config) (e : ErrorKind) : Prop := e = .pinNotRegistered → ¬ c.wellFormed = true

theorem PinError.roleError {c : Config} {pin : PinId} (hpin : pin ∈ c.rolePins) (e : ErrorKind) (h : PinError c pin e) :
    RoleError c e := by
  intro he hwf
  have hroles : c.rolesRegistered = true := by simp only [Config.wellFormed, Bool.and_eq_true] at hwf; tauto
  simpa [h he] using List.all_eq_true.mp hroles pin hpin

/-- The configuration is `c`, and the output roles `outs` of it are role pins whose direction is `Out`. -/
def State.Inside (c : Config) (outs : Config → List PinId) (s : State) : Prop :=
  s.cfg = c ∧ ∀ p ∈ outs s.cfg, p ∈ s.cfg.rolePins ∧ (s.pin p).dir = .output

section
variable {c : Config} {outs : Config → List PinId} {R : State → Prop} {s : State}

theorem SameRoles.inside {t : State} (h : SameRoles s t) (hs : s.Inside c outs) : t.Inside c outs :=
  ⟨h.1.trans hs.1, fun p hp => by rw [h.1] at hp ⊢; rw [h.2]; exact hs.2 p hp⟩

/-- A write to an output role is not refused. -/
theorem roleWrite_halts (hs : s.Inside c outs) {pin : PinId} (hpin : pin ∈ outs s.cfg) (v : Level) :
    (pinWrite pin v s).Halts (RoleError c) R (State.Inside c outs) := by
  obtain ⟨rfl, houts⟩ := id hs
  obtain ⟨hrole, hdir⟩ := houts pin hpin
  exact (pinWrite_halts pin v s).mono (PinError.roleError hrole) (fun _ hu => absurd hdir hu.1) fun _ ht => ht.inside hs

/-- A sample of an input role. -/
theorem roleRead_halts (hs : s.Inside c outs) {pin : PinId} (hpin : pin ∈ s.cfg.rolePins) :
    (pinRead pin s).Halts (RoleError c) R (State.Inside c outs) := by
  obtain ⟨rfl, -⟩ := id hs
  exact (pinRead_halts pin s).mono (PinError.roleError hpin) (fun _ hu => hu) fun _ ht => ht.inside hs

/-- `SeqCheck` refuses the state it finds, and goes on only where the outputs are outputs (40_pin_layer.md R92). -/
theorem seqCheck_halts (hroles : ∀ p ∈ outs s.cfg, p ∈ s.cfg.rolePins) (ins : List PinId) :
    (seqCheck (outs s.cfg) ins s).Halts (RoleError s.cfg) (· = s) (State.Inside s.cfg outs) := by
  unfold seqCheck
  split
  · split
    · next hdirs =>
      simp only [Bool.and_eq_true, List.all_eq_true, beq_iff_eq] at hdirs
      exact ⟨rfl, fun p hp => ⟨hroles p hp, hdirs.1 p hp⟩⟩
    · rfl
  · exact nofun

end

/-! ### The parallel write sequencer -/

section
variable {c : Config} {outs : Config → List PinId} {R : State → Prop} {s : State}

theorem Config.cs_mem_busOuts (c : Config) : c.bus.cs ∈ c.busOuts := (Config.mem_busOuts c).1
theorem Config.wr_mem_busOuts (c : Config) : c.bus.wr ∈ c.busOuts := (Config.mem_busOuts c).2.1
theorem Config.rs_mem_busOuts (c : Config) : c.bus.rs ∈ c.busOuts := (Config.mem_busOuts c).2.2.1

theorem pinWrites_halts (l : List (PinId × Level)) (hs : s.Inside c outs) (hl : ∀ e ∈ l, e.1 ∈ outs c) :
    (pinWrites l s).Halts (RoleError c) R (State.Inside c outs) := by
  induction l generalizing s with
  | nil => exact hs
  | cons e l ih =>
    refine (roleWrite_halts hs (by rw [hs.1]; exact hl e (by simp)) e.2).bind fun _ t ht => ?_
    exact ih ht fun f hf => hl f (by simp [hf])

theorem driveData_halts (hs : s.Inside c Config.busOuts) (b : Byte) :
    (driveData b s).Halts (RoleError c) R (State.Inside c Config.busOuts) := by
  obtain ⟨rfl, -⟩ := id hs
  obtain ⟨-, -, -, hdb, -⟩ := Config.mem_busOuts s.cfg
  exact pinWrites_halts _ hs fun e he => hdb _ (List.of_mem_zip he).1

theorem wrPulse_halts (hs : s.Inside c Config.busOuts) :
    (wrPulse s).Halts (RoleError c) R (State.Inside c Config.busOuts) := by
  refine (roleWrite_halts hs (Config.wr_mem_busOuts _) false).bind fun _ t ht => ?_
  exact (roleWrite_halts (s := t.delayed t.cfg.tWrLow) ht (Config.wr_mem_busOuts _) true).bind fun _ _ hu => hu

theorem xferBytes_halts (l : List Byte) (j : Nat) (hs : s.Inside c Config.busOuts) :
    (xferBytes j l s).Halts (RoleError c) R (State.Inside c Config.busOuts) := by
  induction l generalizing j s with
  | nil => exact hs
  | cons b l ih =>
    refine (driveData_halts (s := { s with pbyte := BitVec.ofNat 1 j, pstep := .four }) hs b).bind fun _ t ht => ?_
    exact (wrPulse_halts (s := { t with pstep := .five }) ht).bind fun _ _ hu => ih (j + 1) hu

theorem deassertRead_halts (hs : s.Inside c Config.busOuts) :
    (deassertRead s).Halts (RoleError c) R (State.Inside c Config.busOuts) := by
  obtain ⟨-, -, -, -, hmem⟩ := Config.mem_busOuts s.cfg
  unfold deassertRead
  split
  · next hrd => exact roleWrite_halts hs (hmem hrd) true
  · exact hs

/-- A transaction is refused by `SeqCheck` alone (41_parallel_bus.md R100). -/
theorem busXfer_halts (rs : Level) (l : List Byte) (s : State) :
    (busXfer rs l s).Halts (RoleError s.cfg) (· = s) (State.Inside s.cfg Config.busOuts) := by
  refine (seqCheck_halts (fun p hp => by simp [Config.rolePins, hp]) []).bind fun _ t ht => ?_
  refine (roleWrite_halts (s := { t with pstep := .one }) ht (Config.cs_mem_busOuts _) false).bind fun _ t ht => ?_
  refine (deassertRead_halts (s := { t with pstep := .two }) ht).bind fun _ t ht => ?_
  refine (roleWrite_halts (s := { t with pstep := .three }) ht (Config.rs_mem_busOuts _) rs).bind fun _ t ht => ?_
  refine (xferBytes_halts l 0 ht).bind fun _ t ht => ?_
  exact (roleWrite_halts (s := { t with pstep := .six }) ht (Config.cs_mem_busOuts _) true).bind fun _ _ hu => hu

/-- RSTPULSE without an RST line is refused first of all (41_parallel_bus.md R104, 30_encoding.md R66 (e)). -/
theorem execRstpulse_halts (s : State) : ExecHalts (RoleError s.cfg) (· = s) (execRstpulse s) := by
  refine Res.Halts.finishUnit (Q := fun _ => True) ?_
  split
  · next hrst =>
    refine (seqCheck_halts (outs := fun c => [c.bus.rst]) (by simp [Config.rolePins, hrst]) []).bind fun _ t ht => ?_
    refine (roleWrite_halts ht (by simp) false).bind fun _ t ht => ?_
    exact (roleWrite_halts (s := t.delayed t.cfg.tRstLow) (outs := fun c => [c.bus.rst]) ht (by simp) true).bind
      fun _ _ _ => trivial
  · rfl

/-! ### The serial shifter, the filter and the resolver -/

theorem Config.clk_mem_serialOuts (c : Config) : c.ser.clk ∈ c.serialOuts := (Config.mem_serialOuts c).1
theorem Config.din_mem_serialOuts (c : Config) : c.ser.din ∈ c.serialOuts := (Config.mem_serialOuts c).2.1
theorem Config.tcs_mem_serialOuts (c : Config) : c.ser.tcs ∈ c.serialOuts := (Config.mem_serialOuts c).2.2

theorem Config.dout_mem_rolePins (c : Config) : c.ser.dout ∈ c.rolePins := by
  simp [Config.rolePins, Config.serialIns]

theorem serialCheck_halts (s : State) :
    (serialCheck s).Halts (RoleError s.cfg) (· = s) (State.Inside s.cfg Config.serialOuts) :=
  seqCheck_halts (fun p hp => by simp [Config.rolePins, hp]) _

theorem startFrame_halts (hs : s.Inside c Config.serialOuts) :
    (startFrame s).Halts (RoleError c) R (State.Inside c Config.serialOuts) := by
  refine (roleWrite_halts (s := { s with sstep := .start }) hs (Config.clk_mem_serialOuts _) false).bind fun _ t ht => ?_
  refine (roleWrite_halts ht (Config.tcs_mem_serialOuts _) true).bind fun _ t ht => ?_
  refine (roleWrite_halts ht (Config.din_mem_serialOuts _) true).bind fun _ t ht => ?_
  refine (roleWrite_halts ht (Config.clk_mem_serialOuts _) true).bind fun _ t ht => ?_
  exact (roleWrite_halts ht (Config.tcs_mem_serialOuts _) false).bind fun _ _ hu => hu

theorem shiftOutBits_halts (l : List Level) (j : Nat) (hs : s.Inside c Config.serialOuts) :
    (shiftOutBits j l s).Halts (RoleError c) R (State.Inside c Config.serialOuts) := by
  induction l generalizing j s with
  | nil => exact hs
  | cons v l ih =>
    refine (roleWrite_halts (s := { s with sbit := BitVec.ofNat 4 j }) hs (Config.clk_mem_serialOuts _) false).bind
      fun _ t ht => ?_
    refine (roleWrite_halts ht (Config.din_mem_serialOuts _) v).bind fun _ t ht => ?_
    exact (roleWrite_halts ht (Config.clk_mem_serialOuts _) true).bind fun _ _ hu => ih (j + 1) hu

theorem shiftOut_halts (b : Byte) (hs : s.Inside c Config.serialOuts) :
    (shiftOut b s).Halts (RoleError c) R (State.Inside c Config.serialOuts) :=
  (shiftOutBits_halts (s := { s with sstep := .out }) _ 0 hs).bind fun _ _ ht => ht

theorem shiftInBits_halts (n j : Nat) (hs : s.Inside c Config.serialOuts) :
    (shiftInBits j n s).Halts (RoleError c) R (State.Inside c Config.serialOuts) := by
  induction n generalizing j s with
  | zero => exact hs
  | succ n ih =>
    refine (roleWrite_halts (s := { s with sbit := BitVec.ofNat 4 j }) hs (Config.clk_mem_serialOuts _) false).bind
      fun _ t ht => ?_
    refine (roleWrite_halts ht (Config.clk_mem_serialOuts _) true).bind fun _ t ht => ?_
    refine (roleRead_halts ht (Config.dout_mem_rolePins _)).bind fun v u hu => ?_
    exact ih (s := { u with acc := shiftIn u.acc v }) (j + 1) hu

theorem shiftInto_halts (n : Nat) (hs : s.Inside c Config.serialOuts) :
    (shiftInto n s).Halts (RoleError c) R (State.Inside c Config.serialOuts) :=
  (shiftInBits_halts (s := { s with sstep := .input, acc := 0#12 }) n 0 hs).bind fun _ _ ht => ht

theorem readChannel_halts (b : Byte) (hs : s.Inside c Config.serialOuts) :
    (readChannel b s).Halts (RoleError c) R (State.Inside c Config.serialOuts) := by
  refine (startFrame_halts hs).bind fun _ t ht => ?_
  refine (shiftOut_halts b ht).bind fun _ t ht => ?_
  refine (shiftInto_halts (s := ({ t with sstep := .settle } : State).delayed t.cfg.tAdcSettle) _ ht).bind
    fun _ t ht => ?_
  exact (roleWrite_halts (s := { t with sstep := .deselect }) ht (Config.tcs_mem_serialOuts _) true).bind fun _ _ hu => hu

theorem fillSamples_halts (b : Byte) (n i : Nat) (hs : s.Inside c Config.serialOuts) :
    (fillSamples b i n s).Halts (RoleError c) R (State.Inside c Config.serialOuts) := by
  induction n generalizing i s with
  | zero => exact hs
  | succ n ih =>
    exact (readChannel_halts (s := { s with scnt := BitVec.ofNat 8 i }) b hs).bind fun v t ht =>
      ih (s := t.storeSample i v) (i + 1) ht

theorem filterChannel_halts (b : Byte) (hs : s.Inside c Config.serialOuts) :
    (filterChannel b s).Halts (RoleError c) R (State.Inside c Config.serialOuts) :=
  (fillSamples_halts b _ 0 hs).bind fun _ _ ht => ht

/-- FILT and RESOLVE with a small window are refused first of all (30_encoding.md R66 (f)). -/
theorem filterCheck_halts (s : State) :
    (filterCheck s).Halts (RoleError s.cfg) (· = s) (State.Inside s.cfg Config.serialOuts) := by
  unfold filterCheck
  split
  · rfl
  · exact serialCheck_halts s

theorem readPasses_halts (hs : s.Inside c Config.serialOuts) :
    (readPasses s).Halts (RoleError c) R (State.Inside c Config.serialOuts) := by
  refine (filterChannel_halts (s := { s with rpass := 0#2 }) _ hs).bind fun r t ht => ?_
  refine (filterChannel_halts (s := { t with x1 := r, rpass := 1#2 }) _ ht).bind fun r t ht => ?_
  refine (filterChannel_halts (s := { t with y1 := r, rpass := 2#2 }) _ ht).bind fun r t ht => ?_
  exact (filterChannel_halts (s := { t with x2 := r, rpass := 3#2 }) _ ht).bind fun _ _ hu => hu

theorem resolveValues_eq_error {y : Bool} {x1 y1 x2 y2 : Reading} {e : ErrorKind} (h : resolveValues y x1 y1 x2 y2 = .error e) :
    e = .unstableReading ∨ e = .outOfRange := by
  unfold resolveValues at h
  split at h
  · cases h; exact .inl rfl
  · split at h <;> cases h
    exact .inr rfl

theorem resolveReadings_halts (s : State) : (resolveReadings s).Halts (RoleError c) R fun _ => True := by
  unfold resolveReadings
  split
  · trivial
  · next e he => rcases resolveValues_eq_error he with rfl | rfl <;> exact nofun

end

/-! ### Every operation that names no pin -/

theorem execSysinit_halts {R : State → Prop} (s : State) : ExecHalts (RoleError s.cfg) R (execSysinit s) := by
  unfold execSysinit
  split
  · split
    · exact ⟨.ok .nothing s, rfl, trivial⟩
    · exact ⟨.err .mmapFailed none s, rfl, nofun⟩
  · split
    · exact ⟨.ok .nothing s.markTried.markInitialized, rfl, trivial⟩
    · exact ⟨.err .mmapFailed none s.markTried, rfl, nofun⟩

theorem exec_role_halts {i : Instr} (s : State) (hp : i.pinOperand = none) :
    ExecHalts (RoleError s.cfg) (· = s) (exec i s) := by
  cases i with
  | sysinit => exact execSysinit_halts s
  | delay n => exact ⟨.ok .nothing (s.delayed (microseconds n)), rfl, trivial⟩
  | wrcmd | wrdat8 | wrdat16 => exact (busXfer_halts _ _ s).finishUnit
  | rstpulse => exact execRstpulse_halts s
  | sstart => exact ((serialCheck_halts s).bind fun _ _ ht => startFrame_halts ht).finishUnit
  | shout b => exact ((serialCheck_halts s).bind fun _ _ ht => shiftOut_halts b ht).finishUnit
  | shin n =>
    refine ⟨_, rfl, ?_⟩
    split
    · refine (serialCheck_halts s).bind fun _ t ht => ?_
      exact (shiftInto_halts n ht).bind fun _ _ _ => trivial
    · rfl
  | rdch b =>
    refine ⟨_, rfl, (serialCheck_halts s).bind fun _ t ht => ?_⟩
    exact (readChannel_halts b ht).bind fun _ _ _ => trivial
  | filt b =>
    refine ⟨_, rfl, (filterCheck_halts s).bind fun _ t ht => ?_⟩
    exact (filterChannel_halts b ht).bind fun _ _ _ => trivial
  | resolve =>
    refine ⟨_, rfl, (filterCheck_halts s).bind fun _ t ht => ?_⟩
    exact (readPasses_halts ht).bind fun _ u _ => resolveReadings_halts u
  | _ => cases hp

/-! ### Refusals and `PinNotRegistered` -/

/-- Settles O20: a pin operation is refused at its opened pin (`exec_pin_halts`), any other at the state it found
(`exec_role_halts`). -/
theorem refusalLeavesState : Obligations.RefusalLeavesState := by
  intro i s t why h
  cases hp : i.pinOperand with
  | none =>
    obtain ⟨u, rfl, rfl⟩ := (exec_role_halts s hp).refused h
    exact ⟨rfl, .inl rfl⟩
  | some pin =>
    obtain ⟨u, ⟨hopen, rfl⟩, rfl⟩ := (exec_pin_halts s hp).refused h
    refine ⟨by rw [State.openPin_eq]; rfl, .inr ⟨pin, rfl, hopen, fun id => ?_⟩⟩
    rw [State.pin_refuse, State.pin_openPin]
    split
    · next hid => rw [hid]
    · rfl

/-- Settles O24: `PinCheck` raises it for a pin outside the map, and the role pins of a well-formed configuration are in it. -/
theorem unregisteredPinRaises : Obligations.UnregisteredPinRaises :=
  ⟨fun _ _ _ hp hi hd => exec_of_pinCheck_err hp (pinCheck_unregistered hi hd),
    fun _ s _ _ hp hwf hexec houtcome => (exec_role_halts s hp).raised hexec houtcome rfl hwf⟩

end Sys2Proof.Machine
end

section
/-! RESOLVE on readings that do not resolve (43_filter_resolve.md R145, 60_exceptions.md R166, R167, R169: O58). -/

namespace Sys2Proof.Machine

/-- Settles O58: the four windows are read (`readPasses_ok`) before the resolver answers; its error is a raise, which leaves `COORD`
as the windows left it. -/
theorem resolveRejects : Obligations.ResolveRejects := by
  intro s h h3 _
  obtain ⟨t, lx, ly, mx, my, ht, hread, hcoord, -⟩ := readPasses_ok s h (by omega)
  have hexec : exec .resolve s = finish (resolveReadings t) := by rw [exec_resolve_of_ready h h3, ht, Res.bind_ok]
  cases hvalue : resolveValues s.cfg.yCheck (rankedMean lx) (rankedMean ly) (rankedMean mx) (rankedMean my) with
  | ok c =>
    refine ⟨({ t with coord := c } : State).succeed (.coord c), lx, ly, mx, my, ?_, hread.finished .., fun e he => ?_⟩
    · rw [hexec, resolveReadings_of_ok (hread.resolveValues_eq.trans hvalue), finish_ok]
    · cases hvalue.symm.trans he
  | error e =>
    refine ⟨t.raise e none, lx, ly, mx, my, ?_, hread.finished .., fun e' he => ?_⟩
    · rw [hexec, resolveReadings_of_error (hread.resolveValues_eq.trans hvalue), finish_err]
    · obtain rfl : e = e' := Except.error.inj (hvalue.symm.trans he)
      exact ⟨rfl, hcoord, ⟨rfl, rfl, rfl, rfl, rfl, rfl⟩⟩

end Sys2Proof.Machine
end

section
/-! PINPULL on a shared-latch platform (40_pin_layer.md R87: O34). -/

namespace Sys2Proof.Machine

/-! ### Tables changed around a delay -/

/-- Tables changed before a delay or after it, the delay is the same where the clock and the draws are. -/
theorem TablesOnly.delayed {s t : State} (h : TablesOnly s t) (n : Nat) : TablesOnly (s.delayed n) (t.delayed n) := by
  unfold TablesOnly at *
  rw [h]; rfl

/-- Where only the tables and the record of accesses change around one delay, an operation that ends `Ok` made that delay its one
event and left every register beside the tables. -/
theorem TablesOnly.succeed_delayed_frame {s t : State} {n : Nat} (h : TablesOnly (s.delayed n) t) (v : Value) :
    (t.succeed v).trace = s.trace ++ [.d n] ∧ s.now + n ≤ (t.succeed v).now ∧ (t.succeed v).levels = s.levels ∧
      SameFlags s (t.succeed v) ∧ SameInputs s (t.succeed v) ∧ SameWork s (t.succeed v) ∧ SameCounters s (t.succeed v) := by
  rw [h]
  exact ⟨rfl, Nat.le_add_right _ _, rfl, ⟨rfl, rfl⟩, ⟨rfl, rfl, rfl⟩, ⟨rfl, rfl, rfl, rfl, rfl, rfl, rfl, rfl⟩,
    ⟨rfl, rfl, rfl, rfl, rfl, rfl⟩⟩

/-! ### PINPULL -/

/-- On a bank with a free lock, the pull sequence leaves the lock free and changes the one pull and the pull registers alone. -/
theorem Bank.pulled_of_free {k : Bank} (h : k.lock = .free) (i : Nat) (m : Pull) :
    k.pulled i m = { k with pull := (k.pulled i m).pull, pudctl := 0#32, pudclk := 0#32 } := by
  rw [Bank.pulled, ← h]

/-- The pull sequence sets the pull of its pin, and no other pin's. -/
theorem Bank.pullAt_pulled (k : Bank) (i : Nat) (m : Pull) (j : Nat) :
    (k.pulled i m).pullAt j = if j = i then m else k.pullAt j :=
  Table.get_set _ _ _ _ _

/-- PINPULL on a registered pin with a writable pull and a free lock, on a shared-latch platform, opens the pin and goes through the
locked pull sequence. -/
theorem execPinpull_next {s : State} {pin : PinId} {d : PinDescriptor} (m : PullMode) (hi : s.initialized = true)
    (hd : s.cfg.find pin = some d) (hw : (s.cfg.writableOf pin).pull = true) (hp : s.cfg.pullStyle = .sharedLatch)
    (hl : (s.bank d.bank).lock = .free) :
    ∃ t, exec (.pinpull pin m) s = .next (t.succeed .nothing) ∧ TablesOnly (s.delayed s.cfg.tPull) t ∧
      OpensOnly [pin] s t ∧
      (∀ b, t.bank b = if b = d.bank then (s.bank b).pulled d.bit (pullOf m) else s.bank b) ∧
      t.accesses = s.accesses ++
        [.acquire d.bank, .write d.bank .pudctl (Config.pullCode m), .write d.bank .pudclk (oneHot d.bit),
         .write d.bank .pudctl 0#32, .write d.bank .pudclk 0#32, .release d.bank] := by
  rcases pullSequence_cases d m (s.openPin pin) with ⟨_, t, ht, hr, ha⟩ | ⟨hheld, _⟩
  · have hrest : TablesOnly ((s.openPin pin).delayed s.cfg.tPull) t := by
      rw [← State.openPin_cfg s pin]; exact hr.rest
    refine ⟨t, ?_, ((TablesOnly.openPin s pin).delayed _).trans hrest, fun id => ?_, fun b => ?_, ?_⟩
    · show execPinpull pin m s = _
      simp [execPinpull, pinCheck_ok hi hd, hw, hp, ht]
    · simp only [hr.pin, State.pin_openPin, List.mem_singleton]
      split
      · next hid => rw [hid]
      · rfl
    · rw [hr.bank, State.bank_openPin, State.bank_openPin]
      split
      · next hb => rw [hb]
      · rfl
    · rw [ha, State.openPin_eq]
  · rw [State.bank_openPin, hl] at hheld; cases hheld

/-- Settles O34: the state of `execPinpull_next`, read at each field; the delay under the lock is the one event. -/
theorem pinpullRuns : Obligations.PinpullRuns := by
  intro s pin d m hi hd hw hp hl
  obtain ⟨t, ht, hrest, hopens, hbank, haccesses⟩ := execPinpull_next m hi hd hw hp hl
  obtain ⟨htrace, hnow, hlevels, hflags, hinputs, hwork, hcounters⟩ := hrest.succeed_delayed_frame .nothing
  have hpulled : t.bank d.bank = (s.bank d.bank).pulled d.bit (pullOf m) := by rw [hbank, if_pos rfl]
  refine ⟨t.succeed .nothing, ht, rfl, htrace, hnow, hlevels, hopens, fun b => ?_, fun k => ?_, hflags, hinputs, hwork,
    hcounters, haccesses⟩
  · rw [State.bank_succeed]
    by_cases hb : b = d.bank
    · subst hb
      rw [if_pos rfl, hpulled]
      exact Bank.pulled_of_free hl _ _
    · rw [if_neg hb, hbank, if_neg hb]
  · rw [State.bank_succeed, hpulled, Bank.pullAt_pulled]

end Sys2Proof.Machine
end
